-- ==== Sys2Proof/Word.lean ====
section
/-! DEFINITION. The word types of the block: bytes, and the 16- and 32-bit values of registers and headers (rules R9,
R27). -/

namespace Sys2Proof

/-- Eight bits, "Sizes are in bytes of 8 bits" (R9). -/
abbrev Byte := BitVec 8

/-- A 16-bit unsigned value: `CAPR`, `IMR`, `ISR`, an EEPROM word, a record header field. -/
abbrev Half := BitVec 16

/-- A 32-bit unsigned value: `TSD`, `TSAD`, `RBSTART`, `TCR`, a bus address. -/
abbrev Word := BitVec 32

/-- An EEPROM word address: `EE_ADDR_BITS` bits, 6 at the reference value (R84, R86), in a 16-bit value. -/
abbrev EeAddr := BitVec 16

end Sys2Proof
end

