-- ==== Sys2Proof/Config.lean ====
section
/-! DEFINITION. What is fixed for one machine: the configuration record `Values` of R7's quantities that the source
gives or the spec decides (and every offset, width and bit of R31 to R42), the OPEN parameters `Params`, and the free
values (constants without a body, R10 `draw`).  State carries both records and every definition of the machine that
needs a value takes it as an argument; `reference` has the reference values. -/

namespace Sys2Proof.Config

/-! ## The length of one step -/

/-- How many labelled steps one call of `step` runs before it hands back an operation that has not returned
(a `drain` has no bound of its own, R164).  The operation is not stopped: its control location stays in State
and the next steps go on from it.  DESIGN CHOICE, log entry 3; safe. -/
def stepBudget : Nat := 16384

/-! ## The configuration record: every value the source gives or the spec decides (R7, R31 to R42) -/

/-- Where a register stands in the window: offset of its first byte, width in bytes (R31). -/
structure Span where
  off : Nat
  width : Nat
  deriving DecidableEq, Repr

/-- The parameters of R7 that are not OPEN and the register layout: "A model takes them as a configuration record with
these reference values" (R31, U21, D6 to D11, D48).  Every mask but `tsdSize`, `tsdThresh` and `tcrLbk` is one bit. -/
structure Values where
  /-- `N_TX`: "four transmit status/address register pairs ... one per slot" (D12). -/
  nTx : Nat
  /-- `MAX_FRAME_SIZE`, bytes per transmit slot (D13). -/
  maxFrameSize : Nat
  /-- `FCS_LEN`, length of the trailing checksum (D14). -/
  fcsLen : Nat
  /-- `MIN_ETH_LEN`, minimum Ethernet length without checksum (D14). -/
  minEthLen : Nat
  /-- `ETH_HDR_LEN`, used for the MTU bound only (D14). -/
  ethHdrLen : Nat
  /-- `RX_BUF_LEN`, bytes of the circular receive buffer without the pad (D16). -/
  rxBufLen : Nat
  /-- `RX_GUARD_PAD` (D16). -/
  rxGuardPad : Nat
  /-- `RX_HDR_LEN`: "4-byte record header". -/
  rxHdrLen : Nat
  /-- `RX_READ_PAD`, subtracted before the commit (D17). -/
  rxReadPad : Nat
  /-- `RESET_POLL_MAX`. -/
  resetPollMax : Nat
  /-- `EE_ADDR_BITS`: "address: 6-bit". -/
  eeAddrBits : Nat
  /-- `EE_CMD_BITS`: "9-bit command". -/
  eeCmdBits : Nat
  /-- `EE_DATA_BITS`: "16 response bits". -/
  eeDataBits : Nat
  /-- `EE_READ_OPCODE` (D24). -/
  eeReadOpcode : BitVec 3
  /-- `EE_HWADDR_BASE` (D25). -/
  eeHwAddrBase : Nat
  /-- `EE_HWADDR_WORDS`: "three consecutive words". -/
  eeHwAddrWords : Nat
  /-- `REG_WINDOW`, size of the register window in bytes (D5); an offset has 8 bits whatever it is (log entry 26). -/
  regWindow : Nat
  /-- `IDR0`; the other five follow it. -/
  idr : Span
  /-- `TSD[0]`. -/
  tsd : Span
  /-- `TSAD[0]`. -/
  tsad : Span
  /-- The "fixed stride" of the transmit register pairs (R33). -/
  pairStride : Nat
  rbstart : Span
  cr : Span
  capr : Span
  imr : Span
  isr : Span
  tcr : Span
  eecr : Span
  msr : Span
  tsdSize : Word
  tsdOwn : Word
  tsdTun : Word
  tsdTok : Word
  tsdThresh : Word
  tsdTabt : Word
  crBufe : Byte
  crTe : Byte
  crRe : Byte
  crRst : Byte
  isrRok : Half
  isrRer : Half
  isrTok : Half
  isrTer : Half
  isrLnk : Half
  tcrLbk : Word
  eeDo : Byte
  eeDi : Byte
  eeSk : Byte
  eeCs : Byte
  eeProg : Byte
  eeNormal : Byte
  msrLinkb : Byte
  deriving DecidableEq, Repr

/-- The reference values of R7 and R31 to R42. -/
def reference : Values where
  nTx := 4
  maxFrameSize := 1536
  fcsLen := 4
  minEthLen := 60
  ethHdrLen := 14
  rxBufLen := 8192
  rxGuardPad := 16
  rxHdrLen := 4
  rxReadPad := 16
  resetPollMax := 1000
  eeAddrBits := 6
  eeCmdBits := 9
  eeDataBits := 16
  eeReadOpcode := 0b110#3
  eeHwAddrBase := 7
  eeHwAddrWords := 3
  regWindow := 0x100
  idr := ⟨0x00, 1⟩
  tsd := ⟨0x10, 4⟩
  tsad := ⟨0x20, 4⟩
  pairStride := 4
  rbstart := ⟨0x30, 4⟩
  cr := ⟨0x37, 1⟩
  capr := ⟨0x38, 2⟩
  imr := ⟨0x3C, 2⟩
  isr := ⟨0x3E, 2⟩
  tcr := ⟨0x40, 4⟩
  eecr := ⟨0x50, 1⟩
  msr := ⟨0x58, 1⟩
  tsdSize := 0x00001FFF#32
  tsdOwn := 0x00002000#32
  tsdTun := 0x00004000#32
  tsdTok := 0x00008000#32
  tsdThresh := 0x003F0000#32
  tsdTabt := 0x40000000#32
  crBufe := 0x01#8
  crTe := 0x04#8
  crRe := 0x08#8
  crRst := 0x10#8
  isrRok := 0x0001#16
  isrRer := 0x0002#16
  isrTok := 0x0004#16
  isrTer := 0x0008#16
  isrLnk := 0x0020#16
  tcrLbk := 0x00060000#32
  eeDo := 0x01#8
  eeDi := 0x02#8
  eeSk := 0x04#8
  eeCs := 0x08#8
  eeProg := 0x80#8
  eeNormal := 0x00#8
  msrLinkb := 0x04#8

/-! ## What follows from the record -/

namespace Values

/-- `MTU_BOUND = MAX_FRAME_SIZE - ETH_HDR_LEN - FCS_LEN` (R8): exported to the host, read by no rule
(log entry 28). -/
def mtuBound (K : Values) : Nat := K.maxFrameSize - K.ethHdrLen - K.fcsLen

/-- Bytes of `txbuf` (R28). -/
def txBufBytes (K : Values) : Nat := K.nTx * K.maxFrameSize

/-- Bytes of `rxbuf`, the guard pad included (R28). -/
def rxBufBytes (K : Values) : Nat := K.rxBufLen + K.rxGuardPad

/-- `TSD_TOK | TSD_TUN | TSD_TABT` (R81). -/
def tsdStatus (K : Values) : Word := K.tsdTok ||| K.tsdTun ||| K.tsdTabt

/-- `OWN` and the bits the source does not name: those of no other field of `TSD[i]` (R33, U8). -/
def tsdUnnamed (K : Values) : Word := ~~~(K.tsdSize ||| K.tsdThresh ||| K.tsdStatus)

/-- The bits of `CR` that are not named (R36, U8). -/
def crUnnamed (K : Values) : Byte := ~~~(K.crBufe ||| K.crTe ||| K.crRe ||| K.crRst)

/-- `ISR_RX_BITS` (R39). -/
def isrRxBits (K : Values) : Half := K.isrRok ||| K.isrRer

/-- `ISR_TX_BITS` (R39). -/
def isrTxBits (K : Values) : Half := K.isrTok ||| K.isrTer

/-- `ISR_ALL` (R39): the five named sources. -/
def isrAll (K : Values) : Half := K.isrRxBits ||| K.isrTxBits ||| K.isrLnk

/-- The bits of `TCR` outside the one field used (U8). -/
def tcrUnnamed (K : Values) : Word := ~~~K.tcrLbk

/-- Bits 6:4 of `EECR` (R41, U8). -/
def eecrUnnamed (K : Values) : Byte := ~~~(K.eeDo ||| K.eeDi ||| K.eeSk ||| K.eeCs ||| K.eeProg)

/-- The bits of `MSR` that are not named (R42, U8). -/
def msrUnnamed (K : Values) : Byte := ~~~K.msrLinkb

end Values

/-- The registers of the window that the spec names (R31). -/
inductive Reg where
  | idr (k : Fin 6)
  | tsd (i : Nat)
  | tsad (i : Nat)
  | rbstart | cr | capr | imr | isr | tcr | eecr | msr
  deriving DecidableEq, Repr

/-- One row of R31's table. -/
structure RegRow where
  reg : Reg
  off : Nat
  width : Nat
  deriving DecidableEq, Repr

/-- The row of `IDR` byte `k`. -/
def Values.idrRow (K : Values) (k : Fin 6) : RegRow := ⟨.idr k, K.idr.off + k.val * K.idr.width, K.idr.width⟩

/-- R31's table for a record: name, offset, width in bytes, with one `TSD` and one `TSAD` for each of the `N_TX` slots.
Its rows are the registers of this spec; an offset in no row is none. -/
def Values.regMap (K : Values) : List RegRow :=
  [K.idrRow 0, K.idrRow 1, K.idrRow 2, K.idrRow 3, K.idrRow 4, K.idrRow 5] ++
  (List.range K.nTx).map (fun i => ⟨.tsd i, K.tsd.off + K.pairStride * i, K.tsd.width⟩) ++
  (List.range K.nTx).map (fun i => ⟨.tsad i, K.tsad.off + K.pairStride * i, K.tsad.width⟩) ++
  [⟨.rbstart, K.rbstart.off, K.rbstart.width⟩, ⟨.cr, K.cr.off, K.cr.width⟩, ⟨.capr, K.capr.off, K.capr.width⟩,
   ⟨.imr, K.imr.off, K.imr.width⟩, ⟨.isr, K.isr.off, K.isr.width⟩, ⟨.tcr, K.tcr.off, K.tcr.width⟩,
   ⟨.eecr, K.eecr.off, K.eecr.width⟩, ⟨.msr, K.msr.off, K.msr.width⟩]

/-- R7's constraints on the record, and what its fixed-width words ask: an address and a command in 16 bits, a header
that holds R82's two fields, a cell of 16 bits, a register offset in 8 bits; and that each loop makes a pass, for R7
gives its length no lower bound; and that no two registers share a byte, as they would with R31's offsets and an `N_TX`
above 4, which R7 allows.  No step checks them (DESIGN CHOICE, log entry 26). -/
abbrev Values.Ok (K : Values) : Prop :=
  (K.nTx.isPowerOfTwo ∧ K.maxFrameSize % 4 = 0 ∧ K.maxFrameSize ≤ 8191 ∧ K.minEthLen ≤ K.maxFrameSize - K.fcsLen) ∧
  (K.rxBufLen.isPowerOfTwo ∧ K.rxBufLen % 4 = 0 ∧ K.rxBufLen ≤ 65536 ∧ 4 ≤ K.rxHdrLen) ∧
  K.eeCmdBits = 3 + K.eeAddrBits ∧ K.eeCmdBits ≤ 16 ∧ K.eeDataBits ≤ 16 ∧
  K.eeHwAddrBase + K.eeHwAddrWords ≤ 2 ^ K.eeAddrBits ∧
  K.regWindow ≤ 256 ∧ 1 ≤ K.resetPollMax ∧ 1 ≤ K.eeDataBits ∧ 1 ≤ K.eeHwAddrWords ∧
  K.regMap.Pairwise (fun a b => a.off + a.width ≤ b.off ∨ b.off + b.width ≤ a.off)

/-! ## OPEN parameters (R7): arguments of the model, carried by State and never changed -/

/-- The parameters R7 marks OPEN.  `CFG_*` is the engine register `cfg` (R20). -/
structure Params where
  /-- `HOST_BE`: the host's value layout is big-endian. -/
  hostBE : Bool
  /-- `REG_BASE`: base of the register window. -/
  regBase : Word
  /-- `TX_DMA_BASE`: bus address of transmit slot 0. -/
  txDmaBase : Word
  /-- `RX_DMA_BASE`: bus address of the receive buffer. -/
  rxDmaBase : Word
  /-- `TX_THRESH_FLAGS`: OR'd into the submit command. -/
  txThreshFlags : Word
  /-- `IRQ_ENABLE_SET`: programmed at bring-up. -/
  irqEnableSet : Half
  /-- `EE_SETTLE_DELAY`: no semantic effect (R123). -/
  eeSettleDelay : Nat
  /-- `RESET_POLL_INTERVAL`: no semantic effect (R114). -/
  resetPollInterval : Nat
  deriving DecidableEq, Repr

/-- The constraints R7, R54, R59 and R150 put on the OPEN parameters: threshold bits inside 21:16, enabled set
inside the named sources, bases aligned, regions inside the 32-bit space and pairwise disjoint.  No step
checks it (log entry 26). -/
abbrev Params.Ok (K : Values) (p : Params) : Prop :=
  p.txThreshFlags &&& ~~~K.tsdThresh = 0 ∧
  p.irqEnableSet &&& ~~~K.isrAll = 0 ∧
  p.regBase.toNat % K.regWindow = 0 ∧
  p.txDmaBase.toNat % 4 = 0 ∧ p.rxDmaBase.toNat % 4 = 0 ∧
  p.txDmaBase.toNat + K.txBufBytes ≤ 2 ^ 32 ∧
  p.rxDmaBase.toNat + K.rxBufBytes ≤ 2 ^ 32 ∧
  (p.txDmaBase.toNat + K.txBufBytes ≤ p.rxDmaBase.toNat ∨ p.rxDmaBase.toNat + K.rxBufBytes ≤ p.txDmaBase.toNat) ∧
  (p.txDmaBase.toNat + K.txBufBytes ≤ p.regBase.toNat ∨ p.regBase.toNat + K.regWindow ≤ p.txDmaBase.toNat) ∧
  (p.rxDmaBase.toNat + K.rxBufBytes ≤ p.regBase.toNat ∨ p.regBase.toNat + K.regWindow ≤ p.rxDmaBase.toNat)

/-- The reference configuration of R7 and `95_test_vectors.md`.  `REG_BASE` and the two delays have no reference
value there: DESIGN CHOICE, log entry 2. -/
def Params.reference : Params where
  hostBE := false
  regBase := 0x00300000#32
  txDmaBase := 0x00100000#32
  rxDmaBase := 0x00200000#32
  txThreshFlags := 0x00080000#32
  irqEnableSet := 0x002F#16
  eeSettleDelay := 0
  resetPollInterval := 1

/-! ## Free values (R10 `draw`): no body, so no proof can see what they are -/

/-- The `n`-th value the specification does not determine (R10 `draw`). -/
opaque freeWord : Nat → Word

/-- What a byte of a DMA buffer holds from its `gen`-th acquisition until something writes it (U16). -/
opaque freeByte : Nat → Nat → Byte

/-- Factory contents of EEPROM cell `a` (R29: `draw`, fixed per address). -/
opaque eeFactory : Nat → Half

end Sys2Proof.Config
end

