-- ==== Sys2Proof/Syntax.lean ====
section
/-! DEFINITION. The operations of the block and the words it exchanges: one constructor per row of
`spec/opcode_table.json` (R75 to R92).  Operands travel beside the `OPSEL` selector (R76, R86). -/

namespace Sys2Proof

/-- One row of the operation and format table.  A register offset has the 8 bits of R86 at the reference value of
`REG_WINDOW`; R7 makes that a parameter, and the operand keeps 8 bits for every value of it, so an offset above 0xFF
in a larger window has no name here (DESIGN CHOICE, log entry 26). -/
inductive Instr where
  /-- `read8(off)`, OPSEL 0x00 (R101). -/
  | read8 (off : BitVec 8)
  /-- `read16(off)`, OPSEL 0x01 (R102). -/
  | read16 (off : BitVec 8)
  /-- `read32(off)`, OPSEL 0x02 (R103). -/
  | read32 (off : BitVec 8)
  /-- `write8(off, v)`, OPSEL 0x04 (R104). -/
  | write8 (off : BitVec 8) (v : Byte)
  /-- `write16(off, v)`, OPSEL 0x05 (R105). -/
  | write16 (off : BitVec 8) (v : Half)
  /-- `write32(off, v)`, OPSEL 0x06 (R106). -/
  | write32 (off : BitVec 8) (v : Word)
  /-- `writeRaw16(off, v)`, OPSEL 0x0D (R107). -/
  | writeRaw16 (off : BitVec 8) (v : Half)
  /-- `writeRaw32(off, v)`, OPSEL 0x0E (R108). -/
  | writeRaw32 (off : BitVec 8) (v : Word)
  /-- `reset()`, OPSEL 0x10 (R113). -/
  | reset
  /-- `readWord(address)`, OPSEL 0x20 (R120). -/
  | readWord (address : EeAddr)
  /-- `readHardwareAddress()`, OPSEL 0x21 (R129). -/
  | readHardwareAddress
  /-- `submit(frame)`, OPSEL 0x30 (R133). -/
  | submit (frame : List Byte)
  /-- `reconcile()`, OPSEL 0x31 (R142). -/
  | reconcile
  /-- `drain()`, OPSEL 0x40 (R156). -/
  | drain
  /-- `onInterrupt()`, OPSEL 0x50 (R170). -/
  | onInterrupt
  /-- `check()`, OPSEL 0x60 (R181). -/
  | check
  /-- `open()`, OPSEL 0x70 (R240). -/
  | openBlock
  /-- `close()`, OPSEL 0x71 (R243). -/
  | closeBlock
  /-- `TXCMD`, the submit command word, and the slot whose `TSD` it is written to (R79, R138). -/
  | txcmd (thresh : BitVec 6) (len : BitVec 13) (slot : Nat)
  /-- `TXSTAT` with none of `TOK`, `TUN`, `TABT` set (R81); `b31`, `mid` (29:16), `own`, `size` are ignored. -/
  | txstatInFlight (b31 : BitVec 1) (mid : BitVec 14) (own : BitVec 1) (size : BitVec 13)
  /-- `TXSTAT` with `TOK` set (R81). -/
  | txstatSuccess (b31 tabt : BitVec 1) (mid : BitVec 14) (tun own : BitVec 1) (size : BitVec 13)
  /-- `TXSTAT` with `TOK` clear and `TUN` or `TABT` set (R81). -/
  | txstatError (b31 abort : BitVec 1) (mid : BitVec 14) (underrun own : BitVec 1) (size : BitVec 13)
  /-- `RXHDR`, the record header (R82). -/
  | rxhdr (size status : Half)
  /-- `EECMD.READ`, the nine command bits (R84). -/
  | eecmdRead (address : EeAddr)
  deriving DecidableEq, Repr

/-- The five formats of R75: what kind of word an encoding is. -/
inductive Format where
  | opsel | txcmd | txstat | rxhdr | eecmd
  deriving DecidableEq, Repr

/-- The format of an instruction's row. -/
def Instr.format : Instr → Format
  | .read8 _ => .opsel
  | .read16 _ => .opsel
  | .read32 _ => .opsel
  | .write8 _ _ => .opsel
  | .write16 _ _ => .opsel
  | .write32 _ _ => .opsel
  | .writeRaw16 _ _ => .opsel
  | .writeRaw32 _ _ => .opsel
  | .reset => .opsel
  | .readWord _ => .opsel
  | .readHardwareAddress => .opsel
  | .submit _ => .opsel
  | .reconcile => .opsel
  | .drain => .opsel
  | .onInterrupt => .opsel
  | .check => .opsel
  | .openBlock => .opsel
  | .closeBlock => .opsel
  | .txcmd _ _ _ => .txcmd
  | .txstatInFlight _ _ _ _ => .txstat
  | .txstatSuccess _ _ _ _ _ _ => .txstat
  | .txstatError _ _ _ _ _ _ => .txstat
  | .rxhdr _ _ => .rxhdr
  | .eecmdRead _ => .eecmd

end Sys2Proof
end

