-- ==== Sys2Proof/WellFormed.lean ====
section
/-! DEFINITION. Which instructions are well-formed: the operand constraints R51, R86, R89, R90 and the opcode
table state.  What an ill-formed one does is its meaning's business (a refusal or a fault under its own name). -/

namespace Sys2Proof

/-- R51: "`off mod n = 0` and `off + n <= REG_WINDOW`", of an offset of 8 bits whatever `REG_WINDOW` is (DESIGN CHOICE,
log entry 26). -/
def accessOk (K : Config.Values) (off : BitVec 8) (n : Nat) : Bool :=
  off.toNat % n == 0 && decide (off.toNat + n ≤ K.regWindow)

/-- R86, R89: an EEPROM address has `EE_ADDR_BITS` bits. -/
def addressOk (K : Config.Values) (a : EeAddr) : Bool := decide (a.toNat < 2 ^ K.eeAddrBits)

/-- A slot there is: `[0, N_TX)` (R14, R33). -/
def slotOk (K : Config.Values) (i : Nat) : Bool := decide (i < K.nTx)

/-- The checks of an instruction's operands. -/
def Instr.wellFormed (K : Config.Values) : Instr → Bool
  | .read8 off => accessOk K off 1
  | .read16 off => accessOk K off 2
  | .read32 off => accessOk K off 4
  | .write8 off _ => accessOk K off 1
  | .write16 off _ => accessOk K off 2
  | .write32 off _ => accessOk K off 4
  | .writeRaw16 off _ => accessOk K off 2
  | .writeRaw32 off _ => accessOk K off 4
  | .reset => true
  | .readWord a => addressOk K a
  | .readHardwareAddress => true
  | .submit frame => !frame.isEmpty
  | .reconcile => true
  | .drain => true
  | .onInterrupt => true
  | .check => true
  | .openBlock => true
  | .closeBlock => true
  | .txcmd _ _ slot => slotOk K slot
  | .txstatInFlight _ _ _ _ => true
  | .txstatSuccess _ _ _ _ _ _ => true
  | .txstatError _ abort _ underrun _ _ => abort ||| underrun == 1#1
  | .rxhdr size _ =>
      decide (K.fcsLen ≤ size.toNat) && decide (K.rxHdrLen + size.toNat ≤ K.rxBufLen)
  | .eecmdRead a => addressOk K a

end Sys2Proof
end

