-- ==== Sys2Proof/Decode.lean ====
section
/-! DEFINITION. Decoding, total on any bytes and rejecting by name, and the encoder, both written from R75 to R92
and the opcode table.  `OPSEL` operands are not packed into the selector (R76); this model lays them out after it:
offset byte, then the value's bytes lowest first; an EEPROM address as two bytes; a frame as all bytes that follow
(DESIGN CHOICE, log entry 1). -/

namespace Sys2Proof

/-- Why a request's bytes are no instruction.  The machine refuses them (R88). -/
inductive DecodeError where
  /-- No byte at all. -/
  | empty
  /-- R88: "An `OPSEL` value not listed in rules R77 and R78 selects no operation". -/
  | reservedSelector (op : Byte)
  /-- The bytes beside the word are not the operand's bytes. -/
  | operandCount
  /-- An EEPROM address wider than `EE_ADDR_BITS` (R86, R89). -/
  | addressRange
  /-- A word with a bit set that `TXCMD` fixes at 0, or a slot number that is none of the `N_TX` (R79). -/
  | notTxcmd
  /-- R90: `EECMD` opcodes other than `EE_READ_OPCODE` are never sent. -/
  | notEecmd
  deriving DecidableEq, Repr

/-! ## Byte order (R9, R45, R48) -/

/-- `b1 ++ b0`: a 16-bit value from its little-endian bytes. -/
def join16 (b0 b1 : Byte) : Half := b1 ++ b0

/-- `b3 ++ b2 ++ b1 ++ b0`: a 32-bit value from its little-endian bytes. -/
def join32 (b0 b1 b2 b3 : Byte) : Word := b3 ++ b2 ++ b1 ++ b0

/-- Byte `k` of a 32-bit value: `v[8k+7 : 8k]` (R45). -/
def byteOf (k : Nat) (v : Word) : Byte := v.extractLsb' (8 * k) 8

/-- The two bytes of a 16-bit value, lowest first (R45). -/
def le16 (v : Half) : List Byte := [v.extractLsb' 0 8, v.extractLsb' 8 8]

/-- The four bytes of a 32-bit value, lowest first (R45). -/
def le32 (v : Word) : List Byte := [v.extractLsb' 0 8, v.extractLsb' 8 8, v.extractLsb' 16 8, v.extractLsb' 24 8]

/-- `bswap16` (R9). -/
def bswap16 (v : Half) : Half := v.extractLsb' 0 8 ++ v.extractLsb' 8 8

/-- `bswap32` (R9). -/
def bswap32 (v : Word) : Word :=
  v.extractLsb' 0 8 ++ v.extractLsb' 8 8 ++ v.extractLsb' 16 8 ++ v.extractLsb' 24 8

/-! ## Words of the four wire formats -/

/-- `TXCMD` (R79): `0000000000tttttt000lllllllllllll`. -/
def txcmdWord (thresh : BitVec 6) (len : BitVec 13) : Word := 0#10 ++ thresh ++ 0#3 ++ len

/-- `TXSTAT` (R81): bit 31, `TABT`, bits 29:16, `TOK`, `TUN`, `OWN`, `SIZE`. -/
def txstatWord (b31 tabt : BitVec 1) (mid : BitVec 14) (tok tun own : BitVec 1) (size : BitVec 13) : Word :=
  b31 ++ tabt ++ mid ++ tok ++ tun ++ own ++ size

/-- `RXHDR` as one little-endian word (R82): `size = h[31:16]`, `status = h[15:0]`. -/
def rxhdrWord (size status : Half) : Word := size ++ status

/-- `EECMD` (R84): `cmd = EE_READ_OPCODE ++ address`, `EE_CMD_BITS` bits. -/
def eecmdWord (K : Config.Values) (address : EeAddr) : Word :=
  (K.eeReadOpcode.setWidth 32 <<< K.eeAddrBits) ||| address.setWidth 32

/-- Where a field begins: its mask's lowest 1. -/
def fieldShift (mask : Word) : Nat := ((List.range 32).find? mask.getLsbD).getD 0

/-- The field of `w` that a mask covers, moved to bit 0. -/
def field (mask w : Word) : Word := (w &&& mask) >>> fieldShift mask

/-- The bit of `w` that a one-bit mask covers. -/
def bitOf (mask w : Word) : BitVec 1 := if w &&& mask = 0#32 then 0#1 else 1#1

/-- R81's decoding of a status word, success before error, in flight when none of the three bits is set.  The bits it
ignores keep the places the opcode table gives them. -/
def decodeTxstat (K : Config.Values) (w : Word) : Instr :=
  if w &&& K.tsdStatus = 0 then
    .txstatInFlight (w.extractLsb' 31 1) (w.extractLsb' 16 14) (bitOf K.tsdOwn w) ((w &&& K.tsdSize).setWidth 13)
  else if w &&& K.tsdTok ≠ 0 then
    .txstatSuccess (w.extractLsb' 31 1) (bitOf K.tsdTabt w) (w.extractLsb' 16 14) (bitOf K.tsdTun w)
      (bitOf K.tsdOwn w) ((w &&& K.tsdSize).setWidth 13)
  else
    .txstatError (w.extractLsb' 31 1) (bitOf K.tsdTabt w) (w.extractLsb' 16 14) (bitOf K.tsdTun w)
      (bitOf K.tsdOwn w) ((w &&& K.tsdSize).setWidth 13)

/-- The bits of a `TXCMD` that are fixed at 0: all but the threshold and the length (R79). -/
def txcmdFixed (K : Config.Values) : Word := ~~~(K.tsdThresh ||| K.tsdSize)

/-- R79: the threshold flags and the length of a `TXCMD`, its other bits 0, and the slot. -/
def decodeTxcmd (K : Config.Values) (w : Word) (slot : Byte) : Except DecodeError Instr :=
  if w &&& txcmdFixed K = 0 ∧ slotOk K slot.toNat = true then
    .ok (.txcmd ((field K.tsdThresh w).setWidth 6) ((w &&& K.tsdSize).setWidth 13) slot.toNat)
  else .error .notTxcmd

/-- R84: the address in the low `EE_ADDR_BITS` bits, the read opcode above it, the bits above the command 0. -/
def decodeEecmd (K : Config.Values) (w : Half) : Except DecodeError Instr :=
  if w >>> K.eeAddrBits = K.eeReadOpcode.setWidth 16 then
    .ok (.eecmdRead (BitVec.ofNat 16 (w.toNat % 2 ^ K.eeAddrBits)))
  else .error .notEecmd

/-- An operation without operands. -/
def noOperand (i : Instr) : List Byte → Except DecodeError Instr
  | [] => .ok i
  | _ :: _ => .error .operandCount

/-- An operation on a register offset, one byte whatever `REG_WINDOW` is (DESIGN CHOICE, log entry 26). -/
def offsetOperand (k : BitVec 8 → Instr) : List Byte → Except DecodeError Instr
  | [o] => .ok (k o)
  | _ => .error .operandCount

/-- An offset and an 8-bit value. -/
def valueOperand8 (k : BitVec 8 → Byte → Instr) : List Byte → Except DecodeError Instr
  | [o, b0] => .ok (k o b0)
  | _ => .error .operandCount

/-- An offset and a 16-bit value. -/
def valueOperand16 (k : BitVec 8 → Half → Instr) : List Byte → Except DecodeError Instr
  | [o, b0, b1] => .ok (k o (join16 b0 b1))
  | _ => .error .operandCount

/-- An offset and a 32-bit value. -/
def valueOperand32 (k : BitVec 8 → Word → Instr) : List Byte → Except DecodeError Instr
  | [o, b0, b1, b2, b3] => .ok (k o (join32 b0 b1 b2 b3))
  | _ => .error .operandCount

/-- R86, R89: an EEPROM address, two bytes. -/
def addressOperand (K : Config.Values) : List Byte → Except DecodeError Instr
  | [a0, a1] => if addressOk K (join16 a0 a1) then .ok (.readWord (join16 a0 a1)) else .error .addressRange
  | _ => .error .operandCount

/-- R77, R78: the operation an `OPSEL` selects, with the operand bytes beside it; any other selector is reserved
(R88). -/
def decodeOpsel (K : Config.Values) (op : Byte) (operands : List Byte) : Except DecodeError Instr :=
  if op = 0x00#8 then offsetOperand .read8 operands
  else if op = 0x01#8 then offsetOperand .read16 operands
  else if op = 0x02#8 then offsetOperand .read32 operands
  else if op = 0x04#8 then valueOperand8 .write8 operands
  else if op = 0x05#8 then valueOperand16 .write16 operands
  else if op = 0x06#8 then valueOperand32 .write32 operands
  else if op = 0x0D#8 then valueOperand16 .writeRaw16 operands
  else if op = 0x0E#8 then valueOperand32 .writeRaw32 operands
  else if op = 0x10#8 then noOperand .reset operands
  else if op = 0x20#8 then addressOperand K operands
  else if op = 0x21#8 then noOperand .readHardwareAddress operands
  else if op = 0x30#8 then .ok (.submit operands)
  else if op = 0x31#8 then noOperand .reconcile operands
  else if op = 0x40#8 then noOperand .drain operands
  else if op = 0x50#8 then noOperand .onInterrupt operands
  else if op = 0x60#8 then noOperand .check operands
  else if op = 0x70#8 then noOperand .openBlock operands
  else if op = 0x71#8 then noOperand .closeBlock operands
  else .error (.reservedSelector op)

/-- The instruction that the bytes of a format are. -/
def decode (K : Config.Values) : Format → List Byte → Except DecodeError Instr
  | .opsel, op :: operands => decodeOpsel K op operands
  | .txcmd, [b0, b1, b2, b3, slot] => decodeTxcmd K (join32 b0 b1 b2 b3) slot
  | .txstat, [b0, b1, b2, b3] => .ok (decodeTxstat K (join32 b0 b1 b2 b3))
  | .rxhdr, [b0, b1, b2, b3] => .ok (.rxhdr (join16 b2 b3) (join16 b0 b1))
  | .eecmd, [b0, b1] => decodeEecmd K (join16 b0 b1)
  | _, [] => .error .empty
  | _, _ :: _ => .error .operandCount

/-! ## The encoder -/

/-- The bytes of an instruction, written from the patterns of R77 to R84 (the reference values). -/
def encode : Instr → List Byte
  | .read8 o => [0x00#8, o]
  | .read16 o => [0x01#8, o]
  | .read32 o => [0x02#8, o]
  | .write8 o v => [0x04#8, o, v]
  | .write16 o v => 0x05#8 :: o :: le16 v
  | .write32 o v => 0x06#8 :: o :: le32 v
  | .writeRaw16 o v => 0x0D#8 :: o :: le16 v
  | .writeRaw32 o v => 0x0E#8 :: o :: le32 v
  | .reset => [0x10#8]
  | .readWord a => 0x20#8 :: le16 a
  | .readHardwareAddress => [0x21#8]
  | .submit frame => 0x30#8 :: frame
  | .reconcile => [0x31#8]
  | .drain => [0x40#8]
  | .onInterrupt => [0x50#8]
  | .check => [0x60#8]
  | .openBlock => [0x70#8]
  | .closeBlock => [0x71#8]
  | .txcmd thresh len slot => le32 (txcmdWord thresh len) ++ [BitVec.ofNat 8 slot]
  | .txstatInFlight b31 mid own size => le32 (txstatWord b31 0#1 mid 0#1 0#1 own size)
  | .txstatSuccess b31 tabt mid tun own size => le32 (txstatWord b31 tabt mid 1#1 tun own size)
  | .txstatError b31 abort mid underrun own size => le32 (txstatWord b31 abort mid 0#1 underrun own size)
  | .rxhdr size status => le32 (rxhdrWord size status)
  | .eecmdRead a => le16 (0#7 ++ (0b110#3 ++ a.extractLsb' 0 6))

/-! ## Words as the opcode table numbers them -/

/-- The first `n` bytes of a number, lowest first. -/
def natBytes : Nat → Nat → List Byte
  | 0, _ => []
  | n + 1, w => BitVec.ofNat 8 w :: natBytes n (w / 256)

/-- How many bytes stand after an `OPSEL` selector when the operands are all zero; a frame is then one byte,
the shortest legal one (R134 (d)). -/
def operandBytes (op : Nat) : Nat :=
  match op with
  | 0x00 | 0x01 | 0x02 | 0x30 => 1
  | 0x04 | 0x20 => 2
  | 0x05 | 0x0D => 3
  | 0x06 | 0x0E => 5
  | _ => 0

/-- Which format a table word of `nbits` bits is read in.  Three 32-bit formats share their words and only the
place a word stands in tells them apart (R75); a bare word is read in the order of the table: `TXCMD` where its
fixed bits are 0, `TXSTAT` otherwise (DESIGN CHOICE, log entry 1). -/
def tableFormat (nbits w : Nat) : Format :=
  if nbits ≤ 8 then .opsel
  else if nbits ≤ 16 then .eecmd
  else if BitVec.ofNat 32 w &&& txcmdFixed Config.reference = 0 then .txcmd
  else .txstat

/-- The bytes of a table word in that format, operand bytes above it included. -/
def tableBytes (nbits w : Nat) : List Byte :=
  match tableFormat nbits w with
  | .opsel => natBytes (1 + operandBytes (w % 256)) w
  | .eecmd => natBytes 2 w
  | .txcmd => natBytes 5 w
  | .txstat => natBytes 4 w
  | .rxhdr => natBytes 4 w

/-- The instruction the decoder reads from a table word; the table is written for the reference values. -/
def decodeTableWord (nbits w : Nat) : Option Instr :=
  match decode Config.reference (tableFormat nbits w) (tableBytes nbits w) with
  | .ok i => some i
  | .error _ => none

end Sys2Proof
end

