-- ==== Sys2Proof/Machine/State.lean ====
section
/-! DEFINITION. The state of the block and of the agents it talks to (`10_state.md`, `47_device_environment.md`),
why a step can stop, and the state after power-on.  All of it is plain data. -/

namespace Sys2Proof.Machine

/-! ## The engine's registers (R13 to R23) -/

/-- `lifecycle` (R21). -/
inductive Lifecycle where
  | down | up
  deriving DecidableEq, Repr

/-- `link_prev` (R18). -/
inductive Link where
  | down | up
  deriving DecidableEq, Repr

/-- `cfg` (R20): the upward configuration surface. -/
structure Cfg where
  txEnable : Bool
  rxEnable : Bool
  loopback : Bool
  deriving DecidableEq, Repr

/-- The engine registers.  `cpu` and `hw` are slot indexes, in `[0, N_TX)`: `log2(N_TX)` bits, reduced modulo `N_TX`
(R14, R15, R26, R150).  `rxOff` is wide enough for the largest `RX_BUF_LEN`, 65536 (R7, R17).  `ringOk` is "the last
`reset` succeeded" (R134 (a), R116): while it is false `cpu` and `hw` are unspecified and a read of either is a fault
(log entry 19).  `hwAddr` is the `2 * EE_HWADDR_WORDS` bytes R129 forms.  No operation writes `chipVersion` (R23, log
entry 22). -/
structure Engine where
  cpu : Nat
  hw : Nat
  ringOk : Bool
  txStopped : Bool
  rxOff : Half
  linkPrev : Link
  irqEnabled : Half
  cfg : Cfg
  lifecycle : Lifecycle
  hwAddr : List Byte
  chipVersion : BitVec 7
  deriving DecidableEq, Repr

/-! ## The NIC device agent (R31 to R43, R187 to R198) -/

/-- `dev_tx[i]` (R43 (a)). -/
inductive SlotState where
  | idle
  | armed (len : BitVec 13)
  | done
  deriving DecidableEq, Repr, Inhabited

/-- The NIC: its registers and its hidden state.  `tsd`, `tsad` and `tx` have an entry for each of the `N_TX` slots,
slot 0 first; `CR` is the bits `te`, `re`, `resetting` (read as `RST`, R188) and `BUFE`, which is `rxRd = rxWr`
(R195); `MSR` is `linkBad`; `armOrder` holds the armed slots, oldest first (R191); `sent` is what the NIC has put on
the wire, oldest first (the model's own, log entry 20). -/
structure Nic where
  idr : Vector Byte 6
  tsd : List Word
  tsad : List Word
  rbstart : Word
  te : Bool
  re : Bool
  capr : Half
  imr : Half
  isr : Half
  tcr : Word
  linkBad : Bool
  resetting : Bool
  tx : List SlotState
  armOrder : List Nat
  rxWr : Half
  rxRd : Half
  sent : List (List Byte)
  deriving DecidableEq, Repr

/-- The serial EEPROM behind `EECR` (R41, R199): the register's levels, chip selected, rising clock edges since
selection, command bits received, level of data-out (`none`: unspecified, a draw at each read, R201), how far R120's
sequence of writes has come (the writes since E1; `none`: not in the sequence, R201, log entry 12), and the cells, one
for each address (R29). -/
structure Eeprom where
  eecr : Byte
  sel : Bool
  n : Nat
  sh : Word
  out : Option Bool
  seq : Option Nat
  cells : List Half
  deriving DecidableEq, Repr

/-- The platform: the configuration record and the OPEN parameters (R7, R31; never changed), what it would answer to
the next acquisitions (R210, R240), what `open` holds, and how often a transmit buffer has been acquired (fresh buffers
have fresh contents, U16, R245). -/
structure Platform where
  values : Config.Values
  params : Config.Params
  grantIrq : Bool
  grantTx : Bool
  grantRx : Bool
  irqHeld : Bool
  txHeld : Bool
  rxHeld : Bool
  gen : Nat
  deriving DecidableEq, Repr

/-- The host-visible event stream's alphabet (R30). -/
inductive Event where
  | delivered (payload : List Byte)
  | linkUp
  | linkDown
  | txDone (bytes : BitVec 13)
  | txError (underrun abort : Bool)
  | resume
  deriving DecidableEq, Repr

/-- What an operation returns to its requester (R206, R78); `done` is the return of an operation that has no
result. -/
inductive OpResult where
  | ok | timeout | oversized | full | allocFail | notMine | handled
  | done
  | value8 (v : Byte)
  | value16 (v : Half)
  | value32 (v : Word)
  | bytes (v : List Byte)
  deriving DecidableEq, Repr

/-! ## Control locations (R11, R22): one constructor per step label, with the operation's local values -/

/-- `reset` (R113); `i` counts the polls, from 1. -/
inductive ResetAt where
  | t1
  | t2a (i : Nat)
  | t2b (i : Nat) (v : Byte)
  | t2c (i : Nat)
  | t3
  | t4
  deriving DecidableEq, Repr

/-- `readWord` (R120); `k` is the loop index, counting down. -/
inductive ReadWordAt where
  | e1 (address : EeAddr)
  | e2 (address : EeAddr)
  | e3a (address : EeAddr) (k : Nat)
  | e3b (address : EeAddr) (k : Nat)
  | e4
  | e5a (k : Nat) (val : Half)
  | e5b (k : Nat) (val : Half)
  | e5c (k : Nat) (val : Half)
  | e6 (val : Half)
  | e7 (val : Half)
  deriving DecidableEq, Repr

/-- `readHardwareAddress` (R129): call `readWord` for word `i`, then store its two bytes. -/
inductive HwAddrAt where
  | call (i : Nat)
  | store (i : Nat)
  deriving DecidableEq, Repr

/-- `submit` (R133). -/
inductive SubmitAt where
  | s1 (frame : List Byte)
  | s2a (frame : List Byte) (i : Nat)
  | s2b (frame : List Byte) (i : Nat)
  | s3 (flen : Nat) (i : Nat)
  | s4 (i : Nat)
  | s5a
  | s5b (h : Nat)
  deriving DecidableEq, Repr

/-- `reconcile` (R142): `c` is the snapshot of `cpu`, `old` is `hw_old`. -/
inductive ReconcileAt where
  | c1
  | c2a (c old : Nat)
  | c2b (c old : Nat)
  | c2c (c old : Nat) (size : BitVec 13)
  | c2d (c old : Nat) (underrun abort : Bool)
  | c2e (c old : Nat)
  | c3 (old : Nat)
  deriving DecidableEq, Repr

/-- `drain` (R156). -/
inductive DrainAt where
  | d1
  | d2
  | d3 (size : Half)
  | d4 (size : Half)
  | d5 (size : Half) (payload : List Byte)
  | d6a (size : Half)
  | d6b
  deriving DecidableEq, Repr

/-- `onInterrupt` (R170). -/
inductive InterruptAt where
  | i1
  | i2 (s : Half)
  | i3 (s : Half)
  | i4 (m : Half)
  | i5 (m : Half)
  | i6 (m : Half)
  | i7
  deriving DecidableEq, Repr

/-- `check` (R181). -/
inductive CheckAt where
  | l1
  | l2 (bad : Bool)
  deriving DecidableEq, Repr

/-- `open` (R240) and its failure paths (R241): the releases in reverse order, then the error.  `o4r` is O4's test of
what `reset` returned (DESIGN CHOICE, log entry 32). -/
inductive OpenAt where
  | o1 | o2 | o3 | o4 | o4r | o5
  | o6 (i : Nat)
  | o7 | o8 | o9 | o10 | o11
  | releaseRx (e : OpResult)
  | releaseTx (e : OpResult)
  | releaseIrq (e : OpResult)
  deriving DecidableEq, Repr

/-- `close` (R243). -/
inductive CloseAt where
  | x1 | x2 | x3 | x4 | x5
  deriving DecidableEq, Repr

/-- A control location: operation and step label (R22). -/
inductive Frame where
  | reset (l : ResetAt)
  | readWord (l : ReadWordAt)
  | hwAddr (l : HwAddrAt)
  | submit (l : SubmitAt)
  | reconcile (l : ReconcileAt)
  | drain (l : DrainAt)
  | onInterrupt (l : InterruptAt)
  | check (l : CheckAt)
  | openBlock (l : OpenAt)
  | closeBlock (l : CloseAt)
  deriving DecidableEq, Repr

/-- One execution context: the control location of the running operation, above it those it returns to (`[]` is
`idle`; at most one call deep, R22; that O4's `reset` and R129's `readWord` are such calls: DESIGN CHOICE, log
entry 32), and the result of the last operation that returned. -/
structure Context where
  stack : List Frame
  result : Option OpResult
  deriving DecidableEq, Repr

/-- The three execution contexts (R6, R222). -/
inductive Ctx where
  | bringup | submission | interrupt
  deriving DecidableEq, Repr

/-! ## The agenda: which agent moves next, as plain data -/

/-- How a transmission ended (R191): the status bits, and what the NIC puts in `OWN` and the unnamed bits. -/
structure TxOutcome where
  tok : Bool
  tun : Bool
  tabt : Bool
  other : Word
  deriving DecidableEq, Repr

/-- The NIC's own steps (R187 to R198). -/
inductive NicMove where
  /-- `dev:reset_done` (R188, R189). -/
  | resetDone
  /-- `dev:tx_complete(i, outcome)` (R191). -/
  | txComplete (i : Nat) (o : TxOutcome)
  /-- `dev:rx_record(status, frame)` (R194), with the checksum the NIC appends and whether it marks the record bad. -/
  | rxRecord (status : Half) (frame fcs : List Byte) (bad : Bool)
  /-- `dev:link(bad)` (R198). -/
  | link (bad : Bool)
  /-- The shared error bit "may re-trigger" (R192). -/
  | retrigger
  /-- Unnamed `ISR` bits "may read as any value" (R39). -/
  | isrUnnamed (bits : Half)
  /-- Bits 13, 29:22, 31 of a `TSD` that is not armed (U8, R191). -/
  | tsdUnnamed (i : Nat) (bits : Word)
  /-- "it may also write into the guard pad" (R194). -/
  | padWrite (k : Nat) (b : Byte)
  deriving DecidableEq, Repr

/-- One entry of the agenda: a request of the host or the platform, one labelled step of a context, a step of the
NIC, or an answer of the host or the platform. -/
inductive Move where
  /-- A request in context `c`, its bytes in format `f`. -/
  | request (c : Ctx) (f : Format) (bytes : List Byte)
  /-- The next labelled step of context `c` (R11). -/
  | advance (c : Ctx)
  | nic (m : NicMove)
  /-- The host sets `cfg` (R20). -/
  | setCfg (c : Cfg)
  /-- What the platform answers to `open`'s acquisitions from now on (R210, R240 O1 to O3). -/
  | grants (irq tx rx : Bool)
  deriving DecidableEq, Repr

/-- The whole state. -/
structure State where
  eng : Engine
  nic : Nic
  ee : Eeprom
  plat : Platform
  /-- DMA memory (R27): the bytes something has written, addresses strictly rising. -/
  mem : List Host.Cell
  bringup : Context
  submission : Context
  interrupt : Context
  /-- The event stream (R30), oldest first. -/
  events : List Event
  agenda : List Move
  /-- Free inputs the environment has fixed for the next draws; when empty a draw is `Config.freeWord freeCount`. -/
  draws : List Word
  freeCount : Nat
  deriving DecidableEq, Repr

/-! ## Why a step stops -/

/-- Conditions the spec makes a fault: the run leaves the behaviours of the block (R212). -/
inductive Fault where
  /-- Raised by `drain` (D2, D3) and `RXHDR`: header with `size < FCS_LEN`, longer than the buffer, or at a
  misaligned offset (R158, U2).  Safe. -/
  | malformedHeader
  /-- Raised by `submit` and `reconcile`: a read of `cpu` or `hw` while no successful `reset` stands (R116, R212).
  Safe. -/
  | indexUnspecified
  /-- Raised by `submit` and `drain`: the block's own access outside the DMA buffers held (R28: "exist only while
  `lifecycle = Up` or inside `open`/`close`").  Safe. -/
  | dmaUnmapped
  /-- Raised by the NIC's DMA: an access to a released buffer or outside both (R260, U12).  Safe. -/
  | nicDmaUnmapped
  deriving DecidableEq, Repr

/-- Requests outside the specification: the model does not offer the step (R212, `93_implementation_defined.md`). -/
inductive Refusal where
  /-- Raised by no meaning: an instruction without one.  Safe. -/
  | notModelled (mnemonic : String)
  /-- Raised by the fetch: the request's bytes are no instruction (R88); and by `readWord` and `EECMD` for an address,
  by `TXCMD` for a slot, that no bytes could have named (R86, R89).  Safe. -/
  | illegalRequest (e : DecodeError)
  /-- Raised by the fetch: an operation requested in a context R222 does not give it.  Safe. -/
  | wrongContext
  /-- Raised when an operation starts: `lifecycle` is not the one R222 requires.  Safe. -/
  | wrongLifecycle
  /-- Raised when an operation starts: its context is not idle (R134 (b), R179, R203).  Safe. -/
  | contextBusy
  /-- Raised when an operation starts that needs the other contexts idle (R112, R259, U4).  Safe. -/
  | otherContextActive
  /-- Raised when the interrupt context is entered while no handler is registered (R179, R214).  Safe. -/
  | handlerNotRegistered
  /-- Raised by the register operations: misaligned or outside the window (R51).  Safe. -/
  | badAccess
  /-- Raised by `submit` S1 on a full ring (R134 (c)).  Safe. -/
  | ringFull
  /-- Raised by `submit` of an empty frame (R134 (d)).  Safe. -/
  | emptyFrame
  /-- Raised by `RXHDR` and `drain`: there is no visible record at `rx_off`, or it has another header; an access that
  breaks R58's discipline "is a data race ... and the model refuses it" (log entry 33).  Safe. -/
  | recordNotVisible
  deriving DecidableEq, Repr

/-- Where control goes after a labelled step: to a label, into a called operation (with the label to come back
to), or back to the requester with a result. -/
inductive Ctl where
  | goto (f : Frame)
  | call (f back : Frame)
  | ret (r : OpResult)
  deriving DecidableEq, Repr

/-- One labelled step's outcome. -/
inductive Micro where
  | go (s : State) (c : Ctl)
  | fault (f : Fault)
  | refused (r : Refusal)
  deriving DecidableEq, Repr

/-- What the agenda's head is, once fetched. -/
inductive Fetched where
  /-- A request: the instruction, and the state with the entry taken off. -/
  | instr (i : Instr) (s : State)
  /-- Any other entry, and the state with the entry taken off. -/
  | move (m : Move) (s : State)
  /-- Nothing is on the agenda. -/
  | nothing
  | refused (r : Refusal)
  deriving DecidableEq, Repr

/-! ## Power-on (R44, R233, R234) -/

/-- The state after power-on: every context idle, `lifecycle = Down`, `irq_enabled = 0`, no event, nothing held.
Every value R44 calls unspecified is the one log entry 4 names. -/
def State.reset : State where
  eng :=
    { cpu := 0, hw := 0, ringOk := false, txStopped := false, rxOff := 0#16, linkPrev := .down,
      irqEnabled := 0#16, cfg := ⟨true, true, false⟩, lifecycle := .down,
      hwAddr := [0#8, 0#8, 0#8, 0#8, 0#8, 0#8], chipVersion := 0#7 }
  nic :=
    { idr := #v[0#8, 0#8, 0#8, 0#8, 0#8, 0#8], tsd := [0#32, 0#32, 0#32, 0#32],
      tsad := [0#32, 0#32, 0#32, 0#32], rbstart := 0#32, te := false, re := false, capr := 0#16,
      imr := 0#16, isr := 0#16, tcr := 0#32, linkBad := true, resetting := false,
      tx := [.idle, .idle, .idle, .idle], armOrder := [], rxWr := 0#16, rxRd := 0#16, sent := [] }
  ee :=
    { eecr := 0#8, sel := false, n := 0, sh := 0#32, out := none, seq := none,
      cells := (List.range 64).map Config.eeFactory }
  plat :=
    { values := Config.reference, params := Config.Params.reference, grantIrq := true, grantTx := true, grantRx := true,
      irqHeld := false, txHeld := false, rxHeld := false, gen := 0 }
  mem := []
  bringup := ⟨[], none⟩
  submission := ⟨[], none⟩
  interrupt := ⟨[], none⟩
  events := []
  agenda := []
  draws := []
  freeCount := 0

end Sys2Proof.Machine
end

