-- ==== Sys2Proof/Machine/Operands.lean ====
section
/-! DEFINITION. Every operand form: slot-indexed lists, the register map's lookup, host memory layout (R47),
effective addresses (R60, R61), operand assembly (R79, R80, R84, R86) and the arithmetic of R150 and R165. -/

namespace Sys2Proof.Machine

/-! ## Lists indexed by a slot number -/

/-- Entry `i` of a list with one entry for each slot. -/
def atSlot {α : Type} [Inhabited α] (v : List α) (i : Nat) : α := v.getD i default

/-- The list with entry `i` replaced. -/
def setSlot {α : Type} (v : List α) (i : Nat) (x : α) : List α := v.set i x

/-! ## The register window (R31, R45, R50, R51, R60) -/

/-- Window offset of `TSD[i]`: `0x10 + 4*i` at the reference values (R60). -/
def tsdOff (K : Config.Values) (i : Nat) : Nat := K.tsd.off + K.pairStride * i

/-- Window offset of `TSAD[i]`: `0x20 + 4*i` at the reference values (R60). -/
def tsadOff (K : Config.Values) (i : Nat) : Nat := K.tsad.off + K.pairStride * i

/-- The register whose bytes hold window offset `off`, and which of its bytes that is.  Where two registers of a record
share an offset, which the spec does not settle, it is the first in the map (DESIGN CHOICE, log entry 26). -/
def locate (K : Config.Values) (off : Nat) : Option (Config.Reg × Nat) :=
  (K.regMap.find? (fun r => decide (r.off ≤ off) && decide (off < r.off + r.width))).map (fun r => (r.reg, off - r.off))

/-- The rows of the register map that an access of `n` bytes at `off` reaches, in the map's order; where two registers
of a record share an offset, both (DESIGN CHOICE, log entry 26). -/
def reached (K : Config.Values) (off n : Nat) : List Config.RegRow :=
  K.regMap.filter (fun r => decide (off < r.off + r.width) && decide (r.off < off + n))

/-- Byte `k` of a register at `row` after a write of `bs` at `off`: the byte written there, or the old one
where the write does not reach; a register has no bytes above its width. -/
def laneByte (row : Config.RegRow) (off : Nat) (bs : List Byte) (old : Word) (k : Nat) : Byte :=
  if row.width ≤ k then 0#8
  else if off ≤ row.off + k then (bs[row.off + k - off]?).getD (byteOf k old)
  else byteOf k old

/-- The value a register takes when `bs` is written at `off` over `old` (R50). -/
def laneValue (row : Config.RegRow) (off : Nat) (bs : List Byte) (old : Word) : Word :=
  join32 (laneByte row off bs old 0) (laneByte row off bs old 1) (laneByte row off bs old 2)
    (laneByte row off bs old 3)

/-- The bus address of a window offset: `off` "added to `REG_BASE` with no scaling" (R86);
no step reads it (log entry 28). -/
def regAddress (p : Config.Params) (off : Nat) : Nat := p.regBase.toNat + off

/-! ## Host memory layout (R47) -/

/-- The two bytes of a 16-bit value as the host stores it, lowest address first. -/
def hostBytes16 (be : Bool) (v : Half) : List Byte :=
  if be then [v.extractLsb' 8 8, v.extractLsb' 0 8] else le16 v

/-- The four bytes of a 32-bit value as the host stores it, lowest address first. -/
def hostBytes32 (be : Bool) (v : Word) : List Byte :=
  if be then [v.extractLsb' 24 8, v.extractLsb' 16 8, v.extractLsb' 8 8, v.extractLsb' 0 8] else le32 v

/-- R127: "converted from little-endian wire order to native order". -/
def toNative16 (be : Bool) (v : Half) : Half := if be then bswap16 v else v

/-! ## Transmit operands (R60, R79, R80, R138, R150) -/

/-- Index increment, `(x + 1) & (N_TX - 1)`, that is modulo `N_TX` (R26, R150). -/
def nextSlot (K : Config.Values) (i : Nat) : Nat := (i + 1) % K.nTx

/-- Index difference, `(a - b) & (N_TX - 1)`: "the subtraction modulo `N_TX`", `N_TX` added first (R150). -/
def slotsFrom (K : Config.Values) (b a : Nat) : Nat := (a + K.nTx - b) % K.nTx

/-- Bus address of slot `i`: `TX_DMA_BASE + i * MAX_FRAME_SIZE`. -/
def slotBase (K : Config.Values) (p : Config.Params) (i : Nat) : Nat := p.txDmaBase.toNat + i * K.maxFrameSize

/-- The word `open` writes to `TSAD[i]` (R240 O6). -/
def slotBaseWord (K : Config.Values) (p : Config.Params) (i : Nat) : Word :=
  p.txDmaBase + BitVec.ofNat 32 (i * K.maxFrameSize)

/-- The final length, `max(L, MIN_ETH_LEN)` (R138). -/
def finalLength (K : Config.Values) (len : Nat) : Nat := max len K.minEthLen

/-- `TX_THRESH_FLAGS | zext_32(len)` (R80). -/
def submitCommand (p : Config.Params) (flen : Nat) : Word := p.txThreshFlags ||| BitVec.ofNat 32 flen

/-- A `TXCMD` word from its two fields: the threshold in the bits `TSD_THRESH_MASK` covers, the length zero-extended
(R79, R80). -/
def commandWord (K : Config.Values) (thresh : BitVec 6) (len : BitVec 13) : Word :=
  (thresh.setWidth 32 <<< fieldShift K.tsdThresh) ||| len.setWidth 32

/-! ## Receive operands (R61, R161, R162, R165) -/

/-- `align4(x) = (x + 3) & ~3` (R9). -/
def align4 (x : Nat) : Nat := (x + 3) / 4 * 4

/-- The footprint of a record, `align4(RX_HDR_LEN + size)` (R161). -/
def footprint (K : Config.Values) (size : Nat) : Nat := align4 (K.rxHdrLen + size)

/-- The offset `n` bytes on, modulo `RX_BUF_LEN`. -/
def advanceOffset (K : Config.Values) (off : Half) (n : Nat) : Half := BitVec.ofNat 16 ((off.toNat + n) % K.rxBufLen)

/-- How many bytes lie from offset `a` round to offset `b`. -/
def distance (K : Config.Values) (a b : Half) : Nat := (b.toNat + K.rxBufLen - a.toNat) % K.rxBufLen

/-- `(rx_off - RX_READ_PAD) mod 2^16` (R162). -/
def commitValue (K : Config.Values) (off : Half) : Half := off - BitVec.ofNat 16 K.rxReadPad

/-- `((c + RX_READ_PAD) mod 65536) mod RX_BUF_LEN` (R196). -/
def readPointerOf (K : Config.Values) (c : Half) : Half :=
  BitVec.ofNat 16 ((c + BitVec.ofNat 16 K.rxReadPad).toNat % K.rxBufLen)

/-- D3's test, and U2's alignment: a header the block parses (R158; log entry 27). -/
def headerOk (K : Config.Values) (off size : Half) : Bool :=
  decide (off.toNat % 4 = 0) && decide (K.fcsLen ≤ size.toNat) &&
    decide (K.rxHdrLen + size.toNat ≤ K.rxBufLen)

/-- Bytes delivered of a record: `size - FCS_LEN` (R158). -/
def payloadLength (K : Config.Values) (size : Half) : Nat := size.toNat - K.fcsLen

/-! ## EEPROM operands (R84, R120, R125) -/

/-- EEPROM cell `a` (R29). -/
def eeCell (cells : List Half) (a : Nat) : Half := cells.getD a (Config.eeFactory a)

/-- `cmd[k]` of the command bits (R125). -/
def commandBit (K : Config.Values) (address : EeAddr) (k : Nat) : Bool := (eecmdWord K address).getLsbD k

/-- `P = EE_PROG | EE_CS` (R120). -/
def eeSelected (K : Config.Values) : Byte := K.eeProg ||| K.eeCs

/-- The `EECR` image of a command bit with the clock low: `P | x` (R120 E3a). -/
def clockLow (K : Config.Values) (bit : Bool) : Byte := eeSelected K ||| (if bit then K.eeDi else 0#8)

/-- The same with the clock high: `P | x | EE_SK` (R120 E3b). -/
def clockHigh (K : Config.Values) (bit : Bool) : Byte := clockLow K bit ||| K.eeSk

/-- `(val << 1)[15:0] | bit` (R120 E5b). -/
def shiftIn (val : Half) (bit : Bool) : Half := (val <<< 1) ||| (if bit then 1#16 else 0#16)

/-! ## Bring-up images (R85, R240) -/

/-- O8: `(cfg.tx_enable ? CR_TE : 0) | (cfg.rx_enable ? CR_RE : 0)`. -/
def crImage (K : Config.Values) (c : Cfg) : Byte :=
  (if c.txEnable then K.crTe else 0#8) ||| (if c.rxEnable then K.crRe else 0#8)

/-- O9: `cfg.loopback ? TCR_LBK : 0`. -/
def tcrImage (K : Config.Values) (c : Cfg) : Word := if c.loopback then K.tcrLbk else 0#32

end Sys2Proof.Machine
end

