-- ==== Sys2Proof/Machine/Flags.lean ====
section
/-! DEFINITION. Every flag the block tests or the NIC shows (R25), as functions of the state: the ring predicates
(R26), the bits of `CR`, `ISR`, `MSR`, `EECR`, `TSD`, and the named and unnamed bits of every register. -/

namespace Sys2Proof.Machine

/-- Some bit of the mask is 1: "`v & MASK != 0`". -/
def anySet {w : Nat} (v mask : BitVec w) : Bool := !(v &&& mask == 0#w)

/-! ## Ring predicates (R26) -/

/-- "empty iff `cpu = hw`". -/
def ringEmpty (e : Engine) : Bool := e.cpu == e.hw

/-- "full iff `(hw - cpu) mod N_TX = 1`". -/
def ringFull (K : Config.Values) (e : Engine) : Bool := slotsFrom K e.cpu e.hw == 1

/-- The number of outstanding slots, `(cpu - hw) mod N_TX`. -/
def outstanding (K : Config.Values) (e : Engine) : Nat := slotsFrom K e.hw e.cpu

/-! ## `TSD` (R81) -/

/-- "still in flight": none of `TOK`, `TUN`, `TABT`. -/
def inFlight (K : Config.Values) (w : Word) : Bool := w &&& K.tsdStatus == 0#32

/-- `TOK`. -/
def txSucceeded (K : Config.Values) (w : Word) : Bool := anySet w K.tsdTok

/-- `TUN`. -/
def txUnderrun (K : Config.Values) (w : Word) : Bool := anySet w K.tsdTun

/-- `TABT`. -/
def txAborted (K : Config.Values) (w : Word) : Bool := anySet w K.tsdTabt

/-- `SIZE`, `s & TSD_SIZE_MASK`. -/
def txSize (K : Config.Values) (w : Word) : BitVec 13 := (w &&& K.tsdSize).setWidth 13

/-! ## `CR`, `MSR`, `EECR`, `ISR` -/

/-- The buffer-empty flag (R195): "reads 1 iff `dev_rx_rd = dev_rx_wr`". -/
def bufferEmpty (n : Nic) : Bool := n.rxRd == n.rxWr

/-- The named bits of `CR` as read (R36, R188, R195); the unnamed ones 0. -/
def crNamed (K : Config.Values) (n : Nic) : Byte :=
  (if bufferEmpty n then K.crBufe else 0#8) ||| (if n.te then K.crTe else 0#8) |||
    (if n.re then K.crRe else 0#8) ||| (if n.resetting then K.crRst else 0#8)

/-- The named bit of `MSR` as read (R42). -/
def msrNamed (K : Config.Values) (n : Nic) : Byte := if n.linkBad then K.msrLinkb else 0#8

/-- The named bits of `EECR` as read (R41, R199): the levels last written, and `out` in bit 0 (0 here while `out`
is unspecified). -/
def eecrNamed (K : Config.Values) (e : Eeprom) : Byte :=
  (e.eecr &&& ~~~(K.eecrUnnamed ||| K.eeDo)) ||| (if e.out == some true then K.eeDo else 0#8)

/-- The interrupt line as this NIC drives it: `(ISR & IMR) != 0` (R193).  The platform may call the
handler whatever it is (R202, R214), so no step reads it (log entry 28). -/
def lineAsserted (n : Nic) : Bool := anySet n.isr n.imr

/-! ## Registers as the window shows them -/

/-- A register's numeric value as read, the bits the source names; bits of `regUnnamed` are 0 here. -/
def regNamed (K : Config.Values) (s : State) : Config.Reg → Word
  | .idr k => (s.nic.idr.get k).setWidth 32
  | .tsd i => atSlot s.nic.tsd i
  | .tsad i => atSlot s.nic.tsad i
  | .rbstart => s.nic.rbstart
  | .cr => (crNamed K s.nic).setWidth 32
  | .capr => s.nic.capr.setWidth 32
  | .imr => s.nic.imr.setWidth 32
  | .isr => s.nic.isr.setWidth 32
  | .tcr => s.nic.tcr &&& K.tcrLbk
  | .eecr => (eecrNamed K s.ee).setWidth 32
  | .msr => (msrNamed K s.nic).setWidth 32

/-- The bits of a register that read as any value, drawn at each read (U8, U15; DEDUCED, log entry 10). -/
def regUnnamed (K : Config.Values) (s : State) : Config.Reg → Word
  | .idr _ => 0#32
  | .tsd _ => 0#32
  | .tsad _ => 0#32
  | .rbstart => 0#32
  | .cr => K.crUnnamed.setWidth 32
  | .capr => 0#32
  | .imr => 0#32
  | .isr => 0#32
  | .tcr => K.tcrUnnamed
  | .eecr => (K.eecrUnnamed ||| (if s.ee.out == none then K.eeDo else 0#8)).setWidth 32
  | .msr => K.msrUnnamed.setWidth 32

/-- The named bits of the byte at window offset `off`; an offset of no register has none. -/
def namedByte (K : Config.Values) (s : State) (off : Nat) : Byte :=
  match locate K off with
  | some (r, k) => byteOf k (regNamed K s r)
  | none => 0#8

/-- The bits of the byte at window offset `off` that read as any value; all of them where no register is. -/
def unnamedByte (K : Config.Values) (s : State) (off : Nat) : Byte :=
  match locate K off with
  | some (r, k) => byteOf k (regUnnamed K s r)
  | none => 0xFF#8

/-! ## Results (R206) -/

/-- The numeric code of a result, for those R206 numbers. -/
def resultCode : OpResult → Option Nat
  | .ok => some 0
  | .timeout => some 1
  | .oversized => some 2
  | .full => some 3
  | .allocFail => some 4
  | .notMine => some 5
  | .handled => some 6
  | .done => none
  | .value8 _ => none
  | .value16 _ => none
  | .value32 _ => none
  | .bytes _ => none

end Sys2Proof.Machine
end

