-- ==== Sys2Proof/Machine/Ops.lean ====
section
/-! DEFINITION. The shared operations: free values, DMA memory, the register window with the NIC's and the EEPROM's
reactions to a write, the event stream, operation entry and return (R206, R219, R220: what stands here in place of
exceptions), and the checks a request must pass (R222). -/

namespace Sys2Proof.Machine

/-- Sequencing of step outcomes: go on from a next state, stop otherwise. -/
def andThen (o : Host.Outcome State Fault Refusal) (f : State → Host.Outcome State Fault Refusal) :
    Host.Outcome State Fault Refusal :=
  match o with
  | .next s => f s
  | .fault e => .fault e
  | .refused r => .refused r

/-! ## Free values (R10 `draw`) -/

/-- The `k`-th free word from here: the one the environment has fixed, else the undetermined one (DESIGN CHOICE, log
entry 8). -/
def freeAt (s : State) (k : Nat) : Word :=
  match s.draws[k]? with
  | some w => w
  | none => Config.freeWord (s.freeCount + k)

/-- The state after `k` draws. -/
def drew (k : Nat) (s : State) : State := { s with draws := s.draws.drop k, freeCount := s.freeCount + k }

/-! ## DMA memory (R27, R28, R58): a list of written bytes, addresses strictly rising -/

/-- The byte something has written at `a`, if any. -/
def Memory.get? : List Host.Cell → Nat → Option Byte
  | [], _ => none
  | (x, b) :: rest, a => if x = a then some b else Memory.get? rest a

/-- Write one byte, keeping the addresses strictly rising. -/
def Memory.set : List Host.Cell → Nat → Byte → List Host.Cell
  | [], a, v => [(a, v)]
  | (x, b) :: rest, a, v =>
      if x < a then (x, b) :: Memory.set rest a v
      else if x = a then (a, v) :: rest
      else (a, v) :: (x, b) :: rest

/-- Write consecutive bytes, the first at `a`. -/
def Memory.setRange : List Host.Cell → Nat → List Byte → List Host.Cell
  | m, _, [] => m
  | m, a, b :: bs => Memory.setRange (Memory.set m a b) (a + 1) bs

/-- Forget `n` bytes from `a`: a released buffer's contents. -/
def Memory.clear (m : List Host.Cell) (a n : Nat) : List Host.Cell :=
  m.filter (fun c => !(decide (a ≤ c.1) && decide (c.1 < a + n)))

/-- The canonical form: addresses strictly rising.  An unlisted address holds no written byte, so every listed one
counts. -/
def Memory.wf : List Host.Cell → Bool
  | [] => true
  | [_] => true
  | c :: d :: rest => decide (c.1 < d.1) && Memory.wf (d :: rest)

/-- `n` bytes from bus address `a` lie in one DMA buffer that is held (R28). -/
def mapped (K : Config.Values) (p : Platform) (a n : Nat) : Bool :=
  (p.txHeld && decide (p.params.txDmaBase.toNat ≤ a) &&
      decide (a + n ≤ p.params.txDmaBase.toNat + K.txBufBytes)) ||
    (p.rxHeld && decide (p.params.rxDmaBase.toNat ≤ a) &&
      decide (a + n ≤ p.params.rxDmaBase.toNat + K.rxBufBytes))

/-- The byte at bus address `a`: the one written there, else what the buffer held when it was acquired
(U16; DESIGN CHOICE, log entry 11). -/
def byteAt (s : State) (a : Nat) : Byte := (Memory.get? s.mem a).getD (Config.freeByte s.plat.gen a)

/-- `n` bytes from bus address `a`, lowest first. -/
def bytesAt (s : State) (a n : Nat) : List Byte := (List.range n).map (fun j => byteAt s (a + j))

/-- `MemRead(addr, n)` (R10); `none` where no buffer is. -/
def memRead (K : Config.Values) (s : State) (a n : Nat) : Option (List Byte) :=
  if n = 0 ∨ mapped K s.plat a n = true then some (bytesAt s a n) else none

/-- `MemWrite(addr, n, v)` (R10); `none` where no buffer is. -/
def memWrite (K : Config.Values) (s : State) (a : Nat) (bs : List Byte) : Option State :=
  if bs = [] ∨ mapped K s.plat a bs.length = true then some { s with mem := Memory.setRange s.mem a bs } else none

/-! ## Which bytes of `rxbuf` the block may read (R58) -/

/-- `n` bytes from buffer offset `off` lie among the unread ones, from `dev_rx_rd` round to `dev_rx_wr`: a record there
is visible, "written by the NIC before it becomes visible ... and read by `drain` only after" (R58, R195). -/
def visible (K : Config.Values) (nic : Nic) (off : Half) (n : Nat) : Bool :=
  decide (distance K nic.rxRd off + n ≤ distance K nic.rxRd nic.rxWr)

/-! ## What a reset leaves unspecified (R44, R189) -/

/-- One draw for each slot, from the `k`-th on. -/
def drawnSlots (K : Config.Values) (s : State) (k : Nat) : List Word :=
  (List.range K.nTx).map (fun i => freeAt s (k + i))

/-- How many draws `nicUnspecified` and the `EECR` beside it spend: two for each slot and ten, 18 at the reference
values. -/
def resetDraws (K : Config.Values) : Nat := 2 * K.nTx + 10

/-- The NIC with every register that both columns of R44's table call unspecified drawn (U7). -/
def nicUnspecified (K : Config.Values) (s : State) : Nic :=
  let k := 2 * K.nTx
  { s.nic with
    tsd := drawnSlots K s 0, tsad := drawnSlots K s K.nTx
    rbstart := freeAt s k, capr := (freeAt s (k + 1)).setWidth 16, tcr := freeAt s (k + 2)
    idr := #v[(freeAt s (k + 3)).setWidth 8, (freeAt s (k + 4)).setWidth 8, (freeAt s (k + 5)).setWidth 8,
      (freeAt s (k + 6)).setWidth 8, (freeAt s (k + 7)).setWidth 8, (freeAt s (k + 8)).setWidth 8] }

/-- What `EECR` reads as after the same reset. -/
def drawnEecr (K : Config.Values) (s : State) : Byte := (freeAt s (2 * K.nTx + 9)).setWidth 8

/-- A slot of an unspecified NIC is armed: two bits of its draw `w` choose among idle, armed and done. -/
def drawnArmed (w : Word) : Bool := w.extractLsb' 0 2 == 1#2

/-- Its `TSD`: the draw `v`, its status bits 0 if the slot is armed, as an armed slot reads (R190; DEDUCED, log
entry 30). -/
def drawnTsd (K : Config.Values) (w v : Word) : Word := if drawnArmed w then v &&& ~~~K.tsdStatus else v

/-- Its `dev_tx[i]`; an armed slot has the length its `TSD` reads (log entry 30). -/
def drawnSlot (K : Config.Values) (w v : Word) : SlotState :=
  if drawnArmed w then .armed (txSize K (drawnTsd K w v))
  else if w.extractLsb' 0 2 = 0#2 then .idle
  else .done

/-- The slots in any order: each stands where its draw puts it among those before it. -/
def drawnOrder (ws : List Word) : List Nat :=
  (List.range ws.length).foldl
    (fun acc i => acc.insertIdx (((atSlot ws i).extractLsb' 2 30).toNat % (acc.length + 1)) i) []

/-- R44: the NIC after `reset` returned `Timeout`: all but `CR` and the link unspecified, `dev_tx` and the arming order
too. -/
def nicAfterTimeout (K : Config.Values) (s : State) : Nic :=
  let ws := drawnSlots K s (resetDraws K + 3)
  let vs := drawnSlots K s 0
  { nicUnspecified K s with
    tsd := List.zipWith (drawnTsd K) ws vs
    tx := List.zipWith (drawnSlot K) ws vs
    armOrder := (drawnOrder ws).filter (fun i => drawnArmed (atSlot ws i))
    imr := (freeAt s (resetDraws K)).setWidth 16, isr := (freeAt s (resetDraws K + 1)).setWidth 16
    rxWr := BitVec.ofNat 16 ((freeAt s (resetDraws K + 2)).toNat % K.rxBufLen) }

/-! ## Reactions to register writes -/

/-- R190: a write to `TSD[i]` "arms the DMA transfer for that slot only"; the three status bits then read 0 (DEDUCED,
log entry 9), the slot is the last armed (DESIGN CHOICE, log entry 13). -/
def armSlot (K : Config.Values) (i : Nat) (w : Word) (n : Nic) : Nic :=
  { n with
    tsd := setSlot n.tsd i (w &&& ~~~K.tsdStatus)
    tx := setSlot n.tx i (.armed (txSize K w))
    armOrder := n.armOrder.filter (· != i) ++ [i] }

/-- R36, R117, R188: `TE` and `RE` take the written bits, a 1 in `RST` starts the reset, `BUFE` is read-only
(DEDUCED, log entry 25). -/
def writeCr (K : Config.Values) (v : Byte) (n : Nic) : Nic :=
  { n with te := anySet v K.crTe, re := anySet v K.crRe, resetting := n.resetting || anySet v K.crRst }

/-- R39: "a write of value `w` clears exactly the bits set in `w`". -/
def writeIsr (w : Half) (n : Nic) : Nic := { n with isr := n.isr &&& ~~~w }

/-- R196: the read-pointer commit. -/
def writeCapr (K : Config.Values) (c : Half) (n : Nic) : Nic := { n with capr := c, rxRd := readPointerOf K c }

/-- The level of EEPROM data-out after rising edge `n` with command `sh` (R200, R201).  With an opcode that is not the
read opcode R201 and U15 may be read as any value from the ninth edge on, R200 gives 0 up to it: data-out stays 0
until the tenth edge and is unspecified from then on (DESIGN CHOICE, log entry 12). -/
def eeOutput (K : Config.Values) (cells : List Half) (n : Nat) (sh : Word) : Option Bool :=
  if n ≤ K.eeCmdBits then some false
  else if n ≤ K.eeCmdBits + K.eeDataBits ∧ (sh >>> K.eeAddrBits).setWidth 3 = K.eeReadOpcode then
    some ((eeCell cells (sh.toNat % 2 ^ K.eeAddrBits)).getLsbD (K.eeCmdBits + K.eeDataBits - n))
  else none

/-- A rising clock edge while the chip is selected (R200). -/
def eeClock (K : Config.Values) (din : Bool) (e : Eeprom) : Eeprom :=
  let sh := if e.n + 1 ≤ K.eeCmdBits then (e.sh <<< 1) ||| (if din then 1#32 else 0#32) else e.sh
  { e with n := e.n + 1, sh := sh, out := eeOutput K e.cells (e.n + 1) sh }

/-- R200: the EEPROM's reaction to a write of `v` to `EECR`.  The chip-select, clock and data-in levels before it are
those last written (R199); of the three reactions the first that the levels call for is taken (DEDUCED, log
entry 12). -/
def eeReact (K : Config.Values) (v : Byte) (e : Eeprom) : Eeprom :=
  if !(anySet v K.eeProg && anySet v K.eeCs) then { e with sel := false }
  else if !anySet e.eecr K.eeCs then { e with sel := true, n := 0, sh := 0#32, out := some false }
  else if e.sel && anySet v K.eeSk && !anySet e.eecr K.eeSk then eeClock K (anySet v K.eeDi) e
  else e

/-- The write that R120's sequence has next is `v`: E1 from outside the sequence; after E1, E2; then E3a (either
level of data-in) and E3b for each command bit, E4, E5a and E5c for each response bit, E6. -/
def eeExpects (K : Config.Values) (v : Byte) (e : Eeprom) : Bool :=
  match e.seq with
  | none => v == K.eeProg
  | some p =>
    if p = 0 then v == eeSelected K
    else if p ≤ 2 * K.eeCmdBits then
      (if p % 2 = 1 then v == clockLow K false || v == clockLow K true else v == (e.eecr ||| K.eeSk))
    else if p = 2 * K.eeCmdBits + 1 then v == eeSelected K
    else if p ≤ 2 * K.eeCmdBits + 1 + 2 * K.eeDataBits then
      v == (if p % 2 = 0 then eeSelected K ||| K.eeSk else eeSelected K)
    else v == K.eeNormal

/-- Where in R120's sequence a write of `v` leads: E1 begins it from anywhere, E6 ends it, any other write that it does
not have next leaves it. -/
def eeFollow (K : Config.Values) (v : Byte) (e : Eeprom) : Option Nat :=
  if v = K.eeProg then some 0
  else if eeExpects K v e && v != K.eeNormal then e.seq.map (· + 1)
  else none

/-- A write of `EECR`: the EEPROM reacts (R200), and where the write departs from R120's sequence the level of data-out
is unspecified (R201, U15); the register then holds the levels written.  What counts as the sequence: log
entry 12. -/
def writeEecr (K : Config.Values) (v : Byte) (e : Eeprom) : Eeprom :=
  { eeReact K v e with
    eecr := v
    seq := eeFollow K v e
    out := if eeExpects K v e then (eeReact K v e).out else none }

/-- The EEPROM once `EECR` reads as `v` without having been written (R44, R189): the lines stand at no level the
sequence has, and data-out is unspecified (DEDUCED, log entry 12). -/
def eeUnspecified (v : Byte) (e : Eeprom) : Eeprom := { e with eecr := v, seq := none, out := none }

/-- A write of `bs` at window offset `off` as the register of `row` sees it (R31, R50, R56); a write narrower than the
register leaves its other bytes (DEDUCED, log entry 7). -/
def writeReg (K : Config.Values) (off : Nat) (bs : List Byte) (s : State) (row : Config.RegRow) : State :=
  let v := laneValue row off bs (regNamed K s row.reg)
  match row.reg with
  | .idr k => { s with nic := { s.nic with idr := s.nic.idr.set k.val (v.setWidth 8) k.isLt } }
  | .tsd i => { s with nic := armSlot K i v s.nic }
  | .tsad i => { s with nic := { s.nic with tsad := setSlot s.nic.tsad i v } }
  | .rbstart => { s with nic := { s.nic with rbstart := v } }
  | .cr => { s with nic := writeCr K (v.setWidth 8) s.nic }
  | .capr => { s with nic := writeCapr K (v.setWidth 16) s.nic }
  | .imr => { s with nic := { s.nic with imr := v.setWidth 16 } }
  | .isr => { s with nic := writeIsr ((laneValue row off bs 0#32).setWidth 16) s.nic }
  | .tcr => { s with nic := { s.nic with tcr := v } }
  | .eecr => { s with ee := writeEecr K (v.setWidth 8) s.ee }
  | .msr => s

/-- `RegWrite(off, n, b_0 .. b_{n-1})` (R10, R52): one transaction, each register it reaches reacts once.  Bytes at
an offset of no register have no effect on this state (R31, log entry 6). -/
def regWrite (K : Config.Values) (off : Nat) (bs : List Byte) (s : State) : State :=
  (reached K off bs.length).foldl (writeReg K off bs) s

/-- Wire byte `k` of `RegRead(off, n)`: the named bits, and one free word for the bits that read as any value. -/
def readByte (K : Config.Values) (s : State) (off k : Nat) : Byte :=
  namedByte K s (off + k) ||| (byteOf k (freeAt s 0) &&& unnamedByte K s (off + k))

/-! ## The typed and raw accesses the engine itself makes (R55) -/

/-- `write8(off, v)` (R104). -/
def write8 (K : Config.Values) (off : Nat) (v : Byte) (s : State) : State := regWrite K off [v] s

/-- `write16(off, v)` (R105). -/
def write16 (K : Config.Values) (off : Nat) (v : Half) (s : State) : State := regWrite K off (le16 v) s

/-- `write32(off, v)` (R106). -/
def write32 (K : Config.Values) (off : Nat) (v : Word) (s : State) : State := regWrite K off (le32 v) s

/-! ## Events (R30) -/

/-- `emit`: append to the event stream. -/
def emit (e : Event) (s : State) : State := { s with events := s.events ++ [e] }

/-! ## Contexts: entry, call, return (R22, R206, R219, R220) -/

/-- The context of a name. -/
def State.context (s : State) : Ctx → Context
  | .bringup => s.bringup
  | .submission => s.submission
  | .interrupt => s.interrupt

/-- The state with one context replaced. -/
def setContext (c : Ctx) (x : Context) (s : State) : State :=
  match c with
  | .bringup => { s with bringup := x }
  | .submission => { s with submission := x }
  | .interrupt => { s with interrupt := x }

/-- A context is idle (R22). -/
def idle (c : Ctx) (s : State) : Bool := (s.context c).stack.isEmpty

/-- "An operation request ... moves a context from `idle` to the operation's first label" (R22, R219): nothing else
is saved and nothing else changes. -/
def enterOp (c : Ctx) (f : Frame) (s : State) : State := setContext c ⟨[f], none⟩ s

/-- The end of an operation, by its last step or by `raise X` (R206, R220): the context goes back to the label
after the call, or to `idle`, with the result. -/
def returnOp (c : Ctx) (r : OpResult) (s : State) : State :=
  setContext c ⟨(s.context c).stack.tail, some r⟩ s

/-- `raise X` (R206): "ends the operation at that step and returns `X` to the requester; no handler is entered, no
state is saved". -/
def raiseResult (r : OpResult) (s : State) : Micro := .go s (.ret r)

/-- Carry out where a labelled step of context `c` sends control. -/
def applyCtl (c : Ctx) (k : Ctl) (s : State) : State :=
  match k with
  | .goto f => setContext c ⟨f :: (s.context c).stack.tail, (s.context c).result⟩ s
  | .call f back => setContext c ⟨f :: back :: (s.context c).stack.tail, (s.context c).result⟩ s
  | .ret r => returnOp c r s

/-- An operation that is one atomic step (R100): its result goes to the context at once. -/
def finishAtomic (c : Ctx) (r : OpResult) (s : State) : Host.Outcome State Fault Refusal :=
  .next (setContext c ⟨(s.context c).stack, some r⟩ s)

/-! ## Index registers (R14, R15, R62, R63, R116) -/

/-- Go on only while `cpu` and `hw` are specified: a read of either otherwise "is a fault" (R116;
log entry 19). -/
def withRing (s : State) (m : Micro) : Micro := if s.eng.ringOk then m else .fault .indexUnspecified

/-- `store_release(cpu, v)` (R63). -/
def storeCpu (v : Nat) (s : State) : State := { s with eng := { s.eng with cpu := v } }

/-- `store_release(hw, v)` (R63). -/
def storeHw (v : Nat) (s : State) : State := { s with eng := { s.eng with hw := v } }

/-! ## What a request must meet before its first step (R222, R134, R179, U4) -/

/-- The context an operation belongs to (R222); for a wire word, that of the unit that exchanges it. -/
def homeContext : Instr → Ctx
  | .read8 _ => .bringup
  | .read16 _ => .bringup
  | .read32 _ => .bringup
  | .write8 _ _ => .bringup
  | .write16 _ _ => .bringup
  | .write32 _ _ => .bringup
  | .writeRaw16 _ _ => .bringup
  | .writeRaw32 _ _ => .bringup
  | .reset => .bringup
  | .readWord _ => .bringup
  | .readHardwareAddress => .bringup
  | .submit _ => .submission
  | .reconcile => .interrupt
  | .drain => .interrupt
  | .onInterrupt => .interrupt
  | .check => .interrupt
  | .openBlock => .bringup
  | .closeBlock => .bringup
  | .txcmd _ _ _ => .submission
  | .txstatInFlight _ _ _ _ => .interrupt
  | .txstatSuccess _ _ _ _ _ _ => .interrupt
  | .txstatError _ _ _ _ _ _ => .interrupt
  | .rxhdr _ _ => .interrupt
  | .eecmdRead _ => .bringup

/-- A register access the host asks for: aligned and inside the window (R51); the bring-up context is idle and, since
it is "not concurrent with ring operations" (R6), the other two are (DEDUCED, log entry 16). -/
def accessCheck (off : BitVec 8) (n : Nat) (s : State) : Option Refusal :=
  if !accessOk s.plat.values off n then some .badAccess
  else if !idle .bringup s then some .contextBusy
  else if !(idle .submission s && idle .interrupt s) then some .otherContextActive
  else none

/-- An EEPROM address there is (R86, R89); the fetch refuses a request's bytes before this can. -/
def addressCheck (a : EeAddr) (s : State) : Option Refusal :=
  if addressOk s.plat.values a then none else some (.illegalRequest .addressRange)

/-- A slot there is (R14); the fetch refuses a request's bytes before this can. -/
def slotCheck (i : Nat) (s : State) : Option Refusal :=
  if slotOk s.plat.values i then none else some (.illegalRequest .notTxcmd)

/-- `reset`, `readWord`, `readHardwareAddress`, `open`: bring-up context, `Down`, the other contexts idle. -/
def bringupCheck (s : State) : Option Refusal :=
  if !idle .bringup s then some .contextBusy
  else if s.eng.lifecycle ≠ .down then some .wrongLifecycle
  else if !(idle .submission s && idle .interrupt s) then some .otherContextActive
  else none

/-- `close`: bring-up context, `Up` (R243), no other context active (R6, U4).  A call of `onInterrupt` between the
request and X2 is what X2 waits for (DEDUCED, log entry 21). -/
def closeCheck (s : State) : Option Refusal :=
  if !idle .bringup s then some .contextBusy
  else if s.eng.lifecycle ≠ .up then some .wrongLifecycle
  else if !(idle .submission s && idle .interrupt s) then some .otherContextActive
  else none

/-- A `TXCMD` word standing by itself: the submission context idle, no bring-up operation running (R6), any
`lifecycle`, as a register write (DESIGN CHOICE, log entry 5). -/
def txcmdCheck (s : State) : Option Refusal :=
  if !idle .submission s then some .contextBusy
  else if !idle .bringup s then some .otherContextActive
  else none

/-- `submit`: `Up`, no other `submit`, none "after `close` was called" (R134, R203).  A `submit` after `Full` and before
`Resume` breaks a duty of the host (R203) but none of R134's conditions: it is taken (DESIGN CHOICE, log entry 29). -/
def submitCheck (s : State) : Option Refusal :=
  if !idle .submission s then some .contextBusy
  else if s.eng.lifecycle ≠ .up then some .wrongLifecycle
  else if !idle .bringup s then some .otherContextActive
  else none

/-- `onInterrupt`: never re-entrant, only while the handler is registered (R179, R214). -/
def interruptCheck (s : State) : Option Refusal :=
  if !idle .interrupt s then some .contextBusy
  else if !s.plat.irqHeld then some .handlerNotRegistered
  else none

/-- `check`, `drain`, `reconcile` and the handler's wire words asked for by themselves: the interrupt context, as
`onInterrupt`, and `Up`.  What the bring-up context does is not tested: R6 has it "not concurrent with ring operations",
but R214 and R243 X2 admit `onInterrupt`, which makes the same calls, while `close` has not released the line, and so
these are taken there too (DESIGN CHOICE, log entry 15). -/
def handlerCheck (s : State) : Option Refusal :=
  if !idle .interrupt s then some .contextBusy
  else if !s.plat.irqHeld then some .handlerNotRegistered
  else if s.eng.lifecycle ≠ .up then some .wrongLifecycle
  else none

/-- Start if no check objects. -/
def guarded (check : Option Refusal) (o : Host.Outcome State Fault Refusal) : Host.Outcome State Fault Refusal :=
  match check with
  | some r => .refused r
  | none => o

end Sys2Proof.Machine
end

