-- ==== Sys2Proof/Machine/BringUpLabels.lean ====
section
/-! DEFINITION. The labelled steps of the bring-up context's operations: `reset` (R113), `readWord` (R120),
`readHardwareAddress` (R129), `open` (R240, R241) and `close` (R243). -/

namespace Sys2Proof.Machine

/-- R115: "`cpu <- 0` and `hw <- 0`, one step ... Nothing else is written". -/
def zeroIndices (s : State) : State := { s with eng := { s.eng with cpu := 0, hw := 0, ringOk := true } }

/-- R116, R44: after `Timeout` "`cpu` and `hw` are `draw` values" and may not be read; the device's registers and hidden
state are unspecified but for `CR` and the link. -/
def afterTimeout (K : Config.Values) (s : State) : State :=
  let k := resetDraws K + 3 + K.nTx
  drew (k + 2) { s with
    eng := { s.eng with
      cpu := (freeAt s k).toNat % K.nTx, hw := (freeAt s (k + 1)).toNat % K.nTx, ringOk := false }
    nic := nicAfterTimeout K s
    ee := eeUnspecified (drawnEecr K s) s.ee }

/-- The label after an unsuccessful poll's delay: the next poll, or T4 when all `RESET_POLL_MAX` are used (R114).  The
test comes after a poll, so a `RESET_POLL_MAX` of 0, which R7 does not exclude, polls once (DESIGN CHOICE, log
entry 26). -/
def nextPoll (K : Config.Values) (i : Nat) : ResetAt := if i < K.resetPollMax then .t2a (i + 1) else .t4

/-- `reset` (R113, R114, R117); T1 leads to the first poll whatever `RESET_POLL_MAX` is (`nextPoll`).  T2a carries the
named bits of `CR` to T2b, which tests `RST` only; the bits that read as any value (U8) would be masked there, so no
draw is spent on them (DESIGN CHOICE, log entry 10). -/
def resetStep (K : Config.Values) (l : ResetAt) (s : State) : Micro :=
  match l with
  | .t1 => .go (write8 K K.cr.off K.crRst s) (.goto (.reset (.t2a 1)))
  | .t2a i => .go s (.goto (.reset (.t2b i (crNamed K s.nic))))
  | .t2b i v => .go s (.goto (.reset (if v &&& K.crRst = 0#8 then .t3 else .t2c i)))
  | .t2c i => .go s (.goto (.reset (nextPoll K i)))
  | .t3 => .go (zeroIndices s) (.ret .ok)
  | .t4 => raiseResult .timeout (afterTimeout K s)

/-- The level of data-out as a read of `EECR` samples it (R126): `out`, or a draw while it is unspecified (R201). -/
def sampleDo (s : State) : Bool :=
  match s.ee.out with
  | some b => b
  | none => (freeAt s 0).getLsbD 0

/-- The state after that read: an unspecified level costs a draw. -/
def afterSample (s : State) : State :=
  match s.ee.out with
  | some _ => s
  | none => drew 1 s

/-- `readWord` (R120 to R127).  E5 tests after a bit, so an `EE_DATA_BITS` of 0, which R7 does not exclude, reads one
bit (DESIGN CHOICE, log entry 26). -/
def readWordStep (K : Config.Values) (l : ReadWordAt) (s : State) : Micro :=
  match l with
  | .e1 a => .go (write8 K K.eecr.off K.eeProg s) (.goto (.readWord (.e2 a)))
  | .e2 a => .go (write8 K K.eecr.off (eeSelected K) s) (.goto (.readWord (.e3a a (K.eeCmdBits - 1))))
  | .e3a a k => .go (write8 K K.eecr.off (clockLow K (commandBit K a k)) s) (.goto (.readWord (.e3b a k)))
  | .e3b a k =>
      .go (write8 K K.eecr.off (clockHigh K (commandBit K a k)) s)
        (.goto (.readWord (if k = 0 then .e4 else .e3a a (k - 1))))
  | .e4 => .go (write8 K K.eecr.off (eeSelected K) s) (.goto (.readWord (.e5a (K.eeDataBits - 1) 0#16)))
  | .e5a k val => .go (write8 K K.eecr.off (eeSelected K ||| K.eeSk) s) (.goto (.readWord (.e5b k val)))
  | .e5b k val => .go (afterSample s) (.goto (.readWord (.e5c k (shiftIn val (sampleDo s)))))
  | .e5c k val =>
      .go (write8 K K.eecr.off (eeSelected K) s)
        (.goto (.readWord (if k = 0 then .e6 val else .e5a (k - 1) val)))
  | .e6 val => .go (write8 K K.eecr.off K.eeNormal s) (.goto (.readWord (.e7 val)))
  | .e7 val => .go s (.ret (.value16 (toNative16 s.plat.params.hostBE val)))

/-- R129: `hw_addr[2i], hw_addr[2i+1] <- the two bytes of w_i in host memory order`. -/
def storeHwAddr (i : Nat) (w : Half) (s : State) : State :=
  match hostBytes16 s.plat.params.hostBE w with
  | [b0, b1] =>
      { s with eng := { s.eng with
          hwAddr := (s.eng.hwAddr.set (2 * i) b0).set (2 * i + 1) b1 } }
  | _ => s

/-- The 16-bit word an operation returned. -/
def returnedWord (r : Option OpResult) : Half :=
  match r with
  | some (.value16 w) => w
  | _ => 0#16

/-- `readHardwareAddress` (R129).  The rule labels no step: the call of `readWord` for a word is one step here, and the
store of its two bytes is one (DESIGN CHOICE, log entry 32).  The test comes after a word, so an `EE_HWADDR_WORDS` of 0,
which R7 does not exclude, fetches one (DESIGN CHOICE, log entry 26). -/
def hwAddrStep (K : Config.Values) (l : HwAddrAt) (s : State) : Micro :=
  match l with
  | .call i =>
      .go s (.call (.readWord (.e1 (BitVec.ofNat 16 (K.eeHwAddrBase + i)))) (.hwAddr (.store i)))
  | .store i =>
      let t := storeHwAddr i (returnedWord s.bringup.result) s
      if i + 1 < K.eeHwAddrWords then .go t (.goto (.hwAddr (.call (i + 1))))
      else .go t (.ret (.bytes t.eng.hwAddr))

/-- Release the IRQ line, "deregistering onInterrupt" (R243 X2). -/
def releaseIrqLine (s : State) : State := { s with plat := { s.plat with irqHeld := false } }

/-- Release `txbuf`: the memory is gone. -/
def releaseTxBuf (K : Config.Values) (s : State) : State :=
  { s with
    plat := { s.plat with txHeld := false }
    mem := Memory.clear s.mem s.plat.params.txDmaBase.toNat K.txBufBytes }

/-- Release `rxbuf`: the memory is gone. -/
def releaseRxBuf (K : Config.Values) (s : State) : State :=
  { s with
    plat := { s.plat with rxHeld := false }
    mem := Memory.clear s.mem s.plat.params.rxDmaBase.toNat K.rxBufBytes }

/-- O5: the engine registers `open` sets (R240, D41). -/
def initEngine (s : State) : State :=
  { s with eng := { s.eng with txStopped := false, rxOff := 0#16, linkPrev := .down } }

/-- Set `irq_enabled` and write the same value to `IMR` (R19). -/
def setIrqEnabled (K : Config.Values) (v : Half) (s : State) : State :=
  write16 K K.imr.off v { s with eng := { s.eng with irqEnabled := v } }

/-- `lifecycle <- l`. -/
def setLifecycle (l : Lifecycle) (s : State) : State := { s with eng := { s.eng with lifecycle := l } }

/-- `open` (R240) with its failure paths (R241).  O6 is one label with a register write for each slot, each a step of
R5: as many steps here, between which other agents may move; R241 labels no step: each release is one step, the last
with the error's return; O4 is two steps, the call of `reset`, which runs above it in the same context, and the test of
its result at a label of its own, `o4r` (DESIGN CHOICE, log entry 32).  O4 starts `reset` whatever the interrupt context
does, for R240 lets `onInterrupt` run from O1 on (DEDUCED, log entry 17). -/
def openStep (K : Config.Values) (l : OpenAt) (s : State) : Micro :=
  match l with
  | .o1 =>
      if s.plat.grantIrq then .go { s with plat := { s.plat with irqHeld := true } } (.goto (.openBlock .o2))
      else raiseResult .allocFail s
  | .o2 =>
      if s.plat.grantTx then
        .go { s with plat := { s.plat with txHeld := true, gen := s.plat.gen + 1 } } (.goto (.openBlock .o3))
      else .go s (.goto (.openBlock (.releaseIrq .allocFail)))
  | .o3 =>
      if s.plat.grantRx then .go { s with plat := { s.plat with rxHeld := true } } (.goto (.openBlock .o4))
      else .go s (.goto (.openBlock (.releaseTx .allocFail)))
  | .o4 => .go s (.call (.reset .t1) (.openBlock .o4r))
  | .o4r =>
      if s.bringup.result = some .ok then .go s (.goto (.openBlock .o5))
      else .go s (.goto (.openBlock (.releaseRx .timeout)))
  | .o5 => .go (initEngine s) (.goto (.openBlock (.o6 0)))
  | .o6 i =>
      .go (write32 K (tsadOff K i) (slotBaseWord K s.plat.params i) s)
        (.goto (.openBlock (if i + 1 < K.nTx then .o6 (i + 1) else .o7)))
  | .o7 => .go (write32 K K.rbstart.off s.plat.params.rxDmaBase s) (.goto (.openBlock .o8))
  | .o8 => .go (write8 K K.cr.off (crImage K s.eng.cfg) s) (.goto (.openBlock .o9))
  | .o9 => .go (write32 K K.tcr.off (tcrImage K s.eng.cfg) s) (.goto (.openBlock .o10))
  | .o10 => .go (setIrqEnabled K s.plat.params.irqEnableSet s) (.goto (.openBlock .o11))
  | .o11 => .go (setLifecycle .up s) (.ret .ok)
  | .releaseRx e => .go (releaseRxBuf K s) (.goto (.openBlock (.releaseTx e)))
  | .releaseTx e => .go (releaseTxBuf K s) (.goto (.openBlock (.releaseIrq e)))
  | .releaseIrq e =>
      if idle .interrupt s then raiseResult e (releaseIrqLine s) else .go s (.goto (.openBlock (.releaseIrq e)))

/-- `close` (R243); X2 "waits for a running onInterrupt to return".  X5 writes `lifecycle` only: the other engine
registers keep what the session left, where U17 allows any value (DESIGN CHOICE, log entry 36). -/
def closeStep (K : Config.Values) (l : CloseAt) (s : State) : Micro :=
  match l with
  | .x1 => .go (setIrqEnabled K 0#16 s) (.goto (.closeBlock .x2))
  | .x2 =>
      if idle .interrupt s then .go (releaseIrqLine s) (.goto (.closeBlock .x3))
      else .go s (.goto (.closeBlock .x2))
  | .x3 => .go (releaseTxBuf K s) (.goto (.closeBlock .x4))
  | .x4 => .go (releaseRxBuf K s) (.goto (.closeBlock .x5))
  | .x5 => .go (setLifecycle .down s) (.ret .done)

end Sys2Proof.Machine
end

