-- ==== Sys2Proof/Machine/Environment.lean ====
section
/-! DEFINITION. The NIC agent's own steps (R187 to R198, R204).  A step whose rule does not enable it does not
happen: the state is unchanged (log entry 3). -/

namespace Sys2Proof.Machine

/-- R189: the NIC after `dev:reset_done`; every register the rule calls unspecified is a draw (U7). -/
def nicAfterReset (K : Config.Values) (s : State) : Nic :=
  { nicUnspecified K s with
    resetting := false, te := false, re := false, isr := 0#16, imr := 0#16
    tx := List.replicate K.nTx .idle, armOrder := [], rxWr := 0#16, rxRd := 0#16 }

/-- `dev:reset_done` (R188): enabled while the reset is in progress. -/
def devResetDone (K : Config.Values) (s : State) : State :=
  if s.nic.resetting then
    drew (resetDraws K) { s with nic := nicAfterReset K s, ee := eeUnspecified (drawnEecr K s) s.ee }
  else s

/-- The bits a completion sets in `TSD[i]` (R191). -/
def completionBits (K : Config.Values) (o : TxOutcome) : Word :=
  (if o.tok then K.tsdTok else 0#32) ||| (if o.tun then K.tsdTun else 0#32) |||
    (if o.tabt then K.tsdTabt else 0#32) ||| (o.other &&& K.tsdUnnamed)

/-- R191: the NIC after slot `i` completed with the bytes `sent`: the status bits in `TSD[i]` and the `ISR` bit set in
one step, though R5 and R69 would let a state lie between them (DESIGN CHOICE, log entry 34). -/
def nicCompleted (K : Config.Values) (i : Nat) (o : TxOutcome) (bytes : List Byte) (n : Nic) : Nic :=
  { n with
    tsd := setSlot n.tsd i (atSlot n.tsd i ||| completionBits K o)
    tx := setSlot n.tx i .done
    armOrder := n.armOrder.tail
    isr := n.isr ||| (if o.tok then K.isrTok else K.isrTer)
    sent := n.sent ++ [bytes] }

/-- R191: slot `i` is the oldest armed one, the transmit engine is on (R190, R56; DEDUCED, log entry
14), the outcome sets a status bit. -/
def completionEnabled (i : Nat) (o : TxOutcome) (n : Nic) : Bool :=
  (n.armOrder.head? == some i) && n.te && (o.tok || o.tun || o.tabt)

/-- `dev:tx_complete(i, outcome)` (R191), the DMA read included in its one step (DESIGN CHOICE, log entry 34). -/
def devTxComplete (K : Config.Values) (i : Nat) (o : TxOutcome) (s : State) : Host.Outcome State Fault Refusal :=
  match atSlot s.nic.tx i with
  | .armed len =>
      if completionEnabled i o s.nic then
        match memRead K s (atSlot s.nic.tsad i).toNat len.toNat with
        | some bytes => .next { s with nic := nicCompleted K i o bytes s.nic }
        | none => .fault .nicDmaUnmapped
      else .next s
  | .idle => .next s
  | .done => .next s

/-- The header bytes the NIC writes (R82, R194): status and size, little-endian. -/
def headerBytes (K : Config.Values) (status : Half) (frame : List Byte) : List Byte :=
  le16 status ++ le16 (BitVec.ofNat 16 (frame.length + K.fcsLen))

/-- Write bytes from buffer offset `off`, "taken modulo `RX_BUF_LEN`" (R194). -/
def setWrapped (K : Config.Values) (base : Nat) : List Host.Cell → Nat → List Byte → List Host.Cell
  | m, _, [] => m
  | m, off, b :: bs => setWrapped K base (Memory.set m (base + off % K.rxBufLen) b) (off + 1) bs

/-- The memory after a record was written at offset `off`: the header, and `RX_HDR_LEN` bytes on the frame and the
checksum (R194). -/
def writeRecord (K : Config.Values) (base off : Nat) (status : Half) (frame fcs : List Byte) (m : List Host.Cell) :
    List Host.Cell :=
  setWrapped K base (setWrapped K base m off (headerBytes K status frame)) (off + K.rxHdrLen) (frame ++ fcs)

/-- Free space "from `dev_rx_wr` round to `dev_rx_rd`" (R194); the whole buffer when nothing is unread. -/
def rxSpace (K : Config.Values) (n : Nic) : Nat := if n.rxRd = n.rxWr then K.rxBufLen else distance K n.rxWr n.rxRd

/-- The NIC's receive buffer, at `RBSTART`, lies in the `rxbuf` that is held (R204, R260; DEDUCED, log
entry 23). -/
def rxTargetMapped (K : Config.Values) (s : State) : Bool :=
  s.plat.rxHeld && decide (s.plat.params.rxDmaBase.toNat ≤ s.nic.rbstart.toNat) &&
    decide (s.nic.rbstart.toNat + K.rxBufBytes ≤ s.plat.params.rxDmaBase.toNat + K.rxBufBytes)

/-- `dev:rx_record(status, frame)` (R194, R197), with a checksum of `FCS_LEN` bytes: the bytes, the write pointer and
the `ISR` bit in one step, though R5 and R69 would let states lie between them (DESIGN CHOICE, log entry 34). -/
def devRxRecord (K : Config.Values) (status : Half) (frame fcs : List Byte) (bad : Bool)
    (s : State) :
    Host.Outcome State Fault Refusal :=
  if s.nic.re && decide (fcs.length = K.fcsLen) && decide (footprint K (frame.length + K.fcsLen) < rxSpace K s.nic) then
    if rxTargetMapped K s then
      .next { s with
        mem := writeRecord K s.nic.rbstart.toNat s.nic.rxWr.toNat status frame fcs s.mem
        nic := { s.nic with
          rxWr := advanceOffset K s.nic.rxWr (footprint K (frame.length + K.fcsLen))
          isr := s.nic.isr ||| (if bad then K.isrRer else K.isrRok) } }
    else .fault .nicDmaUnmapped
  else .next s

/-- `dev:link(bad)` (R198): sets `LINKB` and, "if the value changed", `ISR.LNK`, in one step (DESIGN CHOICE, log
entry 34). -/
def devLink (K : Config.Values) (bad : Bool) (s : State) : State :=
  { s with nic := { s.nic with
      linkBad := bad
      isr := if bad = s.nic.linkBad then s.nic.isr else s.nic.isr ||| K.isrLnk } }

/-- Slot `i` has completed with an error. -/
def erroredSlot (K : Config.Values) (n : Nic) (i : Nat) : Bool :=
  (atSlot n.tx i == .done) && !inFlight K (atSlot n.tsd i) && !txSucceeded K (atSlot n.tsd i)

/-- R192: "The NIC may set `ISR.TER` again", for an errored slot (DEDUCED, log entry 24). -/
def devRetrigger (K : Config.Values) (s : State) : State :=
  if (List.range K.nTx).any (erroredSlot K s.nic) then
    { s with nic := { s.nic with isr := s.nic.isr ||| K.isrTer } }
  else s

/-- R39: unnamed `ISR` bits "may read as any value". -/
def devIsrUnnamed (K : Config.Values) (bits : Half) (s : State) : State :=
  { s with nic := { s.nic with isr := (s.nic.isr &&& K.isrAll) ||| (bits &&& ~~~K.isrAll) } }

/-- `TSD[i]` with its unnamed bits taken from `bits`. -/
def tsdWithUnnamed (K : Config.Values) (n : Nic) (i : Nat) (bits : Word) : Word :=
  (atSlot n.tsd i &&& ~~~K.tsdUnnamed) ||| (bits &&& K.tsdUnnamed)

/-- U8: bits 13, 29:22 and 31 of a `TSD` may read as any value; not while armed, when it "reads `w`" (R190). -/
def devTsdUnnamed (K : Config.Values) (i : Nat) (bits : Word) (s : State) : State :=
  match atSlot s.nic.tx i with
  | .armed _ => s
  | .idle => { s with nic := { s.nic with tsd := setSlot s.nic.tsd i (tsdWithUnnamed K s.nic i bits) } }
  | .done => { s with nic := { s.nic with tsd := setSlot s.nic.tsd i (tsdWithUnnamed K s.nic i bits) } }

/-- R194: the NIC "may also write into the guard pad"; when it may is not said, so at any time while `CR.RE` is 1, with
any byte, apart from any record (DESIGN CHOICE, log entry 31). -/
def devPadWrite (K : Config.Values) (k : Nat) (b : Byte) (s : State) : Host.Outcome State Fault Refusal :=
  if s.nic.re && decide (k < K.rxGuardPad) then
    if rxTargetMapped K s then
      .next { s with mem := Memory.set s.mem (s.nic.rbstart.toNat + K.rxBufLen + k) b }
    else .fault .nicDmaUnmapped
  else .next s

/-- One step of the NIC. -/
def nicStep (K : Config.Values) (m : NicMove) (s : State) : Host.Outcome State Fault Refusal :=
  match m with
  | .resetDone => .next (devResetDone K s)
  | .txComplete i o => devTxComplete K i o s
  | .rxRecord status frame fcs bad => devRxRecord K status frame fcs bad s
  | .link bad => .next (devLink K bad s)
  | .retrigger => .next (devRetrigger K s)
  | .isrUnnamed bits => .next (devIsrUnnamed K bits s)
  | .tsdUnnamed i bits => .next (devTsdUnnamed K i bits s)
  | .padWrite k b => devPadWrite K k b s

/-- R20: the host sets `cfg` "before `open`". -/
def hostSetCfg (c : Cfg) (s : State) : State :=
  if s.eng.lifecycle = .down ∧ idle .bringup s then { s with eng := { s.eng with cfg := c } } else s

/-- R210: what the external allocator and the platform will answer (DESIGN CHOICE, log entry 18). -/
def platformGrants (irq tx rx : Bool) (s : State) : State :=
  { s with plat := { s.plat with grantIrq := irq, grantTx := tx, grantRx := rx } }

end Sys2Proof.Machine
end

