-- ==== Sys2Proof/Machine/RegisterInterface.lean ====
section
/-! DEFINITION. RegisterInterface (R100 to R111): the eight register operations.  Each is one atomic step (R52,
R100); the host asks for them in the bring-up context (R222). -/

namespace Sys2Proof.Machine

/-- R101: `b0 <- RegRead(off, 1)`. -/
def readValue8 (K : Config.Values) (off : Nat) (s : State) : Byte := readByte K s off 0

/-- R102: `b1 ++ b0`. -/
def readValue16 (K : Config.Values) (off : Nat) (s : State) : Half := join16 (readByte K s off 0) (readByte K s off 1)

/-- R103: `b3 ++ b2 ++ b1 ++ b0`. -/
def readValue32 (K : Config.Values) (off : Nat) (s : State) : Word :=
  join32 (readByte K s off 0) (readByte K s off 1) (readByte K s off 2) (readByte K s off 3)

/-- A register read: the result goes to the requester; the bits that read as any value cost one draw. -/
def hostRead (off : BitVec 8) (n : Nat) (r : OpResult) (s : State) : Host.Outcome State Fault Refusal :=
  guarded (accessCheck off n s) (finishAtomic .bringup r (drew 1 s))

/-- A register write of the wire bytes `bs`. -/
def hostWrite (off : BitVec 8) (bs : List Byte) (s : State) : Host.Outcome State Fault Refusal :=
  guarded (accessCheck off bs.length s) (finishAtomic .bringup .done (regWrite s.plat.values off.toNat bs s))

/-- `read8(off)` (R101). -/
def execRead8 (off : BitVec 8) (s : State) : Host.Outcome State Fault Refusal :=
  hostRead off 1 (.value8 (readValue8 s.plat.values off.toNat s)) s

/-- `read16(off)` (R102). -/
def execRead16 (off : BitVec 8) (s : State) : Host.Outcome State Fault Refusal :=
  hostRead off 2 (.value16 (readValue16 s.plat.values off.toNat s)) s

/-- `read32(off)` (R103). -/
def execRead32 (off : BitVec 8) (s : State) : Host.Outcome State Fault Refusal :=
  hostRead off 4 (.value32 (readValue32 s.plat.values off.toNat s)) s

/-- `write8(off, v)` (R104). -/
def execWrite8 (off : BitVec 8) (v : Byte) (s : State) : Host.Outcome State Fault Refusal :=
  hostWrite off [v] s

/-- `write16(off, v)` (R105). -/
def execWrite16 (off : BitVec 8) (v : Half) (s : State) : Host.Outcome State Fault Refusal :=
  hostWrite off (le16 v) s

/-- `write32(off, v)` (R106). -/
def execWrite32 (off : BitVec 8) (v : Word) (s : State) : Host.Outcome State Fault Refusal :=
  hostWrite off (le32 v) s

/-- `writeRaw16(off, v)` (R107). -/
def execWriteRaw16 (off : BitVec 8) (v : Half) (s : State) : Host.Outcome State Fault Refusal :=
  hostWrite off (hostBytes16 s.plat.params.hostBE v) s

/-- `writeRaw32(off, v)` (R108). -/
def execWriteRaw32 (off : BitVec 8) (v : Word) (s : State) : Host.Outcome State Fault Refusal :=
  hostWrite off (hostBytes32 s.plat.params.hostBE v) s

end Sys2Proof.Machine
end

