-- ==== Sys2Proof/Machine/TrafficLabels.lean ====
section
/-! DEFINITION. The labelled steps of the two traffic contexts' operations: `submit` (R133), `reconcile` (R142),
`drain` (R156), `onInterrupt` (R170) and `check` (R181). -/

namespace Sys2Proof.Machine

/-- The program of R133's S1: too long for a slot (R135). -/
def oversized (K : Config.Values) (frame : List Byte) : Bool := decide (K.maxFrameSize < frame.length + K.fcsLen)

/-- A block memory write as a labelled step. -/
def storeStep (K : Config.Values) (a : Nat) (bs : List Byte) (f : Frame) (s : State) : Micro :=
  match memWrite K s a bs with
  | some t => .go t (.goto f)
  | none => .fault .dmaUnmapped

/-- `submit` (R133 to R141).  Slot `cpu` is not outstanding (R58, R134 (c)); that it may be armed all the same, by the
host's own word, is not tested: its bytes are overwritten and it is armed again (DESIGN CHOICE, log entry 35). -/
def submitStep (K : Config.Values) (l : SubmitAt) (s : State) : Micro :=
  match l with
  | .s1 frame =>
      if oversized K frame then raiseResult .oversized s
      else withRing s
        (if ringFull K s.eng then .refused .ringFull else .go s (.goto (.submit (.s2a frame s.eng.cpu))))
  | .s2a frame i =>
      if frame.length < K.minEthLen then
        storeStep K (slotBase K s.plat.params i) (List.replicate K.minEthLen 0#8) (.submit (.s2b frame i)) s
      else .go s (.goto (.submit (.s2b frame i)))
  | .s2b frame i =>
      storeStep K (slotBase K s.plat.params i) frame (.submit (.s3 (finalLength K frame.length) i)) s
  | .s3 flen i =>
      .go (write32 K (tsdOff K i) (submitCommand s.plat.params flen) s) (.goto (.submit (.s4 i)))
  | .s4 i => .go (storeCpu (nextSlot K i) s) (.goto (.submit .s5a))
  | .s5a => withRing s (.go s (.goto (.submit (.s5b s.eng.hw))))
  | .s5b h =>
      withRing s
        (if slotsFrom K s.eng.cpu h = 1 then .go { s with eng := { s.eng with txStopped := true } } (.ret .full)
         else .go s (.ret .ok))

/-- R142 C2c: report a success with its masked length. -/
def reportDone (size : BitVec 13) (s : State) : State := emit (.txDone size) s

/-- R142 C2d: report an error with both bits, and "re-acknowledge the shared error bit" (R146, R147). -/
def reportError (K : Config.Values) (underrun abort : Bool) (s : State) : State :=
  write16 K K.isr.off K.isrTer (emit (.txError underrun abort) s)

/-- R142 C2e: `store_release(hw, (hw + 1) & (N_TX - 1))` (R148). -/
def retireSlot (K : Config.Values) (s : State) : State := storeHw (nextSlot K s.eng.hw) s

/-- R142 C3: `Resume` when the ring had been reported full and `hw` advanced (R149). -/
def resumeIf (old : Nat) (s : State) : State :=
  if s.eng.txStopped && s.eng.hw != old then
    emit .resume { s with eng := { s.eng with txStopped := false } }
  else s

/-- `reconcile` (R142 to R149). -/
def reconcileStep (K : Config.Values) (l : ReconcileAt) (s : State) : Micro :=
  match l with
  | .c1 => withRing s (.go s (.goto (.reconcile (.c2a s.eng.cpu s.eng.hw))))
  | .c2a c old =>
      withRing s (.go s (.goto (.reconcile (if s.eng.hw = c then .c3 old else .c2b c old))))
  | .c2b c old =>
      withRing s
        (let w := regNamed K s (.tsd s.eng.hw)
         .go s (.goto (.reconcile
          (if inFlight K w then .c3 old
           else if txSucceeded K w then .c2c c old (txSize K w)
           else .c2d c old (txUnderrun K w) (txAborted K w)))))
  | .c2c c old size => .go (reportDone size s) (.goto (.reconcile (.c2e c old)))
  | .c2d c old underrun abort => .go (reportError K underrun abort s) (.goto (.reconcile (.c2e c old)))
  | .c2e c old => withRing s (.go (retireSlot K s) (.goto (.reconcile (.c2a c old))))
  | .c3 old => withRing s (.go (resumeIf old s) (.ret .done))

/-- R142's C2b..C2e for one status word standing by itself, at slot `hw`: nothing when no slot is outstanding,
since then no word is looked at (R66 (c), R154). -/
def retireWith (K : Config.Values) (report : State → State) (s : State) : Host.Outcome State Fault Refusal :=
  if !s.eng.ringOk then .fault .indexUnspecified
  else if ringEmpty s.eng then finishAtomic .interrupt .done s
  else finishAtomic .interrupt .done (retireSlot K (report s))

/-- `MemRead(RX_DMA_BASE + k, n)` (R61). -/
def rxRead (K : Config.Values) (s : State) (k n : Nat) : Option (List Byte) := memRead K s
    (s.plat.params.rxDmaBase.toNat + k) n

/-- D4: the payload, in one copy or in two when it "exceeds the buffer's end" (R159, R160).  With an `RX_HDR_LEN` above
4 `start` can lie past the buffer's end, which R156 excludes; `n1` is then 0 and the payload is read from offset 0
(DESIGN CHOICE, log entry 26). -/
def readPayload (K : Config.Values) (s : State) (start plen : Nat) : Option (List Byte) :=
  if K.rxBufLen < start + plen then
    match rxRead K s start (K.rxBufLen - start), rxRead K s 0 (plen - (K.rxBufLen - start)) with
    | some a, some b => some (a ++ b)
    | _, _ => none
  else rxRead K s start plen

/-- D2: the header bytes as (status, size), each little-endian (R82); `status` is not interpreted (R83). -/
def headerSize (h : List Byte) : Half :=
  match h with
  | _ :: _ :: z0 :: z1 :: _ => join16 z0 z1
  | _ => 0#16

/-- D6a: advance by the footprint, modulo `RX_BUF_LEN` (R161). -/
def advanceRx (K : Config.Values) (size : Half) (s : State) : State :=
  { s with eng := { s.eng with rxOff := advanceOffset K s.eng.rxOff (footprint K size.toNat) } }

/-- D6b: "commit the new offset" (R162). -/
def commitRx (K : Config.Values) (s : State) : State := write16 K K.capr.off (commitValue K s.eng.rxOff) s

/-- The payload of the record at `rx_off`. -/
def recordPayload (K : Config.Values) (s : State) (size : Half) : Option (List Byte) :=
  readPayload K s (s.eng.rxOff.toNat + K.rxHdrLen) (payloadLength K size)

/-- D2: the header at `rx_off`, for what follows it, or why there is none: misaligned (U2, log entry 27), not visible
(R58, log entry 33), or outside the held buffer.  It is read without wrapping, as D2 has it; one longer than 4 bytes
can then reach into the guard pad (DESIGN CHOICE, log entry 26). -/
def withHeader {α : Type} (K : Config.Values) (s : State) (next : Half → α) (fault : Fault → α)
    (refuse : Refusal → α) : α :=
  if s.eng.rxOff.toNat % 4 ≠ 0 then fault .malformedHeader
  else if visible K s.nic s.eng.rxOff K.rxHdrLen then
    match rxRead K s s.eng.rxOff.toNat K.rxHdrLen with
    | some h => next (headerSize h)
    | none => fault .dmaUnmapped
  else refuse .recordNotVisible

/-- D4: the payload of the record at `rx_off`, for what follows it, or why there is none: the record is not visible
(R58, log entry 33), or lies outside the held buffer. -/
def withPayload {α : Type} (K : Config.Values) (size : Half) (s : State) (next : List Byte → α) (fault : Fault → α)
    (refuse : Refusal → α) : α :=
  if visible K s.nic s.eng.rxOff (footprint K size.toNat) then
    match recordPayload K s size with
    | some payload => next payload
    | none => fault .dmaUnmapped
  else refuse .recordNotVisible

/-- `drain` (R156 to R164). -/
def drainStep (K : Config.Values) (l : DrainAt) (s : State) : Micro :=
  match l with
  | .d1 =>
      if crNamed K s.nic &&& K.crBufe ≠ 0#8 then .go s (.ret .done)
      else .go s (.goto (.drain .d2))
  | .d2 => withHeader K s (fun size => .go s (.goto (.drain (.d3 size)))) .fault .refused
  | .d3 size => if headerOk K s.eng.rxOff size then .go s (.goto (.drain (.d4 size))) else .fault .malformedHeader
  | .d4 size =>
      withPayload K size s (fun payload => .go s (.goto (.drain (.d5 size payload)))) .fault .refused
  | .d5 size payload => .go (emit (.delivered payload) s) (.goto (.drain (.d6a size)))
  | .d6a size => .go (advanceRx K size s) (.goto (.drain .d6b))
  | .d6b => .go (commitRx K s) (.goto (.drain .d1))

/-- D2 to D6b for one header word standing by itself, which must be the header at `rx_off` (R58, R158 to R163); nothing
while `CR.BUFE` is 1, since D1 then looks at no record (R157) and none may be accessed (R58). -/
def parseRecord (K : Config.Values) (size : Half) (s : State) : Host.Outcome State Fault Refusal :=
  if bufferEmpty s.nic then finishAtomic .interrupt .done s
  else withHeader K s
    (fun there =>
      if there ≠ size then .refused .recordNotVisible
      else if headerOk K s.eng.rxOff size then
        withPayload K size s
          (fun payload => finishAtomic .interrupt .done (commitRx K (advanceRx K size (emit (.delivered payload) s))))
          .fault .refused
      else .fault .malformedHeader)
    .fault .refused

/-- `onInterrupt` (R170 to R178).  I4 to I6 call what the masked status names (R174) without testing `lifecycle`:
between O10 and O11 of `open`, `irq_enabled` is set and `lifecycle` still `Down`, so `check`, `drain` and `reconcile`
run there although their own rows require `Up` (R154, R164, R222; DEDUCED, log entry 17). -/
def interruptStep (K : Config.Values) (l : InterruptAt) (s : State) : Micro :=
  match l with
  | .i1 =>
      if s.nic.isr = 0#16 then raiseResult .notMine s else .go s (.goto (.onInterrupt (.i2 s.nic.isr)))
  | .i2 v => .go (write16 K K.isr.off v s) (.goto (.onInterrupt (.i3 v)))
  | .i3 v => .go s (.goto (.onInterrupt (.i4 (v &&& s.eng.irqEnabled))))
  | .i4 m =>
      if anySet m K.isrLnk then .go s (.call (.check .l1) (.onInterrupt (.i5 m)))
      else .go s (.goto (.onInterrupt (.i5 m)))
  | .i5 m =>
      if anySet m K.isrRxBits then .go s (.call (.drain .d1) (.onInterrupt (.i6 m)))
      else .go s (.goto (.onInterrupt (.i6 m)))
  | .i6 m =>
      if anySet m K.isrTxBits then .go s (.call (.reconcile .c1) (.onInterrupt .i7))
      else .go s (.goto (.onInterrupt .i7))
  | .i7 => .go s (.ret .handled)

/-- R183: the edge detector. -/
def linkEdge (bad : Bool) (s : State) : State :=
  match s.eng.linkPrev, bad with
  | .down, false => emit .linkUp { s with eng := { s.eng with linkPrev := .up } }
  | .up, true => emit .linkDown { s with eng := { s.eng with linkPrev := .down } }
  | .down, true => s
  | .up, false => s

/-- `check` (R181, R182). -/
def checkStep (K : Config.Values) (l : CheckAt) (s : State) : Micro :=
  match l with
  | .l1 => .go s (.goto (.check (.l2 (!(msrNamed K s.nic &&& K.msrLinkb == 0#8)))))
  | .l2 bad => .go (linkEdge bad s) (.ret .done)

end Sys2Proof.Machine
end

