-- ==== Sys2Proof/Machine/WireFormats.lean ====
section
/-! DEFINITION. The four wire formats (R79 to R84) standing by themselves: what the block or its partner does with
one such word where the operation that exchanges it would (log entry 5). -/

namespace Sys2Proof.Machine

/-- `TXCMD` written to `TSD[slot]`: the NIC arms the slot (R79, R138, R190).  No rule gives the word an operation of its
own; it is taken in any `lifecycle` while neither a `submit` nor a bring-up operation runs (DESIGN CHOICE, log
entry 5). -/
def execTxcmd (thresh : BitVec 6) (len : BitVec 13) (slot : Nat) (s : State) :
    Host.Outcome State Fault Refusal :=
  guarded ((slotCheck slot s).or (txcmdCheck s))
    (finishAtomic .submission .done
      (write32 s.plat.values (tsdOff s.plat.values slot) (commandWord s.plat.values thresh len) s))

/-- `TXSTAT` in flight: "stop scanning" (R81, R144): no effect, whatever the ignored bits. -/
def execTxstatInFlight (_b31 : BitVec 1) (_mid : BitVec 14) (_own : BitVec 1) (_size : BitVec 13) (s : State) :
    Host.Outcome State Fault Refusal :=
  guarded (handlerCheck s) (finishAtomic .interrupt .done s)

/-- `TXSTAT` success: `TxDone` and retirement of slot `hw` (R81, R145, R148). -/
def execTxstatSuccess (_b31 _tabt : BitVec 1) (_mid : BitVec 14) (_tun _own : BitVec 1) (size : BitVec 13)
    (s : State) : Host.Outcome State Fault Refusal :=
  guarded (handlerCheck s) (retireWith s.plat.values (reportDone size) s)

/-- `TXSTAT` error: `TxError`, the re-acknowledge, and retirement of slot `hw` (R81, R146, R147, R148).  A word with
neither bit is no error word (R81): it is in flight and has no effect. -/
def execTxstatError (_b31 abort : BitVec 1) (_mid : BitVec 14) (underrun _own : BitVec 1) (_size : BitVec 13)
    (s : State) : Host.Outcome State Fault Refusal :=
  guarded (handlerCheck s)
    (if abort ||| underrun = 1#1 then
      retireWith s.plat.values (reportError s.plat.values (underrun == 1#1) (abort == 1#1)) s
     else finishAtomic .interrupt .done s)

/-- `RXHDR` at `rx_off`, where the record it heads is visible: D2 to D6b (R58, R82, R156, R158 to R163); `status` is not
interpreted (R83). -/
def execRxhdr (size _status : Half) (s : State) : Host.Outcome State Fault Refusal :=
  guarded (handlerCheck s) (parseRecord s.plat.values size s)

/-- E3 for one command bit: clock low with the bit, clock high with the bit (R120, R125). -/
def sendBit (K : Config.Values) (bit : Bool) (s : State) : State :=
  write8 K K.eecr.off (clockHigh K bit) (write8 K K.eecr.off (clockLow K bit) s)

/-- E3: the command bits, "most-significant-bit first" (R125). -/
def sendCommand (K : Config.Values) (address : EeAddr) (s : State) : State :=
  (List.range K.eeCmdBits).reverse.foldl (fun t k => sendBit K (commandBit K address k) t) s

/-- `EECMD.READ` shifted into the EEPROM (R84, R120 E3, R200). -/
def execEecmdRead (address : EeAddr) (s : State) : Host.Outcome State Fault Refusal :=
  guarded ((addressCheck address s).or (bringupCheck s))
    (finishAtomic .bringup .done (sendCommand s.plat.values address s))

end Sys2Proof.Machine
end

