-- ==== Sys2Proof/Machine/Schedule.lean ====
section
/-! DEFINITION. How the labelled steps of all agents interleave (R11, R22, R64, R65, R152): the start of every
operation, one labelled step of a context, one entry of the agenda, and an operation run to its return with the
agenda's entries between its labelled steps. -/

namespace Sys2Proof.Machine

/-! ## The start of an operation (R22): its checks, then its first label -/

/-- `reset` requested (R112, R222). -/
def beginReset (s : State) : Host.Outcome State Fault Refusal :=
  guarded (bringupCheck s) (.next (enterOp .bringup (.reset .t1) s))

/-- `readWord` requested (R119, R222). -/
def beginReadWord (a : EeAddr) (s : State) : Host.Outcome State Fault Refusal :=
  guarded ((addressCheck a s).or (bringupCheck s)) (.next (enterOp .bringup (.readWord (.e1 a)) s))

/-- `readHardwareAddress` requested (R129, R237). -/
def beginReadHardwareAddress (s : State) : Host.Outcome State Fault Refusal :=
  guarded (bringupCheck s) (.next (enterOp .bringup (.hwAddr (.call 0)) s))

/-- `submit` requested (R134): an empty frame is refused. -/
def beginSubmit (frame : List Byte) (s : State) : Host.Outcome State Fault Refusal :=
  guarded (submitCheck s)
    (if frame.isEmpty then .refused .emptyFrame else .next (enterOp .submission (.submit (.s1 frame)) s))

/-- `reconcile` requested (R154, R222). -/
def beginReconcile (s : State) : Host.Outcome State Fault Refusal :=
  guarded (handlerCheck s) (.next (enterOp .interrupt (.reconcile .c1) s))

/-- `drain` requested (R164, R222). -/
def beginDrain (s : State) : Host.Outcome State Fault Refusal :=
  guarded (handlerCheck s) (.next (enterOp .interrupt (.drain .d1) s))

/-- `onInterrupt` called by the platform (R179, R214, R219). -/
def beginOnInterrupt (s : State) : Host.Outcome State Fault Refusal :=
  guarded (interruptCheck s) (.next (enterOp .interrupt (.onInterrupt .i1) s))

/-- `check` requested (R181, R222). -/
def beginCheck (s : State) : Host.Outcome State Fault Refusal :=
  guarded (handlerCheck s) (.next (enterOp .interrupt (.check .l1) s))

/-- `open` requested (R240). -/
def beginOpen (s : State) : Host.Outcome State Fault Refusal :=
  guarded (bringupCheck s) (.next (enterOp .bringup (.openBlock .o1) s))

/-- `close` requested (R243). -/
def beginClose (s : State) : Host.Outcome State Fault Refusal :=
  guarded (closeCheck s) (.next (enterOp .bringup (.closeBlock .x1) s))

/-- The start of any instruction; one that is a single atomic step is done at once. -/
def beginInstr (i : Instr) (s : State) : Host.Outcome State Fault Refusal :=
  match i with
  | .read8 off => execRead8 off s
  | .read16 off => execRead16 off s
  | .read32 off => execRead32 off s
  | .write8 off v => execWrite8 off v s
  | .write16 off v => execWrite16 off v s
  | .write32 off v => execWrite32 off v s
  | .writeRaw16 off v => execWriteRaw16 off v s
  | .writeRaw32 off v => execWriteRaw32 off v s
  | .reset => beginReset s
  | .readWord a => beginReadWord a s
  | .readHardwareAddress => beginReadHardwareAddress s
  | .submit frame => beginSubmit frame s
  | .reconcile => beginReconcile s
  | .drain => beginDrain s
  | .onInterrupt => beginOnInterrupt s
  | .check => beginCheck s
  | .openBlock => beginOpen s
  | .closeBlock => beginClose s
  | .txcmd thresh len slot => execTxcmd thresh len slot s
  | .txstatInFlight b31 mid own size => execTxstatInFlight b31 mid own size s
  | .txstatSuccess b31 tabt mid tun own size => execTxstatSuccess b31 tabt mid tun own size s
  | .txstatError b31 abort mid underrun own size => execTxstatError b31 abort mid underrun own size s
  | .rxhdr size status => execRxhdr size status s
  | .eecmdRead a => execEecmdRead a s

/-! ## One labelled step -/

/-- The labelled step a control location names, for a configuration record. -/
def frameStep (K : Config.Values) (f : Frame) (s : State) : Micro :=
  match f with
  | .reset l => resetStep K l s
  | .readWord l => readWordStep K l s
  | .hwAddr l => hwAddrStep K l s
  | .submit l => submitStep K l s
  | .reconcile l => reconcileStep K l s
  | .drain l => drainStep K l s
  | .onInterrupt l => interruptStep K l s
  | .check l => checkStep K l s
  | .openBlock l => openStep K l s
  | .closeBlock l => closeStep K l s

/-- A labelled step's outcome as a step of context `c`. -/
def settle (c : Ctx) (m : Micro) : Host.Outcome State Fault Refusal :=
  match m with
  | .go s k => .next (applyCtl c k s)
  | .fault f => .fault f
  | .refused r => .refused r

/-- The next labelled step of context `c`; an idle context has none. -/
def advance (c : Ctx) (s : State) : Host.Outcome State Fault Refusal :=
  match (s.context c).stack with
  | [] => .next s
  | f :: _ => settle c (frameStep s.plat.values f s)

/-! ## The agenda -/

/-- The request at hand: its instruction, in the context R222 gives it. -/
def readRequest (K : Config.Values) (c : Ctx) (f : Format) (bytes : List Byte) : Except Refusal Instr :=
  match decode K f bytes with
  | .error e => .error (.illegalRequest e)
  | .ok i => if c = homeContext i then .ok i else .error .wrongContext

/-- One entry of the agenda, between two labelled steps of whoever runs (R11). -/
def applyMove (m : Move) (s : State) : Host.Outcome State Fault Refusal :=
  match m with
  | .request c f bytes =>
      match readRequest s.plat.values c f bytes with
      | .ok i => beginInstr i s
      | .error r => .refused r
  | .advance c => advance c s
  | .nic m => nicStep s.plat.values m s
  | .setCfg c => .next (hostSetCfg c s)
  | .grants irq tx rx => .next (platformGrants irq tx rx s)

/-- The context can only wait: the release of the IRQ line while `onInterrupt` runs (R243 X2, R241; DEDUCED,
log entry 17). -/
def waiting (c : Ctx) (s : State) : Bool :=
  !idle .interrupt s &&
    match (s.context c).stack with
    | .closeBlock .x2 :: _ => true
    | .openBlock (.releaseIrq _) :: _ => true
    | _ => false

/-- Who takes the next labelled step when the agenda names nobody: the context that runs, or the interrupt context
it waits for. -/
def turn (c : Ctx) (s : State) : Ctx := if waiting c s then .interrupt else c

/-- One step on the way to the return of context `c`'s operation: the agenda's next entry, or a labelled step. -/
def pace (c : Ctx) (s : State) : Host.Outcome State Fault Refusal :=
  match s.agenda with
  | [] => advance (turn c s) s
  | m :: rest => applyMove m { s with agenda := rest }

/-- Run until context `c` is idle, at most `k` steps (`Config.stepBudget`, log entry 3). -/
def runContext (c : Ctx) : Nat → State → Host.Outcome State Fault Refusal
  | 0, s => .next s
  | k + 1, s => if idle c s then .next s else andThen (pace c s) (runContext c k)

/-- An operation from its request to its return: its start, then its labelled steps with the agenda's entries
between them. -/
def runToReturn (c : Ctx) (start : Host.Outcome State Fault Refusal) : Host.Outcome State Fault Refusal :=
  andThen start (runContext c Config.stepBudget)

/-! ## Fetch -/

/-- The next thing on the agenda (R22, R234: "the block does nothing until the host requests an operation"). -/
def fetch (s : State) : Fetched :=
  match s.agenda with
  | [] => .nothing
  | .request c f bytes :: rest =>
      match readRequest s.plat.values c f bytes with
      | .ok i => .instr i { s with agenda := rest }
      | .error r => .refused r
  | m :: rest => .move m { s with agenda := rest }

/-- Nothing on the agenda: an operation that has not returned goes on, the interrupt context's first; with every
context idle nothing happens (R234). -/
def idleStep (s : State) : Host.Outcome State Fault Refusal :=
  if !idle .interrupt s then runContext .interrupt Config.stepBudget s
  else if !idle .submission s then runContext .submission Config.stepBudget s
  else runContext .bringup Config.stepBudget s

/-- A request of one table word, in the context and format its decoding gives it. -/
def tableRequest (nbits w : Nat) : Move :=
  .request (match decodeTableWord nbits w with | some i => homeContext i | none => .bringup)
    (tableFormat nbits w) (tableBytes nbits w)

end Sys2Proof.Machine
end

