-- ==== Sys2Proof/Machine/BringUp.lean ====
section
/-! DEFINITION. The meanings of the bring-up context's operations, from request to return: ResetSequencer (R113),
EepromSerialReader (R120, R129) and the lifecycle (R240, R243). -/

namespace Sys2Proof.Machine

/-- `reset()` (R112 to R118). -/
def execReset (s : State) : Host.Outcome State Fault Refusal := runToReturn .bringup (beginReset s)

/-- `readWord(address)` (R119 to R131). -/
def execReadWord (address : EeAddr) (s : State) : Host.Outcome State Fault Refusal :=
  runToReturn .bringup (beginReadWord address s)

/-- `readHardwareAddress()` (R129, R237). -/
def execReadHardwareAddress (s : State) : Host.Outcome State Fault Refusal :=
  runToReturn .bringup (beginReadHardwareAddress s)

/-- `open()` (R236 to R242, R245). -/
def execOpenBlock (s : State) : Host.Outcome State Fault Refusal := runToReturn .bringup (beginOpen s)

/-- `close()` (R243, R260). -/
def execCloseBlock (s : State) : Host.Outcome State Fault Refusal := runToReturn .bringup (beginClose s)

end Sys2Proof.Machine
end

