-- ==== Sys2Proof/Machine/Traffic.lean ====
section
/-! DEFINITION. The meanings of the traffic operations, from request to return: TxRingEngine (R133, R142),
RxRingEngine (R156), InterruptDispatcher (R170) and LinkMonitor (R181). -/

namespace Sys2Proof.Machine

/-- `submit(frame)` (R132 to R141). -/
def execSubmit (frame : List Byte) (s : State) : Host.Outcome State Fault Refusal :=
  runToReturn .submission (beginSubmit frame s)

/-- `reconcile()` (R142 to R149, R154). -/
def execReconcile (s : State) : Host.Outcome State Fault Refusal := runToReturn .interrupt (beginReconcile s)

/-- `drain()` (R155 to R164). -/
def execDrain (s : State) : Host.Outcome State Fault Refusal := runToReturn .interrupt (beginDrain s)

/-- `onInterrupt()` (R170 to R180). -/
def execOnInterrupt (s : State) : Host.Outcome State Fault Refusal := runToReturn .interrupt (beginOnInterrupt s)

/-- `check()` (R181 to R186). -/
def execCheck (s : State) : Host.Outcome State Fault Refusal := runToReturn .interrupt (beginCheck s)

end Sys2Proof.Machine
end

