-- ==== Sys2Proof/Machine/Dispatch.lean ====
section
/-! DEFINITION. One arm per instruction: the meaning it has. -/

namespace Sys2Proof.Machine

def exec (i : Instr) (s : State) : Host.Outcome State Fault Refusal :=
  match i with
  | .read8 off => Sys2Proof.Machine.execRead8 off s
  | .read16 off => Sys2Proof.Machine.execRead16 off s
  | .read32 off => Sys2Proof.Machine.execRead32 off s
  | .write8 off v => Sys2Proof.Machine.execWrite8 off v s
  | .write16 off v => Sys2Proof.Machine.execWrite16 off v s
  | .write32 off v => Sys2Proof.Machine.execWrite32 off v s
  | .writeRaw16 off v => Sys2Proof.Machine.execWriteRaw16 off v s
  | .writeRaw32 off v => Sys2Proof.Machine.execWriteRaw32 off v s
  | .reset => Sys2Proof.Machine.execReset s
  | .readWord address => Sys2Proof.Machine.execReadWord address s
  | .readHardwareAddress => Sys2Proof.Machine.execReadHardwareAddress s
  | .submit frame => Sys2Proof.Machine.execSubmit frame s
  | .reconcile => Sys2Proof.Machine.execReconcile s
  | .drain => Sys2Proof.Machine.execDrain s
  | .onInterrupt => Sys2Proof.Machine.execOnInterrupt s
  | .check => Sys2Proof.Machine.execCheck s
  | .openBlock => Sys2Proof.Machine.execOpenBlock s
  | .closeBlock => Sys2Proof.Machine.execCloseBlock s
  | .txcmd thresh len slot => Sys2Proof.Machine.execTxcmd thresh len slot s
  | .txstatInFlight b31 mid own size => Sys2Proof.Machine.execTxstatInFlight b31 mid own size s
  | .txstatSuccess b31 tabt mid tun own size => Sys2Proof.Machine.execTxstatSuccess b31 tabt mid tun own size s
  | .txstatError b31 abort mid underrun own size => Sys2Proof.Machine.execTxstatError b31 abort mid underrun own size s
  | .rxhdr size status => Sys2Proof.Machine.execRxhdr size status s
  | .eecmdRead address => Sys2Proof.Machine.execEecmdRead address s

end Sys2Proof.Machine
end

