-- ==== Sys2Proof/Machine/Step.lean ====
section
/-! DEFINITION. The step: what is next on the agenda, carried out.  A request at its head is decoded and its
instruction run to its return; any other entry is one step of the agent it names. -/

namespace Sys2Proof.Machine

/-- One step of the machine. -/
def step (s : State) : Host.Outcome State Fault Refusal :=
  match fetch s with
  | .instr i t => exec i t
  | .move m t => applyMove m t
  | .nothing => idleStep s
  | .refused r => .refused r

/-- `s` with the table word's request as the next thing on the agenda, so that the next `step` runs it. -/
def State.withFetchWord (s : State) (nbits w : Nat) : State :=
  { s with agenda := tableRequest nbits w :: s.agenda }

end Sys2Proof.Machine
end

