-- ==== Sys2Proof/Safety.lean ====
section
/-! DEFINITION. The terms claims use: where an operation may start, what it leaves when it has returned, the effects of
whole operations said without their loops (what is outstanding, what lies unread, what a link sequence reports), and
what counts as a safe state (the invariants).  The terms that say a register's bits or a buffer's size are at the
reference values, as the statements that use them are. -/

namespace Sys2Proof.Machine

open Config (reference)

/-! ## The configuration -/

/-- The machine has the reference values of R7 and R31 to R42.  No step changes them. -/
abbrev AtReference (s : State) : Prop := s.plat.values = reference

/-! ## Where an operation may start (R222, R134, R154, R179) -/

/-- Every context is `idle` (R22). -/
abbrev AllIdle (s : State) : Prop := s.bringup.stack = [] ∧ s.submission.stack = [] ∧ s.interrupt.stack = []

/-- `reset`, `readWord`, `readHardwareAddress` and `open` are permitted: `lifecycle = Down`, the contexts idle. -/
abbrev BringupReady (s : State) : Prop := s.eng.lifecycle = .down ∧ AllIdle s

/-- `submit` is permitted: `lifecycle = Up`, neither `submit` nor `close` in progress. -/
abbrev SubmitReady (s : State) : Prop :=
  s.eng.lifecycle = .up ∧ s.bringup.stack = [] ∧ s.submission.stack = []

/-- The interrupt context can be entered and its operations are permitted. -/
abbrev HandlerReady (s : State) : Prop :=
  s.eng.lifecycle = .up ∧ s.plat.irqHeld = true ∧ s.interrupt.stack = []

/-- The eight operations of RegisterInterface (R77). -/
def isAccessor : Instr → Bool
  | .read8 _ => true
  | .read16 _ => true
  | .read32 _ => true
  | .write8 _ _ => true
  | .write16 _ _ => true
  | .write32 _ _ => true
  | .writeRaw16 _ _ => true
  | .writeRaw32 _ _ => true
  | _ => false

/-- Context `c` is idle again, with the result `r`; all else as in `s`. -/
def returned (c : Ctx) (r : OpResult) (s : State) : State := setContext c ⟨[], some r⟩ s

/-! ## Transmit: what is outstanding and what one `reconcile` reports (R26, R144 to R149) -/

/-- The outstanding slots, "`hw, hw+1, .., cpu-1` (mod `N_TX`) in that order" (R26). -/
def outstandingSlots (e : Engine) : List Nat :=
  (List.range (outstanding reference e)).map (fun k => (e.hw + k) % 4)

/-- The outstanding slots before the first that is still in flight (R144). -/
def completedPrefix (s : State) : List Nat :=
  (outstandingSlots s.eng).takeWhile (fun i => !inFlight reference (atSlot s.nic.tsd i))

/-- What `reconcile` reports of a status word that is not in flight (R81, R145, R146). -/
def slotEvent (w : Word) : Event :=
  if txSucceeded reference w then .txDone (txSize reference w)
  else .txError (txUnderrun reference w) (txAborted reference w)

/-- The state a whole `reconcile` leaves, its loop said at once: the completed prefix is reported in order and
retired, `ISR.TER` is cleared if one of it is an error, `Resume` follows if the ring had been reported full. -/
def reconciled (s : State) : State :=
  { s with
    events := s.events ++ (completedPrefix s).map (fun i => slotEvent (atSlot s.nic.tsd i)) ++
      (if s.eng.txStopped && !(completedPrefix s).isEmpty then [.resume] else [])
    eng := { s.eng with
      hw := (s.eng.hw + (completedPrefix s).length) % 4
      txStopped := s.eng.txStopped && (completedPrefix s).isEmpty }
    nic := { s.nic with
      isr := if (completedPrefix s).any (fun i => !txSucceeded reference (atSlot s.nic.tsd i))
        then s.nic.isr &&& ~~~0x0008#16 else s.nic.isr } }

/-! ## Receive: the records that lie unread (R82, R160, R161, R194) -/

/-- The byte at buffer offset `k`, "taken modulo `RX_BUF_LEN`" (R61, R160). -/
def rxByte (s : State) (k : Nat) : Byte := byteAt s (s.plat.params.rxDmaBase.toNat + k % 8192)

/-- A record with size field `size` and payload `payload` lies at offset `off`. -/
structure RecordLies (s : State) (off size : Half) (payload : List Byte) : Prop where
  header : headerOk reference off size = true
  sizeLow : rxByte s (off.toNat + 2) = size.extractLsb' 0 8
  sizeHigh : rxByte s (off.toNat + 3) = size.extractLsb' 8 8
  bytes : payload = (List.range (size.toNat - 4)).map (fun j => rxByte s (off.toNat + 4 + j))

/-- Records lie back to back from offset `off`. -/
def RecordsLie (s : State) : Half → List (Half × List Byte) → Prop
  | _, [] => True
  | off, r :: rest =>
      RecordLies s off r.1 r.2 ∧ RecordsLie s (advanceOffset reference off (footprint reference r.1.toNat)) rest

/-- "the exact sum of 4-byte-aligned record sizes" (R169). -/
def footprints (recs : List (Half × List Byte)) : Nat := (recs.map (fun r => footprint reference r.1.toNat)).sum

/-- Exactly the records `recs` lie unread: the NIC's read pointer is the block's `rx_off`, its write pointer stands
after the last of them (R194, R195). -/
structure Unread (s : State) (recs : List (Half × List Byte)) : Prop where
  held : s.plat.rxHeld = true
  room : footprints recs < 8192
  offset : s.eng.rxOff.toNat < 8192
  readPointer : s.nic.rxRd = s.eng.rxOff
  writePointer : s.nic.rxWr = advanceOffset reference s.eng.rxOff (footprints recs)
  records : RecordsLie s s.eng.rxOff recs

/-- The state a whole `drain` leaves: every payload delivered in order, the offset behind them committed (R161,
R162, R169). -/
def drained (recs : List (Half × List Byte)) (s : State) : State :=
  if recs = [] then s
  else
    { s with
      events := s.events ++ recs.map (fun r => .delivered r.2)
      eng := { s.eng with rxOff := advanceOffset reference s.eng.rxOff (footprints recs) }
      nic := { s.nic with
        capr := advanceOffset reference s.eng.rxOff (footprints recs) - 16#16
        rxRd := advanceOffset reference s.eng.rxOff (footprints recs) } }

/-! ## The interrupt as a whole (R172 to R175, R218) -/

/-- The acknowledgment: "every bit that was set is cleared" (R172). -/
def acknowledged (s : State) : State := { s with nic := { s.nic with isr := 0#16 } }

/-- What the routing does for the masked status `m`, in the order link, receive, transmit (R174). -/
def serviced (m : Half) (recs : List (Half × List Byte)) (s : State) : State :=
  let a := if m &&& 0x0020#16 = 0#16 then s else linkEdge s.nic.linkBad s
  let b := if m &&& 0x0003#16 = 0#16 then a else drained recs a
  if m &&& 0x000C#16 = 0#16 then b else reconciled b

/-! ## Link (R183, R184) -/

/-- The events of a sequence of link-bad samples, from the state `link_prev`. -/
def linkEvents : Link → List Bool → List Event
  | _, [] => []
  | .down, false :: bs => .linkUp :: linkEvents .up bs
  | .down, true :: bs => linkEvents .down bs
  | .up, true :: bs => .linkDown :: linkEvents .down bs
  | .up, false :: bs => linkEvents .up bs

/-- One `check` after each of a sequence of link states. -/
def sampleLinks : List Bool → State → Host.Outcome State Fault Refusal
  | [], s => .next s
  | b :: bs, s => andThen (exec .check (devLink reference b s)) (sampleLinks bs)

/-! ## Invariants -/

/-- The memory keeps its canonical form. -/
abbrev MemCanonical (s : State) : Prop := Memory.wf s.mem = true

/-- Every written byte lies in a DMA buffer that is held: "Both buffers exist only while `lifecycle = Up` or inside
`open`/`close`" (R28). -/
def MemHeld (s : State) : Prop := ∀ c ∈ s.mem, mapped s.plat.values s.plat c.1 1 = true

/-- `rx_off` is "a multiple of 4 at every step label" (R17). -/
abbrev RxAligned (s : State) : Prop := s.eng.rxOff.toNat % 4 = 0

/-- The offset and the NIC's two pointers stand inside the receive buffer: in `[0, RX_BUF_LEN)` (R17, R195). -/
abbrev RxInRange (s : State) : Prop :=
  s.eng.rxOff.toNat < 8192 ∧ s.nic.rxRd.toNat < 8192 ∧ s.nic.rxWr.toNat < 8192

/-- The slot-indexed registers and states have an entry for each of the `N_TX` slots, the indexes are slots (R14, R15:
"values are in `[0, N_TX)`"), and `hwaddr` has `2 * EE_HWADDR_WORDS` bytes (R129). -/
abbrev Shaped (s : State) : Prop :=
  (s.nic.tsd.length = s.plat.values.nTx ∧ s.nic.tsad.length = s.plat.values.nTx ∧
    s.nic.tx.length = s.plat.values.nTx) ∧
  (s.eng.cpu < s.plat.values.nTx ∧ s.eng.hw < s.plat.values.nTx) ∧
  s.eng.hwAddr.length = 2 * s.plat.values.eeHwAddrWords

/-- The armed slots are those of the arming order, once each; while armed, a slot's `TSD` reads its length and the
three status bits as 0 (R190, R191). -/
structure ArmedOk (s : State) : Prop where
  once : s.nic.armOrder.Nodup
  armed : ∀ i len, atSlot s.nic.tx i = .armed len →
    i ∈ s.nic.armOrder ∧ inFlight reference (atSlot s.nic.tsd i) = true ∧
      txSize reference (atSlot s.nic.tsd i) = len
  order : ∀ i ∈ s.nic.armOrder, ∃ len, atSlot s.nic.tx i = .armed len

/-- The context a control location belongs to (R222). -/
def frameContext : Frame → Ctx
  | .reset _ => .bringup
  | .readWord _ => .bringup
  | .hwAddr _ => .bringup
  | .submit _ => .submission
  | .reconcile _ => .interrupt
  | .drain _ => .interrupt
  | .onInterrupt _ => .interrupt
  | .check _ => .interrupt
  | .openBlock _ => .bringup
  | .closeBlock _ => .bringup

/-- The calls there are: the operation that runs, and the label it comes back to: those of the interrupt context (R22,
R92, R180), and `reset` above `open`'s `o4r` and `readWord` above R129's store (DESIGN CHOICE, log entry 32). -/
def callOk : Frame → Frame → Bool
  | .reset _, .openBlock .o4r => true
  | .readWord _, .hwAddr (.store _) => true
  | .check _, .onInterrupt (.i5 _) => true
  | .drain _, .onInterrupt (.i6 _) => true
  | .reconcile _, .onInterrupt .i7 => true
  | _, _ => false

/-- A context's stack: idle, one operation of its own, or one call deep (R22; the bring-up context's calls: log
entry 32). -/
def stackOk (c : Ctx) : List Frame → Bool
  | [] => true
  | [f] => decide (frameContext f = c)
  | [f, g] => callOk f g && decide (frameContext g = c)
  | _ :: _ :: _ :: _ => false

/-- Every context runs its own operations only (R22, R222; the bring-up context's calls: log entry 32). -/
structure ContextsOk (s : State) : Prop where
  bringup : stackOk .bringup s.bringup.stack = true
  submission : stackOk .submission s.submission.stack = true
  interrupt : stackOk .interrupt s.interrupt.stack = true

/-- The interrupt context has work routed to it: a nonzero masked status, or a routed operation (R174). -/
def routing : List Frame → Bool
  | .onInterrupt (.i4 m) :: _ => !(m == 0#16)
  | .onInterrupt (.i5 m) :: _ => !(m == 0#16)
  | .onInterrupt (.i6 m) :: _ => !(m == 0#16)
  | .check _ :: _ => true
  | .drain _ :: _ => true
  | .reconcile _ :: _ => true
  | _ => false

/-- What is held: the IRQ line, `txbuf`, `rxbuf`. -/
abbrev Holds (irq tx rx : Bool) (s : State) : Prop :=
  s.plat.irqHeld = irq ∧ s.plat.txHeld = tx ∧ s.plat.rxHeld = rx

/-- `lifecycle = Down`, nothing enabled, nothing routed, with these resources held. -/
abbrev Preparing (irq tx rx : Bool) (s : State) : Prop :=
  s.eng.lifecycle = .down ∧ Holds irq tx rx s ∧ s.eng.irqEnabled = 0#16 ∧ routing s.interrupt.stack = false

/-- `lifecycle = Up` with everything held and the last `reset` successful. -/
abbrev Running (enabled : Half) (s : State) : Prop :=
  s.eng.lifecycle = .up ∧ Holds true true true s ∧ s.eng.irqEnabled = enabled ∧ s.eng.ringOk = true

/-- `close` after the handler is gone. -/
abbrev Closing (tx rx : Bool) (s : State) : Prop :=
  s.eng.lifecycle = .up ∧ Holds false tx rx s ∧ s.eng.irqEnabled = 0#16

/-- What `lifecycle`, the resources and `irq_enabled` are at each control location of the bring-up context (R21,
R28, R240, R241, R243).  The stages at `o4r` and of the `reset` above it are those of log entry 32 (DESIGN CHOICE). -/
def stageOk (s : State) : List Frame → Prop
  | [] => Preparing false false false s ∨ Running s.plat.params.irqEnableSet s
  | [.openBlock .o2] => Preparing true false false s
  | [.openBlock .o3] => Preparing true true false s
  | [.openBlock .o4] => Preparing true true true s
  | [.reset _, .openBlock .o4r] => Preparing true true true s
  | [.openBlock .o4r] => Preparing true true true s ∧ (s.bringup.result = some .ok → s.eng.ringOk = true)
  | [.openBlock .o5] => Preparing true true true s ∧ s.eng.ringOk = true
  | [.openBlock (.o6 _)] => Preparing true true true s ∧ s.eng.ringOk = true
  | [.openBlock .o7] => Preparing true true true s ∧ s.eng.ringOk = true
  | [.openBlock .o8] => Preparing true true true s ∧ s.eng.ringOk = true
  | [.openBlock .o9] => Preparing true true true s ∧ s.eng.ringOk = true
  | [.openBlock .o10] => Preparing true true true s ∧ s.eng.ringOk = true
  | [.openBlock .o11] =>
      s.eng.lifecycle = .down ∧ Holds true true true s ∧ s.eng.irqEnabled = s.plat.params.irqEnableSet ∧
        s.eng.ringOk = true
  | [.openBlock (.releaseRx _)] => Preparing true true true s
  | [.openBlock (.releaseTx _)] => Preparing true true false s
  | [.openBlock (.releaseIrq _)] => Preparing true false false s
  | [.closeBlock .x1] => Running s.plat.params.irqEnableSet s
  | [.closeBlock .x2] => Running 0#16 s
  | [.closeBlock .x3] => Closing true true s
  | [.closeBlock .x4] => Closing false true s
  | [.closeBlock .x5] => Closing false false s
  | _ => Preparing false false false s

/-- What a control location carries is what the block may use: a frame that fits its slot (R135), a slot there is
(R60), a record that fits the buffer (R158). -/
def sizesOk (s : State) : List Frame → Prop
  | .submit (.s2a frame i) :: _ => frame.length + 4 ≤ 1536 ∧ i < 4
  | .submit (.s2b frame i) :: _ => frame.length + 4 ≤ 1536 ∧ i < 4
  | .drain (.d4 size) :: _ => headerOk reference s.eng.rxOff size = true
  | _ => True

/-- The session: what holds at every moment between power-on and shutdown.  That no handler outlives the line's release
on `open`'s failure paths, and that one may run inside `open`, are log entry 17 (DEDUCED). -/
structure Session (s : State) : Prop where
  contexts : ContextsOk s
  stage : stageOk s s.bringup.stack
  submitting : s.submission.stack ≠ [] → s.bringup.stack = [] ∧ s.eng.lifecycle = .up
  handling : s.interrupt.stack ≠ [] → s.plat.irqHeld = true
  routed : routing s.interrupt.stack = true → s.eng.ringOk = true ∧ s.plat.rxHeld = true
  submitSizes : sizesOk s s.submission.stack
  drainSizes : sizesOk s s.interrupt.stack

end Sys2Proof.Machine
end

