-- ==== Sys2Proof/Certificates/Slice0/Obligations.lean ====
section
/-! DEFINITION. The statements for the provers, from the numbered rules of the spec.  Each docstring names the rules;
where a statement rests on a choice of the model it names the log entry.

A register's bits, a buffer's size and every other value the spec decides are those of the configuration record
(R7, R31, log entry 26).  A statement that names them as the spec's tables give them is about the reference values: a
state that has them (`AtReference`, which no step changes) or an operation given them (`reference`).  `Shaped` says that
the slot-indexed lists have `N_TX` entries and that `cpu` and `hw` are slots; every step keeps it. -/

open Sys2Proof Sys2Proof.Machine
open Sys2Proof.Config (reference)

/-! ## Encoding (R75 to R91) -/

/-- Decoding the encoding of a well-formed instruction gives it back, every operand at every value (R77 to R84).  The
operand bytes beside an `OPSEL` are the model's layout (log entry 1). -/
def Obligations.DecodeOfEncode : Prop :=
  ∀ i : Instr, i.wellFormed reference = true → decode reference i.format (encode i) = .ok i

/-- Bytes that decode are the encoding of what they decode to: no bit of a word is dropped, no two words share a
meaning (R77 to R84).  Layout beside an `OPSEL`: log entry 1. -/
def Obligations.EncodeOfDecode : Prop :=
  ∀ f bytes i, decode reference f bytes = .ok i → i.format = f ∧ encode i = bytes

/-- R88, with the lists of R77 and R78: each listed selector selects an operation for some operands, every other one is
refused by the step that fetches it, whatever the context and the operands. -/
def Obligations.UnlistedSelectorsAreRefused : Prop :=
  (∀ op ∈ [0x00#8, 0x01#8, 0x02#8, 0x04#8, 0x05#8, 0x06#8, 0x0D#8, 0x0E#8, 0x10#8, 0x20#8, 0x21#8, 0x30#8, 0x31#8,
      0x40#8, 0x50#8, 0x60#8, 0x70#8, 0x71#8], ∀ K, ∃ operands i, decode K .opsel (op :: operands) = .ok i) ∧
  (∀ op ∉ [0x00#8, 0x01#8, 0x02#8, 0x04#8, 0x05#8, 0x06#8, 0x0D#8, 0x0E#8, 0x10#8, 0x20#8, 0x21#8, 0x30#8, 0x31#8,
      0x40#8, 0x50#8, 0x60#8, 0x70#8, 0x71#8], ∀ c operands rest s,
    s.agenda = .request c .opsel (op :: operands) :: rest →
      step s = .refused (.illegalRequest (.reservedSelector op)))

/-- Words written out from the patterns of R77, R78, R79, R81 and R84 decode to what they stand for. -/
def Obligations.WordsOfTheTable : Prop :=
  decodeTableWord 8 0x3702 = some (.read32 0x37#8) ∧
  decodeTableWord 8 0x002F3C05 = some (.write16 0x3C#8 0x002F#16) ∧
  decodeTableWord 8 0x31 = some .reconcile ∧
  decodeTableWord 8 0x71 = some .closeBlock ∧
  decodeTableWord 32 0x0008003C = some (.txcmd 0b001000#6 60#13 0) ∧
  decodeTableWord 32 0x0008A03C = some (.txstatSuccess 0#1 0#1 0b001000#14 0#1 1#1 60#13) ∧
  decodeTableWord 32 0x4008403C = some (.txstatError 0#1 1#1 0b001000#14 1#1 0#1 60#13) ∧
  decodeTableWord 9 0x187 = some (.eecmdRead 7#16)

/-- R81: the three classes of a status word, "Success takes precedence over the error bits", in an error at least one
of the two bits is 1, all other bits ignored; and `reconcile` goes on from C2b by the same classes. -/
def Obligations.StatusWordClasses : Prop :=
  ∀ w : Word,
    (w &&& 0x4000C000#32 = 0#32 → ∃ b31 mid own size, decodeTxstat reference w = .txstatInFlight b31 mid own size) ∧
    (w &&& 0x4000C000#32 ≠ 0#32 → w &&& 0x00008000#32 ≠ 0#32 →
      ∃ b31 tabt mid tun own, decodeTxstat reference w = .txstatSuccess b31 tabt mid tun own (w.extractLsb' 0 13)) ∧
    (w &&& 0x4000C000#32 ≠ 0#32 → w &&& 0x00008000#32 = 0#32 →
      (∃ b31 mid own size,
        decodeTxstat reference w = .txstatError b31 (w.extractLsb' 30 1) mid (w.extractLsb' 14 1) own size) ∧
      (w.getLsbD 14 = true ∨ w.getLsbD 30 = true)) ∧
    (∀ (s : State) (c old : Nat), s.eng.ringOk = true → atSlot s.nic.tsd s.eng.hw = w →
      reconcileStep reference (.c2b c old) s = .go s (.goto (.reconcile
        (if w &&& 0x4000C000#32 = 0#32 then .c3 old
         else if w &&& 0x00008000#32 ≠ 0#32 then .c2c c old (w.extractLsb' 0 13)
         else .c2d c old (w.getLsbD 14) (w.getLsbD 30)))))

/-- R80: the submit command of an accepted frame is the disjoint union of the threshold flags and the length. -/
def Obligations.SubmitCommandIsADisjointUnion : Prop :=
  ∀ (p : Config.Params) (frame : List Byte), p.txThreshFlags &&& ~~~0x003F0000#32 = 0#32 →
    oversized reference frame = false →
      finalLength reference frame.length ≤ 1536 - 4 ∧
      BitVec.ofNat 32 (finalLength reference frame.length) &&& ~~~0x00001FFF#32 = 0#32 ∧
      p.txThreshFlags &&& BitVec.ofNat 32 (finalLength reference frame.length) = 0#32 ∧
      submitCommand p (finalLength reference frame.length) =
        p.txThreshFlags ||| BitVec.ofNat 32 (max frame.length 60) ∧
      submitCommand p (finalLength reference frame.length) =
        txcmdWord (p.txThreshFlags.extractLsb' 16 6) (BitVec.ofNat 13 (max frame.length 60))

/-! ## The step -/

/-- A request at the head of the agenda is decoded and its instruction run; one in a context R222 does not give it is
refused.  Any other entry is one step of the agent it names; with an empty agenda and every context idle "the block does
nothing" (R234).  How requests reach the machine, the agenda, is the model's (log entry 3). -/
def Obligations.StepRunsTheDecodedRequest : Prop :=
  ∀ (s : State) (rest : List Move),
    (∀ (c : Ctx) (f : Format) (bytes : List Byte) (i : Instr),
      s.agenda = .request c f bytes :: rest → decode s.plat.values f bytes = .ok i →
        (c = homeContext i → step s = exec i { s with agenda := rest }) ∧
        (c ≠ homeContext i → step s = .refused .wrongContext)) ∧
    (∀ c, s.agenda = .advance c :: rest → step s = advance c { s with agenda := rest }) ∧
    (∀ m, s.agenda = .nic m :: rest → step s = nicStep s.plat.values m { s with agenda := rest }) ∧
    (s.agenda = [] → AllIdle s → step s = .next s)

/-! ## RegisterInterface (R100 to R111) -/

/-- R101, R102, R103: a read returns the wire bytes of one transaction, the byte at `off` least significant, and changes
nothing else (one draw fixes the bits that read as any value).  The host's accesses need every context idle (R6, log
entry 16), in this and the following statements. -/
def Obligations.ReadsReturnTheWireBytes : Prop :=
  ∀ (s : State) (off : BitVec 8), AtReference s → AllIdle s →
    exec (.read8 off) s = .next (returned .bringup (.value8 (readByte reference s off.toNat 0)) (drew 1 s)) ∧
    (off.toNat % 2 = 0 → exec (.read16 off) s = .next (returned .bringup
      (.value16 (readByte reference s off.toNat 1 ++ readByte reference s off.toNat 0)) (drew 1 s))) ∧
    (off.toNat % 4 = 0 → exec (.read32 off) s = .next (returned .bringup
      (.value32 (readByte reference s off.toNat 3 ++ readByte reference s off.toNat 2 ++
        readByte reference s off.toNat 1 ++ readByte reference s off.toNat 0)) (drew 1 s)))

/-- R45: every register of R31 occupies its bytes least significant first, its named bits and the bits that read as any
value alike. -/
def Obligations.RegistersAreLittleEndian : Prop :=
  ∀ (s : State) (row : Config.RegRow) (k : Nat), row ∈ reference.regMap → k < row.width →
    namedByte reference s (row.off + k) = (regNamed reference s row.reg).extractLsb' (8 * k) 8 ∧
    unnamedByte reference s (row.off + k) = (regUnnamed reference s row.reg).extractLsb' (8 * k) 8 ∧
    ∃ d : Byte, readByte reference s row.off k =
      namedByte reference s (row.off + k) ||| (d &&& unnamedByte reference s (row.off + k))

/-- R46 for the registers a host can set to any value: what a typed write stores, a typed read returns, whatever
`HOST_BE` is: `IDR0` to `IDR5` (R32), `TSAD[i]`, `CAPR`, `IMR`, `RBSTART`, of `TCR` the named field (R40, U8); and R50:
reads of other widths see the bytes a wider write stored (`RBSTART` in halves and a byte). -/
def Obligations.TypedAccessRoundTrip : Prop :=
  ∀ (s : State), AtReference s → Shaped s → AllIdle s →
    (∀ (k : Fin 6) (v : Byte), ∃ t u, exec (.write8 (BitVec.ofNat 8 k.val) v) s = .next t ∧
      exec (.read8 (BitVec.ofNat 8 k.val)) t = .next u ∧ u.bringup.result = some (.value8 v)) ∧
    (∀ (i : Nat) (v : Word), i < 4 → ∃ t u, exec (.write32 (BitVec.ofNat 8 (0x20 + 4 * i)) v) s = .next t ∧
      exec (.read32 (BitVec.ofNat 8 (0x20 + 4 * i))) t = .next u ∧ u.bringup.result = some (.value32 v)) ∧
    (∀ v : Word, ∃ t u r, exec (.write32 0x40#8 v) s = .next t ∧ exec (.read32 0x40#8) t = .next u ∧
      u.bringup.result = some (.value32 r) ∧ r &&& 0x00060000#32 = v &&& 0x00060000#32) ∧
    (∀ v : Half, ∃ t u, exec (.write16 0x38#8 v) s = .next t ∧ exec (.read16 0x38#8) t = .next u ∧
      u.bringup.result = some (.value16 v)) ∧
    (∀ v : Half, ∃ t u, exec (.write16 0x3C#8 v) s = .next t ∧ exec (.read16 0x3C#8) t = .next u ∧
      u.bringup.result = some (.value16 v)) ∧
    (∀ v : Word, ∃ t u w x y, exec (.write32 0x30#8 v) s = .next t ∧
      exec (.read32 0x30#8) t = .next u ∧ u.bringup.result = some (.value32 v) ∧
      exec (.read16 0x30#8) t = .next w ∧ w.bringup.result = some (.value16 (v.extractLsb' 0 16)) ∧
      exec (.read16 0x32#8) t = .next x ∧ x.bringup.result = some (.value16 (v.extractLsb' 16 16)) ∧
      exec (.read8 0x33#8) t = .next y ∧ y.bringup.result = some (.value8 (v.extractLsb' 24 8)))

/-- R104, R105, R106: a typed write is one transaction of the value's bytes, least significant at `off`, on any host. -/
def Obligations.TypedWritesPutLittleEndianBytes : Prop :=
  ∀ (s : State) (off : BitVec 8), AtReference s → AllIdle s →
    (∀ v : Byte, exec (.write8 off v) s = .next (returned .bringup .done (regWrite reference off.toNat [v] s))) ∧
    (∀ v : Half, off.toNat % 2 = 0 → exec (.write16 off v) s =
      .next (returned .bringup .done (regWrite reference off.toNat [v.extractLsb' 0 8, v.extractLsb' 8 8] s))) ∧
    (∀ v : Word, off.toNat % 4 = 0 → exec (.write32 off v) s =
      .next (returned .bringup .done (regWrite reference off.toNat
        [v.extractLsb' 0 8, v.extractLsb' 8 8, v.extractLsb' 16 8, v.extractLsb' 24 8] s)))

/-- R107, R108: a raw write puts the host's in-memory bytes on the wire: most significant first on a big-endian host,
identical to the typed write otherwise. -/
def Obligations.RawWritesPutHostBytes : Prop :=
  ∀ (s : State) (off : BitVec 8), AtReference s → AllIdle s →
    (∀ v : Half, off.toNat % 2 = 0 →
      (s.plat.params.hostBE = true → exec (.writeRaw16 off v) s =
        .next (returned .bringup .done (regWrite reference off.toNat [v.extractLsb' 8 8, v.extractLsb' 0 8] s))) ∧
      (s.plat.params.hostBE = false → exec (.writeRaw16 off v) s = exec (.write16 off v) s) ∧
      (s.plat.params.hostBE = true → exec (.writeRaw16 off v) s = exec (.write16 off (bswap16 v)) s)) ∧
    (∀ v : Word, off.toNat % 4 = 0 →
      (s.plat.params.hostBE = true → exec (.writeRaw32 off v) s =
        .next (returned .bringup .done (regWrite reference off.toNat
          [v.extractLsb' 24 8, v.extractLsb' 16 8, v.extractLsb' 8 8, v.extractLsb' 0 8] s))) ∧
      (s.plat.params.hostBE = false → exec (.writeRaw32 off v) s = exec (.write32 off v) s) ∧
      (s.plat.params.hostBE = true → exec (.writeRaw32 off v) s = exec (.write32 off (bswap32 v)) s))

/-- R32, R107, R108: the six bytes `m0 .. m5` the host holds as a 32-bit and a 16-bit value reach `IDR0 .. IDR5` in
memory order on either host, and nothing else changes. -/
def Obligations.RawWritesCopyTheHardwareAddress : Prop :=
  ∀ (s : State) (m0 m1 m2 m3 m4 m5 : Byte) (v : Word) (w : Half), AtReference s → AllIdle s →
    hostBytes32 s.plat.params.hostBE v = [m0, m1, m2, m3] → hostBytes16 s.plat.params.hostBE w = [m4, m5] →
      ∃ t, exec (.writeRaw32 0x00#8 v) s = .next t ∧
        exec (.writeRaw16 0x04#8 w) t = .next
          { s with nic := { s.nic with idr := #v[m0, m1, m2, m3, m4, m5] }, bringup := ⟨[], some .done⟩ }

/-- R51 (and R109): a misaligned access, or one that reaches outside the window, is refused in every state; the accesses
the block's own rules make are none of these. -/
def Obligations.BadAccessesAreRefused : Prop :=
  (∀ (s : State) (off : BitVec 8), AtReference s →
    (¬ (off.toNat % 2 = 0 ∧ off.toNat + 2 ≤ 0x100) → ∀ v,
      exec (.read16 off) s = .refused .badAccess ∧ exec (.write16 off v) s = .refused .badAccess ∧
      exec (.writeRaw16 off v) s = .refused .badAccess) ∧
    (¬ (off.toNat % 4 = 0 ∧ off.toNat + 4 ≤ 0x100) → ∀ v,
      exec (.read32 off) s = .refused .badAccess ∧ exec (.write32 off v) s = .refused .badAccess ∧
      exec (.writeRaw32 off v) s = .refused .badAccess)) ∧
  (∀ row ∈ reference.regMap, row.off % row.width = 0 ∧ row.off + row.width ≤ 0x100)

/-- R109: no access faults, writes an engine register or emits an event; what an access may change is its result, the
NIC, the EEPROM's serial state behind the window, and draws.  R109 and R51 refuse a bad access only; the refusals while
a context is active are the model's reading of R6 and R22 (log entry 16). -/
def Obligations.AccessorsWriteNoEngineRegister : Prop :=
  ∀ (s : State) (i : Instr),
    isAccessor i = true →
    (∀ e, exec i s ≠ .fault e) ∧ (∀ r, exec i s = .refused r → r = .badAccess ∨
      (r = .contextBusy ∧ s.bringup.stack ≠ []) ∨
      (r = .otherContextActive ∧ (s.submission.stack ≠ [] ∨ s.interrupt.stack ≠ []))) ∧
    (∀ t, exec i s = .next t → ∃ n e d k r, t = { s with
      nic := n, ee := e, draws := d, freeCount := k, bringup := ⟨s.bringup.stack, some r⟩ } ∧ e.cells = s.ee.cells)

/-- The registers whose write does more than store (R56): a write of `w` to `ISR` "clears exactly the bits set in `w`"
(R39); `CR` takes `TE` and `RE`, starts the NIC's reset if bit 4 is 1 and leaves `BUFE` alone (R36, R117, R188); a write
of `c` to `CAPR` moves the read pointer to `((c + 16) mod 65536) mod 8192` (R196).  Nothing else changes.  That a write
of `CR` while a reset is in progress takes `TE` and `RE` at once and does not end it is the model's (log entry 25). -/
def Obligations.RegisterWriteReactions : Prop :=
  ∀ s : State, AtReference s → AllIdle s →
    (∀ w : Half, exec (.write16 0x3E#8 w) s = .next
      { s with nic := { s.nic with isr := s.nic.isr &&& ~~~w }, bringup := ⟨[], some .done⟩ }) ∧
    (∀ v : Byte, exec (.write8 0x37#8 v) s = .next
      { s with
        nic := { s.nic with te := v.getLsbD 2, re := v.getLsbD 3, resetting := s.nic.resetting || v.getLsbD 4 }
        bringup := ⟨[], some .done⟩ }) ∧
    (∀ c : Half, ∃ t, exec (.write16 0x38#8 c) s = .next t ∧
      t = { s with nic := { s.nic with capr := c, rxRd := t.nic.rxRd }, bringup := ⟨[], some .done⟩ } ∧
      t.nic.rxRd.toNat = (c.toNat + 16) % 65536 % 8192)

/-- R190 for a word of the host: a write of `TSD[i]` arms slot `i` only; the register then reads `w` with the three
status bits 0; nothing else changes.  Dropping the status bits of a host's word and the place in the arming order are
the model's (log entries 9 and 13). -/
def Obligations.StatusRegisterWriteArmsItsSlot : Prop :=
  ∀ (s : State) (i : Nat) (w : Word), AtReference s → Shaped s → AllIdle s → i < 4 → ∃ t,
    exec (.write32 (BitVec.ofNat 8 (0x10 + 4 * i)) w) s = .next t ∧
    atSlot t.nic.tsd i = w &&& ~~~0x4000C000#32 ∧ atSlot t.nic.tx i = .armed (w.extractLsb' 0 13) ∧
    (∀ j, j ≠ i → atSlot t.nic.tsd j = atSlot s.nic.tsd j ∧ atSlot t.nic.tx j = atSlot s.nic.tx j) ∧
    t = { s with nic := { s.nic with tsd := t.nic.tsd, tx := t.nic.tx,
                                     armOrder := s.nic.armOrder.filter (· != i) ++ [i] },
                 bringup := ⟨[], some .done⟩ }

/-- R79, R190: a `TXCMD` at slot `i` arms that slot with its length; nothing else changes.  The word's stand-alone
meaning and the conditions on it are the model's (log entry 5), and so is the place in the arming order of a slot that
is armed already (log entry 13); a slot there is not is refused (log entry 26). -/
def Obligations.TxcmdArmsItsSlot : Prop :=
  ∀ (s : State) (thresh : BitVec 6) (len : BitVec 13) (i : Nat), AtReference s →
    (i < 4 → s.submission.stack = [] → s.bringup.stack = [] →
      exec (.txcmd thresh len i) s = .next
        { s with
          nic := { s.nic with
            tsd := setSlot s.nic.tsd i (0#10 ++ thresh ++ 0#3 ++ len)
            tx := setSlot s.nic.tx i (.armed len)
            armOrder := s.nic.armOrder.filter (· != i) ++ [i] }
          submission := ⟨[], some .done⟩ }) ∧
    (4 ≤ i → exec (.txcmd thresh len i) s = .refused (.illegalRequest .notTxcmd))

/-! ## ResetSequencer (R112 to R118) -/

/-- R115, R189: when the NIC finishes after `n < 1000` unsuccessful polls, `reset` returns `Ok` with `cpu` and `hw` 0
and the NIC in the state of R189; no other engine register, no memory, no event and no EEPROM cell changes. -/
def Obligations.ResetSucceeds : Prop :=
  ∀ (s : State) (n : Nat), AtReference s → BringupReady s → n < 1000 →
    s.agenda = List.replicate (1 + 3 * n) (.advance .bringup) ++ [.nic .resetDone] →
    ∃ nic ee, exec .reset s = .next
      { drew 18 s with
        eng := { s.eng with cpu := 0, hw := 0, ringOk := true }
        nic := nic
        ee := ee
        agenda := []
        bringup := ⟨[], some .ok⟩ } ∧
      nic.te = false ∧ nic.re = false ∧ nic.rxRd = 0#16 ∧ nic.rxWr = 0#16 ∧ nic.isr = 0#16 ∧ nic.imr = 0#16 ∧
      nic.resetting = false ∧ nic.tx = [.idle, .idle, .idle, .idle] ∧ nic.armOrder = [] ∧
      nic.linkBad = s.nic.linkBad ∧ nic.sent = s.nic.sent ∧ ee.cells = s.ee.cells

/-- R118: with a NIC that never finishes, the trace is T1, then 1000 times (T2a, T2b, T2c), then T4, and `reset` returns
`Timeout` with the indices unspecified (R116).  What R44 leaves specified then: no other engine register and no event
changes, `CR` has `TE`, `RE` 0 and `RST` 1, the link and the EEPROM's cells are as before; no label writes memory. -/
def Obligations.ResetTimesOut : Prop :=
  ∀ s : State, AtReference s → BringupReady s → s.agenda = [] →
    (∃ cpu hw nic ee d k, exec .reset s = .next
      { s with
        eng := { s.eng with cpu := cpu, hw := hw, ringOk := false }
        nic := nic
        ee := ee
        draws := d
        freeCount := k
        bringup := ⟨[], some .timeout⟩ } ∧
      nic.te = false ∧ nic.re = false ∧ nic.resetting = true ∧ nic.linkBad = s.nic.linkBad ∧
      nic.sent = s.nic.sent ∧ ee.cells = s.ee.cells) ∧
    (∀ i < 1000, ∃ t u v, runContext .bringup (1 + 3 * i) (enterOp .bringup (.reset .t1) s) = .next t ∧
      t.bringup.stack = [.reset (.t2a (i + 1))] ∧ crNamed reference t.nic &&& 0x10#8 = 0x10#8 ∧
      advance .bringup t = .next u ∧ u.bringup.stack = [.reset (.t2b (i + 1) (crNamed reference t.nic))] ∧
      advance .bringup u = .next v ∧ v.bringup.stack = [.reset (.t2c (i + 1))]) ∧
    (∃ t, runContext .bringup 3001 (enterOp .bringup (.reset .t1) s) = .next t ∧ t.bringup.stack = [.reset .t4])

/-- R116: while the indices are unspecified an operation that reads them is a fault: an accepted `submit`, `reconcile`,
and a status word that would retire a slot, success or error. -/
def Obligations.UnspecifiedIndicesAreAFault : Prop :=
  ∀ s : State, AtReference s → s.eng.ringOk = false → s.agenda = [] →
    (∀ frame, SubmitReady s → frame ≠ [] → frame.length + 4 ≤ 1536 →
      exec (.submit frame) s = .fault .indexUnspecified) ∧
    (HandlerReady s → exec .reconcile s = .fault .indexUnspecified) ∧
    (HandlerReady s → ∀ b31 tabt mid tun own size,
      exec (.txstatSuccess b31 tabt mid tun own size) s = .fault .indexUnspecified ∧
      (tabt ||| tun = 1#1 → exec (.txstatError b31 tabt mid tun own size) s = .fault .indexUnspecified))

/-! ## EepromSerialReader (R119 to R131, R199 to R201) -/

/-- R120, R127, R200: from every state of the EEPROM, `readWord(a)` returns `ee[a]`, byte-swapped on a big-endian host,
and leaves `EECR` at `EE_NORMAL`; nothing but the EEPROM's serial state changes.  An address of more than six bits,
which no encoding has (R86, R89), is refused (log entry 26). -/
def Obligations.ReadWordReturnsTheCell : Prop :=
  ∀ (s : State) (a : EeAddr), AtReference s →
    (a.toNat < 64 → BringupReady s → s.agenda = [] →
      ∃ e, exec (.readWord a) s = .next
        { s with
          ee := e
          bringup := ⟨[], some (.value16 (if s.plat.params.hostBE then bswap16 (eeCell s.ee.cells a.toNat)
            else eeCell s.ee.cells a.toNat))⟩ } ∧
        e.cells = s.ee.cells ∧ e.eecr = 0x00#8 ∧ e.sel = false) ∧
    (64 ≤ a.toNat → exec (.readWord a) s = .refused (.illegalRequest .addressRange))

/-- R129: `readHardwareAddress` returns and stores the bytes of the cells 7, 8 and 9, low byte first, on either host. -/
def Obligations.ReadHardwareAddressReturnsSixBytes : Prop :=
  ∀ s : State, AtReference s → Shaped s → BringupReady s → s.agenda = [] →
    ∃ e, exec .readHardwareAddress s = .next
      { s with
        ee := e
        eng := { s.eng with hwAddr := [(eeCell s.ee.cells 7).extractLsb' 0 8, (eeCell s.ee.cells 7).extractLsb' 8 8,
          (eeCell s.ee.cells 8).extractLsb' 0 8, (eeCell s.ee.cells 8).extractLsb' 8 8,
          (eeCell s.ee.cells 9).extractLsb' 0 8, (eeCell s.ee.cells 9).extractLsb' 8 8] }
        bringup := ⟨[], some (.bytes [(eeCell s.ee.cells 7).extractLsb' 0 8, (eeCell s.ee.cells 7).extractLsb' 8 8,
          (eeCell s.ee.cells 8).extractLsb' 0 8, (eeCell s.ee.cells 8).extractLsb' 8 8,
          (eeCell s.ee.cells 9).extractLsb' 0 8, (eeCell s.ee.cells 9).extractLsb' 8 8])⟩ } ∧
      e.cells = s.ee.cells ∧ e.eecr = 0x00#8 ∧ e.sel = false

/-- R84, R125, R200: the nine command bits sent to an EEPROM that E1 and E2 have just selected arrive as
`0x180 | address`, most significant first, and data-out is low; sent outside the sequence of R120 they leave data-out
unspecified (R201); in any state the word changes nothing but the EEPROM's serial state.  An address of more than six
bits is refused (log entry 26).  The word's stand-alone meaning is the model's (log entry 5). -/
def Obligations.EecmdShiftsTheCommandIn : Prop :=
  ∀ (s : State) (a : EeAddr), AtReference s →
    (a.toNat < 64 → BringupReady s →
      ∃ e, exec (.eecmdRead a) s = .next { s with ee := e, bringup := ⟨[], some .done⟩ } ∧ e.cells = s.ee.cells ∧
        (s.ee.seq = some 1 → s.ee.sel = true → s.ee.n = 0 → s.ee.sh = 0#32 → s.ee.eecr = 0x88#8 →
          e.sh = 0x180#32 ||| a.setWidth 32 ∧ e.n = 9 ∧ e.out = some false ∧ e.sel = true) ∧
        (s.ee.seq = none → e.out = none)) ∧
    (64 ≤ a.toNat → exec (.eecmdRead a) s = .refused (.illegalRequest .addressRange))

/-! ## TxRingEngine: submit (R132 to R141) -/

/-- R133, R138, R139, R140: an accepted frame is written to slot `cpu`, the slot is armed with the final length, `cpu`
advances, and `Full` (with `tx_stopped`) is returned exactly if `(hw - cpu) mod 4` is then 1; nothing else changes.  The
order's place of a slot that is armed already, that it is taken at all, and the status bits of a command whose threshold
flags hold them are the model's (log entries 13, 35 and 9). -/
def Obligations.SubmitQueuesTheFrame : Prop :=
  ∀ (s : State) (frame : List Byte), AtReference s → Shaped s → SubmitReady s → s.agenda = [] → s.eng.ringOk = true →
    s.plat.txHeld = true → ringFull reference s.eng = false → frame ≠ [] → frame.length + 4 ≤ 1536 →
    exec (.submit frame) s = .next
      { s with
        mem := Memory.setRange
          (if frame.length < 60 then
            Memory.setRange s.mem (s.plat.params.txDmaBase.toNat + s.eng.cpu * 1536) (List.replicate 60 0#8)
           else s.mem)
          (s.plat.params.txDmaBase.toNat + s.eng.cpu * 1536) frame
        nic := { s.nic with
          tsd := setSlot s.nic.tsd s.eng.cpu
            ((s.plat.params.txThreshFlags ||| BitVec.ofNat 32 (max frame.length 60)) &&& ~~~0x4000C000#32)
          tx := setSlot s.nic.tx s.eng.cpu (.armed
            ((s.plat.params.txThreshFlags ||| BitVec.ofNat 32 (max frame.length 60)).extractLsb' 0 13))
          armOrder := s.nic.armOrder.filter (· != s.eng.cpu) ++ [s.eng.cpu] }
        eng := { s.eng with
          cpu := (s.eng.cpu + 1) % 4
          txStopped := if (s.eng.hw + 4 - (s.eng.cpu + 1) % 4) % 4 = 1 then true else s.eng.txStopped }
        submission := ⟨[], some (if (s.eng.hw + 4 - (s.eng.cpu + 1) % 4) % 4 = 1 then .full else .ok)⟩ }

/-- R136: S2a zeroes the first 60 bytes of the slot if the frame is shorter and writes nothing otherwise; after an
accepted `submit` slot bytes `[0, L)` are the frame, bytes `[L, 60)` are zero if `L < 60`, and every other byte of
memory is as before. -/
def Obligations.SubmitPadsTheSlot : Prop :=
  (∀ (s : State) (frame : List Byte) (i : Nat),
    (60 ≤ frame.length → submitStep reference (.s2a frame i) s = .go s (.goto (.submit (.s2b frame i)))) ∧
    (frame.length < 60 → mapped reference s.plat (slotBase reference s.plat.params i) 60 = true →
      submitStep reference (.s2a frame i) s = .go
        { s with mem := Memory.setRange s.mem (slotBase reference s.plat.params i) (List.replicate 60 0#8) }
        (.goto (.submit (.s2b frame i))))) ∧
  (∀ (s t : State) (frame : List Byte), AtReference s → Shaped s → SubmitReady s → s.agenda = [] →
    s.eng.ringOk = true → s.plat.txHeld = true → ringFull reference s.eng = false → frame ≠ [] →
    frame.length + 4 ≤ 1536 → exec (.submit frame) s = .next t →
      (∀ j, (h : j < frame.length) → byteAt t (slotBase reference s.plat.params s.eng.cpu + j) = frame[j]) ∧
      (∀ j, frame.length ≤ j → j < 60 → byteAt t (slotBase reference s.plat.params s.eng.cpu + j) = 0#8) ∧
      (∀ a, (a < slotBase reference s.plat.params s.eng.cpu ∨
          slotBase reference s.plat.params s.eng.cpu + max frame.length 60 ≤ a) → byteAt t a = byteAt s a))

/-- R135: the size check, "on natural numbers": `Oversized` if and only if `L + 4 > 1536`, and then nothing changes but
the result. -/
def Obligations.OversizedChangesNothing : Prop :=
  ∀ (s : State) (frame : List Byte), AtReference s → SubmitReady s → s.agenda = [] → frame ≠ [] →
    (1536 < frame.length + 4 → exec (.submit frame) s = .next (returned .submission .oversized s)) ∧
    (frame.length + 4 ≤ 1536 → ∀ t, exec (.submit frame) s = .next t → t.submission.result ≠ some .oversized)

/-- R134: what `submit` is refused for: `lifecycle`, another `submit`, a full ring, an empty frame; after an
unsuccessful `reset` it is a fault.  It is refused too while the bring-up context runs: in `Up` that is `close`, after
which R203 and R243 allow no further `submit`. -/
def Obligations.SubmitPreconditions : Prop :=
  ∀ (s : State) (frame : List Byte), AtReference s → s.agenda = [] →
    (s.submission.stack ≠ [] → exec (.submit frame) s = .refused .contextBusy) ∧
    (s.submission.stack = [] → s.eng.lifecycle = .down → exec (.submit frame) s = .refused .wrongLifecycle) ∧
    (s.submission.stack = [] → s.eng.lifecycle = .up → s.bringup.stack ≠ [] →
      exec (.submit frame) s = .refused .otherContextActive) ∧
    (SubmitReady s → exec (.submit []) s = .refused .emptyFrame) ∧
    (SubmitReady s → frame ≠ [] → frame.length + 4 ≤ 1536 → s.eng.ringOk = true →
      ((s.eng.hw + 4 - s.eng.cpu) % 4 = 1 → exec (.submit frame) s = .refused .ringFull)) ∧
    (SubmitReady s → frame ≠ [] → frame.length + 4 ≤ 1536 → s.eng.ringOk = false →
      exec (.submit frame) s = .fault .indexUnspecified)

/-- R141: with `hw` unchanged, from an empty ring the first two accepted frames return `Ok`, the third `Full`, "never
before"; each leaves its frame queued.  The order's place of a slot that is armed already, and that it is taken at all,
are the model's (log entries 13 and 35). -/
def Obligations.FullExactlyWhenThreeAreOutstanding : Prop :=
  ∀ (s : State) (f g h : List Byte), AtReference s → Shaped s → SubmitReady s → s.agenda = [] → s.eng.ringOk = true →
    s.plat.txHeld = true → s.eng.cpu = s.eng.hw → f ≠ [] → g ≠ [] → h ≠ [] → f.length + 4 ≤ 1536 → g.length + 4 ≤ 1536 →
    h.length + 4 ≤ 1536 → ∃ t u v,
      exec (.submit f) s = .next t ∧ t.submission.result = some .ok ∧ outstanding reference t.eng = 1 ∧
      exec (.submit g) t = .next u ∧ u.submission.result = some .ok ∧ outstanding reference u.eng = 2 ∧
      exec (.submit h) u = .next v ∧ v.submission.result = some .full ∧ outstanding reference v.eng = 3 ∧
      v.eng.txStopped = true ∧ v.nic.armOrder.reverse.take 3 = [(s.eng.hw + 2) % 4, (s.eng.hw + 1) % 4, s.eng.hw]

/-! ## TxRingEngine: reconcile (R142 to R154) -/

/-- R154: on an empty ring, or when the first outstanding slot is in flight, `reconcile` changes nothing and emits
nothing, not even `Resume` with `tx_stopped` true. -/
def Obligations.ReconcileWithNothingDone : Prop :=
  ∀ s : State, AtReference s → HandlerReady s → s.agenda = [] → s.eng.ringOk = true →
    (s.eng.hw = s.eng.cpu ∨ atSlot s.nic.tsd s.eng.hw &&& 0x4000C000#32 = 0#32) →
      exec .reconcile s = .next (returned .interrupt .done s)

/-- R142, R144 to R149: `reconcile` reports exactly the outcomes of the outstanding slots before the first in flight,
in ring order, retires exactly those, re-acknowledges `ISR.TER` if one is an error, and resumes a stopped caller if
there is at least one; nothing else changes. -/
def Obligations.ReconcileReportsTheCompletedPrefix : Prop :=
  ∀ s : State, AtReference s → Shaped s → HandlerReady s → s.agenda = [] → s.eng.ringOk = true →
    exec .reconcile s = .next (returned .interrupt .done (reconciled s))

/-- R153 (1), R145: a frame of any valid length, submitted to an idle ring, completed successfully by the NIC and
reconciled, is reported as exactly one success of `max(L, 60)` bytes, and the ring is empty again. -/
def Obligations.SubmitThenReconcileReportsOneSuccess : Prop :=
  ∀ (s : State) (frame : List Byte) (other : Word), AtReference s → Shaped s → SubmitReady s → HandlerReady s →
    s.agenda = [] → s.eng.ringOk = true → s.plat.txHeld = true → s.eng.cpu = s.eng.hw → frame ≠ [] →
    frame.length + 4 ≤ 1536 → s.plat.params.txThreshFlags &&& ~~~0x003F0000#32 = 0#32 → s.nic.te = true →
    s.nic.armOrder = [] →
    mapped reference s.plat (atSlot s.nic.tsad s.eng.cpu).toNat (max frame.length 60) = true → ∃ t u v,
      exec (.submit frame) s = .next t ∧
      nicStep reference (.txComplete s.eng.cpu ⟨true, false, false, other⟩) t = .next u ∧
      exec .reconcile u = .next v ∧
      v.events = s.events ++ [.txDone (BitVec.ofNat 13 (max frame.length 60))] ++
        (if s.eng.txStopped then [.resume] else []) ∧
      v.eng.hw = v.eng.cpu ∧ v.eng.cpu = (s.eng.cpu + 1) % 4

/-- R81, R145, R146, R148 for one status word standing by itself at slot `hw`: in flight changes nothing, success
reports the masked length and retires the slot, error reports both bits, clears `ISR.TER` and retires the slot; on an
empty ring no word has an effect (R66).  The words' stand-alone meaning is the model's (log entry 5). -/
def Obligations.StatusWordsRetireTheOldestSlot : Prop :=
  ∀ (s : State) (b31 tabt tun own : BitVec 1) (mid : BitVec 14) (size : BitVec 13), AtReference s → HandlerReady s →
    exec (.txstatInFlight b31 mid own size) s = .next (returned .interrupt .done s) ∧
    (s.eng.ringOk = true → s.eng.hw ≠ s.eng.cpu →
      exec (.txstatSuccess b31 tabt mid tun own size) s = .next
        { s with events := s.events ++ [.txDone size], eng := { s.eng with hw := (s.eng.hw + 1) % 4 },
                 interrupt := ⟨[], some .done⟩ } ∧
      (tabt ||| tun = 1#1 → exec (.txstatError b31 tabt mid tun own size) s = .next
        { s with events := s.events ++ [.txError (tun == 1#1) (tabt == 1#1)],
                 eng := { s.eng with hw := (s.eng.hw + 1) % 4 },
                 nic := { s.nic with isr := s.nic.isr &&& ~~~0x0008#16 }, interrupt := ⟨[], some .done⟩ })) ∧
    (s.eng.ringOk = true → s.eng.hw = s.eng.cpu →
      exec (.txstatSuccess b31 tabt mid tun own size) s = .next (returned .interrupt .done s) ∧
      exec (.txstatError b31 tabt mid tun own size) s = .next (returned .interrupt .done s))

/-- R252: the lost wake-up is a run of the model.  With two slots outstanding, the third frame's `submit` reads `hw`,
all three slots complete and a whole `onInterrupt` retires them before S5b: `submit` returns `Full` with `tx_stopped`
set, the ring is empty, nothing is pending and no `Resume` was emitted. -/
def Obligations.LostWakeUpIsARun : Prop :=
  ∀ (s : State) (frame : List Byte) (l0 l1 : BitVec 13), AtReference s → Shaped s → SubmitReady s → HandlerReady s →
    s.eng.ringOk = true → s.plat.txHeld = true → 60 ≤ frame.length → frame.length + 4 ≤ 1536 →
    s.eng.cpu = (s.eng.hw + 2) % 4 →
    s.plat.params.txThreshFlags &&& ~~~0x003F0000#32 = 0#32 →
    s.eng.txStopped = false → s.eng.irqEnabled &&& 0x0004#16 = 0x0004#16 → s.nic.isr = 0#16 → s.nic.te = true →
    ArmedOk s → s.nic.armOrder = [s.eng.hw, (s.eng.hw + 1) % 4] →
    atSlot s.nic.tx s.eng.hw = .armed l0 → atSlot s.nic.tx ((s.eng.hw + 1) % 4) = .armed l1 →
    mapped reference s.plat (atSlot s.nic.tsad s.eng.hw).toNat l0.toNat = true →
    mapped reference s.plat (atSlot s.nic.tsad ((s.eng.hw + 1) % 4)).toNat l1.toNat = true →
    mapped reference s.plat (atSlot s.nic.tsad ((s.eng.hw + 2) % 4)).toNat frame.length = true →
    s.agenda = List.replicate 6 (.advance .submission) ++
      [.nic (.txComplete s.eng.hw ⟨true, false, false, 0#32⟩),
       .nic (.txComplete ((s.eng.hw + 1) % 4) ⟨true, false, false, 0#32⟩),
       .nic (.txComplete ((s.eng.hw + 2) % 4) ⟨true, false, false, 0#32⟩),
       .request .interrupt .opsel [0x50#8]] ++ List.replicate 22 (.advance .interrupt) →
    ∃ t, exec (.submit frame) s = .next t ∧ t.submission = ⟨[], some .full⟩ ∧ t.interrupt = ⟨[], some .handled⟩ ∧
      t.agenda = [] ∧ t.eng.cpu = t.eng.hw ∧ t.eng.txStopped = true ∧ t.nic.isr = 0#16 ∧
      t.events = s.events ++ [.txDone l0, .txDone l1, .txDone (BitVec.ofNat 13 frame.length)]

/-! ## RxRingEngine (R155 to R169) -/

/-- R156, R163, R169: a `drain` over `k` records that lie back to back, wrapping where they wrap, delivers exactly their
`k` payloads in order, advances `rx_off` by the exact sum of the footprints modulo 8192 and commits it; with the
buffer-empty flag set it changes nothing, whatever `rx_off` is (R157). -/
def Obligations.DrainDeliversEveryRecord : Prop :=
  ∀ (s : State), AtReference s → HandlerReady s → s.agenda = [] →
    (∀ recs : List (Half × List Byte), Unread s recs →
      exec .drain s = .next (returned .interrupt .done (drained recs s))) ∧
    (s.nic.rxRd = s.nic.rxWr → exec .drain s = .next (returned .interrupt .done s))

/-- R158: a visible header with `size < 4` or `4 + size > 8192` is a fault of `drain`, and of the header word standing
by itself (log entry 5; what is visible: log entry 33). -/
def Obligations.MalformedHeadersAreAFault : Prop :=
  ∀ (s : State) (size status : Half), AtReference s → HandlerReady s → RxAligned s → RxInRange s →
    s.plat.rxHeld = true → s.agenda = [] → visible reference s.nic s.eng.rxOff 4 = true →
    (size.toNat < 4 ∨ 8192 < 4 + size.toNat) →
    rxByte s (s.eng.rxOff.toNat + 2) = size.extractLsb' 0 8 →
    rxByte s (s.eng.rxOff.toNat + 3) = size.extractLsb' 8 8 →
      exec (.rxhdr size status) s = .fault .malformedHeader ∧ exec .drain s = .fault .malformedHeader

/-- R158 to R163 for the header word of the record at `rx_off`: the payload is the bytes after the header taken modulo
8192, the offset advances by the aligned footprint, the new offset minus 16 is committed to `CAPR`, `status` has no
effect (R83); nothing else changes.  With the buffer-empty flag set no record is accessed (R58, R157): no effect.  A
word whose record is not among the unread bytes, or whose size is not the one that lies there, is refused, and so is a
`drain` that meets such a record (R58).  The word's stand-alone meaning is the model's (log entry 5), and so is what is
visible (log entry 33). -/
def Obligations.HeaderWordParsesItsRecord : Prop :=
  ∀ (s : State) (size status : Half), AtReference s → HandlerReady s → RxAligned s → RxInRange s →
    (s.nic.rxRd = s.nic.rxWr → exec (.rxhdr size status) s = .next (returned .interrupt .done s)) ∧
    (s.nic.rxRd ≠ s.nic.rxWr → visible reference s.nic s.eng.rxOff 4 = false →
      exec (.rxhdr size status) s = .refused .recordNotVisible ∧
      (s.agenda = [] → exec .drain s = .refused .recordNotVisible)) ∧
    (visible reference s.nic s.eng.rxOff 4 = true → s.plat.rxHeld = true →
      ¬ (rxByte s (s.eng.rxOff.toNat + 2) = size.extractLsb' 0 8 ∧
        rxByte s (s.eng.rxOff.toNat + 3) = size.extractLsb' 8 8) →
      exec (.rxhdr size status) s = .refused .recordNotVisible) ∧
    (visible reference s.nic s.eng.rxOff 4 = true → s.plat.rxHeld = true →
      rxByte s (s.eng.rxOff.toNat + 2) = size.extractLsb' 0 8 →
      rxByte s (s.eng.rxOff.toNat + 3) = size.extractLsb' 8 8 → 4 ≤ size.toNat → 4 + size.toNat ≤ 8192 →
      (visible reference s.nic s.eng.rxOff ((4 + size.toNat + 3) / 4 * 4) = false →
        exec (.rxhdr size status) s = .refused .recordNotVisible ∧
        (s.agenda = [] → exec .drain s = .refused .recordNotVisible)) ∧
      (visible reference s.nic s.eng.rxOff ((4 + size.toNat + 3) / 4 * 4) = true →
        exec (.rxhdr size status) s = .next
          { s with
            events := s.events ++ [.delivered
              ((List.range (size.toNat - 4)).map (fun j => rxByte s (s.eng.rxOff.toNat + 4 + j)))]
            eng := { s.eng with
              rxOff := BitVec.ofNat 16 ((s.eng.rxOff.toNat + (4 + size.toNat + 3) / 4 * 4) % 8192) }
            nic := { s.nic with
              capr := BitVec.ofNat 16 ((s.eng.rxOff.toNat + (4 + size.toNat + 3) / 4 * 4) % 8192 + 65536 - 16)
              rxRd := BitVec.ofNat 16 ((s.eng.rxOff.toNat + (4 + size.toNat + 3) / 4 * 4) % 8192) }
            interrupt := ⟨[], some .done⟩ }))

/-- R194, R163: what the NIC puts into an empty receive buffer, `drain` delivers: the same frame bytes, without header
and checksum, wherever the write pointer stands. -/
def Obligations.ReceivedFramesAreDelivered : Prop :=
  ∀ (s : State) (status : Half) (frame fcs : List Byte) (bad : Bool), AtReference s → HandlerReady s → RxAligned s →
    RxInRange s → fcs.length = 4 → s.agenda = [] → s.plat.rxHeld = true → s.nic.rbstart = s.plat.params.rxDmaBase →
    s.nic.re = true → s.nic.rxRd = s.eng.rxOff → s.nic.rxWr = s.eng.rxOff →
    (4 + (frame.length + 4) + 3) / 4 * 4 < 8192 →
    ∃ t u, nicStep reference (.rxRecord status frame fcs bad) s = .next t ∧ exec .drain t = .next u ∧
      u.events = s.events ++ [.delivered frame] ∧ u.nic.rxRd = u.nic.rxWr ∧ u.eng.rxOff = u.nic.rxRd ∧
      t.nic.isr = s.nic.isr ||| (if bad then 0x0002#16 else 0x0001#16)

/-! ## InterruptDispatcher and LinkMonitor (R170 to R186) -/

/-- R171: `ISR = 0` is "not mine": no effect but the result.  A nonzero status whose bits are all disabled is still mine
and is acknowledged (R176). -/
def Obligations.NotMineHasNoSideEffect : Prop :=
  ∀ s : State, AtReference s → s.plat.irqHeld = true → s.interrupt.stack = [] → s.agenda = [] →
    (s.nic.isr = 0#16 → exec .onInterrupt s = .next (returned .interrupt .notMine s)) ∧
    (s.nic.isr ≠ 0#16 → s.nic.isr &&& s.eng.irqEnabled = 0#16 →
      exec .onInterrupt s = .next (returned .interrupt .handled (acknowledged s)))

/-- R172: I2 is the first step after I1, no sub-operation runs before it; it clears exactly the bits I1 read, so a bit
set in between stays pending; nothing else changes. -/
def Obligations.AcknowledgesExactlyWhatItRead : Prop :=
  ∀ s : State, AtReference s → s.interrupt.stack = [.onInterrupt .i1] → s.nic.isr ≠ 0#16 →
    ∃ t, advance .interrupt s = .next t ∧ t = { s with interrupt := t.interrupt } ∧
      t.interrupt.stack = [.onInterrupt (.i2 s.nic.isr)] ∧
      ∀ nic, ∃ u, advance .interrupt { t with nic := nic } = .next u ∧
        u = { t with nic := { nic with isr := nic.isr &&& ~~~s.nic.isr }, interrupt := u.interrupt } ∧
        u.interrupt.stack = [.onInterrupt (.i3 s.nic.isr)]

/-- R173, R174, R175, R218: an interrupt that is mine acknowledges `s`, then services its enabled part `m` in the order
link, receive, transmit, each at most once and only if one of its bits is in `m`, and returns `Handled`. -/
def Obligations.RoutesLinkThenReceiveThenTransmit : Prop :=
  ∀ (s : State) (recs : List (Half × List Byte)) (m : Half), AtReference s → Shaped s → s.plat.irqHeld = true →
    s.interrupt.stack = [] → s.agenda = [] → s.nic.isr ≠ 0#16 → m = s.nic.isr &&& s.eng.irqEnabled →
    (m &&& 0x0003#16 ≠ 0#16 → Unread s recs) → (m &&& 0x000C#16 ≠ 0#16 → s.eng.ringOk = true) →
    exec .onInterrupt s = .next (returned .interrupt .handled (serviced m recs (acknowledged s)))

/-- R183: the four cases of `check`, the event and the new `link_prev`; nothing else changes. -/
def Obligations.CheckReportsEdges : Prop :=
  ∀ s : State, AtReference s → HandlerReady s → s.agenda = [] →
    (s.eng.linkPrev = .down → s.nic.linkBad = false → exec .check s = .next (returned .interrupt .done
      { s with eng := { s.eng with linkPrev := .up }, events := s.events ++ [.linkUp] })) ∧
    (s.eng.linkPrev = .up → s.nic.linkBad = true → exec .check s = .next (returned .interrupt .done
      { s with eng := { s.eng with linkPrev := .down }, events := s.events ++ [.linkDown] })) ∧
    (s.eng.linkPrev = .down → s.nic.linkBad = true → exec .check s = .next (returned .interrupt .done s)) ∧
    (s.eng.linkPrev = .up → s.nic.linkBad = false → exec .check s = .next (returned .interrupt .done s))

/-- R184 for every sequence of link states, each set by the NIC (R198) before one `check`: one event per change and none
on repeated reads; the sequence of the rule, `[1,1,0,0,1]` from `down`, gives exactly `LinkUp`, `LinkDown`. -/
def Obligations.LinkSequenceReportsEachChangeOnce : Prop :=
  (∀ (s : State) (bs : List Bool), AtReference s → HandlerReady s → s.agenda = [] → ∃ t, sampleLinks bs s = .next t ∧
    t.events = s.events ++ linkEvents s.eng.linkPrev bs) ∧
  linkEvents .down [true, true, false, false, true] = [.linkUp, .linkDown] ∧
  (∀ (s : State) (bad : Bool), nicStep reference (.link bad) s = .next
    { s with nic := { s.nic with
        linkBad := bad
        isr := if bad = s.nic.linkBad then s.nic.isr else s.nic.isr ||| 0x0020#16 } })

/-! ## Lifecycle (R222, R233 to R245) -/

/-- R240, R242: with everything granted and a NIC that finishes its reset after `n < 1000` unsuccessful polls, `open`
returns `Ok` in steady state: every register of O5 to O11 as the rule gives it.  That O4's call is a step, which the
agenda counts, is the model's (log entry 32). -/
def Obligations.OpenReachesSteadyState : Prop :=
  ∀ (s : State) (n : Nat), AtReference s → BringupReady s → n < 1000 → s.plat.grantIrq = true → s.plat.grantTx = true →
    s.plat.grantRx = true →
    s.agenda = List.replicate (5 + 3 * n) (.advance .bringup) ++ [.nic .resetDone] →
    ∃ t, exec .openBlock s = .next t ∧ t.bringup = ⟨[], some .ok⟩ ∧
      t.eng = { s.eng with cpu := 0, hw := 0, ringOk := true, txStopped := false, rxOff := 0#16,
                           linkPrev := .down, irqEnabled := s.plat.params.irqEnableSet, lifecycle := .up } ∧
      t.plat = { s.plat with irqHeld := true, txHeld := true, rxHeld := true, gen := s.plat.gen + 1 } ∧
      (∀ i < 4, atSlot t.nic.tsad i = s.plat.params.txDmaBase + BitVec.ofNat 32 (i * 1536)) ∧
      t.nic.rbstart = s.plat.params.rxDmaBase ∧ t.nic.te = s.eng.cfg.txEnable ∧ t.nic.re = s.eng.cfg.rxEnable ∧
      t.nic.tcr = (if s.eng.cfg.loopback then 0x00060000#32 else 0#32) ∧
      t.nic.imr = s.plat.params.irqEnableSet ∧ t.nic.isr = 0#16 ∧ t.nic.rxRd = 0#16 ∧ t.nic.rxWr = 0#16 ∧
      t.nic.armOrder = [] ∧ t.mem = s.mem ∧ t.events = s.events ∧ t.submission = s.submission ∧
      t.interrupt = s.interrupt

/-- R241: the failure paths of `open`, with what they release; `lifecycle` stays `Down`, `irq_enabled` is not
written.  A failed acquisition leaves every register; after the timeout the device's registers are what R44 leaves
them. -/
def Obligations.OpenFailureReleasesEverything : Prop :=
  ∀ s : State, AtReference s → BringupReady s → s.agenda = [] →
    (s.plat.grantIrq = false → exec .openBlock s = .next (returned .bringup .allocFail s)) ∧
    (s.plat.grantIrq = true → s.plat.grantTx = false → exec .openBlock s = .next (returned .bringup .allocFail
      { s with plat := { s.plat with irqHeld := false } })) ∧
    (s.plat.grantIrq = true → s.plat.grantTx = true → s.plat.grantRx = false →
      exec .openBlock s = .next (returned .bringup .allocFail
        { s with
          plat := { s.plat with irqHeld := false, txHeld := false, gen := s.plat.gen + 1 }
          mem := Memory.clear s.mem s.plat.params.txDmaBase.toNat 6144 })) ∧
    (s.plat.grantIrq = true → s.plat.grantTx = true → s.plat.grantRx = true →
      ∃ cpu hw nic ee d k, exec .openBlock s = .next (returned .bringup .timeout
        { s with
          eng := { s.eng with cpu := cpu, hw := hw, ringOk := false }
          nic := nic
          ee := ee
          draws := d
          freeCount := k
          plat := { s.plat with irqHeld := false, txHeld := false, rxHeld := false, gen := s.plat.gen + 1 }
          mem := Memory.clear (Memory.clear s.mem s.plat.params.rxDmaBase.toNat 8208)
            s.plat.params.txDmaBase.toNat 6144 }) ∧
        nic.te = false ∧ nic.re = false ∧ nic.resetting = true ∧ nic.linkBad = s.nic.linkBad ∧
        ee.cells = s.ee.cells)

/-- R243: `close` disables interrupts, releases the IRQ line, `txbuf`, `rxbuf`, and is `Down`; it writes no register but
`IMR`; X2 waits for a running `onInterrupt`.  That the engine registers which U17 then leaves open keep their values is
the model's (log entry 36). -/
def Obligations.CloseReleasesEverything : Prop :=
  (∀ s : State, AtReference s → s.eng.lifecycle = .up → AllIdle s → s.agenda = [] →
    exec .closeBlock s = .next
      { s with
        eng := { s.eng with irqEnabled := 0#16, lifecycle := .down }
        nic := { s.nic with imr := 0#16 }
        plat := { s.plat with irqHeld := false, txHeld := false, rxHeld := false }
        mem := Memory.clear (Memory.clear s.mem s.plat.params.txDmaBase.toNat 6144)
          s.plat.params.rxDmaBase.toNat 8208
        bringup := ⟨[], some .done⟩ }) ∧
  (∀ (s : State) (r : Option OpResult), s.bringup = ⟨[.closeBlock .x2], r⟩ → s.interrupt.stack ≠ [] →
    advance .bringup s = .next s)

/-- R222, R112, R237, R259, U4: the `lifecycle` each operation but `submit` requires, that its own context is idle
(R179, R214: the handler "never re-entrantly"; R237, U4: one bring-up operation at a time), and that the bring-up
context's operations need the other contexts idle (for `close` and the register accesses the model's reading of R6: log
entries 21 and 16); a request elsewhere is refused.  `check`, `drain` and `reconcile` requested by themselves: log entry
15. -/
def Obligations.WrongLifecycleIsRefused : Prop :=
  ∀ s : State,
    (s.eng.lifecycle = .up → s.bringup.stack = [] → ∀ a, addressOk s.plat.values a = true →
      exec .reset s = .refused .wrongLifecycle ∧ exec (.readWord a) s = .refused .wrongLifecycle ∧
      exec .readHardwareAddress s = .refused .wrongLifecycle ∧ exec .openBlock s = .refused .wrongLifecycle) ∧
    (s.eng.lifecycle = .down → s.bringup.stack = [] → exec .closeBlock s = .refused .wrongLifecycle) ∧
    (s.eng.lifecycle = .down → s.interrupt.stack = [] → s.plat.irqHeld = true →
      exec .check s = .refused .wrongLifecycle ∧ exec .drain s = .refused .wrongLifecycle ∧
      exec .reconcile s = .refused .wrongLifecycle) ∧
    (s.interrupt.stack = [] → s.plat.irqHeld = false →
      exec .onInterrupt s = .refused .handlerNotRegistered ∧ exec .check s = .refused .handlerNotRegistered ∧
      exec .drain s = .refused .handlerNotRegistered ∧ exec .reconcile s = .refused .handlerNotRegistered) ∧
    (s.interrupt.stack ≠ [] →
      exec .onInterrupt s = .refused .contextBusy ∧ exec .check s = .refused .contextBusy ∧
      exec .drain s = .refused .contextBusy ∧ exec .reconcile s = .refused .contextBusy) ∧
    (s.bringup.stack ≠ [] →
      (∀ a, addressOk s.plat.values a = true → exec (.readWord a) s = .refused .contextBusy) ∧
      exec .reset s = .refused .contextBusy ∧ exec .readHardwareAddress s = .refused .contextBusy ∧
      exec .openBlock s = .refused .contextBusy ∧ exec .closeBlock s = .refused .contextBusy ∧
      ∀ i, isAccessor i = true → i.wellFormed s.plat.values = true → exec i s = .refused .contextBusy) ∧
    (s.bringup.stack = [] → s.eng.lifecycle = .down → (s.submission.stack ≠ [] ∨ s.interrupt.stack ≠ []) →
      ∀ a, addressOk s.plat.values a = true →
      exec .reset s = .refused .otherContextActive ∧ exec (.readWord a) s = .refused .otherContextActive ∧
      exec .readHardwareAddress s = .refused .otherContextActive ∧
      exec .openBlock s = .refused .otherContextActive) ∧
    (s.bringup.stack = [] → s.eng.lifecycle = .up → (s.submission.stack ≠ [] ∨ s.interrupt.stack ≠ []) →
      exec .closeBlock s = .refused .otherContextActive) ∧
    (s.bringup.stack = [] → (s.submission.stack ≠ [] ∨ s.interrupt.stack ≠ []) → ∀ i, isAccessor i = true →
      i.wellFormed s.plat.values = true → exec i s = .refused .otherContextActive)

/-- R233, R234: after power-on every context is idle, `lifecycle = Down`, `irq_enabled = 0`, no event, nothing held, and
"the block does nothing until the host requests an operation". -/
def Obligations.PowerOnState : Prop :=
  AllIdle State.reset ∧ State.reset.eng.lifecycle = .down ∧ State.reset.eng.irqEnabled = 0#16 ∧
  State.reset.events = [] ∧ Holds false false false State.reset ∧ step State.reset = .next State.reset

/-! ## The NIC's steps (R187 to R198) -/

/-- R191: `dev:tx_complete(i, _)` happens only for the slot armed first, with the transmit engine on and a nonempty set
of status bits; it reads the slot's bytes at `TSAD[i]`, sets the bits, leaves `SIZE`, marks the slot done and sets
`ISR.TOK` if `TOK` was set, else `ISR.TER`.  That this is one step, and needs `CR.TE` at completion, is the model's (log
entries 34 and 14). -/
def Obligations.TransmitCompletesInArmingOrder : Prop :=
  ∀ (s : State) (i : Nat) (o : TxOutcome) (len : BitVec 13) (rest : List Nat),
    atSlot s.nic.tx i = .armed len → s.nic.armOrder = i :: rest → s.nic.te = true →
    (o.tok = true ∨ o.tun = true ∨ o.tabt = true) →
    mapped reference s.plat (atSlot s.nic.tsad i).toNat len.toNat = true →
    (∃ w, nicStep reference (.txComplete i o) s = .next
      { s with nic := { s.nic with
          tsd := setSlot s.nic.tsd i w
          tx := setSlot s.nic.tx i .done
          armOrder := rest
          isr := s.nic.isr ||| (if o.tok then 0x0004#16 else 0x0008#16)
          sent := s.nic.sent ++ [bytesAt s (atSlot s.nic.tsad i).toNat len.toNat] } } ∧
      w &&& 0x1FFF#32 = atSlot s.nic.tsd i &&& 0x1FFF#32 ∧
      w.getLsbD 15 = ((atSlot s.nic.tsd i).getLsbD 15 || o.tok) ∧
      w.getLsbD 14 = ((atSlot s.nic.tsd i).getLsbD 14 || o.tun) ∧
      w.getLsbD 30 = ((atSlot s.nic.tsd i).getLsbD 30 || o.tabt)) ∧
    (∀ j, j ≠ i → nicStep reference (.txComplete j o) s = .next s)

/-- R187, R204: a step of the NIC changes no engine register, no resource, no event and no control location; it never
writes `txbuf`, never overwrites an unread byte of `rxbuf` (R196), never sets `CR.RST`, and but by its reset (R189)
clears no status bit of a `TSD` and writes none of `CAPR`, `IMR`, `TSAD`, `RBSTART`, `TCR` and `EECR`. -/
def Obligations.NicTouchesOnlyDeviceState : Prop :=
  ∀ (m : NicMove) (s t : State), nicStep reference m s = .next t →
    t.eng = s.eng ∧ t.plat = s.plat ∧ t.events = s.events ∧ t.bringup = s.bringup ∧ t.submission = s.submission ∧
    t.interrupt = s.interrupt ∧ t.ee.cells = s.ee.cells ∧ (t.nic.resetting = true → s.nic.resetting = true) ∧
    (∀ a, (a < s.plat.params.rxDmaBase.toNat ∨ s.plat.params.rxDmaBase.toNat + 8208 ≤ a) →
      byteAt t a = byteAt s a) ∧
    (RxInRange s → ∀ k, k < distance reference s.nic.rxRd s.nic.rxWr →
      rxByte t (s.nic.rxRd.toNat + k) = rxByte s (s.nic.rxRd.toNat + k)) ∧
    (m ≠ .resetDone → t.nic.capr = s.nic.capr ∧ t.nic.imr = s.nic.imr ∧ t.nic.tsad = s.nic.tsad ∧
      t.nic.rbstart = s.nic.rbstart ∧ t.nic.tcr = s.nic.tcr ∧ t.ee = s.ee ∧
      ∀ i, atSlot s.nic.tsd i &&& 0x4000C000#32 &&& ~~~(atSlot t.nic.tsd i) = 0#32)

/-! ## What every step keeps -/

/-- The invariants below hold after power-on.  The values R44 leaves unspecified are the model's (log entry 4), and so
are the session's clauses of log entries 17, 19 and 32. -/
def Obligations.InvariantsAtPowerOn : Prop :=
  AtReference State.reset ∧ Shaped State.reset ∧ RxInRange State.reset ∧ MemCanonical State.reset ∧
  MemHeld State.reset ∧ RxAligned State.reset ∧ ArmedOk State.reset ∧ Session State.reset

/-- Every step keeps DMA memory canonical and inside the buffers that are held (R28). -/
def Obligations.StepsKeepMemoryInHeldBuffers : Prop :=
  ∀ s t : State, AtReference s → MemCanonical s → MemHeld s → step s = .next t → MemCanonical t ∧ MemHeld t

/-- R17, R166, R194 to R196: every step keeps `rx_off` a multiple of 4, and `rx_off` and the NIC's two receive pointers
in `[0, 8192)`. -/
def Obligations.StepsKeepTheReceiveOffsetAligned : Prop :=
  ∀ s t : State, AtReference s → RxAligned s → RxInRange s → step s = .next t → RxAligned t ∧ RxInRange t

/-- R190, R191: every step keeps the arming order the list of the armed slots, once each, and every armed slot's `TSD`
in flight with the length it was armed with.  R190 says so of a `TXCMD`; that it holds whatever word the host writes,
whatever its width, for a slot armed already and for a NIC left unspecified by a timeout is the model's (log entries 9,
7, 13 and 30). -/
def Obligations.StepsKeepArmedSlotsInFlight : Prop :=
  ∀ s t : State, AtReference s → Shaped s → ArmedOk s → step s = .next t → ArmedOk t

/-- R22, R222: every step keeps each context at a control location of its own operations, in the interrupt context at
most one call deep.  The bring-up context's calls, `reset` above `open`'s `o4r` and `readWord` above
`readHardwareAddress`, are no nesting of R22's: that clause is the model's (DESIGN CHOICE, log entry 32). -/
def Obligations.StepsKeepContextsApart : Prop :=
  ∀ s t : State, ContextsOk s → step s = .next t → ContextsOk t

/-- R21, R28, R134, R179, R214, R240, R241, R243: every step keeps the session: what `lifecycle`, the resources and
`irq_enabled` are at each control location, `submit` only in steady state, the handler only while registered.  The
clauses that no handler outlives the line's release on `open`'s failure paths and that one may run inside `open` are
the model's (DEDUCED, log entry 17), and so are the stages at `o4r` and of the nested `reset` (DESIGN CHOICE, log
entry 32); what stands for a successful `reset` is log entry 19. -/
def Obligations.StepsKeepTheSession : Prop :=
  ∀ s t : State, AtReference s → Shaped s → Session s → step s = .next t → Session t

/-- R60, R116, R134, R166: in a session no step reads an unspecified index and no access of the block leaves the DMA
buffers it holds.  The session's clauses of log entries 17, 19 and 32 are the model's. -/
def Obligations.SessionsNeverFaultOnTheBlocksSide : Prop :=
  ∀ s : State, AtReference s → Shaped s → RxInRange s → Session s →
    step s ≠ .fault .indexUnspecified ∧ step s ≠ .fault .dmaUnmapped

/-- R30: events are never retracted, and one labelled step emits at most one. -/
def Obligations.EventsOnlyGrow : Prop :=
  (∀ s t : State, step s = .next t → s.events <+: t.events) ∧
  (∀ (c : Ctx) (s t : State), advance c s = .next t → t.events = s.events ∨ ∃ e, t.events = s.events ++ [e])

/-- R29, R7, R31: no step changes the EEPROM's cells, the parameters or the configuration record; and, whatever the
record, R14, R15, R33: `cpu` and `hw` stay in `[0, N_TX)` and the slot-indexed state keeps one entry for each slot. -/
def Obligations.CellsParametersAndShapeAreKept : Prop :=
  ∀ s t : State, step s = .next t → t.ee.cells = s.ee.cells ∧ t.plat.params = s.plat.params ∧
    t.plat.values = s.plat.values ∧ (0 < s.plat.values.nTx → Shaped s → Shaped t)

/-- R24, R64: which engine registers a labelled step of each context writes; in particular `cpu` is written by the
submission context and `hw` by the interrupt context only, and `tx_stopped` is set by the one and cleared by the
other.  The bring-up context's calls in the premise are the model's (log entry 32). -/
def Obligations.EachRegisterHasItsWriter : Prop :=
  ∀ s t : State, ContextsOk s →
    (advance .submission s = .next t →
      t.eng = { s.eng with cpu := t.eng.cpu, txStopped := t.eng.txStopped } ∧
      (t.eng.txStopped = s.eng.txStopped ∨ t.eng.txStopped = true)) ∧
    (advance .interrupt s = .next t →
      t.eng = { s.eng with hw := t.eng.hw, txStopped := t.eng.txStopped, rxOff := t.eng.rxOff,
                           linkPrev := t.eng.linkPrev } ∧
      (t.eng.txStopped = s.eng.txStopped ∨ t.eng.txStopped = false)) ∧
    (advance .bringup s = .next t → t.eng.cfg = s.eng.cfg ∧ t.eng.chipVersion = s.eng.chipVersion)
end

