-- ==== Sys2Proof/Laws/Config.lean ====
section
/-! SUPPORT. The reference values of the configuration record, one lemma each, so that no proof unfolds the record, R7's
constraints on them, and what the fields of words are at them. -/

namespace Sys2Proof.Config

/-! ## Quantities the source gives, decided parameters (R7) -/

theorem nTx_val : reference.nTx = 4 := rfl
theorem rxHdrLen_val : reference.rxHdrLen = 4 := rfl
theorem eeAddrBits_val : reference.eeAddrBits = 6 := rfl
theorem eeCmdBits_val : reference.eeCmdBits = 9 := rfl
theorem eeDataBits_val : reference.eeDataBits = 16 := rfl
theorem eeHwAddrWords_val : reference.eeHwAddrWords = 3 := rfl
theorem maxFrameSize_val : reference.maxFrameSize = 1536 := rfl
theorem fcsLen_val : reference.fcsLen = 4 := rfl
theorem minEthLen_val : reference.minEthLen = 60 := rfl
theorem rxBufLen_val : reference.rxBufLen = 8192 := rfl
theorem rxGuardPad_val : reference.rxGuardPad = 16 := rfl
theorem rxReadPad_val : reference.rxReadPad = 16 := rfl
theorem resetPollMax_val : reference.resetPollMax = 1000 := rfl
theorem eeReadOpcode_val : reference.eeReadOpcode = 6#3 := rfl
theorem eeHwAddrBase_val : reference.eeHwAddrBase = 7 := rfl
theorem regWindow_val : reference.regWindow = 256 := rfl
theorem txBufBytes_val : reference.txBufBytes = 6144 := rfl
theorem rxBufBytes_val : reference.rxBufBytes = 8208 := rfl

theorem reference_ok : reference.Ok :=
  ⟨⟨⟨2, rfl⟩, rfl, by decide, by decide⟩,
    ⟨⟨13, rfl⟩, rfl, by decide, by decide⟩, rfl, by decide, by decide, by decide⟩

/-! ## Register map and masks (R31 to R42) -/

theorem tsd_off : reference.tsd.off = 0x10 := rfl
theorem tsad_off : reference.tsad.off = 0x20 := rfl
theorem rbstart_off : reference.rbstart.off = 0x30 := rfl
theorem cr_off : reference.cr.off = 0x37 := rfl
theorem capr_off : reference.capr.off = 0x38 := rfl
theorem imr_off : reference.imr.off = 0x3C := rfl
theorem isr_off : reference.isr.off = 0x3E := rfl
theorem tcr_off : reference.tcr.off = 0x40 := rfl
theorem eecr_off : reference.eecr.off = 0x50 := rfl
theorem msr_off : reference.msr.off = 0x58 := rfl
theorem pairStride_val : reference.pairStride = 4 := rfl
theorem tsdSize_val : reference.tsdSize = 0x00001FFF#32 := rfl
theorem tsdTun_val : reference.tsdTun = 0x00004000#32 := rfl
theorem tsdTok_val : reference.tsdTok = 0x00008000#32 := rfl
theorem tsdThresh_val : reference.tsdThresh = 0x003F0000#32 := rfl
theorem tsdTabt_val : reference.tsdTabt = 0x40000000#32 := rfl
theorem tsdStatus_val : reference.tsdStatus = 0x4000C000#32 := by decide
theorem tsdUnnamed_val : reference.tsdUnnamed = 0xBFC02000#32 := by decide
theorem crBufe_val : reference.crBufe = 0x01#8 := rfl
theorem crTe_val : reference.crTe = 0x04#8 := rfl
theorem crRe_val : reference.crRe = 0x08#8 := rfl
theorem crRst_val : reference.crRst = 0x10#8 := rfl
theorem crUnnamed_val : reference.crUnnamed = 0xE2#8 := by decide
theorem isrRok_val : reference.isrRok = 0x0001#16 := rfl
theorem isrRer_val : reference.isrRer = 0x0002#16 := rfl
theorem isrTok_val : reference.isrTok = 0x0004#16 := rfl
theorem isrTer_val : reference.isrTer = 0x0008#16 := rfl
theorem isrLnk_val : reference.isrLnk = 0x0020#16 := rfl
theorem isrRxBits_val : reference.isrRxBits = 0x0003#16 := by decide
theorem isrTxBits_val : reference.isrTxBits = 0x000C#16 := by decide
theorem isrAll_val : reference.isrAll = 0x002F#16 := by decide
theorem tcrLbk_val : reference.tcrLbk = 0x00060000#32 := rfl
theorem tcrUnnamed_val : reference.tcrUnnamed = 0xFFF9FFFF#32 := by decide
theorem eeDo_val : reference.eeDo = 0x01#8 := rfl
theorem eeDi_val : reference.eeDi = 0x02#8 := rfl
theorem eeSk_val : reference.eeSk = 0x04#8 := rfl
theorem eeCs_val : reference.eeCs = 0x08#8 := rfl
theorem eeProg_val : reference.eeProg = 0x80#8 := rfl
theorem eeNormal_val : reference.eeNormal = 0x00#8 := rfl
theorem eecrUnnamed_val : reference.eecrUnnamed = 0x70#8 := by decide
theorem msrLinkb_val : reference.msrLinkb = 0x04#8 := rfl
theorem msrUnnamed_val : reference.msrUnnamed = 0xFB#8 := by decide

end Sys2Proof.Config

namespace Sys2Proof.Machine

open Config (reference)

/-! ## What the tests of bits and fields read -/

theorem txSize_eq (w : Word) : txSize reference w = w.extractLsb' 0 13 := by
  apply BitVec.eq_of_getLsbD_eq
  intro i hi
  simp only [txSize, Config.tsdSize_val]
  simp only [BitVec.getLsbD_setWidth, BitVec.getLsbD_and, BitVec.getLsbD_extractLsb', hi, decide_true, Bool.true_and,
    Nat.zero_add]
  have : (0x00001FFF#32).getLsbD i = true := by revert hi; revert i; decide
  rw [this, Bool.and_true]

/-- A test against a one-bit mask reads that bit. -/
theorem anySet_bit {w : Nat} (v mask : BitVec w) (k : Nat) (hk : k < w) (hm : mask = BitVec.twoPow w k) :
    anySet v mask = v.getLsbD k := by
  subst hm
  rw [anySet, Bool.eq_iff_iff, Bool.not_eq_true', beq_eq_false_iff_ne, ne_eq, BitVec.and_twoPow]
  cases v.getLsbD k
  · simp
  · have h : BitVec.twoPow w k ≠ 0#w := fun e => by
      have := congrArg (fun x => BitVec.getLsbD x k) e
      simp [hk] at this
    simp [h]

theorem txUnderrun_eq (w : Word) : txUnderrun reference w = w.getLsbD 14 := anySet_bit _ _ 14 (by decide) (by decide)
theorem txAborted_eq (w : Word) : txAborted reference w = w.getLsbD 30 := anySet_bit _ _ 30 (by decide) (by decide)
theorem txSucceeded_eq (w : Word) : txSucceeded reference w = w.getLsbD 15 := anySet_bit _ _ 15 (by decide) (by decide)

/-- A write of `CR` takes bits 2, 3 and 4 (R36). -/
theorem writeCr_eq (v : Byte) (n : Nic) : writeCr reference v n =
    { n with te := v.getLsbD 2, re := v.getLsbD 3, resetting := n.resetting || v.getLsbD 4 } := by
  simp only [writeCr, anySet_bit v reference.crTe 2 (by decide) (by decide),
    anySet_bit v reference.crRe 3 (by decide) (by decide), anySet_bit v reference.crRst 4 (by decide) (by decide)]

/-! ## The wire formats at the reference values -/

theorem slotOk_iff {i : Nat} : slotOk reference i = true ↔ i < 4 := by
  rw [slotOk, decide_eq_true_eq, Config.nTx_val]

theorem addressOk_iff {a : EeAddr} : addressOk reference a = true ↔ a.toNat < 64 := by
  rw [addressOk, decide_eq_true_eq, Config.eeAddrBits_val]
  norm_num

theorem bitOf_bit (w : Word) (k : Nat) (hk : k < 32) : bitOf (BitVec.twoPow 32 k) w = w.extractLsb' k 1 := by
  rw [bitOf, BitVec.and_twoPow]
  have h : BitVec.twoPow 32 k ≠ 0#32 := fun e => by
    have := congrArg (fun x => BitVec.getLsbD x k) e
    simp [hk] at this
  apply BitVec.eq_of_getLsbD_eq
  intro i hi
  obtain rfl : i = 0 := by omega
  cases hw : w.getLsbD k <;> simp [h, hw]

/-- A `TXCMD` word is the pattern of R79. -/
theorem commandWord_eq (thresh : BitVec 6) (len : BitVec 13) :
    commandWord reference thresh len = txcmdWord thresh len := by
  have h : fieldShift reference.tsdThresh = 16 := by decide
  apply BitVec.eq_of_getLsbD_eq
  intro i hi
  simp only [commandWord, h, txcmdWord, BitVec.getLsbD_or, BitVec.getLsbD_shiftLeft, BitVec.getLsbD_setWidth,
    BitVec.getLsbD_append]
  interval_cases i <;> simp

/-- The bits of a status word where R81 has them. -/
theorem decodeTxstat_eq (w : Word) : decodeTxstat reference w =
    if w &&& 0x4000C000#32 = 0#32 then
      .txstatInFlight (w.extractLsb' 31 1) (w.extractLsb' 16 14) (w.extractLsb' 13 1) (w.extractLsb' 0 13)
    else if w &&& 0x00008000#32 ≠ 0#32 then
      .txstatSuccess (w.extractLsb' 31 1) (w.extractLsb' 30 1) (w.extractLsb' 16 14) (w.extractLsb' 14 1)
        (w.extractLsb' 13 1) (w.extractLsb' 0 13)
    else
      .txstatError (w.extractLsb' 31 1) (w.extractLsb' 30 1) (w.extractLsb' 16 14) (w.extractLsb' 14 1)
        (w.extractLsb' 13 1) (w.extractLsb' 0 13) := by
  have h13 : bitOf reference.tsdOwn w = w.extractLsb' 13 1 := bitOf_bit w 13 (by decide)
  have h14 : bitOf reference.tsdTun w = w.extractLsb' 14 1 := bitOf_bit w 14 (by decide)
  have h30 : bitOf reference.tsdTabt w = w.extractLsb' 30 1 := bitOf_bit w 30 (by decide)
  have hs : (w &&& reference.tsdSize).setWidth 13 = w.extractLsb' 0 13 := txSize_eq w
  simp only [decodeTxstat, h13, h14, h30, hs, Config.tsdStatus_val, Config.tsdTok_val]
  rfl

/-- The fields of a `TXCMD` word where R79 has them. -/
theorem decodeTxcmd_eq (w : Word) (slot : Byte) : decodeTxcmd reference w slot =
    if w &&& 0xFFC0E000#32 = 0#32 ∧ slot.toNat < 4 then
      .ok (.txcmd (w.extractLsb' 16 6) (w.extractLsb' 0 13) slot.toNat)
    else .error .notTxcmd := by
  have hf : txcmdFixed reference = 0xFFC0E000#32 := by decide
  have hs : (w &&& reference.tsdSize).setWidth 13 = w.extractLsb' 0 13 := txSize_eq w
  have ht : (field reference.tsdThresh w).setWidth 6 = w.extractLsb' 16 6 := by
    have h : fieldShift 0x003F0000#32 = 16 := by decide
    have hm : ∀ i < 6, (0x003F0000#32).getLsbD (16 + i) = true := by decide
    apply BitVec.eq_of_getLsbD_eq
    intro i hi
    simp only [field, Config.tsdThresh_val, h, BitVec.getLsbD_setWidth, BitVec.getLsbD_ushiftRight,
      BitVec.getLsbD_and, BitVec.getLsbD_extractLsb', hm i hi, hi, decide_true, Bool.true_and, Bool.and_true]
  by_cases h : slot.toNat < 4 <;> simp [decodeTxcmd, hf, hs, ht, slotOk_iff, h]

/-- R84: opcode `0b110` in bits 8:6. -/
theorem decodeEecmd_eq (w : Half) : decodeEecmd reference w =
    if w.extractLsb' 6 10 = 0b110#10 then .ok (.eecmdRead ((w.extractLsb' 0 6).setWidth 16)) else .error .notEecmd := by
  have h1 : (w >>> reference.eeAddrBits = reference.eeReadOpcode.setWidth 16) = (w.extractLsb' 6 10 = 0b110#10) := by
    have hw := w.isLt
    simp only [Config.eeAddrBits_val, Config.eeReadOpcode_val, eq_iff_iff, BitVec.toNat_eq, BitVec.toNat_ushiftRight,
      BitVec.extractLsb'_toNat, BitVec.toNat_setWidth, BitVec.toNat_ofNat, Nat.shiftRight_eq_div_pow]
    omega
  have h2 : BitVec.ofNat 16 (w.toNat % 2 ^ reference.eeAddrBits) = (w.extractLsb' 0 6).setWidth 16 := by
    simp only [Config.eeAddrBits_val, BitVec.toNat_eq, BitVec.extractLsb'_toNat, BitVec.toNat_setWidth,
      BitVec.toNat_ofNat, Nat.shiftRight_zero]
  simp only [decodeEecmd, h1, h2]

end Sys2Proof.Machine
end

