-- ==== Sys2Proof/Laws/State.lean ====
section
/-! SUPPORT. One lemma per field per update of State, true by rfl and in the simp set, so that no later proof unfolds
a record update. -/

namespace Sys2Proof.Machine

@[simp] theorem drew_eng (k : Nat) (s : State) : (drew k s).eng = s.eng := rfl
@[simp] theorem drew_nic (k : Nat) (s : State) : (drew k s).nic = s.nic := rfl
@[simp] theorem drew_ee (k : Nat) (s : State) : (drew k s).ee = s.ee := rfl
@[simp] theorem drew_plat (k : Nat) (s : State) : (drew k s).plat = s.plat := rfl
@[simp] theorem drew_mem (k : Nat) (s : State) : (drew k s).mem = s.mem := rfl
@[simp] theorem drew_bringup (k : Nat) (s : State) : (drew k s).bringup = s.bringup := rfl
@[simp] theorem drew_submission (k : Nat) (s : State) : (drew k s).submission = s.submission := rfl
@[simp] theorem drew_interrupt (k : Nat) (s : State) : (drew k s).interrupt = s.interrupt := rfl
@[simp] theorem drew_events (k : Nat) (s : State) : (drew k s).events = s.events := rfl
@[simp] theorem drew_agenda (k : Nat) (s : State) : (drew k s).agenda = s.agenda := rfl
@[simp] theorem drew_draws (k : Nat) (s : State) : (drew k s).draws = s.draws.drop k := rfl
@[simp] theorem drew_freeCount (k : Nat) (s : State) : (drew k s).freeCount = s.freeCount + k := rfl

@[simp] theorem emit_eng (e : Event) (s : State) : (emit e s).eng = s.eng := rfl
@[simp] theorem emit_nic (e : Event) (s : State) : (emit e s).nic = s.nic := rfl
@[simp] theorem emit_ee (e : Event) (s : State) : (emit e s).ee = s.ee := rfl
@[simp] theorem emit_plat (e : Event) (s : State) : (emit e s).plat = s.plat := rfl
@[simp] theorem emit_mem (e : Event) (s : State) : (emit e s).mem = s.mem := rfl
@[simp] theorem emit_bringup (e : Event) (s : State) : (emit e s).bringup = s.bringup := rfl
@[simp] theorem emit_submission (e : Event) (s : State) : (emit e s).submission = s.submission := rfl
@[simp] theorem emit_interrupt (e : Event) (s : State) : (emit e s).interrupt = s.interrupt := rfl
@[simp] theorem emit_events (e : Event) (s : State) : (emit e s).events = s.events ++ [e] := rfl
@[simp] theorem emit_agenda (e : Event) (s : State) : (emit e s).agenda = s.agenda := rfl
@[simp] theorem emit_draws (e : Event) (s : State) : (emit e s).draws = s.draws := rfl
@[simp] theorem emit_freeCount (e : Event) (s : State) : (emit e s).freeCount = s.freeCount := rfl

@[simp] theorem storeCpu_eng (v : Nat) (s : State) : (storeCpu v s).eng = { s.eng with cpu := v } := rfl
@[simp] theorem storeCpu_nic (v : Nat) (s : State) : (storeCpu v s).nic = s.nic := rfl
@[simp] theorem storeCpu_ee (v : Nat) (s : State) : (storeCpu v s).ee = s.ee := rfl
@[simp] theorem storeCpu_plat (v : Nat) (s : State) : (storeCpu v s).plat = s.plat := rfl
@[simp] theorem storeCpu_mem (v : Nat) (s : State) : (storeCpu v s).mem = s.mem := rfl
@[simp] theorem storeCpu_bringup (v : Nat) (s : State) : (storeCpu v s).bringup = s.bringup := rfl
@[simp] theorem storeCpu_submission (v : Nat) (s : State) : (storeCpu v s).submission = s.submission := rfl
@[simp] theorem storeCpu_interrupt (v : Nat) (s : State) : (storeCpu v s).interrupt = s.interrupt := rfl
@[simp] theorem storeCpu_events (v : Nat) (s : State) : (storeCpu v s).events = s.events := rfl
@[simp] theorem storeCpu_agenda (v : Nat) (s : State) : (storeCpu v s).agenda = s.agenda := rfl
@[simp] theorem storeCpu_draws (v : Nat) (s : State) : (storeCpu v s).draws = s.draws := rfl
@[simp] theorem storeCpu_freeCount (v : Nat) (s : State) : (storeCpu v s).freeCount = s.freeCount := rfl

@[simp] theorem storeHw_eng (v : Nat) (s : State) : (storeHw v s).eng = { s.eng with hw := v } := rfl
@[simp] theorem storeHw_nic (v : Nat) (s : State) : (storeHw v s).nic = s.nic := rfl
@[simp] theorem storeHw_ee (v : Nat) (s : State) : (storeHw v s).ee = s.ee := rfl
@[simp] theorem storeHw_plat (v : Nat) (s : State) : (storeHw v s).plat = s.plat := rfl
@[simp] theorem storeHw_mem (v : Nat) (s : State) : (storeHw v s).mem = s.mem := rfl
@[simp] theorem storeHw_bringup (v : Nat) (s : State) : (storeHw v s).bringup = s.bringup := rfl
@[simp] theorem storeHw_submission (v : Nat) (s : State) : (storeHw v s).submission = s.submission := rfl
@[simp] theorem storeHw_interrupt (v : Nat) (s : State) : (storeHw v s).interrupt = s.interrupt := rfl
@[simp] theorem storeHw_events (v : Nat) (s : State) : (storeHw v s).events = s.events := rfl
@[simp] theorem storeHw_agenda (v : Nat) (s : State) : (storeHw v s).agenda = s.agenda := rfl
@[simp] theorem storeHw_draws (v : Nat) (s : State) : (storeHw v s).draws = s.draws := rfl
@[simp] theorem storeHw_freeCount (v : Nat) (s : State) : (storeHw v s).freeCount = s.freeCount := rfl

@[simp] theorem retireSlot_eng (K : Config.Values) (s : State) : (retireSlot K s).eng =
    { s.eng with hw := nextSlot K s.eng.hw } := rfl
@[simp] theorem retireSlot_nic (K : Config.Values) (s : State) : (retireSlot K s).nic = s.nic := rfl
@[simp] theorem retireSlot_ee (K : Config.Values) (s : State) : (retireSlot K s).ee = s.ee := rfl
@[simp] theorem retireSlot_plat (K : Config.Values) (s : State) : (retireSlot K s).plat = s.plat := rfl
@[simp] theorem retireSlot_mem (K : Config.Values) (s : State) : (retireSlot K s).mem = s.mem := rfl
@[simp] theorem retireSlot_bringup (K : Config.Values) (s : State) : (retireSlot K s).bringup = s.bringup := rfl
@[simp] theorem retireSlot_submission (K : Config.Values) (s : State) : (retireSlot K s).submission =
    s.submission := rfl
@[simp] theorem retireSlot_interrupt (K : Config.Values) (s : State) : (retireSlot K s).interrupt = s.interrupt := rfl
@[simp] theorem retireSlot_events (K : Config.Values) (s : State) : (retireSlot K s).events = s.events := rfl
@[simp] theorem retireSlot_agenda (K : Config.Values) (s : State) : (retireSlot K s).agenda = s.agenda := rfl
@[simp] theorem retireSlot_draws (K : Config.Values) (s : State) : (retireSlot K s).draws = s.draws := rfl
@[simp] theorem retireSlot_freeCount (K : Config.Values) (s : State) : (retireSlot K s).freeCount = s.freeCount := rfl

@[simp] theorem reportDone_eng (n : BitVec 13) (s : State) : (reportDone n s).eng = s.eng := rfl
@[simp] theorem reportDone_nic (n : BitVec 13) (s : State) : (reportDone n s).nic = s.nic := rfl
@[simp] theorem reportDone_ee (n : BitVec 13) (s : State) : (reportDone n s).ee = s.ee := rfl
@[simp] theorem reportDone_plat (n : BitVec 13) (s : State) : (reportDone n s).plat = s.plat := rfl
@[simp] theorem reportDone_mem (n : BitVec 13) (s : State) : (reportDone n s).mem = s.mem := rfl
@[simp] theorem reportDone_bringup (n : BitVec 13) (s : State) : (reportDone n s).bringup = s.bringup := rfl
@[simp] theorem reportDone_submission (n : BitVec 13) (s : State) : (reportDone n s).submission = s.submission := rfl
@[simp] theorem reportDone_interrupt (n : BitVec 13) (s : State) : (reportDone n s).interrupt = s.interrupt := rfl
@[simp] theorem reportDone_events (n : BitVec 13) (s : State) : (reportDone n s).events = s.events ++ [.txDone n] := rfl
@[simp] theorem reportDone_agenda (n : BitVec 13) (s : State) : (reportDone n s).agenda = s.agenda := rfl
@[simp] theorem reportDone_draws (n : BitVec 13) (s : State) : (reportDone n s).draws = s.draws := rfl
@[simp] theorem reportDone_freeCount (n : BitVec 13) (s : State) : (reportDone n s).freeCount = s.freeCount := rfl

@[simp] theorem zeroIndices_eng  (s : State) : (zeroIndices s).eng =
    { s.eng with cpu := 0, hw := 0, ringOk := true } := rfl
@[simp] theorem zeroIndices_nic  (s : State) : (zeroIndices s).nic = s.nic := rfl
@[simp] theorem zeroIndices_ee  (s : State) : (zeroIndices s).ee = s.ee := rfl
@[simp] theorem zeroIndices_plat  (s : State) : (zeroIndices s).plat = s.plat := rfl
@[simp] theorem zeroIndices_mem  (s : State) : (zeroIndices s).mem = s.mem := rfl
@[simp] theorem zeroIndices_bringup  (s : State) : (zeroIndices s).bringup = s.bringup := rfl
@[simp] theorem zeroIndices_submission  (s : State) : (zeroIndices s).submission = s.submission := rfl
@[simp] theorem zeroIndices_interrupt  (s : State) : (zeroIndices s).interrupt = s.interrupt := rfl
@[simp] theorem zeroIndices_events  (s : State) : (zeroIndices s).events = s.events := rfl
@[simp] theorem zeroIndices_agenda  (s : State) : (zeroIndices s).agenda = s.agenda := rfl
@[simp] theorem zeroIndices_draws  (s : State) : (zeroIndices s).draws = s.draws := rfl
@[simp] theorem zeroIndices_freeCount  (s : State) : (zeroIndices s).freeCount = s.freeCount := rfl

@[simp] theorem initEngine_eng  (s : State) : (initEngine s).eng =
    { s.eng with txStopped := false, rxOff := 0#16, linkPrev := .down } := rfl
@[simp] theorem initEngine_nic  (s : State) : (initEngine s).nic = s.nic := rfl
@[simp] theorem initEngine_ee  (s : State) : (initEngine s).ee = s.ee := rfl
@[simp] theorem initEngine_plat  (s : State) : (initEngine s).plat = s.plat := rfl
@[simp] theorem initEngine_mem  (s : State) : (initEngine s).mem = s.mem := rfl
@[simp] theorem initEngine_bringup  (s : State) : (initEngine s).bringup = s.bringup := rfl
@[simp] theorem initEngine_submission  (s : State) : (initEngine s).submission = s.submission := rfl
@[simp] theorem initEngine_interrupt  (s : State) : (initEngine s).interrupt = s.interrupt := rfl
@[simp] theorem initEngine_events  (s : State) : (initEngine s).events = s.events := rfl
@[simp] theorem initEngine_agenda  (s : State) : (initEngine s).agenda = s.agenda := rfl
@[simp] theorem initEngine_draws  (s : State) : (initEngine s).draws = s.draws := rfl
@[simp] theorem initEngine_freeCount  (s : State) : (initEngine s).freeCount = s.freeCount := rfl

@[simp] theorem setLifecycle_eng (l : Lifecycle) (s : State) : (setLifecycle l s).eng = { s.eng with lifecycle := l } :=
    rfl
@[simp] theorem setLifecycle_nic (l : Lifecycle) (s : State) : (setLifecycle l s).nic = s.nic := rfl
@[simp] theorem setLifecycle_ee (l : Lifecycle) (s : State) : (setLifecycle l s).ee = s.ee := rfl
@[simp] theorem setLifecycle_plat (l : Lifecycle) (s : State) : (setLifecycle l s).plat = s.plat := rfl
@[simp] theorem setLifecycle_mem (l : Lifecycle) (s : State) : (setLifecycle l s).mem = s.mem := rfl
@[simp] theorem setLifecycle_bringup (l : Lifecycle) (s : State) : (setLifecycle l s).bringup = s.bringup := rfl
@[simp] theorem setLifecycle_submission (l : Lifecycle) (s : State) : (setLifecycle l s).submission = s.submission :=
    rfl
@[simp] theorem setLifecycle_interrupt (l : Lifecycle) (s : State) : (setLifecycle l s).interrupt = s.interrupt := rfl
@[simp] theorem setLifecycle_events (l : Lifecycle) (s : State) : (setLifecycle l s).events = s.events := rfl
@[simp] theorem setLifecycle_agenda (l : Lifecycle) (s : State) : (setLifecycle l s).agenda = s.agenda := rfl
@[simp] theorem setLifecycle_draws (l : Lifecycle) (s : State) : (setLifecycle l s).draws = s.draws := rfl
@[simp] theorem setLifecycle_freeCount (l : Lifecycle) (s : State) : (setLifecycle l s).freeCount = s.freeCount := rfl

@[simp] theorem advanceRx_eng (K : Config.Values) (z : Half) (s : State) : (advanceRx K z s).eng =
    { s.eng with rxOff := advanceOffset K s.eng.rxOff (footprint K z.toNat) } := rfl
@[simp] theorem advanceRx_nic (K : Config.Values) (z : Half) (s : State) : (advanceRx K z s).nic = s.nic := rfl
@[simp] theorem advanceRx_ee (K : Config.Values) (z : Half) (s : State) : (advanceRx K z s).ee = s.ee := rfl
@[simp] theorem advanceRx_plat (K : Config.Values) (z : Half) (s : State) : (advanceRx K z s).plat = s.plat := rfl
@[simp] theorem advanceRx_mem (K : Config.Values) (z : Half) (s : State) : (advanceRx K z s).mem = s.mem := rfl
@[simp] theorem advanceRx_bringup (K : Config.Values) (z : Half) (s : State) : (advanceRx K z s).bringup = s.bringup :=
    rfl
@[simp] theorem advanceRx_submission (K : Config.Values) (z : Half) (s : State) : (advanceRx K z s).submission =
    s.submission := rfl
@[simp] theorem advanceRx_interrupt (K : Config.Values) (z : Half) (s : State) : (advanceRx K z s).interrupt =
    s.interrupt := rfl
@[simp] theorem advanceRx_events (K : Config.Values) (z : Half) (s : State) : (advanceRx K z s).events = s.events := rfl
@[simp] theorem advanceRx_agenda (K : Config.Values) (z : Half) (s : State) : (advanceRx K z s).agenda = s.agenda := rfl
@[simp] theorem advanceRx_draws (K : Config.Values) (z : Half) (s : State) : (advanceRx K z s).draws = s.draws := rfl
@[simp] theorem advanceRx_freeCount (K : Config.Values) (z : Half) (s : State) : (advanceRx K z s).freeCount =
    s.freeCount := rfl

@[simp] theorem releaseIrqLine_eng  (s : State) : (releaseIrqLine s).eng = s.eng := rfl
@[simp] theorem releaseIrqLine_nic  (s : State) : (releaseIrqLine s).nic = s.nic := rfl
@[simp] theorem releaseIrqLine_ee  (s : State) : (releaseIrqLine s).ee = s.ee := rfl
@[simp] theorem releaseIrqLine_plat  (s : State) : (releaseIrqLine s).plat = { s.plat with irqHeld := false } := rfl
@[simp] theorem releaseIrqLine_mem  (s : State) : (releaseIrqLine s).mem = s.mem := rfl
@[simp] theorem releaseIrqLine_bringup  (s : State) : (releaseIrqLine s).bringup = s.bringup := rfl
@[simp] theorem releaseIrqLine_submission  (s : State) : (releaseIrqLine s).submission = s.submission := rfl
@[simp] theorem releaseIrqLine_interrupt  (s : State) : (releaseIrqLine s).interrupt = s.interrupt := rfl
@[simp] theorem releaseIrqLine_events  (s : State) : (releaseIrqLine s).events = s.events := rfl
@[simp] theorem releaseIrqLine_agenda  (s : State) : (releaseIrqLine s).agenda = s.agenda := rfl
@[simp] theorem releaseIrqLine_draws  (s : State) : (releaseIrqLine s).draws = s.draws := rfl
@[simp] theorem releaseIrqLine_freeCount  (s : State) : (releaseIrqLine s).freeCount = s.freeCount := rfl

@[simp] theorem releaseTxBuf_eng (K : Config.Values) (s : State) : (releaseTxBuf K s).eng = s.eng := rfl
@[simp] theorem releaseTxBuf_nic (K : Config.Values) (s : State) : (releaseTxBuf K s).nic = s.nic := rfl
@[simp] theorem releaseTxBuf_ee (K : Config.Values) (s : State) : (releaseTxBuf K s).ee = s.ee := rfl
@[simp] theorem releaseTxBuf_plat (K : Config.Values) (s : State) : (releaseTxBuf K s).plat =
    { s.plat with txHeld := false } := rfl
@[simp] theorem releaseTxBuf_mem (K : Config.Values) (s : State) : (releaseTxBuf K s).mem =
    Memory.clear s.mem s.plat.params.txDmaBase.toNat K.txBufBytes := rfl
@[simp] theorem releaseTxBuf_bringup (K : Config.Values) (s : State) : (releaseTxBuf K s).bringup = s.bringup := rfl
@[simp] theorem releaseTxBuf_submission (K : Config.Values) (s : State) : (releaseTxBuf K s).submission =
    s.submission := rfl
@[simp] theorem releaseTxBuf_interrupt (K : Config.Values) (s : State) : (releaseTxBuf K s).interrupt = s.interrupt :=
    rfl
@[simp] theorem releaseTxBuf_events (K : Config.Values) (s : State) : (releaseTxBuf K s).events = s.events := rfl
@[simp] theorem releaseTxBuf_agenda (K : Config.Values) (s : State) : (releaseTxBuf K s).agenda = s.agenda := rfl
@[simp] theorem releaseTxBuf_draws (K : Config.Values) (s : State) : (releaseTxBuf K s).draws = s.draws := rfl
@[simp] theorem releaseTxBuf_freeCount (K : Config.Values) (s : State) : (releaseTxBuf K s).freeCount = s.freeCount :=
    rfl

@[simp] theorem releaseRxBuf_eng (K : Config.Values) (s : State) : (releaseRxBuf K s).eng = s.eng := rfl
@[simp] theorem releaseRxBuf_nic (K : Config.Values) (s : State) : (releaseRxBuf K s).nic = s.nic := rfl
@[simp] theorem releaseRxBuf_ee (K : Config.Values) (s : State) : (releaseRxBuf K s).ee = s.ee := rfl
@[simp] theorem releaseRxBuf_plat (K : Config.Values) (s : State) : (releaseRxBuf K s).plat =
    { s.plat with rxHeld := false } := rfl
@[simp] theorem releaseRxBuf_mem (K : Config.Values) (s : State) : (releaseRxBuf K s).mem =
    Memory.clear s.mem s.plat.params.rxDmaBase.toNat K.rxBufBytes := rfl
@[simp] theorem releaseRxBuf_bringup (K : Config.Values) (s : State) : (releaseRxBuf K s).bringup = s.bringup := rfl
@[simp] theorem releaseRxBuf_submission (K : Config.Values) (s : State) : (releaseRxBuf K s).submission =
    s.submission := rfl
@[simp] theorem releaseRxBuf_interrupt (K : Config.Values) (s : State) : (releaseRxBuf K s).interrupt = s.interrupt :=
    rfl
@[simp] theorem releaseRxBuf_events (K : Config.Values) (s : State) : (releaseRxBuf K s).events = s.events := rfl
@[simp] theorem releaseRxBuf_agenda (K : Config.Values) (s : State) : (releaseRxBuf K s).agenda = s.agenda := rfl
@[simp] theorem releaseRxBuf_draws (K : Config.Values) (s : State) : (releaseRxBuf K s).draws = s.draws := rfl
@[simp] theorem releaseRxBuf_freeCount (K : Config.Values) (s : State) : (releaseRxBuf K s).freeCount = s.freeCount :=
    rfl

@[simp] theorem platformGrants_eng (i t r : Bool) (s : State) : (platformGrants i t r s).eng = s.eng := rfl
@[simp] theorem platformGrants_nic (i t r : Bool) (s : State) : (platformGrants i t r s).nic = s.nic := rfl
@[simp] theorem platformGrants_ee (i t r : Bool) (s : State) : (platformGrants i t r s).ee = s.ee := rfl
@[simp] theorem platformGrants_plat (i t r : Bool) (s : State) : (platformGrants i t r s).plat =
    { s.plat with grantIrq := i, grantTx := t, grantRx := r } := rfl
@[simp] theorem platformGrants_mem (i t r : Bool) (s : State) : (platformGrants i t r s).mem = s.mem := rfl
@[simp] theorem platformGrants_bringup (i t r : Bool) (s : State) : (platformGrants i t r s).bringup = s.bringup := rfl
@[simp] theorem platformGrants_submission (i t r : Bool) (s : State) : (platformGrants i t r s).submission =
    s.submission := rfl
@[simp] theorem platformGrants_interrupt (i t r : Bool) (s : State) : (platformGrants i t r s).interrupt =
    s.interrupt := rfl
@[simp] theorem platformGrants_events (i t r : Bool) (s : State) : (platformGrants i t r s).events = s.events := rfl
@[simp] theorem platformGrants_agenda (i t r : Bool) (s : State) : (platformGrants i t r s).agenda = s.agenda := rfl
@[simp] theorem platformGrants_draws (i t r : Bool) (s : State) : (platformGrants i t r s).draws = s.draws := rfl
@[simp] theorem platformGrants_freeCount (i t r : Bool) (s : State) : (platformGrants i t r s).freeCount =
    s.freeCount := rfl

/-! ## Contexts -/

@[simp] theorem setContext_bringup (x : Context) (s : State) : setContext .bringup x s = { s with bringup := x } := rfl
@[simp] theorem setContext_submission (x : Context) (s : State) :
    setContext .submission x s = { s with submission := x } := rfl
@[simp] theorem setContext_interrupt (x : Context) (s : State) :
    setContext .interrupt x s = { s with interrupt := x } := rfl

@[simp] theorem context_bringup (s : State) : s.context .bringup = s.bringup := rfl
@[simp] theorem context_submission (s : State) : s.context .submission = s.submission := rfl
@[simp] theorem context_interrupt (s : State) : s.context .interrupt = s.interrupt := rfl

@[simp] theorem context_setContext (c : Ctx) (x : Context) (s : State) : (setContext c x s).context c = x := by
  cases c <;> rfl

theorem context_setContext_ne {c d : Ctx} (h : c ≠ d) (x : Context) (s : State) :
    (setContext c x s).context d = s.context d := by
  cases c <;> cases d <;> first | rfl | exact absurd rfl h

@[simp] theorem idle_eq (c : Ctx) (s : State) : idle c s = (s.context c).stack.isEmpty := rfl

@[simp] theorem setContext_eng (c : Ctx) (x : Context) (s : State) : (setContext c x s).eng = s.eng :=
    by cases c <;> rfl
@[simp] theorem setContext_nic (c : Ctx) (x : Context) (s : State) : (setContext c x s).nic = s.nic :=
    by cases c <;> rfl
@[simp] theorem setContext_ee (c : Ctx) (x : Context) (s : State) : (setContext c x s).ee = s.ee := by cases c <;> rfl
@[simp] theorem setContext_plat (c : Ctx) (x : Context) (s : State) : (setContext c x s).plat = s.plat :=
    by cases c <;> rfl
@[simp] theorem setContext_mem (c : Ctx) (x : Context) (s : State) : (setContext c x s).mem = s.mem :=
    by cases c <;> rfl
@[simp] theorem setContext_events (c : Ctx) (x : Context) (s : State) : (setContext c x s).events = s.events :=
    by cases c <;> rfl
@[simp] theorem setContext_agenda (c : Ctx) (x : Context) (s : State) : (setContext c x s).agenda = s.agenda :=
    by cases c <;> rfl
@[simp] theorem setContext_draws (c : Ctx) (x : Context) (s : State) : (setContext c x s).draws = s.draws :=
    by cases c <;> rfl
@[simp] theorem setContext_freeCount (c : Ctx) (x : Context) (s : State) : (setContext c x s).freeCount = s.freeCount :=
    by cases c <;> rfl

@[simp] theorem applyCtl_eng (c : Ctx) (k : Ctl) (s : State) : (applyCtl c k s).eng = s.eng :=
    by cases k <;> cases c <;> rfl
@[simp] theorem applyCtl_nic (c : Ctx) (k : Ctl) (s : State) : (applyCtl c k s).nic = s.nic :=
    by cases k <;> cases c <;> rfl
@[simp] theorem applyCtl_ee (c : Ctx) (k : Ctl) (s : State) : (applyCtl c k s).ee = s.ee :=
    by cases k <;> cases c <;> rfl
@[simp] theorem applyCtl_plat (c : Ctx) (k : Ctl) (s : State) : (applyCtl c k s).plat = s.plat :=
    by cases k <;> cases c <;> rfl
@[simp] theorem applyCtl_mem (c : Ctx) (k : Ctl) (s : State) : (applyCtl c k s).mem = s.mem :=
    by cases k <;> cases c <;> rfl
@[simp] theorem applyCtl_events (c : Ctx) (k : Ctl) (s : State) : (applyCtl c k s).events = s.events :=
    by cases k <;> cases c <;> rfl
@[simp] theorem applyCtl_agenda (c : Ctx) (k : Ctl) (s : State) : (applyCtl c k s).agenda = s.agenda :=
    by cases k <;> cases c <;> rfl
@[simp] theorem applyCtl_draws (c : Ctx) (k : Ctl) (s : State) : (applyCtl c k s).draws = s.draws :=
    by cases k <;> cases c <;> rfl
@[simp] theorem applyCtl_freeCount (c : Ctx) (k : Ctl) (s : State) : (applyCtl c k s).freeCount = s.freeCount :=
    by cases k <;> cases c <;> rfl

@[simp] theorem enterOp_eng (c : Ctx) (f : Frame) (s : State) : (enterOp c f s).eng = s.eng := by cases c <;> rfl
@[simp] theorem enterOp_nic (c : Ctx) (f : Frame) (s : State) : (enterOp c f s).nic = s.nic := by cases c <;> rfl
@[simp] theorem enterOp_ee (c : Ctx) (f : Frame) (s : State) : (enterOp c f s).ee = s.ee := by cases c <;> rfl
@[simp] theorem enterOp_plat (c : Ctx) (f : Frame) (s : State) : (enterOp c f s).plat = s.plat := by cases c <;> rfl
@[simp] theorem enterOp_mem (c : Ctx) (f : Frame) (s : State) : (enterOp c f s).mem = s.mem := by cases c <;> rfl
@[simp] theorem enterOp_events (c : Ctx) (f : Frame) (s : State) : (enterOp c f s).events = s.events :=
    by cases c <;> rfl
@[simp] theorem enterOp_agenda (c : Ctx) (f : Frame) (s : State) : (enterOp c f s).agenda = s.agenda :=
    by cases c <;> rfl
@[simp] theorem enterOp_draws (c : Ctx) (f : Frame) (s : State) : (enterOp c f s).draws = s.draws := by cases c <;> rfl
@[simp] theorem enterOp_freeCount (c : Ctx) (f : Frame) (s : State) : (enterOp c f s).freeCount = s.freeCount :=
    by cases c <;> rfl

@[simp] theorem returnOp_eng (c : Ctx) (r : OpResult) (s : State) : (returnOp c r s).eng = s.eng := by cases c <;> rfl
@[simp] theorem returnOp_nic (c : Ctx) (r : OpResult) (s : State) : (returnOp c r s).nic = s.nic := by cases c <;> rfl
@[simp] theorem returnOp_ee (c : Ctx) (r : OpResult) (s : State) : (returnOp c r s).ee = s.ee := by cases c <;> rfl
@[simp] theorem returnOp_plat (c : Ctx) (r : OpResult) (s : State) : (returnOp c r s).plat = s.plat :=
    by cases c <;> rfl
@[simp] theorem returnOp_mem (c : Ctx) (r : OpResult) (s : State) : (returnOp c r s).mem = s.mem := by cases c <;> rfl
@[simp] theorem returnOp_events (c : Ctx) (r : OpResult) (s : State) : (returnOp c r s).events = s.events :=
    by cases c <;> rfl
@[simp] theorem returnOp_agenda (c : Ctx) (r : OpResult) (s : State) : (returnOp c r s).agenda = s.agenda :=
    by cases c <;> rfl
@[simp] theorem returnOp_draws (c : Ctx) (r : OpResult) (s : State) : (returnOp c r s).draws = s.draws :=
    by cases c <;> rfl
@[simp] theorem returnOp_freeCount (c : Ctx) (r : OpResult) (s : State) : (returnOp c r s).freeCount = s.freeCount :=
    by cases c <;> rfl

/-! ## Lists indexed by a slot -/

@[simp] theorem length_setSlot {α : Type} (v : List α) (i : Nat) (x : α) : (setSlot v i x).length = v.length :=
  List.length_set

@[simp] theorem atSlot_setSlot {α : Type} [Inhabited α] (v : List α) {i : Nat} (h : i < v.length) (x : α) :
    atSlot (setSlot v i x) i = x := by simp [atSlot, setSlot, h]

theorem atSlot_setSlot_ne {α : Type} [Inhabited α] (v : List α) {i j : Nat} (h : i ≠ j) (x : α) :
    atSlot (setSlot v i x) j = atSlot v j := by simp [atSlot, setSlot, h]

theorem atSlot_setSlot_if {α : Type} [Inhabited α] (v : List α) {i : Nat} (h : i < v.length) (j : Nat) (x : α) :
    atSlot (setSlot v i x) j = if i = j then x else atSlot v j := by
  split
  · subst_vars; exact atSlot_setSlot v h x
  · exact atSlot_setSlot_ne v ‹_› x

theorem setSlot_of_length_le {α : Type} (v : List α) {i : Nat} (h : v.length ≤ i) (x : α) : setSlot v i x = v :=
  List.set_eq_of_length_le h

/-- An entry that is not the default one stands in the list. -/
theorem lt_of_atSlot_ne {α : Type} [Inhabited α] (v : List α) {i : Nat} (h : atSlot v i ≠ default) :
    i < v.length := by
  by_contra hi
  exact h (by simp [atSlot, Nat.not_lt.1 hi])

end Sys2Proof.Machine
end

