-- ==== Sys2Proof/Laws/Bits.lean ====
section
/-! SUPPORT. The byte-order and bit-field helpers: joining the bytes of a value gives it back (R45, R47, R50). -/

namespace Sys2Proof

theorem join16_extract (w : Half) : join16 (w.extractLsb' 0 8) (w.extractLsb' 8 8) = w := by
  apply BitVec.eq_of_getLsbD_eq
  intro i hi
  simp only [join16, BitVec.getLsbD_append, BitVec.getLsbD_extractLsb']
  grind

theorem join32_extract (w : Word) :
    join32 (w.extractLsb' 0 8) (w.extractLsb' 8 8) (w.extractLsb' 16 8) (w.extractLsb' 24 8) = w := by
  apply BitVec.eq_of_getLsbD_eq
  intro i hi
  simp only [join32, BitVec.getLsbD_append, BitVec.getLsbD_extractLsb']
  grind

theorem join32_byteOf (w : Word) : join32 (byteOf 0 w) (byteOf 1 w) (byteOf 2 w) (byteOf 3 w) = w :=
  join32_extract w

theorem bswap16_join (b0 b1 : Byte) : bswap16 (join16 b0 b1) = join16 b1 b0 := by
  apply BitVec.eq_of_getLsbD_eq
  intro i hi
  simp only [bswap16, join16, BitVec.getLsbD_append, BitVec.getLsbD_extractLsb']
  grind

theorem bswap32_join (b0 b1 b2 b3 : Byte) : bswap32 (join32 b0 b1 b2 b3) = join32 b3 b2 b1 b0 := by
  apply BitVec.eq_of_getLsbD_eq
  intro i hi
  simp only [bswap32, join32, BitVec.getLsbD_append, BitVec.getLsbD_extractLsb']
  grind

theorem join32_setWidth8 (a b c d : Byte) : (join32 a b c d).setWidth 8 = a := by
  apply BitVec.eq_of_getLsbD_eq
  intro i hi
  simp only [join32, BitVec.getLsbD_append, BitVec.getLsbD_setWidth]
  grind

theorem join32_setWidth16 (a b c d : Byte) : (join32 a b c d).setWidth 16 = join16 a b := by
  apply BitVec.eq_of_getLsbD_eq
  intro i hi
  simp only [join32, join16, BitVec.getLsbD_append, BitVec.getLsbD_setWidth]
  grind

theorem byteOf_setWidth8 (v : Byte) : byteOf 0 (v.setWidth 32) = v := by
  apply BitVec.eq_of_getLsbD_eq
  intro i hi
  simp only [byteOf, BitVec.getLsbD_extractLsb', BitVec.getLsbD_setWidth]
  grind

theorem join16_byteOf_setWidth (v : Half) :
    join16 (byteOf 0 (v.setWidth 32)) (byteOf 1 (v.setWidth 32)) = v := by
  apply BitVec.eq_of_getLsbD_eq
  intro i hi
  simp only [join16, byteOf, BitVec.getLsbD_append, BitVec.getLsbD_extractLsb', BitVec.getLsbD_setWidth]
  grind

namespace Machine

/-- The host bytes of a 16-bit value, as a little-endian register sees them: the value, or its byte swap (R107). -/
theorem join16_hostBytes (be : Bool) (v : Half) (b0 b1 : Byte) (h : hostBytes16 be v = [b0, b1]) :
    join16 b0 b1 = if be then bswap16 v else v := by
  cases be
  · simp only [hostBytes16, le16, Bool.false_eq_true, if_false, List.cons.injEq, and_true] at h
    rw [← h.1, ← h.2]; exact join16_extract v
  · simp only [hostBytes16, if_true, List.cons.injEq, and_true] at h
    rw [← h.1, ← h.2]; rfl

/-- The same for a 32-bit value (R108). -/
theorem join32_hostBytes (be : Bool) (v : Word) (b0 b1 b2 b3 : Byte) (h : hostBytes32 be v = [b0, b1, b2, b3]) :
    join32 b0 b1 b2 b3 = if be then bswap32 v else v := by
  cases be
  · simp only [hostBytes32, le32, Bool.false_eq_true, if_false, List.cons.injEq, and_true] at h
    obtain ⟨h0, h1, h2, h3⟩ := h
    rw [← h0, ← h1, ← h2, ← h3]; exact join32_extract v
  · simp only [hostBytes32, if_true, List.cons.injEq, and_true] at h
    obtain ⟨h0, h1, h2, h3⟩ := h
    rw [← h0, ← h1, ← h2, ← h3]
    rfl

end Machine
end Sys2Proof
end

