-- ==== Sys2Proof/Laws/Memory.lean ====
section
/-! SUPPORT. The laws of DMA memory: read after write, and that every operation keeps the canonical form. -/

namespace Sys2Proof.Machine

theorem Memory.get?_set_same (m : List Host.Cell) (a : Nat) (v : Byte) :
    Memory.get? (Memory.set m a v) a = some v := by
  induction m with
  | nil => simp [Memory.set, Memory.get?]
  | cons c rest ih =>
    obtain ⟨x, b⟩ := c
    simp only [Memory.set]
    split
    · simp only [Memory.get?]; rw [if_neg (by omega)]; exact ih
    · split <;> simp [Memory.get?]

theorem Memory.get?_set_ne (m : List Host.Cell) {a x : Nat} (h : a ≠ x) (v : Byte) :
    Memory.get? (Memory.set m a v) x = Memory.get? m x := by
  induction m with
  | nil => simp [Memory.set, Memory.get?, h]
  | cons c rest ih =>
    obtain ⟨y, b⟩ := c
    simp only [Memory.set]
    split
    · simp only [Memory.get?, ih]
    · split
      · subst_vars; simp [Memory.get?, h]
      · simp [Memory.get?, h]

/-- Read after write of a range: the byte written there, else the old one. -/
theorem Memory.get?_setRange (m : List Host.Cell) (a : Nat) (bs : List Byte) (x : Nat) :
    Memory.get? (Memory.setRange m a bs) x =
      if a ≤ x ∧ x < a + bs.length then bs[x - a]? else Memory.get? m x := by
  induction bs generalizing m a with
  | nil => simp only [Memory.setRange, List.length_nil]; rw [if_neg (by omega)]
  | cons b bs ih =>
    simp only [Memory.setRange, List.length_cons, ih]
    by_cases h1 : a + 1 ≤ x ∧ x < a + 1 + bs.length
    · rw [if_pos h1, if_pos (by omega)]
      obtain ⟨k, hk⟩ : ∃ k, x - a = k + 1 := ⟨x - (a + 1), by omega⟩
      rw [hk, show x - (a + 1) = k by omega]; rfl
    · rw [if_neg h1]
      by_cases h2 : x = a
      · subst h2; rw [Memory.get?_set_same, if_pos (by omega)]; simp
      · rw [Memory.get?_set_ne _ (Ne.symm h2), if_neg (by omega)]

theorem Memory.wf_cons (c : Host.Cell) (m : List Host.Cell) :
    Memory.wf (c :: m) = true ↔ (∀ d ∈ m, c.1 < d.1) ∧ Memory.wf m = true := by
  induction m generalizing c with
  | nil => simp [Memory.wf]
  | cons d rest ih =>
    simp only [Memory.wf, Bool.and_eq_true, decide_eq_true_eq, List.mem_cons, forall_eq_or_imp]
    constructor
    · rintro ⟨h1, h2⟩
      exact ⟨⟨h1, fun e he => Nat.lt_trans h1 (((ih d).1 h2).1 e he)⟩, h2⟩
    · rintro ⟨⟨h1, _⟩, h2⟩
      exact ⟨h1, h2⟩

theorem Memory.mem_set {m : List Host.Cell} {a : Nat} {v : Byte} {c : Host.Cell} (h : c ∈ Memory.set m a v) :
    c.1 = a ∨ c ∈ m := by
  induction m with
  | nil => simp [Memory.set] at h; simp [h]
  | cons d rest ih =>
    obtain ⟨x, b⟩ := d
    simp only [Memory.set] at h
    split at h
    · rcases List.mem_cons.1 h with h | h
      · exact .inr (by simp [h])
      · rcases ih h with h | h
        · exact .inl h
        · exact .inr (List.mem_cons_of_mem _ h)
    · split at h
      · rcases List.mem_cons.1 h with h | h
        · exact .inl (by simp [h])
        · exact .inr (List.mem_cons_of_mem _ h)
      · rcases List.mem_cons.1 h with h | h
        · exact .inl (by simp [h])
        · exact .inr h

/-- A write keeps the canonical form. -/
theorem Memory.wf_set (m : List Host.Cell) (a : Nat) (v : Byte) (h : Memory.wf m = true) :
    Memory.wf (Memory.set m a v) = true := by
  induction m with
  | nil => rfl
  | cons d rest ih =>
    obtain ⟨x, b⟩ := d
    obtain ⟨h1, h2⟩ := (Memory.wf_cons _ _).1 h
    simp only [Memory.set]
    split
    · refine (Memory.wf_cons _ _).2 ⟨fun c hc => ?_, ih h2⟩
      rcases Memory.mem_set hc with e | e
      · simpa [e] using ‹x < a›
      · exact h1 c e
    · split
      · subst_vars; exact (Memory.wf_cons _ _).2 ⟨h1, h2⟩
      · refine (Memory.wf_cons _ _).2 ⟨fun c hc => ?_, h⟩
        rcases List.mem_cons.1 hc with e | e
        · subst e; simp only; omega
        · have := h1 c e; simp only at this ⊢; omega

theorem Memory.wf_setRange (m : List Host.Cell) (a : Nat) (bs : List Byte) (h : Memory.wf m = true) :
    Memory.wf (Memory.setRange m a bs) = true := by
  induction bs generalizing m a with
  | nil => exact h
  | cons b bs ih => exact ih _ _ (Memory.wf_set m a b h)

theorem setWrapped_wf (K : Config.Values) (base : Nat) (m : List Host.Cell) (off : Nat) (bs : List Byte)
    (h : Memory.wf m = true) :
    Memory.wf (setWrapped K base m off bs) = true := by
  induction bs generalizing m off with
  | nil => exact h
  | cons b bs ih => exact ih _ _ (Memory.wf_set m _ b h)

theorem Memory.wf_filter (m : List Host.Cell) (p : Host.Cell → Bool) (h : Memory.wf m = true) :
    Memory.wf (m.filter p) = true := by
  induction m with
  | nil => rfl
  | cons d rest ih =>
    obtain ⟨h1, h2⟩ := (Memory.wf_cons _ _).1 h
    simp only [List.filter_cons]
    split
    · exact (Memory.wf_cons _ _).2 ⟨fun c hc => h1 c (List.mem_filter.1 hc).1, ih h2⟩
    · exact ih h2

/-- A release keeps the canonical form. -/
theorem Memory.wf_clear (m : List Host.Cell) (a n : Nat) (h : Memory.wf m = true) :
    Memory.wf (Memory.clear m a n) = true := Memory.wf_filter m _ h

theorem Memory.mem_setRange {m : List Host.Cell} {a : Nat} {bs : List Byte} {c : Host.Cell}
    (h : c ∈ Memory.setRange m a bs) : (a ≤ c.1 ∧ c.1 < a + bs.length) ∨ c ∈ m := by
  induction bs generalizing m a with
  | nil => exact .inr h
  | cons b bs ih =>
    rcases ih h with h | h
    · exact .inl (by simp only [List.length_cons]; omega)
    · rcases Memory.mem_set h with h | h
      · exact .inl (by simp only [List.length_cons]; omega)
      · exact .inr h

/-- What a write through `memWrite` does, whole: the range was in a held buffer and only memory changed. -/
theorem memWrite_some {K : Config.Values} {s t : State} {a : Nat} {bs : List Byte} (h : memWrite K s a bs = some t) :
    (bs = [] ∨ mapped K s.plat a bs.length = true) ∧ t = { s with mem := Memory.setRange s.mem a bs } := by
  unfold memWrite at h
  split at h
  · exact ⟨‹_›, (Option.some.inj h).symm⟩
  · cases h

/-- What a read through `memRead` gives, whole. -/
theorem memRead_some {K : Config.Values} {s : State} {a n : Nat} {bs : List Byte} (h : memRead K s a n = some bs) :
    (n = 0 ∨ mapped K s.plat a n = true) ∧ bs = bytesAt s a n := by
  unfold memRead at h
  split at h
  · exact ⟨‹_›, (Option.some.inj h).symm⟩
  · cases h

@[simp] theorem bytesAt_length (s : State) (a n : Nat) : (bytesAt s a n).length = n := by simp [bytesAt]

end Sys2Proof.Machine
end

