-- ==== Sys2Proof/Laws/Window.lean ====
section
/-! SUPPORT. What a register write does, once per register (R31, R39, R190, R196), and what it leaves alone:
everything outside the NIC and the EEPROM. -/

namespace Sys2Proof.Machine

open Config (reference)

/-! ## Frame of a register write -/

theorem writeReg_frame (K : Config.Values) (off : Nat) (bs : List Byte) (s : State) (row : Config.RegRow) :
    ∃ n e, writeReg K off bs s row = { s with nic := n, ee := e } := by
  unfold writeReg
  cases row.reg <;> exact ⟨_, _, rfl⟩

/-- A register write changes the NIC and the EEPROM only. -/
theorem regWrite_frame (K : Config.Values) (off : Nat) (bs : List Byte) (s : State) :
    ∃ n e, regWrite K off bs s = { s with nic := n, ee := e } := by
  unfold regWrite
  generalize reached K off bs.length = rows
  induction rows generalizing s with
  | nil => exact ⟨s.nic, s.ee, rfl⟩
  | cons r rows ih =>
    obtain ⟨n, e, h⟩ := writeReg_frame K off bs s r
    obtain ⟨n', e', h'⟩ := ih (writeReg K off bs s r)
    exact ⟨n', e', by simp only [List.foldl_cons]; rw [h', h]⟩

@[simp] theorem regWrite_eng (K : Config.Values) (o : Nat) (bs : List Byte) (s : State) : (regWrite K o bs s).eng =
    s.eng := by
  obtain ⟨n, e, h⟩ := regWrite_frame K o bs s; rw [h]
@[simp] theorem regWrite_plat (K : Config.Values) (o : Nat) (bs : List Byte) (s : State) : (regWrite K o bs s).plat =
    s.plat := by
  obtain ⟨n, e, h⟩ := regWrite_frame K o bs s; rw [h]
@[simp] theorem regWrite_mem (K : Config.Values) (o : Nat) (bs : List Byte) (s : State) : (regWrite K o bs s).mem =
    s.mem := by
  obtain ⟨n, e, h⟩ := regWrite_frame K o bs s; rw [h]
@[simp] theorem regWrite_bringup (K : Config.Values) (o : Nat) (bs : List Byte) (s : State) :
    (regWrite K o bs s).bringup = s.bringup := by
  obtain ⟨n, e, h⟩ := regWrite_frame K o bs s; rw [h]
@[simp] theorem regWrite_submission (K : Config.Values) (o : Nat) (bs : List Byte) (s : State) :
    (regWrite K o bs s).submission = s.submission := by
  obtain ⟨n, e, h⟩ := regWrite_frame K o bs s; rw [h]
@[simp] theorem regWrite_interrupt (K : Config.Values) (o : Nat) (bs : List Byte) (s : State) :
    (regWrite K o bs s).interrupt = s.interrupt := by
  obtain ⟨n, e, h⟩ := regWrite_frame K o bs s; rw [h]
@[simp] theorem regWrite_events (K : Config.Values) (o : Nat) (bs : List Byte) (s : State) :
    (regWrite K o bs s).events = s.events := by
  obtain ⟨n, e, h⟩ := regWrite_frame K o bs s; rw [h]
@[simp] theorem regWrite_agenda (K : Config.Values) (o : Nat) (bs : List Byte) (s : State) :
    (regWrite K o bs s).agenda = s.agenda := by
  obtain ⟨n, e, h⟩ := regWrite_frame K o bs s; rw [h]
@[simp] theorem regWrite_draws (K : Config.Values) (o : Nat) (bs : List Byte) (s : State) : (regWrite K o bs s).draws =
    s.draws := by
  obtain ⟨n, e, h⟩ := regWrite_frame K o bs s; rw [h]
@[simp] theorem regWrite_freeCount (K : Config.Values) (o : Nat) (bs : List Byte) (s : State) :
    (regWrite K o bs s).freeCount = s.freeCount := by
  obtain ⟨n, e, h⟩ := regWrite_frame K o bs s; rw [h]

/-- No register write changes the EEPROM's cells (R29). -/
theorem writeEecr_cells (K : Config.Values) (v : Byte) (e : Eeprom) : (writeEecr K v e).cells = e.cells := by
  unfold writeEecr eeReact eeClock
  split
  · rfl
  · split
    · rfl
    · split <;> rfl

theorem writeReg_cells (K : Config.Values) (off : Nat) (bs : List Byte) (s : State) (row : Config.RegRow) :
    (writeReg K off bs s row).ee.cells = s.ee.cells := by
  unfold writeReg
  cases row.reg <;> first | rfl | exact writeEecr_cells _ _ _

theorem regWrite_cells (K : Config.Values) (off : Nat) (bs : List Byte) (s : State) : (regWrite K off bs s).ee.cells =
    s.ee.cells := by
  unfold regWrite
  generalize reached K off bs.length = rows
  induction rows generalizing s with
  | nil => rfl
  | cons r rows ih => simp only [List.foldl_cons]; rw [ih, writeReg_cells]

/-! ## A register written whole -/

theorem regWrite_one {K : Config.Values} {off : Nat} {bs : List Byte} {row : Config.RegRow}
    (h : reached K off bs.length = [row])
    (s : State) : regWrite K off bs s = writeReg K off bs s row := by
  simp [regWrite, h]

theorem reached_tsd {i : Nat} (hi : i < 4) :
    reached reference (tsdOff reference i) 4 = [⟨.tsd i, tsdOff reference i, 4⟩] := by
  revert i; decide

theorem reached_tsad {i : Nat} (hi : i < 4) :
    reached reference (tsadOff reference i) 4 = [⟨.tsad i, tsadOff reference i, 4⟩] := by
  revert i; decide

/-- A four-byte register takes the value written. -/
theorem laneValue_four (r : Config.Reg) (off : Nat) (v old : Word) :
    laneValue ⟨r, off, 4⟩ off (le32 v) old = v := by
  have h : ∀ k : Fin 4, laneByte ⟨r, off, 4⟩ off (le32 v) old k.val = byteOf k.val v := by
    intro k
    have e : off + k.val - off = k.val := by omega
    simp only [laneByte, e]
    rw [if_neg (by omega), if_pos (by omega)]
    clear e; fin_cases k <;> rfl
  have h0 := h 0; have h1 := h 1; have h2 := h 2; have h3 := h 3
  simp only [Fin.val_zero, Fin.val_one, Fin.val_two] at h0 h1 h2
  change laneByte _ _ _ _ 3 = _ at h3
  simp only [laneValue, h0, h1, h2]
  rw [h3]
  exact join32_byteOf v

/-- A two-byte register takes the value written. -/
theorem laneValue_two (r : Config.Reg) (off : Nat) (v : Half) (old : Word) :
    (laneValue ⟨r, off, 2⟩ off (le16 v) old).setWidth 16 = v := by
  have h0 : laneByte ⟨r, off, 2⟩ off (le16 v) old 0 = v.extractLsb' 0 8 := by
    simp [laneByte, le16]
  have h1 : laneByte ⟨r, off, 2⟩ off (le16 v) old 1 = v.extractLsb' 8 8 := by
    simp [laneByte, le16]
  simp only [laneValue, join32_setWidth16, h0, h1, join16_extract]

/-- A one-byte register takes the value written. -/
theorem laneValue_one (r : Config.Reg) (off : Nat) (v : Byte) (old : Word) :
    (laneValue ⟨r, off, 1⟩ off [v] old).setWidth 8 = v := by
  simp [laneValue, join32_setWidth8, laneByte]

/-- R190: a write of `TSD[i]` arms slot `i`. -/
theorem write32_tsd {i : Nat} (hi : i < 4) (w : Word) (s : State) :
    write32 reference (tsdOff reference i) w s = { s with nic := armSlot reference i w s.nic } := by
  rw [write32, regWrite_one (reached_tsd hi)]
  simp only [writeReg, laneValue_four]

theorem write32_tsad {i : Nat} (hi : i < 4) (w : Word) (s : State) :
    write32 reference (tsadOff reference i) w s = { s with nic := { s.nic with tsad := setSlot s.nic.tsad i w } } := by
  rw [write32, regWrite_one (reached_tsad hi)]
  simp only [writeReg, laneValue_four]

theorem write32_rbstart (w : Word) (s : State) :
    write32 reference reference.rbstart.off w s = { s with nic := { s.nic with rbstart := w } } := by
  rw [write32, regWrite_one (row := ⟨.rbstart, reference.rbstart.off, 4⟩) (by rfl)]
  simp only [writeReg, laneValue_four]

theorem write32_tcr (w : Word) (s : State) :
    write32 reference reference.tcr.off w s = { s with nic := { s.nic with tcr := w } } := by
  rw [write32, regWrite_one (row := ⟨.tcr, reference.tcr.off, 4⟩) (by rfl)]
  simp only [writeReg, laneValue_four]

theorem write16_capr (c : Half) (s : State) :
    write16 reference reference.capr.off c s = { s with nic := writeCapr reference c s.nic } := by
  rw [write16, regWrite_one (row := ⟨.capr, reference.capr.off, 2⟩) (by rfl)]
  simp only [writeReg, laneValue_two]

theorem write16_imr (v : Half) (s : State) :
    write16 reference reference.imr.off v s = { s with nic := { s.nic with imr := v } } := by
  rw [write16, regWrite_one (row := ⟨.imr, reference.imr.off, 2⟩) (by rfl)]
  simp only [writeReg, laneValue_two]

/-- R39: writing `ISR` clears the bits written as 1. -/
theorem write16_isr (v : Half) (s : State) :
    write16 reference reference.isr.off v s = { s with nic := writeIsr v s.nic } := by
  rw [write16, regWrite_one (row := ⟨.isr, reference.isr.off, 2⟩) (by rfl)]
  simp only [writeReg, laneValue_two]

theorem write8_cr (v : Byte) (s : State) : write8 reference reference.cr.off v s =
    { s with nic := writeCr reference v s.nic } := by
  rw [write8, regWrite_one (row := ⟨.cr, reference.cr.off, 1⟩) (by rfl)]
  simp only [writeReg, laneValue_one]

theorem write8_eecr (v : Byte) (s : State) : write8 reference reference.eecr.off v s =
    { s with ee := writeEecr reference v s.ee } := by
  rw [write8, regWrite_one (row := ⟨.eecr, reference.eecr.off, 1⟩) (by rfl)]
  simp only [writeReg, laneValue_one]

/-! ## Where the bytes of a register stand -/

theorem locate_tsd {i : Nat} (hi : i < 4) (k : Fin 4) :
    locate reference (tsdOff reference i + k.val) = some (.tsd i, k.val) := by
  revert k; revert i; decide

theorem locate_tsad {i : Nat} (hi : i < 4) (k : Fin 4) :
    locate reference (tsadOff reference i + k.val) = some (.tsad i, k.val) := by
  revert k; revert i; decide

/-- The rows of R31's table at the reference values, by the register each is for. -/
theorem slot_of_row {row : Config.RegRow} (h : row ∈ reference.regMap) {i : Nat}
    (hr : row.reg = .tsd i ∨ row.reg = .tsad i) : i < 4 := by
  have key : ∀ r ∈ reference.regMap, ∀ j, r.reg = .tsd j ∨ r.reg = .tsad j → j < 4 := by
    rw [show reference.regMap = _ from rfl]
    simp [Config.Values.regMap, Config.Values.idrRow, List.range_succ, Config.nTx_val]
  exact key row h i hr

/-- What a register write reaches are rows of R31's table. -/
theorem mem_regMap_of_reached {K : Config.Values} {off n : Nat} {row : Config.RegRow} (h : row ∈ reached K off n) :
    row ∈ K.regMap := (List.mem_filter.1 h).1

theorem locate_isr (k : Fin 2) : locate reference (reference.isr.off + k.val) = some (.isr, k.val) := by
  revert k; decide

end Sys2Proof.Machine
end

