-- ==== Sys2Proof/Laws/Step.lean ====
section
/-! SUPPORT. Running an operation step by step, every meaning as its start run to its return, and the one induction
that carries a property of the labelled steps to `step`. -/

namespace Sys2Proof.Machine

open Config (reference)

/-! ## andThen -/

@[simp] theorem andThen_next (s : State) (f : State → Host.Outcome State Fault Refusal) :
    andThen (.next s) f = f s := rfl
@[simp] theorem andThen_fault (e : Fault) (f : State → Host.Outcome State Fault Refusal) :
    andThen (.fault e) f = .fault e := rfl
@[simp] theorem andThen_refused (r : Refusal) (f : State → Host.Outcome State Fault Refusal) :
    andThen (.refused r) f = .refused r := rfl

/-- A sequence answers a next state only through a next state of its first part. -/
theorem andThen_eq_next {o : Host.Outcome State Fault Refusal} {f : State → Host.Outcome State Fault Refusal}
    {t : State} : andThen o f = .next t ↔ ∃ s, o = .next s ∧ f s = .next t := by
  cases o <;> simp [andThen]

@[simp] theorem guarded_none (o : Host.Outcome State Fault Refusal) : guarded none o = o := rfl
@[simp] theorem guarded_some (r : Refusal) (o : Host.Outcome State Fault Refusal) :
    guarded (some r) o = .refused r := rfl

theorem guarded_eq_next {c : Option Refusal} {o : Host.Outcome State Fault Refusal} {t : State} :
    guarded c o = .next t ↔ c = none ∧ o = .next t := by
  cases c <;> simp [guarded]

/-! ## Running a context -/

theorem runContext_idle {c : Ctx} {s : State} (h : (s.context c).stack = []) (k : Nat) :
    runContext c k s = .next s := by
  cases k with
  | zero => rfl
  | succ k => simp [runContext, h]

/-- One pace of a context that has not returned. -/
theorem runContext_pace {c : Ctx} {s : State} (h : (s.context c).stack ≠ []) (k : Nat) :
    runContext c (k + 1) s = andThen (pace c s) (runContext c k) := by
  have : ¬ idle c s = true := by simpa using h
  rw [runContext, if_neg this]

/-- With nothing on the agenda and nothing to wait for, the pace is the context's labelled step. -/
theorem pace_alone {c : Ctx} {s : State} (ha : s.agenda = []) (hw : waiting c s = false) :
    pace c s = advance c s := by
  simp [pace, ha, turn, hw]

/-- With the interrupt context idle nobody waits. -/
theorem waiting_idle {c : Ctx} {s : State} (h : s.interrupt.stack = []) : waiting c s = false := by
  simp [waiting, h]

theorem waiting_interrupt_submission {s : State} {f : Frame} {rest : List Frame}
    (h : s.submission.stack = f :: rest) (hf : ∀ l, f ≠ .closeBlock l) (hg : ∀ l, f ≠ .openBlock l) :
    waiting .submission s = false := by
  simp only [waiting, context_submission, h, Bool.and_eq_false_iff]
  right
  cases f <;> simp_all

theorem advance_top {c : Ctx} {s : State} {f : Frame} {rest : List Frame} (h : (s.context c).stack = f :: rest) :
    advance c s = settle c (frameStep s.plat.values f s) := by
  simp [advance, h]

/-- Enough steps remain for an operation of `k` labelled steps. -/
theorem stepBudget_split {k : Nat} (h : k ≤ 16384) : ∃ n, Config.stepBudget = n + k :=
  ⟨16384 - k, by rw [Config.stepBudget]; omega⟩

/-- A labelled step of a context that runs undisturbed, at the reference values. -/
theorem runContext_label {c : Ctx} {s t : State} {f : Frame} {rest : List Frame} {k : Ctl} (n : Nat)
    (hv : AtReference s) (hs : (s.context c).stack = f :: rest) (ha : s.agenda = []) (hw : waiting c s = false)
    (hf : frameStep reference f s = .go t k) : runContext c (n + 1) s = runContext c n (applyCtl c k t) := by
  rw [runContext_pace (by simp [hs]), pace_alone ha hw, advance_top hs, hv, hf]
  rfl

/-- A labelled step that faults or is refused ends the run. -/
theorem runContext_stop {c : Ctx} {s : State} {f : Frame} {rest : List Frame} {m : Micro} (n : Nat)
    (hv : AtReference s) (hs : (s.context c).stack = f :: rest) (ha : s.agenda = []) (hw : waiting c s = false)
    (hf : frameStep reference f s = m) (hm : ∀ t k, m ≠ .go t k) : runContext c (n + 1) s = settle c m := by
  rw [runContext_pace (by simp [hs]), pace_alone ha hw, advance_top hs, hv, hf]
  cases m with
  | go t k => exact absurd rfl (hm t k)
  | fault e => rfl
  | refused r => rfl

/-- A labelled step the agenda asks for. -/
theorem runContext_advance {c d : Ctx} {s t : State} {f : Frame} {rest : List Frame} {k : Ctl} {more : List Move}
    (n : Nat) (hv : AtReference s) (hc : (s.context c).stack ≠ []) (hs : (s.context d).stack = f :: rest)
    (ha : s.agenda = .advance d :: more) (hf : frameStep reference f { s with agenda := more } = .go t k) :
    runContext c (n + 1) s = runContext c n (applyCtl d k t) := by
  rw [runContext_pace hc]
  have hd : (({ s with agenda := more } : State).context d).stack = f :: rest := by rw [← hs]; cases d <;> rfl
  have : pace c s = settle d (frameStep reference f { s with agenda := more }) := by
    simp only [pace, ha, applyMove]; rw [advance_top hd]; exact congrArg (fun K => settle d (frameStep K f _)) hv
  rw [this, hf]
  rfl

/-- A step of the NIC the agenda asks for. -/
theorem runContext_nic {c : Ctx} {s t : State} {m : NicMove} {more : List Move} (n : Nat)
    (hv : AtReference s) (hc : (s.context c).stack ≠ []) (ha : s.agenda = .nic m :: more)
    (hm : nicStep reference m { s with agenda := more } = .next t) : runContext c (n + 1) s = runContext c n t := by
  rw [runContext_pace hc]
  have : pace c s = .next t := by simp only [pace, ha, applyMove]; exact (congrArg (fun K => nicStep K m _) hv).trans hm
  rw [this]
  rfl

/-! ## Every meaning is its start run to its return -/

theorem runToReturn_next (c : Ctx) (s : State) :
    runToReturn c (.next s) = runContext c Config.stepBudget s := rfl

theorem begin_returns {c : Ctx} {o : Host.Outcome State Fault Refusal}
    (h : ∀ t, o = .next t → (t.context c).stack = []) : runToReturn c o = o := by
  unfold runToReturn
  cases o with
  | next t => exact runContext_idle (h t rfl) _
  | fault e => rfl
  | refused r => rfl

theorem accessCheck_none {off : BitVec 8} {n : Nat} {s : State} (h : accessCheck off n s = none) :
    accessOk s.plat.values off n = true ∧ s.bringup.stack = [] ∧ s.submission.stack = [] ∧ s.interrupt.stack = [] := by
  unfold accessCheck at h
  split_ifs at h
  simp_all

theorem handlerCheck_none {s : State} (h : handlerCheck s = none) :
    s.interrupt.stack = [] ∧ s.plat.irqHeld = true ∧ s.eng.lifecycle = .up := by
  unfold handlerCheck at h
  split_ifs at h
  simp_all

theorem bringupCheck_none {s : State} (h : bringupCheck s = none) :
    s.bringup.stack = [] ∧ s.eng.lifecycle = .down ∧ s.submission.stack = [] ∧ s.interrupt.stack = [] := by
  unfold bringupCheck at h
  split_ifs at h
  simp_all

theorem closeCheck_none {s : State} (h : closeCheck s = none) :
    s.bringup.stack = [] ∧ s.eng.lifecycle = .up ∧ s.submission.stack = [] ∧ s.interrupt.stack = [] := by
  unfold closeCheck at h
  split_ifs at h
  simp_all

/-- A check that stands before another. -/
theorem or_none {a b : Option Refusal} (h : a.or b = none) : a = none ∧ b = none := by simpa using h

theorem addressCheck_eq {a : EeAddr} {s : State} (h : addressOk s.plat.values a = true) : addressCheck a s = none := by
  simp [addressCheck, h]

theorem slotCheck_eq {i : Nat} {s : State} (h : slotOk s.plat.values i = true) : slotCheck i s = none := by
  simp [slotCheck, h]

theorem slotCheck_none {i : Nat} {s : State} (h : slotCheck i s = none) : i < s.plat.values.nTx := by
  simpa [slotCheck, slotOk] using h

theorem txcmdCheck_none {s : State} (h : txcmdCheck s = none) :
    s.submission.stack = [] ∧ s.bringup.stack = [] := by
  unfold txcmdCheck at h
  split_ifs at h
  simp_all

theorem hostRead_returns {off : BitVec 8} {n : Nat} {r : OpResult} {s t : State}
    (h : hostRead off n r s = .next t) : t.bringup.stack = [] := by
  obtain ⟨hc, h⟩ := guarded_eq_next.1 h
  cases h
  simp [(accessCheck_none hc).2.1]

theorem hostWrite_returns {off : BitVec 8} {bs : List Byte} {s t : State}
    (h : hostWrite off bs s = .next t) : t.bringup.stack = [] := by
  obtain ⟨hc, h⟩ := guarded_eq_next.1 h
  cases h
  simp [(accessCheck_none hc).2.1]

theorem finishAtomic_next {c : Ctx} {r : OpResult} {s t : State} (h : finishAtomic c r s = .next t) :
    t = setContext c ⟨(s.context c).stack, some r⟩ s := by
  cases h; rfl

theorem retireWith_next {K : Config.Values} {report : State → State} {s t : State}
    (h : retireWith K report s = .next t) :
    s.eng.ringOk = true ∧
      ((ringEmpty s.eng = true ∧ finishAtomic .interrupt .done s = .next t) ∨
        (ringEmpty s.eng = false ∧ finishAtomic .interrupt .done (retireSlot K (report s)) = .next t)) := by
  unfold retireWith at h
  split at h
  · cases h
  · split at h <;> simp_all

theorem reportError_interrupt (K : Config.Values) (u a : Bool) (s : State) : (reportError K u a s).interrupt =
    s.interrupt := by
  simp [reportError, write16]

theorem withHeader_next {K : Config.Values} {s t : State} {f : Half → Host.Outcome State Fault Refusal}
    (h : withHeader K s f .fault .refused = .next t) : s.eng.rxOff.toNat % 4 = 0 ∧
      visible K s.nic s.eng.rxOff K.rxHdrLen = true ∧
      ∃ bs, rxRead K s s.eng.rxOff.toNat K.rxHdrLen = some bs ∧ f (headerSize bs) = .next t := by
  unfold withHeader at h
  split_ifs at h with h1 h2
  split at h
  · exact ⟨by simpa using h1, h2, _, ‹_›, h⟩
  · cases h

theorem withPayload_next {K : Config.Values} {size : Half} {s t : State}
    {f : List Byte → Host.Outcome State Fault Refusal} (h : withPayload K size s f .fault .refused = .next t) :
    visible K s.nic s.eng.rxOff (footprint K size.toNat) = true ∧
      ∃ payload, recordPayload K s size = some payload ∧ f payload = .next t := by
  unfold withPayload at h
  split_ifs at h with h1
  split at h
  · exact ⟨h1, _, ‹_›, h⟩
  · cases h

theorem parseRecord_next {K : Config.Values} {size : Half} {s t : State} (h : parseRecord K size s = .next t) :
    (bufferEmpty s.nic = true ∧ finishAtomic .interrupt .done s = .next t) ∨
      (headerOk K s.eng.rxOff size = true ∧ ∃ payload, recordPayload K s size = some payload ∧
        finishAtomic .interrupt .done (commitRx K (advanceRx K size (emit (.delivered payload) s))) = .next t) := by
  rw [parseRecord] at h
  by_cases h1 : bufferEmpty s.nic = true
  · rw [if_pos h1] at h
    exact .inl ⟨h1, h⟩
  · rw [if_neg h1] at h
    obtain ⟨-, -, bs, -, h⟩ := withHeader_next h
    split at h
    · cases h
    · split at h
      · obtain ⟨-, payload, hp, h⟩ := withPayload_next h
        exact .inr ⟨‹_›, payload, hp, h⟩
      · cases h

theorem sendBit_frame (K : Config.Values) (b : Bool) (s : State) :
    ∃ n e, sendBit K b s = { s with nic := n, ee := e } := by
  obtain ⟨n, e, h⟩ := regWrite_frame K K.eecr.off [clockLow K b] s
  obtain ⟨n', e', h'⟩ := regWrite_frame K K.eecr.off [clockHigh K b] (write8 K K.eecr.off (clockLow K b) s)
  exact ⟨n', e', by rw [sendBit, write8, h', write8, h]⟩

/-- The command bits change the NIC and the EEPROM only. -/
theorem sendCommand_frame (K : Config.Values) (a : EeAddr) (s : State) :
    ∃ n e, sendCommand K a s = { s with nic := n, ee := e } := by
  unfold sendCommand
  generalize (List.range K.eeCmdBits).reverse = ks
  induction ks generalizing s with
  | nil => exact ⟨s.nic, s.ee, rfl⟩
  | cons k ks ih =>
    obtain ⟨n, e, h⟩ := sendBit_frame K (commandBit K a k) s
    obtain ⟨n', e', h'⟩ := ih (sendBit K (commandBit K a k) s)
    exact ⟨n', e', by simp only [List.foldl_cons]; rw [h', h]⟩

/-- Every arm of `exec` is the start of its operation, run to its return in its home context. -/
theorem exec_eq_runToReturn (i : Instr) (s : State) :
    exec i s = runToReturn (homeContext i) (beginInstr i s) := by
  cases i with
  | read8 off => exact (begin_returns (c := .bringup) fun t h => hostRead_returns h).symm
  | read16 off => exact (begin_returns (c := .bringup) fun t h => hostRead_returns h).symm
  | read32 off => exact (begin_returns (c := .bringup) fun t h => hostRead_returns h).symm
  | write8 off v => exact (begin_returns (c := .bringup) fun t h => hostWrite_returns h).symm
  | write16 off v => exact (begin_returns (c := .bringup) fun t h => hostWrite_returns h).symm
  | write32 off v => exact (begin_returns (c := .bringup) fun t h => hostWrite_returns h).symm
  | writeRaw16 off v => exact (begin_returns (c := .bringup) fun t h => hostWrite_returns h).symm
  | writeRaw32 off v => exact (begin_returns (c := .bringup) fun t h => hostWrite_returns h).symm
  | reset => rfl
  | readWord a => rfl
  | readHardwareAddress => rfl
  | submit f => rfl
  | reconcile => rfl
  | drain => rfl
  | onInterrupt => rfl
  | check => rfl
  | openBlock => rfl
  | closeBlock => rfl
  | txcmd th len slot =>
    refine (begin_returns (c := .submission) fun t h => ?_).symm
    obtain ⟨hc, h⟩ := guarded_eq_next.1 h
    cases finishAtomic_next h
    simp [write32, (txcmdCheck_none (or_none hc).2).1]
  | txstatInFlight b m o z =>
    refine (begin_returns (c := .interrupt) fun t h => ?_).symm
    obtain ⟨hc, h⟩ := guarded_eq_next.1 h
    cases finishAtomic_next h
    simp [(handlerCheck_none hc).1]
  | txstatSuccess b t m u o z =>
    refine (begin_returns (c := .interrupt) fun t h => ?_).symm
    obtain ⟨hc, h⟩ := guarded_eq_next.1 h
    obtain ⟨-, ⟨-, h⟩ | ⟨-, h⟩⟩ := retireWith_next h <;> cases finishAtomic_next h <;>
      simp [(handlerCheck_none hc).1]
  | txstatError b a m u o z =>
    refine (begin_returns (c := .interrupt) fun t h => ?_).symm
    obtain ⟨hc, h⟩ := guarded_eq_next.1 h
    split at h
    · obtain ⟨-, ⟨-, h⟩ | ⟨-, h⟩⟩ := retireWith_next h <;> cases finishAtomic_next h <;>
        simp [reportError_interrupt, (handlerCheck_none hc).1]
    · cases finishAtomic_next h
      simp [(handlerCheck_none hc).1]
  | rxhdr z st =>
    refine (begin_returns (c := .interrupt) fun t h => ?_).symm
    obtain ⟨hc, h⟩ := guarded_eq_next.1 h
    obtain ⟨-, h⟩ | ⟨-, p, -, h⟩ := parseRecord_next h <;> cases finishAtomic_next h
    · simp [(handlerCheck_none hc).1]
    · simp [commitRx, write16, (handlerCheck_none hc).1]
  | eecmdRead a =>
    refine (begin_returns (c := .bringup) fun t h => ?_).symm
    obtain ⟨hc, h⟩ := guarded_eq_next.1 h
    cases finishAtomic_next h
    obtain ⟨n, e, he⟩ := sendCommand_frame s.plat.values a s
    simp [he, (bringupCheck_none (or_none hc).2).1]

/-! ## The induction, once -/

/-- What a property must survive for every `step` to keep it: taking entries off the agenda, a labelled step of any
context, the start of an operation, and the environment's steps. -/
structure StepKeeps (P : State → Prop) : Prop where
  agenda : ∀ s a, P s → P { s with agenda := a }
  advance : ∀ c s t, P s → Machine.advance c s = .next t → P t
  begins : ∀ i s t, P s → beginInstr i s = .next t → P t
  nic : ∀ m s t, P s → nicStep s.plat.values m s = .next t → P t
  setCfg : ∀ c s, P s → P (hostSetCfg c s)
  grants : ∀ i t r s, P s → P (platformGrants i t r s)

/-- A labelled step of a context is idle, or the step of its control location and where that sends control. -/
theorem advance_next {c : Ctx} {s t : State} (e : Machine.advance c s = .next t) :
    ((s.context c).stack = [] ∧ t = s) ∨
      ∃ f rest u k, (s.context c).stack = f :: rest ∧ frameStep s.plat.values f s = .go u k ∧ t = applyCtl c k u := by
  unfold Machine.advance at e
  split at e
  · exact .inl ⟨‹_›, by cases e; rfl⟩
  · rename_i f rest hs
    generalize hm : frameStep s.plat.values f s = m at e
    cases m with
    | go u k => cases e; exact .inr ⟨f, rest, u, k, hs, hm, rfl⟩
    | fault x => cases e
    | refused x => cases e

/-- A property that no move of control touches survives a labelled step if it survives what the step does. -/
theorem advance_keeps {P : State → Prop} (control : ∀ c k s, P s → P (applyCtl c k s))
    (labels : ∀ f s t k, P s → frameStep s.plat.values f s = .go t k → P t) (c : Ctx) (s t : State) (hs : P s)
    (e : Machine.advance c s = .next t) : P t := by
  rcases advance_next e with ⟨-, rfl⟩ | ⟨f, rest, u, k, -, hm, rfl⟩
  · exact hs
  · exact control _ _ _ (labels _ _ _ _ hs hm)

theorem StepKeeps.applyMove {P : State → Prop} (h : StepKeeps P) {m : Move} {s t : State} (hs : P s)
    (e : Machine.applyMove m s = .next t) : P t := by
  cases m with
  | request c f bytes =>
    simp only [Machine.applyMove] at e
    split at e
    · exact h.begins _ _ _ hs e
    · cases e
  | advance c => exact h.advance _ _ _ hs e
  | nic m => exact h.nic _ _ _ hs e
  | setCfg c => cases e; exact h.setCfg _ _ hs
  | grants i t r => cases e; exact h.grants _ _ _ _ hs

theorem StepKeeps.pace {P : State → Prop} (h : StepKeeps P) {c : Ctx} {s t : State} (hs : P s)
    (e : Machine.pace c s = .next t) : P t := by
  unfold Machine.pace at e
  split at e
  · exact h.advance _ _ _ hs e
  · exact h.applyMove (h.agenda _ _ hs) e

theorem StepKeeps.runContext {P : State → Prop} (h : StepKeeps P) {c : Ctx} {k : Nat} {s t : State} (hs : P s)
    (e : Machine.runContext c k s = .next t) : P t := by
  induction k generalizing s with
  | zero => cases e; exact hs
  | succ k ih =>
    simp only [Machine.runContext] at e
    split at e
    · cases e; exact hs
    · obtain ⟨u, hu, e⟩ := andThen_eq_next.1 e
      exact ih (h.pace hs hu) e

theorem StepKeeps.exec {P : State → Prop} (h : StepKeeps P) {i : Instr} {s t : State} (hs : P s)
    (e : Machine.exec i s = .next t) : P t := by
  rw [exec_eq_runToReturn] at e
  obtain ⟨u, hu, e⟩ := andThen_eq_next.1 e
  exact h.runContext (h.begins _ _ _ hs hu) e

/-- A property that survives all of those is kept by every step. -/
theorem StepKeeps.step {P : State → Prop} (h : StepKeeps P) {s t : State} (hs : P s)
    (e : Machine.step s = .next t) : P t := by
  unfold Machine.step fetch at e
  split at e
  · rename_i i u hu
    split at hu
    · cases hu
    · split at hu
      · cases hu; exact h.exec (h.agenda _ _ hs) e
      · cases hu
    · cases hu
  · rename_i m u hu
    split at hu
    · cases hu
    · split at hu <;> cases hu
    · cases hu; exact h.applyMove (h.agenda _ _ hs) e
  · unfold idleStep at e
    split at e
    · exact h.runContext hs e
    · split at e <;> exact h.runContext hs e
  · cases e

end Sys2Proof.Machine
end

