-- ==== Sys2Proof/Laws/Transmit.lean ====
section
/-! SUPPORT. `submit` and `reconcile` run label by label (R133, R142). -/

namespace Sys2Proof.Machine

open Config (reference)

/-! ## Index arithmetic at the reference values (R26, R150) -/

theorem nextSlot_eq (i : Nat) : nextSlot reference i = (i + 1) % 4 := rfl

theorem slotsFrom_eq (b a : Nat) : slotsFrom reference b a = (a + 4 - b) % 4 := rfl

/-! ## submit -/

theorem waiting_submission {s : State} {l : SubmitAt} {rest : List Frame}
    (h : s.submission.stack = .submit l :: rest) : waiting .submission s = false := by simp [waiting, h]

/-- One label of `submit`, undisturbed. -/
theorem submit_label {s t : State} {l : SubmitAt} {rest : List Frame} {k : Ctl} (n : Nat)
    (hv : AtReference s) (hs : s.submission.stack = .submit l :: rest) (hf : submitStep reference l s = .go t k)
    (ha : s.agenda = []) :
    runContext .submission (n + 1) s = runContext .submission n (applyCtl .submission k t) :=
  runContext_label n hv hs ha (waiting_submission hs) hf

/-- One label of `submit` that stops. -/
theorem submit_fault {s : State} {l : SubmitAt} {rest : List Frame} {e : Fault} (n : Nat)
    (hv : AtReference s) (hs : s.submission.stack = .submit l :: rest) (hf : submitStep reference l s = .fault e)
    (ha : s.agenda = []) :
    runContext .submission (n + 1) s = .fault e := by
  rw [runContext_pace (by simp [hs]), pace_alone ha (waiting_submission hs), advance_top
    (c := .submission) hs, hv, frameStep, hf]; rfl

theorem submit_refused {s : State} {l : SubmitAt} {rest : List Frame} {e : Refusal} (n : Nat)
    (hv : AtReference s) (hs : s.submission.stack = .submit l :: rest) (hf : submitStep reference l s = .refused e)
    (ha : s.agenda = []) :
    runContext .submission (n + 1) s = .refused e := by
  rw [runContext_pace (by simp [hs]), pace_alone ha (waiting_submission hs), advance_top
    (c := .submission) hs, hv, frameStep, hf]; rfl

theorem oversized_eq (frame : List Byte) : oversized reference frame = decide (1536 < frame.length + 4) := rfl

theorem submitStep_s2a (frame : List Byte) (i : Nat) (s : State) : submitStep reference (.s2a frame i) s =
    if frame.length < 60 then
      storeStep reference (slotBase reference s.plat.params i) (List.replicate 60 0#8) (.submit (.s2b frame i)) s
    else .go s (.goto (.submit (.s2b frame i))) := rfl

/-- A permitted `submit` of a nonempty frame starts at S1. -/
theorem exec_submit {s : State} {frame : List Byte} (h : SubmitReady s) (hf : frame ≠ []) :
    exec (.submit frame) s =
      runContext .submission Config.stepBudget { s with submission := ⟨[.submit (.s1 frame)], none⟩ } := by
  obtain ⟨h1, h2, h3⟩ := h
  have : beginSubmit frame s = .next { s with submission := ⟨[.submit (.s1 frame)], none⟩ } := by
    simp [beginSubmit, submitCheck, h1, h2, h3, enterOp, hf]
  rw [exec, execSubmit, this, runToReturn_next]

/-- A slot lies in the transmit buffer. -/
theorem mapped_slot {p : Platform} (h : p.txHeld = true) {i : Nat} (hi : i < 4) {n : Nat} (hn : n ≤ 1536) :
    mapped reference p (slotBase reference p.params i) n = true := by
  have h1 : p.params.txDmaBase.toNat ≤ slotBase reference p.params i := by simp only [slotBase]; omega
  have h2 : slotBase reference p.params i + n ≤ p.params.txDmaBase.toNat + reference.txBufBytes := by
    simp only [slotBase, Config.maxFrameSize_val, Config.txBufBytes_val]; omega
  simp [mapped, h, h1, h2]

/-- Memory after an accepted `submit` (R136). -/
def submittedMem (m : List Host.Cell) (base : Nat) (frame : List Byte) : List Host.Cell :=
  Memory.setRange (if frame.length < 60 then Memory.setRange m base (List.replicate 60 0#8) else m) base frame

/-- S2a to S4: the frame stored, the slot armed, `cpu` advanced. -/
def queued (frame : List Byte) (s : State) : State :=
  { s with
    mem := submittedMem s.mem (slotBase reference s.plat.params s.eng.cpu) frame
    nic := armSlot reference s.eng.cpu (submitCommand s.plat.params (finalLength reference frame.length)) s.nic
    eng := { s.eng with cpu := nextSlot reference s.eng.cpu } }

/-- An accepted `submit`, undisturbed, up to S5a. -/
theorem run_submitToS5 (s : State) (frame : List Byte) (n : Nat) (r : Option OpResult) (hv : AtReference s)
    (ha : s.agenda = []) (hc : s.eng.cpu < 4)
    (hr : s.eng.ringOk = true) (ht : s.plat.txHeld = true) (hf : ringFull reference s.eng = false)
    (hl : frame.length + 4 ≤ 1536) :
    runContext .submission (n + 5) { s with submission := ⟨[.submit (.s1 frame)], r⟩ } =
      runContext .submission n { queued frame s with submission := ⟨[.submit .s5a], r⟩ } := by
  have ho : oversized reference frame = false := by simp [oversized_eq]; omega
  refine (submit_label (hv := by exact hv) (n + 4) (l := .s1 frame) (rest := []) (by exact rfl)
    (k := .goto (.submit (.s2a frame s.eng.cpu))) (t := { s with submission := ⟨[.submit (.s1 frame)], r⟩ })
    (by simp [submitStep, ho, withRing, hr, hf]) (by exact ha)).trans ?_
  simp only [applyCtl, context_submission, List.tail_cons, setContext_submission]
  have h2 : ∀ (m : List Host.Cell),
      runContext .submission (n + 3) { s with mem := m, submission := ⟨[.submit (.s2b frame s.eng.cpu)], r⟩ } =
      runContext .submission n
        { s with
          mem := Memory.setRange m (slotBase reference s.plat.params s.eng.cpu) frame
          nic := armSlot reference s.eng.cpu (submitCommand s.plat.params (finalLength reference frame.length)) s.nic
          eng := { s.eng with cpu := nextSlot reference s.eng.cpu }
          submission := ⟨[.submit .s5a], r⟩ } := by
    intro m
    refine (submit_label (hv := by exact hv) (n + 2) (l := .s2b frame s.eng.cpu) (rest := []) (by exact rfl)
      (k := .goto (.submit (.s3 (finalLength reference frame.length) s.eng.cpu)))
      (t := { s with mem := Memory.setRange m (slotBase reference s.plat.params s.eng.cpu) frame,
                     submission := ⟨[.submit (.s2b frame s.eng.cpu)], r⟩ })
      ?_ (by exact ha)).trans ?_
    · simp only [submitStep, storeStep, memWrite]
      rw [if_pos (.inr (mapped_slot ht hc (by omega)))]
    refine (submit_label (hv := by exact hv) (n + 1) (l := .s3 (finalLength reference frame.length) s.eng.cpu)
      (rest := []) (by exact rfl)
      (by exact rfl) (by simpa [applyCtl, write32] using ha)).trans ?_
    simp only [write32_tsd hc]
    exact (submit_label (hv := by exact hv) n (l := .s4 s.eng.cpu) (rest := []) (by exact rfl) (by exact rfl)
      (by exact ha)).trans rfl
  by_cases h : frame.length < 60
  · refine (submit_label (hv := by exact hv) (n + 3) (l := .s2a frame s.eng.cpu) (rest := []) (by exact rfl)
      (k := .goto (.submit (.s2b frame s.eng.cpu)))
      (t := { s with mem := Memory.setRange s.mem (slotBase reference s.plat.params s.eng.cpu) (List.replicate 60 0#8),
                     submission := ⟨[.submit (.s2a frame s.eng.cpu)], r⟩ })
      ?_ (by exact ha)).trans ?_
    · simp only [submitStep_s2a, storeStep, memWrite, if_pos h]
      rw [if_pos (.inr (mapped_slot ht hc (by simp)))]
    refine (h2 _).trans ?_
    simp only [queued, submittedMem, if_pos h]
  · refine (submit_label (hv := by exact hv) (n + 3) (l := .s2a frame s.eng.cpu) (rest := []) (by exact rfl)
      (k := .goto (.submit (.s2b frame s.eng.cpu))) (t := { s with submission := ⟨[.submit
      (.s2a frame s.eng.cpu)], r⟩ })
      (by simp only [submitStep_s2a, if_neg h]) (by exact ha)).trans ?_
    refine (h2 s.mem).trans ?_
    simp only [queued, submittedMem, if_neg h]

/-- S5b on a ring that is now full (R140). -/
theorem submitStep_full {h : Nat} {s : State} (hr : s.eng.ringOk = true) (hh : slotsFrom reference s.eng.cpu h = 1) :
    submitStep reference (.s5b h) s = .go { s with eng := { s.eng with txStopped := true } } (.ret .full) := by
  simp [submitStep, withRing, hr, hh]

/-- S5b otherwise. -/
theorem submitStep_ok {h : Nat} {s : State} (hr : s.eng.ringOk = true) (hh : ¬ slotsFrom reference s.eng.cpu h = 1) :
    submitStep reference (.s5b h) s = .go s (.ret .ok) := by
  simp [submitStep, withRing, hr, hh]

/-- What an accepted, undisturbed `submit` leaves (R133). -/
def submitted (frame : List Byte) (s : State) : State :=
  if slotsFrom reference (nextSlot reference s.eng.cpu) s.eng.hw = 1 then
    { queued frame s with
      eng := { s.eng with cpu := nextSlot reference s.eng.cpu, txStopped := true }
      submission := ⟨[], some .full⟩ }
  else { queued frame s with submission := ⟨[], some .ok⟩ }

/-- A whole accepted `submit`, undisturbed. -/
theorem exec_submit_accepted {s : State} {frame : List Byte} (h : SubmitReady s) (hv : AtReference s)
    (ha : s.agenda = []) (hc : s.eng.cpu < 4)
    (hr : s.eng.ringOk = true) (ht : s.plat.txHeld = true) (hf : ringFull reference s.eng = false) (hne : frame ≠ [])
    (hl : frame.length + 4 ≤ 1536) : exec (.submit frame) s = .next (submitted frame s) := by
  obtain ⟨n, hn⟩ := stepBudget_split (k := 7) (by omega)
  rw [exec_submit h hne, hn]
  refine (run_submitToS5 s frame (n + 2) none hv ha hc hr ht hf hl).trans ?_
  refine (submit_label (hv := by exact hv) (n + 1) (l := .s5a) (rest := []) (by exact rfl)
    (k := .goto (.submit (.s5b s.eng.hw))) (t := { queued frame s with submission := ⟨[.submit .s5a], none⟩ })
    (by simp [submitStep, withRing, queued, hr]) (by exact ha)).trans ?_
  by_cases hh : slotsFrom reference (nextSlot reference s.eng.cpu) s.eng.hw = 1
  · refine (submit_label (hv := by exact hv) n (l := .s5b s.eng.hw) (rest := []) (by exact rfl) (k := .ret .full)
      (t := { queued frame s with
        eng := { s.eng with cpu := nextSlot reference s.eng.cpu, txStopped := true }
        submission := ⟨[.submit (.s5b s.eng.hw)], none⟩ })
      (by exact submitStep_full hr hh) (by exact ha)).trans ?_
    refine (runContext_idle (by exact rfl) n).trans ?_
    rw [submitted, if_pos hh]; rfl
  · refine (submit_label (hv := by exact hv) n (l := .s5b s.eng.hw) (rest := []) (by exact rfl) (k := .ret .ok)
      (t := { queued frame s with submission := ⟨[.submit (.s5b s.eng.hw)], none⟩ })
      (by exact submitStep_ok hr hh) (by exact ha)).trans ?_
    refine (runContext_idle (by exact rfl) n).trans ?_
    rw [submitted, if_neg hh]; rfl

/-! ## reconcile -/

theorem waiting_interrupt {s : State} {f : Frame} {rest : List Frame} (h : s.interrupt.stack = f :: rest)
    (hc : frameContext f = .interrupt) : waiting .interrupt s = false := by
  simp only [waiting, context_interrupt, h]
  cases f <;> first | (simp [frameContext] at hc; done) | simp

/-- One label of `reconcile`, undisturbed. -/
theorem reconcile_label {s t : State} {l : ReconcileAt} {rest : List Frame} {k : Ctl} (n : Nat)
    (hv : AtReference s) (hs : s.interrupt.stack = .reconcile l :: rest)
    (hf : reconcileStep reference l s = .go t k) (ha : s.agenda = []) :
    runContext .interrupt (n + 1) s = runContext .interrupt n (applyCtl .interrupt k t) :=
  runContext_label n hv hs ha (waiting_interrupt hs rfl) hf

/-- What one scan of a completed slot does (R142 C2c to C2e). -/
def retiredOne (s : State) : State :=
  retireSlot reference (if txSucceeded reference (atSlot s.nic.tsd s.eng.hw) then reportDone
    (txSize reference (atSlot s.nic.tsd s.eng.hw)) s
    else reportError reference (txUnderrun reference (atSlot s.nic.tsd s.eng.hw))
      (txAborted reference (atSlot s.nic.tsd s.eng.hw)) s)

theorem reportError_eq (u a : Bool) (s : State) : reportError reference u a s =
    { s with events := s.events ++ [.txError u a], nic := { s.nic with isr := s.nic.isr &&& ~~~0x0008#16 } } := by
  rw [reportError, write16_isr]; rfl

/-- One completed slot, from C2a to the next C2a: four labels. -/
theorem run_retireOne (s : State) (c old : Nat) (n : Nat) (tl : List Frame) (r : Option OpResult)
    (hv : AtReference s) (ha : s.agenda = []) (hr : s.eng.ringOk = true) (hne : s.eng.hw ≠ c)
    (hf : inFlight reference (atSlot s.nic.tsd s.eng.hw) = false) :
    runContext .interrupt (n + 4) { s with interrupt := ⟨.reconcile (.c2a c old) :: tl, r⟩ } =
      runContext .interrupt n { retiredOne s with interrupt := ⟨.reconcile (.c2a c old) :: tl, r⟩ } := by
  refine (reconcile_label (hv := by exact hv) (n + 3) (l := .c2a c old) (rest := tl) (by exact rfl)
    (k := .goto (.reconcile (.c2b c old))) (t := { s with interrupt := ⟨.reconcile (.c2a c old) :: tl, r⟩ })
    (by simp [reconcileStep, withRing, hr, hne]) (by exact ha)).trans ?_
  by_cases hk : txSucceeded reference (atSlot s.nic.tsd s.eng.hw) = true
  · refine (reconcile_label (hv := by exact hv) (n + 2) (l := .c2b c old) (rest := tl) (by exact rfl)
      (k := .goto (.reconcile (.c2c c old (txSize reference (atSlot s.nic.tsd s.eng.hw)))))
      (t := { s with interrupt := ⟨.reconcile (.c2b c old) :: tl, r⟩ })
      (by simp [reconcileStep, withRing, hr, regNamed, hf, hk, applyCtl]) (by exact ha)).trans ?_
    refine (reconcile_label (hv := by exact hv) (n + 1) (l := .c2c c old _) (rest := tl) (by exact rfl) (by exact rfl)
      (by exact ha)).trans ?_
    refine (reconcile_label (hv := by exact hv) n (l := .c2e c old) (rest := tl) (by exact rfl)
      (k := .goto (.reconcile (.c2a c old)))
      (t := { retiredOne s with interrupt := ⟨.reconcile (.c2e c old) :: tl, r⟩ })
      (by simp [reconcileStep, withRing, hr, retiredOne, hk, applyCtl, reportDone, emit, retireSlot, storeHw])
      (by exact ha)).trans rfl
  · refine (reconcile_label (hv := by exact hv) (n + 2) (l := .c2b c old) (rest := tl) (by exact rfl)
      (k := .goto (.reconcile (.c2d c old (txUnderrun reference (atSlot s.nic.tsd s.eng.hw))
      (txAborted reference (atSlot s.nic.tsd s.eng.hw)))))
      (t := { s with interrupt := ⟨.reconcile (.c2b c old) :: tl, r⟩ })
      (by simp [reconcileStep, withRing, hr, regNamed, hf, hk, applyCtl]) (by exact ha)).trans ?_
    refine (reconcile_label (hv := by exact hv) (n + 1) (l := .c2d c old _ _) (rest := tl) (by exact rfl) (by exact rfl)
      (by exact ha)).trans ?_
    simp only [reportError_eq]
    refine (reconcile_label (hv := by exact hv) n (l := .c2e c old) (rest := tl) (by exact rfl)
      (k := .goto (.reconcile (.c2a c old)))
      (t := { retiredOne s with interrupt := ⟨.reconcile (.c2e c old) :: tl, r⟩ })
      (by simp [reconcileStep, withRing, hr, retiredOne, hk, applyCtl, reportError_eq, retireSlot, storeHw])
      (by exact ha)).trans rfl

/-- The scan from C2a, at most `k` slots of it. -/
def scanned (c : Nat) : Nat → State → State
  | 0, s => s
  | k + 1, s =>
      if s.eng.hw = c ∨ inFlight reference (atSlot s.nic.tsd s.eng.hw) = true then s else scanned c k (retiredOne s)

theorem retiredOne_eq (s : State) : retiredOne s =
    { s with
      events := s.events ++ [slotEvent (atSlot s.nic.tsd s.eng.hw)]
      eng := { s.eng with hw := nextSlot reference s.eng.hw }
      nic := { s.nic with
        isr := if txSucceeded reference (atSlot s.nic.tsd s.eng.hw) then s.nic.isr else s.nic.isr &&& ~~~0x0008#16 } } := by
  unfold retiredOne slotEvent
  split <;> simp [retireSlot, storeHw, reportDone, reportError_eq, emit, *]

/-- From C2a to C3: the scan, with enough steps. -/
theorem run_scan (c old : Nat) (tl : List Frame) (r : Option OpResult) (hc : c < 4) (k : Nat) : ∀ s : State,
    AtReference s → s.agenda = [] → s.eng.ringOk = true → s.eng.hw < 4 → slotsFrom reference s.eng.hw c ≤ k →
    ∃ u, u ≤ 4 * k + 2 ∧ ∀ n,
      runContext .interrupt (n + u) { s with interrupt := ⟨.reconcile (.c2a c old) :: tl, r⟩ } =
        runContext .interrupt n { scanned c k s with interrupt := ⟨.reconcile (.c3 old) :: tl, r⟩ } := by
  induction k with
  | zero =>
    intro s hv ha hr hw hk
    have he : s.eng.hw = c := by rw [slotsFrom_eq] at hk; omega
    exact ⟨1, by omega, fun n => (reconcile_label (hv := by exact hv) n (l := .c2a c old) (rest := tl) (by exact rfl)
      (k := .goto (.reconcile (.c3 old))) (t := { s with interrupt := ⟨.reconcile (.c2a c old) :: tl, r⟩ })
      (by simp [reconcileStep, withRing, hr, he]) (by exact ha)).trans rfl⟩
  | succ k ih =>
    intro s hv ha hr hw hk
    by_cases he : s.eng.hw = c
    · refine ⟨1, by omega, fun n => (reconcile_label (hv := by exact hv) n (l := .c2a c old) (rest := tl) (by exact rfl)
        (k := .goto (.reconcile (.c3 old))) (t := { s with interrupt := ⟨.reconcile (.c2a c old) :: tl, r⟩ })
        (by simp [reconcileStep, withRing, hr, he]) (by exact ha)).trans ?_⟩
      simp only [scanned, if_pos (Or.inl he : s.eng.hw = c ∨ _)]; rfl
    by_cases hf : inFlight reference (atSlot s.nic.tsd s.eng.hw) = true
    · refine ⟨2, by omega, fun n => (reconcile_label (hv := by exact hv) (n + 1) (l := .c2a c old) (rest := tl)
      (by exact rfl)
        (k := .goto (.reconcile (.c2b c old))) (t := { s with interrupt := ⟨.reconcile (.c2a c old) :: tl, r⟩ })
        (by simp [reconcileStep, withRing, hr, he]) (by exact ha)).trans
        ((reconcile_label (hv := by exact hv) n (l := .c2b c old) (rest := tl) (by exact rfl)
        (k := .goto (.reconcile (.c3 old))) (t := { s with interrupt := ⟨.reconcile (.c2b c old) :: tl, r⟩ })
        (by simp [reconcileStep, withRing, hr, regNamed, hf, applyCtl]) (by exact ha)).trans ?_)⟩
      simp only [scanned, if_pos (Or.inr hf : s.eng.hw = c ∨ _)]; rfl
    have hq : AtReference (retiredOne s) ∧ (retiredOne s).agenda = [] ∧ (retiredOne s).eng.ringOk = true ∧
        (retiredOne s).eng.hw < 4 ∧ slotsFrom reference (retiredOne s).eng.hw c ≤ k := by
      rw [retiredOne_eq]
      simp only [slotsFrom_eq, nextSlot_eq] at *
      exact ⟨hv, ha, hr, by omega, by omega⟩
    obtain ⟨u, hu, e⟩ := ih (retiredOne s) hq.1 hq.2.1 hq.2.2.1 hq.2.2.2.1 hq.2.2.2.2
    refine ⟨u + 4, by omega, fun n => ?_⟩
    rw [← Nat.add_assoc]
    refine (run_retireOne s c old (n + u) tl r hv ha hr he (by simpa using hf)).trans ((e n).trans ?_)
    simp only [scanned, he, hf]
    rfl

/-- C3 (R149). -/
theorem run_c3 (s : State) (old : Nat) (tl : List Frame) (r : Option OpResult) (n : Nat) (hv : AtReference s)
    (ha : s.agenda = []) (hr : s.eng.ringOk = true) :
    runContext .interrupt (n + 1) { s with interrupt := ⟨.reconcile (.c3 old) :: tl, r⟩ } =
      runContext .interrupt n { resumeIf old s with interrupt := ⟨tl, some .done⟩ } := by
  refine (reconcile_label (hv := by exact hv) n (l := .c3 old) (rest := tl) (by exact rfl) (k := .ret .done)
    (t := { resumeIf old s with interrupt := ⟨.reconcile (.c3 old) :: tl, r⟩ })
    ?_ (by exact ha)).trans ?_
  · simp only [reconcileStep, withRing, hr, if_true, resumeIf]
    split <;> rfl
  · rfl

/-! ### The scan said without its loop -/

theorem slot_next (x : Nat) (k : Nat) : (nextSlot reference x + k) % 4 = (x + (k + 1)) % 4 := by
  rw [nextSlot_eq]; omega

theorem outstandingSlots_step {e : Engine} (hx : e.hw < 4) (hy : e.cpu < 4) (h : e.hw ≠ e.cpu) :
    outstandingSlots e = e.hw :: outstandingSlots { e with hw := nextSlot reference e.hw } := by
  have hk : outstanding reference e = outstanding reference { e with hw := nextSlot reference e.hw } + 1 := by
    simp only [outstanding, slotsFrom_eq, nextSlot_eq]; omega
  simp only [outstandingSlots, hk, List.range_succ_eq_map, List.map_cons, List.map_map]
  congr 1
  · omega
  · apply List.map_congr_left
    intro k _
    simp only [Function.comp, Nat.succ_eq_add_one, slot_next]

theorem outstandingSlots_empty {e : Engine} (h : e.hw = e.cpu) : outstandingSlots e = [] := by
  simp [outstandingSlots, outstanding, slotsFrom_eq, h]

theorem completedPrefix_step {s : State} (hx : s.eng.hw < 4) (hy : s.eng.cpu < 4) (h : s.eng.hw ≠ s.eng.cpu)
    (hf : inFlight reference (atSlot s.nic.tsd s.eng.hw) = false) :
    completedPrefix s = s.eng.hw :: completedPrefix (retiredOne s) := by
  rw [completedPrefix, outstandingSlots_step hx hy h, List.takeWhile_cons, hf, retiredOne_eq]; rfl

theorem completedPrefix_none {s : State} (hx : s.eng.hw < 4) (hy : s.eng.cpu < 4)
    (h : s.eng.hw = s.eng.cpu ∨ inFlight reference (atSlot s.nic.tsd s.eng.hw) = true) : completedPrefix s = [] := by
  by_cases he : s.eng.hw = s.eng.cpu
  · simp [completedPrefix, outstandingSlots_empty he]
  · rw [completedPrefix, outstandingSlots_step hx hy he, List.takeWhile_cons, h.resolve_left he]; rfl

theorem and_not_twice (a b : Half) : a &&& ~~~b &&& ~~~b = a &&& ~~~b := by
  rw [BitVec.and_assoc, BitVec.and_self]

/-- The scan reports and retires the completed prefix (R144 to R148). -/
theorem scanned_eq (k : Nat) : ∀ s : State, s.eng.hw < 4 → s.eng.cpu < 4 → outstanding reference s.eng ≤ k →
    scanned s.eng.cpu k s =
      { s with
        events := s.events ++ (completedPrefix s).map (fun i => slotEvent (atSlot s.nic.tsd i))
        eng := { s.eng with hw := (s.eng.hw + (completedPrefix s).length) % 4 }
        nic := { s.nic with
          isr := if (completedPrefix s).any (fun i => !txSucceeded reference
            (atSlot s.nic.tsd i)) then s.nic.isr &&& ~~~0x0008#16
            else s.nic.isr } } := by
  induction k with
  | zero =>
    intro s hx hy hk
    have he : s.eng.hw = s.eng.cpu := by rw [outstanding, slotsFrom_eq] at hk; omega
    rw [completedPrefix_none hx hy (.inl he)]; simp [scanned, Nat.mod_eq_of_lt hx]
  | succ k ih =>
    intro s hx hy hk
    by_cases h : s.eng.hw = s.eng.cpu ∨ inFlight reference (atSlot s.nic.tsd s.eng.hw) = true
    · rw [completedPrefix_none hx hy h]; simp [scanned, if_pos h, Nat.mod_eq_of_lt hx]
    · rw [scanned, if_neg h]
      push Not at h
      have hf : inFlight reference (atSlot s.nic.tsd s.eng.hw) = false := by simpa using h.2
      rw [completedPrefix_step hx hy h.1 hf]
      have hc : (retiredOne s).eng.cpu = s.eng.cpu := by rw [retiredOne_eq]
      have hk' : (retiredOne s).eng.hw < 4 ∧ outstanding reference (retiredOne s).eng ≤ k := by
        have h1 := h.1
        rw [retiredOne_eq]
        simp only [outstanding, slotsFrom_eq, nextSlot_eq] at *
        omega
      have := ih (retiredOne s) hk'.1 (by rw [hc]; exact hy) hk'.2
      rw [hc] at this
      rw [this]
      generalize hp : completedPrefix (retiredOne s) = p
      rw [retiredOne_eq]
      simp only [List.map_cons, List.append_assoc, List.singleton_append, List.length_cons, List.any_cons]
      rw [slot_next]
      by_cases h1 : txSucceeded reference (atSlot s.nic.tsd s.eng.hw) = true <;>
        by_cases h2 : p.any (fun i => !txSucceeded reference (atSlot s.nic.tsd i)) = true <;>
        simp only [h1, h2, and_not_twice, Bool.not_true, Bool.not_false, Bool.true_or, Bool.false_or, if_true,
          Bool.false_eq_true, if_false]

/-- C1 to C3: the whole `reconcile`, wherever it returns to. -/
theorem run_reconcile (s : State) (tl : List Frame) (r : Option OpResult) (hv : AtReference s) (ha : s.agenda = [])
    (hx : s.eng.hw < 4) (hy : s.eng.cpu < 4) (hr : s.eng.ringOk = true) : ∃ u, u ≤ 16 ∧ ∀ n,
      runContext .interrupt (n + u) { s with interrupt := ⟨.reconcile .c1 :: tl, r⟩ } =
        runContext .interrupt n { reconciled s with interrupt := ⟨tl, some .done⟩ } := by
  have hb : outstanding reference s.eng ≤ 3 := by rw [outstanding, slotsFrom_eq]; omega
  obtain ⟨u, hu, e⟩ := run_scan s.eng.cpu s.eng.hw tl r hy 3 s hv ha hr hx hb
  refine ⟨u + 2, by omega, fun n => ?_⟩
  rw [show n + (u + 2) = (n + 1 + u) + 1 by omega]
  refine (reconcile_label (hv := by exact hv) (n + 1 + u) (l := .c1) (rest := tl) (by exact rfl)
    (k := .goto (.reconcile (.c2a s.eng.cpu s.eng.hw))) (t := { s with interrupt := ⟨.reconcile .c1 :: tl, r⟩ })
    (by simp [reconcileStep, withRing, hr]) (by exact ha)).trans ?_
  refine (e (n + 1)).trans ?_
  rw [scanned_eq 3 s hx hy hb]
  refine (run_c3 _ s.eng.hw tl r n (by exact hv) (by exact ha) (by exact hr)).trans ?_
  congr 1
  simp only [resumeIf, reconciled]
  have hlen : (completedPrefix s).length ≤ 3 := by
    refine le_trans (List.IsPrefix.length_le (List.takeWhile_prefix _)) ?_
    simpa [outstandingSlots] using hb
  have hne : ((s.eng.hw + (completedPrefix s).length) % 4 != s.eng.hw) = !(completedPrefix s).isEmpty := by
    generalize completedPrefix s = p at *
    cases p with
    | nil => simp [Nat.mod_eq_of_lt hx]
    | cons a p =>
      simp only [List.length_cons] at *
      simp only [List.isEmpty_cons, Bool.not_false, bne_iff_ne, ne_eq]
      omega
  rw [hne]
  cases h1 : s.eng.txStopped <;> cases h2 : (completedPrefix s).isEmpty <;> simp [emit]

/-! ## The transmit side of a NIC left unspecified by a timeout (R44) -/

/-- A drawn order is an order of all the slots. -/
theorem drawnOrder_perm (ws : List Word) : (drawnOrder ws).Perm (List.range ws.length) := by
  suffices h : ∀ (l : List Nat) (acc : List Nat), (l.foldl
      (fun acc i => acc.insertIdx (((atSlot ws i).extractLsb' 2 30).toNat % (acc.length + 1)) i) acc).Perm (l ++ acc) by
    exact (h (List.range ws.length) []).trans (by rw [List.append_nil])
  intro l
  induction l with
  | nil => intro acc; simp
  | cons i l ih =>
    intro acc
    refine (ih _).trans ?_
    have hp := List.perm_insertIdx i acc
      (Nat.lt_succ_iff.1 (Nat.mod_lt ((atSlot ws i).extractLsb' 2 30).toNat (Nat.succ_pos acc.length)))
    exact (hp.append_left l).trans List.perm_middle

/-- A slot drawn as armed reads in flight with its length (R190). -/
theorem drawnSlot_armed {w v : Word} {len : BitVec 13} (h : drawnSlot reference w v = .armed len) :
    drawnArmed w = true ∧ inFlight reference (drawnTsd reference w v) = true ∧
      txSize reference (drawnTsd reference w v) = len := by
  unfold drawnSlot at h
  split at h
  · rename_i ha
    refine ⟨ha, ?_, by simpa using h⟩
    simp [inFlight, drawnTsd, ha, BitVec.and_assoc]
  · split at h <;> cases h

theorem drawnSlot_of_armed {w v : Word} (h : drawnArmed w = true) :
    drawnSlot reference w v = .armed (txSize reference (drawnTsd reference w v)) := by simp [drawnSlot, h]

@[simp] theorem length_drawnSlots (K : Config.Values) (s : State) (k : Nat) : (drawnSlots K s k).length = K.nTx := by
  simp [drawnSlots]

/-- Each slot is drawn by itself. -/
theorem nicAfterTimeout_slot (s : State) {i : Nat} (hi : i < 4) :
    atSlot (nicAfterTimeout reference s).tsd i =
      drawnTsd reference (atSlot (drawnSlots reference s (resetDraws reference + 3)) i)
        (atSlot (drawnSlots reference s 0) i) ∧
    atSlot (nicAfterTimeout reference s).tx i =
      drawnSlot reference (atSlot (drawnSlots reference s (resetDraws reference + 3)) i)
        (atSlot (drawnSlots reference s 0) i) := by
  interval_cases i <;> exact ⟨rfl, rfl⟩

theorem mem_armOrder_afterTimeout (s : State) (i : Nat) : i ∈ (nicAfterTimeout reference s).armOrder ↔
    i < 4 ∧ drawnArmed (atSlot (drawnSlots reference s (resetDraws reference + 3)) i) = true := by
  simp [nicAfterTimeout, (drawnOrder_perm _).mem_iff, Config.nTx_val]

/-- The unspecified NIC keeps the arming order and the armed slots consistent, whatever it held before. -/
theorem armedOk_afterTimeout (s : State) : ArmedOk (afterTimeout reference s) := by
  have hn : (afterTimeout reference s).nic = nicAfterTimeout reference s := rfl
  refine ⟨?_, fun i len h => ?_, fun i h => ?_⟩
  · exact (((drawnOrder_perm _).nodup_iff.2 List.nodup_range).filter _ : (nicAfterTimeout reference s).armOrder.Nodup)
  · rw [hn] at *
    have hi : i < 4 := lt_of_atSlot_ne (nicAfterTimeout reference s).tx (by rw [h]; nofun)
    obtain ⟨h1, h2⟩ := nicAfterTimeout_slot s hi
    rw [h2] at h
    obtain ⟨ha, hb, hc⟩ := drawnSlot_armed h
    rw [h1]
    exact ⟨(mem_armOrder_afterTimeout s i).2 ⟨hi, ha⟩, hb, hc⟩
  · rw [hn] at *
    obtain ⟨hi, ha⟩ := (mem_armOrder_afterTimeout s i).1 h
    exact ⟨_, by rw [(nicAfterTimeout_slot s hi).2]; exact drawnSlot_of_armed ha⟩

end Sys2Proof.Machine
end

