-- ==== Sys2Proof/Laws/Labels.lean ====
section
/-! SUPPORT. For each operation, what one of its labelled steps can change: the rest of the state is as before. -/

namespace Sys2Proof.Machine

open Config (reference)

/-- `reset` (R113): `CR`, the index registers, and draws. -/
theorem resetStep_frame {l : ResetAt} {s t : State} {k : Ctl} (h : resetStep reference l s = .go t k) :
    (t = s ∨ t = { s with nic := writeCr reference reference.crRst s.nic }) ∨
      t = zeroIndices s ∨ t = afterTimeout reference s := by
  cases l <;> simp only [resetStep, raiseResult, Micro.go.injEq] at h <;> obtain ⟨rfl, -⟩ := h <;>
    simp [write8_cr]

/-- `readWord` (R120): the EEPROM's serial state, and a draw. -/
theorem readWordStep_frame {l : ReadWordAt} {s t : State} {k : Ctl} (h : readWordStep reference l s = .go t k) :
    (∃ v, t = { s with ee := writeEecr reference v s.ee }) ∨ t = s ∨ t = drew 1 s := by
  cases l with
  | e5b i v =>
    simp only [readWordStep, afterSample, Micro.go.injEq] at h
    obtain ⟨rfl, -⟩ := h
    split <;> simp
  | _ =>
    simp only [readWordStep, write8_eecr, Micro.go.injEq] at h
    obtain ⟨rfl, -⟩ := h
    first | exact .inl ⟨_, rfl⟩ | exact .inr (.inl rfl)

theorem storeHwAddr_frame (i : Nat) (w : Half) (s : State) :
    ∃ v, storeHwAddr i w s = { s with eng := { s.eng with hwAddr := v } } := by
  unfold storeHwAddr; split <;> exact ⟨_, rfl⟩

/-- `readHardwareAddress` (R129): `hw_addr` only. -/
theorem hwAddrStep_frame {K : Config.Values} {l : HwAddrAt} {s t : State} {k : Ctl} (h : hwAddrStep K l s = .go t k) :
    ∃ v, t = { s with eng := { s.eng with hwAddr := v } } := by
  cases l with
  | call i =>
    simp only [hwAddrStep, Micro.go.injEq] at h
    obtain ⟨rfl, -⟩ := h
    exact ⟨s.eng.hwAddr, rfl⟩
  | store i =>
    simp only [hwAddrStep] at h
    split at h <;> simp only [Micro.go.injEq] at h <;> obtain ⟨rfl, -⟩ := h <;> exact storeHwAddr_frame _ _ _

theorem storeStep_go {K : Config.Values} {a : Nat} {bs : List Byte} {f : Frame} {s t : State} {k : Ctl}
    (h : storeStep K a bs f s = .go t k) : memWrite K s a bs = some t ∧ k = .goto f := by
  unfold storeStep at h
  split at h
  · cases h; exact ⟨‹_›, rfl⟩
  · cases h

theorem withRing_go {s t : State} {m : Micro} {k : Ctl} (h : withRing s m = .go t k) :
    s.eng.ringOk = true ∧ m = .go t k := by
  unfold withRing at h
  split at h
  · exact ⟨‹_›, h⟩
  · cases h

/-- `submit` (R133): a write to the transmit buffer, the command register's write, `cpu`, or `tx_stopped`. -/
theorem submitStep_frame {l : SubmitAt} {s t : State} {k : Ctl} (h : submitStep reference l s = .go t k) :
    (t = s ∨ (∃ a bs, memWrite reference s a bs = some t)) ∨
    (∃ off v, t = write32 reference off v s) ∨
      (∃ v, t = { s with eng := { s.eng with cpu := v } }) ∨ t = { s with eng := { s.eng with txStopped := true } } :=
      by
  cases l with
  | s1 f =>
    simp only [submitStep, raiseResult] at h
    split at h
    · cases h; exact .inl (.inl rfl)
    · obtain ⟨-, h⟩ := withRing_go h
      split at h
      · cases h
      · cases h; exact .inl (.inl rfl)
  | s2a f i =>
    simp only [submitStep] at h
    split at h
    · exact .inl (.inr ⟨_, _, (storeStep_go h).1⟩)
    · cases h; exact .inl (.inl rfl)
  | s2b f i => exact .inl (.inr ⟨_, _, (storeStep_go h).1⟩)
  | s3 z i =>
    cases h; exact .inr (.inl ⟨_, _, rfl⟩)
  | s4 i => cases h; exact .inr (.inr (.inl ⟨_, rfl⟩))
  | s5a =>
    obtain ⟨-, h⟩ := withRing_go h
    cases h; exact .inl (.inl rfl)
  | s5b x =>
    obtain ⟨-, h⟩ := withRing_go h
    split at h <;> cases h
    · exact .inr (.inr (.inr rfl))
    · exact .inl (.inl rfl)

/-- `reconcile` (R142): a report, the retirement of slot `hw`, or the wake-up. -/
theorem reconcileStep_frame {l : ReconcileAt} {s t : State} {k : Ctl} (h : reconcileStep reference l s = .go t k) :
    (t = s ∨ (∃ e, t = emit e s)) ∨
      (∃ e, t = { emit e s with nic := { s.nic with isr := s.nic.isr &&& ~~~0x0008#16 } }) ∨
      t = retireSlot reference s ∨ t = emit .resume { s with eng := { s.eng with txStopped := false } } := by
  cases l with
  | c2c c old z => cases h; exact .inl (.inr ⟨_, rfl⟩)
  | c2d c old u a =>
    simp only [reconcileStep, reportError_eq, Micro.go.injEq] at h
    obtain ⟨rfl, -⟩ := h
    exact .inr (.inl ⟨_, rfl⟩)
  | c2e c old =>
    obtain ⟨-, h⟩ := withRing_go h
    cases h; exact .inr (.inr (.inl rfl))
  | c3 old =>
    obtain ⟨-, h⟩ := withRing_go h
    simp only [resumeIf, Micro.go.injEq] at h
    obtain ⟨rfl, -⟩ := h
    split
    · exact .inr (.inr (.inr rfl))
    · exact .inl (.inl rfl)
  | c1 => obtain ⟨-, h⟩ := withRing_go h; cases h; exact .inl (.inl rfl)
  | c2a c old => obtain ⟨-, h⟩ := withRing_go h; cases h; exact .inl (.inl rfl)
  | c2b c old => obtain ⟨-, h⟩ := withRing_go h; cases h; exact .inl (.inl rfl)

/-- `drain` (R156): a delivery, the offset's advance by a footprint, or its commit. -/
theorem drainStep_frame {l : DrainAt} {s t : State} {k : Ctl} (h : drainStep reference l s = .go t k) :
    t = s ∨ (∃ p, t = emit (.delivered p) s) ∨ (∃ z, t = advanceRx reference z s) ∨
      t = { s with nic := writeCapr reference (commitValue reference s.eng.rxOff) s.nic } := by
  cases l with
  | d5 z p => cases h; exact .inr (.inl ⟨_, rfl⟩)
  | d6a z => cases h; exact .inr (.inr (.inl ⟨_, rfl⟩))
  | d6b =>
    simp only [drainStep, commitRx, write16_capr, Micro.go.injEq] at h
    obtain ⟨rfl, -⟩ := h
    exact .inr (.inr (.inr rfl))
  | d1 => simp only [drainStep] at h; split at h <;> cases h <;> exact .inl rfl
  | d2 => simp only [drainStep, withHeader] at h; split_ifs at h; split at h <;> cases h; exact .inl rfl
  | d3 z => simp only [drainStep] at h; split at h <;> cases h; exact .inl rfl
  | d4 z => simp only [drainStep, withPayload] at h; split_ifs at h; split at h <;> cases h; exact .inl rfl

/-- `onInterrupt` (R170): the acknowledgment only. -/
theorem interruptStep_frame {l : InterruptAt} {s t : State} {k : Ctl} (h : interruptStep reference l s = .go t k) :
    t = s ∨ ∃ v, t = { s with nic := writeIsr v s.nic } := by
  cases l with
  | i2 v =>
    simp only [interruptStep, write16_isr, Micro.go.injEq] at h
    obtain ⟨rfl, -⟩ := h
    exact .inr ⟨_, rfl⟩
  | i1 => simp only [interruptStep, raiseResult] at h; split at h <;> cases h <;> exact .inl rfl
  | i3 v => cases h; exact .inl rfl
  | i4 m => simp only [interruptStep] at h; split at h <;> cases h <;> exact .inl rfl
  | i5 m => simp only [interruptStep] at h; split at h <;> cases h <;> exact .inl rfl
  | i6 m => simp only [interruptStep] at h; split at h <;> cases h <;> exact .inl rfl
  | i7 => cases h; exact .inl rfl

/-- The edge detector (R183): at most one event, with the new state of the link. -/
theorem linkEdge_cases (bad : Bool) (s : State) : linkEdge bad s = s ∨
    ∃ e l, linkEdge bad s = emit e { s with eng := { s.eng with linkPrev := l } } := by
  unfold linkEdge
  split
  · exact .inr ⟨_, _, rfl⟩
  · exact .inr ⟨_, _, rfl⟩
  · exact .inl rfl
  · exact .inl rfl

/-- `check` (R181). -/
theorem checkStep_frame {l : CheckAt} {s t : State} {k : Ctl} (h : checkStep reference l s = .go t k) :
    t = s ∨ ∃ e v, t = emit e { s with eng := { s.eng with linkPrev := v } } := by
  cases l with
  | l1 => cases h; exact .inl rfl
  | l2 b => cases h; exact linkEdge_cases _ _

/-- `open` (R240, R241): a resource, the engine's registers, or a register of the NIC. -/
theorem openStep_frame {l : OpenAt} {s t : State} {k : Ctl} (h : openStep reference l s = .go t k) :
    (t = s ∨ t = { s with plat := { s.plat with irqHeld := true } } ∨
      t = { s with plat := { s.plat with txHeld := true, gen := s.plat.gen + 1 } } ∨
      t = { s with plat := { s.plat with rxHeld := true } }) ∨
    (t = releaseIrqLine s ∨ t = releaseTxBuf reference s ∨ t = releaseRxBuf reference s) ∨
    (t = initEngine s ∨ t = setIrqEnabled reference s.plat.params.irqEnableSet s ∨ t = setLifecycle .up s) ∨
    (∃ off v, off ∉ [0x10, 0x14, 0x18, 0x1C] ∧ t = write32 reference off v s) ∨ ∃ v, t =
    write8 reference reference.cr.off v s := by
  cases l with
  | o1 =>
    simp only [openStep, raiseResult] at h; split at h <;> cases h <;> simp
  | o2 => simp only [openStep] at h; split at h <;> cases h <;> simp
  | o3 => simp only [openStep] at h; split at h <;> cases h <;> simp
  | o4 => cases h; exact .inl (.inl rfl)
  | o4r => simp only [openStep] at h; split at h <;> cases h <;> exact .inl (.inl rfl)
  | o5 => cases h; simp
  | o6 i =>
    cases h
    refine .inr (.inr (.inr (.inl ⟨tsadOff reference i, _, ?_, rfl⟩)))
    simp only [tsadOff, Config.tsad_off, Config.pairStride_val, List.mem_cons, List.not_mem_nil, or_false]
    omega
  | o7 => cases h; exact .inr (.inr (.inr (.inl ⟨_, _, by decide, rfl⟩)))
  | o8 => cases h; exact .inr (.inr (.inr (.inr ⟨_, rfl⟩)))
  | o9 => cases h; exact .inr (.inr (.inr (.inl ⟨_, _, by decide, rfl⟩)))
  | o10 => cases h; simp
  | o11 => cases h; simp
  | releaseRx e => cases h; simp
  | releaseTx e => cases h; simp
  | releaseIrq e => simp only [openStep, raiseResult] at h; split at h <;> cases h <;> simp

/-- `close` (R243): `irq_enabled` with `IMR`, the resources, `lifecycle`. -/
theorem closeStep_frame {l : CloseAt} {s t : State} {k : Ctl} (h : closeStep reference l s = .go t k) :
    t = s ∨ t = setIrqEnabled reference 0#16 s ∨ t = releaseIrqLine s ∨ t = releaseTxBuf reference s ∨ t =
      releaseRxBuf reference s ∨
      t = setLifecycle .down s := by
  cases l with
  | x1 => cases h; simp
  | x2 => simp only [closeStep] at h; split at h <;> cases h <;> simp
  | x3 => cases h; simp
  | x4 => cases h; simp
  | x5 => cases h; simp

/-! ## The start of an operation -/

/-- What an operation that is one atomic step can do to the state (R100, and the wire words). -/
inductive AtomicEffect (K : Config.Values) (s : State) : State → Prop where
  | none : AtomicEffect K s s
  | read : AtomicEffect K s (drew 1 s)
  | write (off : Nat) (bs : List Byte) : AtomicEffect K s (regWrite K off bs s)
  | command (a : EeAddr) : AtomicEffect K s (sendCommand K a s)
  | retire (e : Event) (h : s.eng.ringOk = true) : AtomicEffect K s (retireSlot K (emit e s))
  | retireError (u a : Bool) (h : s.eng.ringOk = true) : AtomicEffect K s (retireSlot K (reportError K u a s))
  | record (z : Half) (p : List Byte) (h : headerOk K s.eng.rxOff z = true) :
      AtomicEffect K s (commitRx K (advanceRx K z (emit (.delivered p) s)))

/-- The first label of an operation. -/
def firstLabel : Instr → Option Frame
  | .reset => some (.reset .t1)
  | .readWord a => some (.readWord (.e1 a))
  | .readHardwareAddress => some (.hwAddr (.call 0))
  | .submit frame => some (.submit (.s1 frame))
  | .reconcile => some (.reconcile .c1)
  | .drain => some (.drain .d1)
  | .onInterrupt => some (.onInterrupt .i1)
  | .check => some (.check .l1)
  | .openBlock => some (.openBlock .o1)
  | .closeBlock => some (.closeBlock .x1)
  | _ => none

/-- What an operation's start requires (R222). -/
def startCheck : Instr → State → Option Refusal
  | .reset => bringupCheck
  | .readWord a => fun s => (addressCheck a s).or (bringupCheck s)
  | .readHardwareAddress => bringupCheck
  | .submit _ => submitCheck
  | .reconcile => handlerCheck
  | .drain => handlerCheck
  | .onInterrupt => interruptCheck
  | .check => handlerCheck
  | .openBlock => bringupCheck
  | .closeBlock => closeCheck
  | .read8 off => accessCheck off 1
  | .read16 off => accessCheck off 2
  | .read32 off => accessCheck off 4
  | .write8 off _ => accessCheck off 1
  | .write16 off _ => accessCheck off 2
  | .write32 off _ => accessCheck off 4
  | .writeRaw16 off _ => accessCheck off 2
  | .writeRaw32 off _ => accessCheck off 4
  | .txcmd _ _ slot => fun s => (slotCheck slot s).or (txcmdCheck s)
  | .txstatInFlight _ _ _ _ => handlerCheck
  | .txstatSuccess _ _ _ _ _ _ => handlerCheck
  | .txstatError _ _ _ _ _ _ => handlerCheck
  | .rxhdr _ _ => handlerCheck
  | .eecmdRead a => fun s => (addressCheck a s).or (bringupCheck s)

/-- A register write, whole. -/
theorem hostWrite_next {off : BitVec 8} {bs : List Byte} {s t : State} (h : hostWrite off bs s = .next t) :
    accessCheck off bs.length s = none ∧
      t = setContext .bringup ⟨s.bringup.stack, some .done⟩ (regWrite s.plat.values off.toNat bs s) := by
  obtain ⟨hc, h⟩ := guarded_eq_next.1 h
  cases finishAtomic_next h
  exact ⟨hc, by simp⟩

theorem sendBit_cells (K : Config.Values) (b : Bool) (s : State) : (sendBit K b s).ee.cells = s.ee.cells := by
  simp only [sendBit, write8, regWrite_cells]

theorem sendCommand_ee (a : EeAddr) (s : State) : ∃ e, sendCommand reference a s = { s with ee := e } := by
  unfold sendCommand
  generalize (List.range reference.eeCmdBits).reverse = ks
  induction ks generalizing s with
  | nil => exact ⟨s.ee, rfl⟩
  | cons k ks ih =>
    obtain ⟨e, h⟩ := ih (sendBit reference (commandBit reference a k) s)
    exact ⟨e, by rw [List.foldl_cons, h, sendBit, write8_eecr, write8_eecr]⟩

theorem sendCommand_cells (K : Config.Values) (a : EeAddr) (s : State) :
    (sendCommand K a s).ee.cells = s.ee.cells := by
  unfold sendCommand
  generalize (List.range K.eeCmdBits).reverse = ks
  induction ks generalizing s with
  | nil => rfl
  | cons k ks ih => rw [List.foldl_cons, ih, sendBit_cells]

theorem hostBytes16_length (be : Bool) (v : Half) : (hostBytes16 be v).length = 2 := by cases be <;> rfl

theorem hostBytes32_length (be : Bool) (v : Word) : (hostBytes32 be v).length = 4 := by cases be <;> rfl

/-- The start of an operation, whole: its check passed, and either its context stands at its first label or the
atomic step is done and only the context's result is new. -/
theorem beginInstr_next {i : Instr} {s t : State} (h : beginInstr i s = .next t) :
    startCheck i s = none ∧
      ((∃ f, firstLabel i = some f ∧ t = enterOp (homeContext i) f s) ∨
        (∃ u r, firstLabel i = none ∧ AtomicEffect s.plat.values s u ∧
          t = setContext (homeContext i) ⟨(s.context (homeContext i)).stack, some r⟩ u)) := by
  cases i with
  | reset => obtain ⟨hc, h⟩ := guarded_eq_next.1 h; cases h; exact ⟨hc, .inl ⟨_, rfl, rfl⟩⟩
  | readWord a => obtain ⟨hc, h⟩ := guarded_eq_next.1 h; cases h; exact ⟨hc, .inl ⟨_, rfl, rfl⟩⟩
  | readHardwareAddress => obtain ⟨hc, h⟩ := guarded_eq_next.1 h; cases h; exact ⟨hc, .inl ⟨_, rfl, rfl⟩⟩
  | submit f =>
    obtain ⟨hc, h⟩ := guarded_eq_next.1 h
    split at h
    · cases h
    · cases h; exact ⟨hc, .inl ⟨_, rfl, rfl⟩⟩
  | reconcile => obtain ⟨hc, h⟩ := guarded_eq_next.1 h; cases h; exact ⟨hc, .inl ⟨_, rfl, rfl⟩⟩
  | drain => obtain ⟨hc, h⟩ := guarded_eq_next.1 h; cases h; exact ⟨hc, .inl ⟨_, rfl, rfl⟩⟩
  | onInterrupt => obtain ⟨hc, h⟩ := guarded_eq_next.1 h; cases h; exact ⟨hc, .inl ⟨_, rfl, rfl⟩⟩
  | check => obtain ⟨hc, h⟩ := guarded_eq_next.1 h; cases h; exact ⟨hc, .inl ⟨_, rfl, rfl⟩⟩
  | openBlock => obtain ⟨hc, h⟩ := guarded_eq_next.1 h; cases h; exact ⟨hc, .inl ⟨_, rfl, rfl⟩⟩
  | closeBlock => obtain ⟨hc, h⟩ := guarded_eq_next.1 h; cases h; exact ⟨hc, .inl ⟨_, rfl, rfl⟩⟩
  | read8 o => obtain ⟨hc, h⟩ := guarded_eq_next.1 h; cases h; exact ⟨hc, .inr ⟨_, _, rfl, .read, rfl⟩⟩
  | read16 o => obtain ⟨hc, h⟩ := guarded_eq_next.1 h; cases h; exact ⟨hc, .inr ⟨_, _, rfl, .read, rfl⟩⟩
  | read32 o => obtain ⟨hc, h⟩ := guarded_eq_next.1 h; cases h; exact ⟨hc, .inr ⟨_, _, rfl, .read, rfl⟩⟩
  | write8 o v => obtain ⟨hc, rfl⟩ := hostWrite_next h; exact ⟨hc, .inr ⟨_, _, rfl, .write _ _, rfl⟩⟩
  | write16 o v => obtain ⟨hc, rfl⟩ := hostWrite_next h; exact ⟨hc, .inr ⟨_, _, rfl, .write _ _, rfl⟩⟩
  | write32 o v => obtain ⟨hc, rfl⟩ := hostWrite_next h; exact ⟨hc, .inr ⟨_, _, rfl, .write _ _, rfl⟩⟩
  | writeRaw16 o v =>
    obtain ⟨hc, rfl⟩ := hostWrite_next h
    rw [hostBytes16_length] at hc
    exact ⟨hc, .inr ⟨_, _, rfl, .write _ _, rfl⟩⟩
  | writeRaw32 o v =>
    obtain ⟨hc, rfl⟩ := hostWrite_next h
    rw [hostBytes32_length] at hc
    exact ⟨hc, .inr ⟨_, _, rfl, .write _ _, rfl⟩⟩
  | txcmd th len slot =>
    obtain ⟨hc, h⟩ := guarded_eq_next.1 h
    cases finishAtomic_next h
    exact ⟨hc, .inr ⟨_, .done, rfl, .write (tsdOff s.plat.values slot) (le32 (commandWord s.plat.values th len)), by
      simp [homeContext, write32]⟩⟩
  | txstatInFlight b m o z =>
    obtain ⟨hc, h⟩ := guarded_eq_next.1 h; cases h; exact ⟨hc, .inr ⟨_, _, rfl, .none, rfl⟩⟩
  | txstatSuccess b tt m u o z =>
    obtain ⟨hc, h⟩ := guarded_eq_next.1 h
    obtain ⟨hr, ⟨-, h⟩ | ⟨-, h⟩⟩ := retireWith_next h <;> cases finishAtomic_next h
    · exact ⟨hc, .inr ⟨_, _, rfl, .none, rfl⟩⟩
    · exact ⟨hc, .inr ⟨_, _, rfl, .retire (.txDone z) hr, rfl⟩⟩
  | txstatError b a m u o z =>
    obtain ⟨hc, h⟩ := guarded_eq_next.1 h
    split at h
    · obtain ⟨hr, ⟨-, h⟩ | ⟨-, h⟩⟩ := retireWith_next h <;> cases finishAtomic_next h
      · exact ⟨hc, .inr ⟨_, _, rfl, .none, rfl⟩⟩
      · exact ⟨hc, .inr ⟨_, .done, rfl, .retireError (u == 1#1) (a == 1#1) hr, by
          simp [homeContext, reportError_interrupt]⟩⟩
    · cases finishAtomic_next h
      exact ⟨hc, .inr ⟨_, _, rfl, .none, rfl⟩⟩
  | rxhdr z st =>
    obtain ⟨hc, h⟩ := guarded_eq_next.1 h
    obtain ⟨-, h⟩ | ⟨hh, p, hp, h⟩ := parseRecord_next h <;> cases finishAtomic_next h
    · exact ⟨hc, .inr ⟨_, _, rfl, .none, rfl⟩⟩
    · exact ⟨hc, .inr ⟨_, .done, rfl, .record z p hh, by simp [homeContext, commitRx, write16]⟩⟩
  | eecmdRead a =>
    obtain ⟨hc, h⟩ := guarded_eq_next.1 h
    cases finishAtomic_next h
    obtain ⟨n, e, he⟩ := sendCommand_frame s.plat.values a s
    exact ⟨hc, .inr ⟨_, .done, rfl, .command a, by simp [homeContext, he]⟩⟩

/-! ## The environment -/

/-- A step of the NIC changes the NIC, the EEPROM's register level, DMA memory and draws only (R187, R204). -/
theorem nicStep_frame {K : Config.Values} (m : NicMove) (s t : State) (h : nicStep K m s = .next t) : ∃ n e mm d k,
    t = { s with nic := n, ee := e, mem := mm, draws := d, freeCount := k } ∧ e.cells = s.ee.cells := by
  cases m with
  | resetDone =>
    cases h; unfold devResetDone; split
    · exact ⟨_, _, _, _, _, rfl, rfl⟩
    · exact ⟨s.nic, s.ee, s.mem, s.draws, s.freeCount, rfl, rfl⟩
  | txComplete i o =>
    simp only [nicStep, devTxComplete] at h
    split at h
    · split at h
      · split at h <;> cases h; exact ⟨_, _, _, _, _, rfl, rfl⟩
      · cases h; exact ⟨s.nic, s.ee, s.mem, s.draws, s.freeCount, rfl, rfl⟩
    · cases h; exact ⟨s.nic, s.ee, s.mem, s.draws, s.freeCount, rfl, rfl⟩
    · cases h; exact ⟨s.nic, s.ee, s.mem, s.draws, s.freeCount, rfl, rfl⟩
  | rxRecord st f fcs bad =>
    simp only [nicStep, devRxRecord] at h
    split at h
    · split at h <;> cases h; exact ⟨_, _, _, _, _, rfl, rfl⟩
    · cases h; exact ⟨s.nic, s.ee, s.mem, s.draws, s.freeCount, rfl, rfl⟩
  | link b => cases h; exact ⟨_, _, _, _, _, rfl, rfl⟩
  | retrigger =>
    cases h; unfold devRetrigger; split
    · exact ⟨_, _, _, _, _, rfl, rfl⟩
    · exact ⟨s.nic, s.ee, s.mem, s.draws, s.freeCount, rfl, rfl⟩
  | isrUnnamed b => cases h; exact ⟨_, _, _, _, _, rfl, rfl⟩
  | tsdUnnamed i b =>
    cases h; unfold devTsdUnnamed; split
    · exact ⟨s.nic, s.ee, s.mem, s.draws, s.freeCount, rfl, rfl⟩
    · exact ⟨_, _, _, _, _, rfl, rfl⟩
    · exact ⟨_, _, _, _, _, rfl, rfl⟩
  | padWrite k b =>
    simp only [nicStep, devPadWrite] at h
    split at h
    · split at h <;> cases h; exact ⟨_, _, _, _, _, rfl, rfl⟩
    · cases h; exact ⟨s.nic, s.ee, s.mem, s.draws, s.freeCount, rfl, rfl⟩

theorem hostSetCfg_frame (c : Cfg) (s : State) : ∃ c', hostSetCfg c s =
    { s with eng := { s.eng with cfg := c' } } := by
  unfold hostSetCfg; split
  · exact ⟨c, rfl⟩
  · exact ⟨s.eng.cfg, rfl⟩

end Sys2Proof.Machine
end

