-- ==== Sys2Proof/Laws/Control.lean ====
section
/-! SUPPORT. Where control goes: from each label to labels of the same operation, into the calls there are, or back
(R11, R22). -/

namespace Sys2Proof.Machine

theorem stackOk_top {c : Ctx} {f : Frame} {rest : List Frame} (h : stackOk c (f :: rest) = true) : frameContext f = c :=
    by
  rcases rest with _ | ⟨g, _ | ⟨x, y⟩⟩
  · simpa [stackOk] using h
  · simp only [stackOk, Bool.and_eq_true, decide_eq_true_eq] at h
    obtain ⟨h1, h2⟩ := h
    rw [← h2]
    unfold callOk at h1
    split at h1 <;> first | rfl | cases h1
  · simp [stackOk] at h

/-- where control goes -/
def ctlOk (c : Ctx) (f : Frame) : Ctl → Bool
  | .goto g => decide (frameContext g = c) && (match f, g with
      | .reset _, .reset _ => true
      | .readWord _, .readWord _ => true
      | .hwAddr _, .hwAddr _ => true
      | .submit _, .submit _ => true
      | .reconcile _, .reconcile _ => true
      | .drain _, .drain _ => true
      | .onInterrupt _, .onInterrupt _ => true
      | .check _, .check _ => true
      | .openBlock _, .openBlock _ => true
      | .closeBlock _, .closeBlock _ => true
      | _, _ => false)
  | .call g b => callOk g b && decide (frameContext b = c) && (match f with
      | .hwAddr _ => true
      | .onInterrupt _ => true
      | .openBlock _ => true
      | _ => false)
  | .ret _ => true

theorem frame_ctl {K : Config.Values} {f : Frame} {s t : State} {k : Ctl} (hf : frameStep K f s = .go t k) :
    ctlOk (frameContext f) f k = true := by
  cases f with
  | reset l => 
    cases l <;> simp only [frameStep, resetStep, raiseResult, Micro.go.injEq] at hf <;> obtain ⟨-, rfl⟩ := hf <;> rfl
  | readWord l => 
    cases l <;> simp only [frameStep, readWordStep, Micro.go.injEq] at hf <;> obtain ⟨-, rfl⟩ := hf <;> rfl
  | hwAddr l => 
    cases l with
    | call i => cases hf; rfl
    | store i => simp only [frameStep, hwAddrStep] at hf; split at hf <;> cases hf <;> rfl
  | submit l =>
    cases l with
    | s1 f =>
      simp only [frameStep, submitStep, raiseResult] at hf
      split at hf
      · cases hf; rfl
      · obtain ⟨-, h⟩ := withRing_go hf
        split at h <;> cases h; rfl
    | s2a f i =>
      simp only [frameStep, submitStep] at hf
      split at hf
      · rw [(storeStep_go hf).2]; rfl
      · cases hf; rfl
    | s2b f i => rw [(storeStep_go hf).2]; rfl
    | s3 z i => cases hf; rfl
    | s4 i => cases hf; rfl
    | s5a => obtain ⟨-, h⟩ := withRing_go hf; cases h; rfl
    | s5b x => obtain ⟨-, h⟩ := withRing_go hf; split at h <;> cases h <;> rfl
  | reconcile l =>
    cases l with
    | c2c c old z => cases hf; rfl
    | c2d c old u a => cases hf; rfl
    | c2e c old => obtain ⟨-, h⟩ := withRing_go hf; cases h; rfl
    | c3 old => obtain ⟨-, h⟩ := withRing_go hf; cases h; rfl
    | c1 => obtain ⟨-, h⟩ := withRing_go hf; cases h; rfl
    | c2a c old => obtain ⟨-, h⟩ := withRing_go hf; cases h; rfl
    | c2b c old => obtain ⟨-, h⟩ := withRing_go hf; cases h; rfl
  | drain l =>
    cases l with
    | d5 z p => cases hf; rfl
    | d6a z => cases hf; rfl
    | d6b => cases hf; rfl
    | d1 => simp only [frameStep, drainStep] at hf; split at hf <;> cases hf <;> rfl
    | d2 => simp only [frameStep, drainStep, withHeader] at hf; split_ifs at hf; split at hf <;> cases hf; rfl
    | d3 z => simp only [frameStep, drainStep] at hf; split at hf <;> cases hf; rfl
    | d4 z => simp only [frameStep, drainStep, withPayload] at hf; split_ifs at hf; split at hf <;> cases hf; rfl
  | onInterrupt l =>
    cases l with
    | i1 => simp only [frameStep, interruptStep, raiseResult] at hf; split at hf <;> cases hf <;> rfl
    | i2 v => cases hf; rfl
    | i3 v => cases hf; rfl
    | i4 m => simp only [frameStep, interruptStep] at hf; split at hf <;> cases hf <;> rfl
    | i5 m => simp only [frameStep, interruptStep] at hf; split at hf <;> cases hf <;> rfl
    | i6 m => simp only [frameStep, interruptStep] at hf; split at hf <;> cases hf <;> rfl
    | i7 => cases hf; rfl
  | check l =>
    cases l <;> cases hf <;> rfl
  | openBlock l =>
    cases l with
    | o1 => simp only [frameStep, openStep, raiseResult] at hf; split at hf <;> cases hf <;> rfl
    | o2 => simp only [frameStep, openStep] at hf; split at hf <;> cases hf <;> rfl
    | o3 => simp only [frameStep, openStep] at hf; split at hf <;> cases hf <;> rfl
    | o4 => cases hf; rfl
    | o4r => simp only [frameStep, openStep] at hf; split at hf <;> cases hf <;> rfl
    | o5 => cases hf; rfl
    | o6 i => cases hf; rfl
    | o7 => cases hf; rfl
    | o8 => cases hf; rfl
    | o9 => cases hf; rfl
    | o10 => cases hf; rfl
    | o11 => cases hf; rfl
    | releaseRx e => cases hf; rfl
    | releaseTx e => cases hf; rfl
    | releaseIrq e => simp only [frameStep, openStep, raiseResult] at hf; split at hf <;> cases hf <;> rfl
  | closeBlock l =>
    cases l with
    | x2 => simp only [frameStep, closeStep] at hf; split at hf <;> cases hf <;> rfl
    | _ => cases hf; rfl

def ctlStack (k : Ctl) (rest : List Frame) : List Frame := match k with
  | .goto g => g :: rest
  | .call g b => g :: b :: rest
  | .ret _ => rest

theorem callOk_goto {c f g b} (h : ctlOk c f (.goto g) = true) (hb : callOk f b = true) : callOk g b = true := by
  simp only [ctlOk, Bool.and_eq_true] at h
  obtain ⟨-, h⟩ := h
  cases f <;> cases g <;> first | (simp at h; done) | (cases b with
    | openBlock l => cases l <;> exact hb
    | hwAddr l => cases l <;> exact hb
    | onInterrupt l => cases l <;> exact hb
    | _ => exact hb)
theorem not_call {c f g b x} (h : ctlOk c f (.call g b) = true) (hb : callOk f x = true) : False := by
  simp only [ctlOk, Bool.and_eq_true] at h
  obtain ⟨-, h⟩ := h
  cases f <;> first | (simp at h; done) | (simp [callOk] at hb; done)
theorem stackOk_ctl {c : Ctx} {f : Frame} {rest : List Frame} {k : Ctl} (h : stackOk c (f :: rest) = true)
    (hk : ctlOk c f k = true) :
    stackOk c (ctlStack k rest) = true := by
  rcases rest with _ | ⟨g, _ | ⟨x, y⟩⟩
  · cases k with
    | goto g => simp only [ctlOk, Bool.and_eq_true] at hk; exact hk.1
    | call g b => simp only [ctlOk, Bool.and_eq_true] at hk; simp only [ctlStack, stackOk, Bool.and_eq_true]; exact hk.1
    | ret r => rfl
  · simp only [stackOk, Bool.and_eq_true] at h
    cases k with
    | goto g => simp only [ctlStack, stackOk, Bool.and_eq_true]; exact ⟨callOk_goto hk h.1, h.2⟩
    | call g b => exact (not_call hk h.1).elim
    | ret r => simp only [ctlStack, stackOk]; exact h.2
  · simp [stackOk] at h

theorem applyCtl_stack (c k s) : (applyCtl c k s).context c =
    ⟨ctlStack k (s.context c).stack.tail, match k with | .ret r => some r | _ => (s.context c).result⟩ := by
  cases k <;> cases c <;> rfl
theorem applyCtl_other {c d k s} (h : c ≠ d) : (applyCtl c k s).context d = s.context d := by
  cases k <;> cases c <;> cases d <;> first | rfl | exact absurd rfl h

/-- What a labelled step of any context leaves alone, whatever the configuration: the control locations (R11), the
agenda, the parameters (R7), the EEPROM's cells (R29); it emits at most one event (R30). -/
structure StepFrame (s t : State) : Prop where
  bringup : t.bringup = s.bringup
  submission : t.submission = s.submission
  interrupt : t.interrupt = s.interrupt
  agenda : t.agenda = s.agenda
  values : t.plat.values = s.plat.values
  params : t.plat.params = s.plat.params
  cells : t.ee.cells = s.ee.cells
  events : t.events = s.events ∨ ∃ e, t.events = s.events ++ [e]

theorem StepFrame.refl (s : State) : StepFrame s s := ⟨rfl, rfl, rfl, rfl, rfl, rfl, rfl, .inl rfl⟩

theorem StepFrame.regWrite (K : Config.Values) (off : Nat) (bs : List Byte) (s : State) :
    StepFrame s (regWrite K off bs s) := by
  constructor <;> simp [regWrite_cells]

theorem StepFrame.emit (e : Event) (s : State) : StepFrame s (emit e s) :=
  ⟨rfl, rfl, rfl, rfl, rfl, rfl, rfl, .inr ⟨e, rfl⟩⟩

theorem linkEdge_stepFrame (bad : Bool) (s : State) : StepFrame s (linkEdge bad s) := by
  unfold linkEdge
  split <;> first | exact .refl s | exact ⟨rfl, rfl, rfl, rfl, rfl, rfl, rfl, .inr ⟨_, rfl⟩⟩

theorem memWrite_stepFrame {K : Config.Values} {s t : State} {a : Nat} {bs : List Byte}
    (h : memWrite K s a bs = some t) :
    StepFrame s t := by
  obtain ⟨-, rfl⟩ := memWrite_some h
  exact ⟨rfl, rfl, rfl, rfl, rfl, rfl, rfl, .inl rfl⟩

theorem setIrqEnabled_stepFrame (K : Config.Values) (v : Half) (s : State) : StepFrame s (setIrqEnabled K v s) := by
  constructor <;> simp [setIrqEnabled, write16, regWrite_cells]

theorem frameStep_stepFrame {K : Config.Values} {f : Frame} {s t : State} {k : Ctl} (hf : frameStep K f s = .go t k) :
    StepFrame s t := by
  cases f with
  | reset l =>
    cases l <;> simp only [frameStep, resetStep, raiseResult, Micro.go.injEq] at hf <;> obtain ⟨rfl, -⟩ := hf <;>
      first | exact .regWrite _ _ _ _ | exact ⟨rfl, rfl, rfl, rfl, rfl, rfl, rfl, .inl rfl⟩
  | readWord l =>
    cases l <;> simp only [frameStep, readWordStep, Micro.go.injEq] at hf <;> obtain ⟨rfl, -⟩ := hf <;>
      first | exact .regWrite _ _ _ _ | exact .refl s |
        (unfold afterSample; split <;> exact ⟨rfl, rfl, rfl, rfl, rfl, rfl, rfl, .inl rfl⟩)
  | hwAddr l => obtain ⟨v, rfl⟩ := hwAddrStep_frame hf; exact ⟨rfl, rfl, rfl, rfl, rfl, rfl, rfl, .inl rfl⟩
  | submit l =>
    cases l with
    | s1 f =>
      simp only [frameStep, submitStep, raiseResult] at hf
      split at hf
      · cases hf; exact .refl s
      · obtain ⟨-, h⟩ := withRing_go hf
        split at h <;> cases h; exact .refl s
    | s2a f i =>
      simp only [frameStep, submitStep] at hf
      split at hf
      · exact memWrite_stepFrame (storeStep_go hf).1
      · cases hf; exact .refl s
    | s2b f i => exact memWrite_stepFrame (storeStep_go hf).1
    | s3 z i => cases hf; exact .regWrite _ _ _ _
    | s4 i => cases hf; exact ⟨rfl, rfl, rfl, rfl, rfl, rfl, rfl, .inl rfl⟩
    | s5a => obtain ⟨-, h⟩ := withRing_go hf; cases h; exact .refl s
    | s5b x =>
      obtain ⟨-, h⟩ := withRing_go hf
      split at h <;> cases h <;> exact ⟨rfl, rfl, rfl, rfl, rfl, rfl, rfl, .inl rfl⟩
  | reconcile l =>
    cases l with
    | c2c c old z => cases hf; exact .emit _ s
    | c2d c old u a =>
      cases hf
      constructor <;> simp [reportError, write16, regWrite_cells]
    | c2e c old => obtain ⟨-, h⟩ := withRing_go hf; cases h; exact ⟨rfl, rfl, rfl, rfl, rfl, rfl, rfl, .inl rfl⟩
    | c3 old =>
      obtain ⟨-, h⟩ := withRing_go hf
      simp only [resumeIf, Micro.go.injEq] at h
      obtain ⟨rfl, -⟩ := h
      split
      · exact ⟨rfl, rfl, rfl, rfl, rfl, rfl, rfl, .inr ⟨_, rfl⟩⟩
      · exact .refl s
    | c1 => obtain ⟨-, h⟩ := withRing_go hf; cases h; exact .refl s
    | c2a c old => obtain ⟨-, h⟩ := withRing_go hf; cases h; exact .refl s
    | c2b c old => obtain ⟨-, h⟩ := withRing_go hf; cases h; exact .refl s
  | drain l =>
    cases l with
    | d5 z p => cases hf; exact .emit _ s
    | d6a z => cases hf; exact ⟨rfl, rfl, rfl, rfl, rfl, rfl, rfl, .inl rfl⟩
    | d6b => cases hf; exact .regWrite _ _ _ _
    | d1 => simp only [frameStep, drainStep] at hf; split at hf <;> cases hf <;> exact .refl s
    | d2 =>
      simp only [frameStep, drainStep, withHeader] at hf
      split_ifs at hf
      split at hf <;> cases hf; exact .refl s
    | d3 z => simp only [frameStep, drainStep] at hf; split at hf <;> cases hf; exact .refl s
    | d4 z =>
      simp only [frameStep, drainStep, withPayload] at hf
      split_ifs at hf
      split at hf <;> cases hf; exact .refl s
  | onInterrupt l =>
    cases l with
    | i2 v => cases hf; exact .regWrite _ _ _ _
    | i1 => simp only [frameStep, interruptStep, raiseResult] at hf; split at hf <;> cases hf <;> exact .refl s
    | i3 v => cases hf; exact .refl s
    | i4 m => simp only [frameStep, interruptStep] at hf; split at hf <;> cases hf <;> exact .refl s
    | i5 m => simp only [frameStep, interruptStep] at hf; split at hf <;> cases hf <;> exact .refl s
    | i6 m => simp only [frameStep, interruptStep] at hf; split at hf <;> cases hf <;> exact .refl s
    | i7 => cases hf; exact .refl s
  | check l =>
    cases l with
    | l1 => cases hf; exact .refl s
    | l2 b => cases hf; exact linkEdge_stepFrame _ _
  | openBlock l =>
    cases l with
    | o1 =>
      simp only [frameStep, openStep, raiseResult] at hf
      split at hf <;> cases hf <;> exact ⟨rfl, rfl, rfl, rfl, rfl, rfl, rfl, .inl rfl⟩
    | o2 =>
      simp only [frameStep, openStep] at hf
      split at hf <;> cases hf <;> exact ⟨rfl, rfl, rfl, rfl, rfl, rfl, rfl, .inl rfl⟩
    | o3 =>
      simp only [frameStep, openStep] at hf
      split at hf <;> cases hf <;> exact ⟨rfl, rfl, rfl, rfl, rfl, rfl, rfl, .inl rfl⟩
    | o4 => cases hf; exact .refl s
    | o4r => simp only [frameStep, openStep] at hf; split at hf <;> cases hf <;> exact .refl s
    | o5 => cases hf; exact ⟨rfl, rfl, rfl, rfl, rfl, rfl, rfl, .inl rfl⟩
    | o6 i => cases hf; exact .regWrite _ _ _ _
    | o7 => cases hf; exact .regWrite _ _ _ _
    | o8 => cases hf; exact .regWrite _ _ _ _
    | o9 => cases hf; exact .regWrite _ _ _ _
    | o10 => cases hf; exact setIrqEnabled_stepFrame _ _ _
    | o11 => cases hf; exact ⟨rfl, rfl, rfl, rfl, rfl, rfl, rfl, .inl rfl⟩
    | releaseRx e => cases hf; exact ⟨rfl, rfl, rfl, rfl, rfl, rfl, rfl, .inl rfl⟩
    | releaseTx e => cases hf; exact ⟨rfl, rfl, rfl, rfl, rfl, rfl, rfl, .inl rfl⟩
    | releaseIrq e =>
      simp only [frameStep, openStep, raiseResult] at hf
      split at hf <;> cases hf <;> exact ⟨rfl, rfl, rfl, rfl, rfl, rfl, rfl, .inl rfl⟩
  | closeBlock l =>
    cases l with
    | x1 => cases hf; exact setIrqEnabled_stepFrame _ _ _
    | x2 =>
      simp only [frameStep, closeStep] at hf
      split at hf <;> cases hf <;> exact ⟨rfl, rfl, rfl, rfl, rfl, rfl, rfl, .inl rfl⟩
    | x3 => cases hf; exact ⟨rfl, rfl, rfl, rfl, rfl, rfl, rfl, .inl rfl⟩
    | x4 => cases hf; exact ⟨rfl, rfl, rfl, rfl, rfl, rfl, rfl, .inl rfl⟩
    | x5 => cases hf; exact ⟨rfl, rfl, rfl, rfl, rfl, rfl, rfl, .inl rfl⟩

def stOk (s : State) (c : Ctx) : Prop := stackOk c (s.context c).stack = true
theorem ctxOk_iff (s) : ContextsOk s ↔ ∀ c, stOk s c := by
  constructor
  · intro h c; cases c; exact h.1; exact h.2; exact h.3
  · intro h; exact ⟨h .bringup, h .submission, h .interrupt⟩
theorem frame_context {K f s t k} (hf : frameStep K f s = .go t k) (c) : t.context c = s.context c := by
  have h := frameStep_stepFrame hf
  cases c
  · exact h.bringup
  · exact h.submission
  · exact h.interrupt
theorem adv_ctx {c s t} (h : ContextsOk s) (e : advance c s = .next t) : ContextsOk t := by
  rw [ctxOk_iff] at *
  rcases advance_next e with ⟨-, rfl⟩ | ⟨f, rest, u, k, hs, hm, rfl⟩
  · exact h
  · intro d
    by_cases hd : c = d
    · subst hd
      rw [stOk, applyCtl_stack, frame_context hm, hs]
      have := h c
      rw [stOk, hs] at this
      have ht := stackOk_top this
      refine stackOk_ctl this ?_
      rw [← ht]; exact frame_ctl hm
    · rw [stOk, applyCtl_other hd, frame_context hm]; exact h d
theorem firstLabel_ctx {i f} (h : firstLabel i = some f) : frameContext f = homeContext i := by
  cases i <;> cases h <;> rfl
/-- An atomic step leaves alone what a labelled step does. -/
theorem AtomicEffect.stepFrame {K s u} (h : AtomicEffect K s u) : StepFrame s u := by
  cases h with
  | none => exact .refl s
  | read => exact ⟨rfl, rfl, rfl, rfl, rfl, rfl, rfl, .inl rfl⟩
  | write o b => exact .regWrite K o b s
  | command a =>
    obtain ⟨n, e, h⟩ := sendCommand_frame K a s
    have hc := sendCommand_cells K a s
    rw [h] at hc ⊢
    exact ⟨rfl, rfl, rfl, rfl, rfl, rfl, hc, .inl rfl⟩
  | retire e he => exact ⟨rfl, rfl, rfl, rfl, rfl, rfl, rfl, .inr ⟨e, rfl⟩⟩
  | retireError u a he => constructor <;> simp [retireSlot, storeHw, reportError, write16, regWrite_cells]
  | record z p hz => constructor <;> simp [commitRx, write16, regWrite_cells, advanceRx]

theorem atomic_ctx {K s u} (h : AtomicEffect K s u) (c) : u.context c = s.context c := by
  cases c
  · exact h.stepFrame.bringup
  · exact h.stepFrame.submission
  · exact h.stepFrame.interrupt

theorem setContext_other {c d x s} (h : c ≠ d) : (setContext c x s).context d = s.context d := by
  cases c <;> cases d <;> first | rfl | exact absurd rfl h
theorem begin_ctx {i s t} (h : ContextsOk s) (hb : beginInstr i s = .next t) : ContextsOk t := by
  rw [ctxOk_iff] at *
  intro d
  obtain ⟨-, ⟨f, hf, rfl⟩ | ⟨u, r, -, hu, rfl⟩⟩ := beginInstr_next hb
  · by_cases hd : homeContext i = d
    · subst hd; rw [stOk, enterOp, context_setContext]
      simp [stackOk, firstLabel_ctx hf]
    · rw [stOk, enterOp, setContext_other hd]; exact h d
  · by_cases hd : homeContext i = d
    · subst hd; rw [stOk, context_setContext]; exact h _
    · rw [stOk, setContext_other hd, atomic_ctx hu]; exact h d

end Sys2Proof.Machine
end

