-- ==== Sys2Proof/Laws/Eeprom.lean ====
section
/-! SUPPORT. The EEPROM protocol run label by label: what nine command bits and sixteen data bits do to the EEPROM
(R120, R125, R126, R200), and a whole `readWord` from its first label to its return. -/

namespace Sys2Proof.Machine

open Config (reference)

/-- Command bits `k` down to 0 as the EEPROM sees them (R120 E3). -/
def eeCommand (a : EeAddr) : Nat → Eeprom → Eeprom
  | 0, e => writeEecr reference (clockHigh reference (commandBit reference a 0))
    (writeEecr reference (clockLow reference (commandBit reference a 0)) e)
  | k + 1, e =>
      eeCommand a k (writeEecr reference (clockHigh reference (commandBit reference a (k + 1)))
        (writeEecr reference (clockLow reference (commandBit reference a (k + 1))) e))

/-- A write that R120's sequence has next, other than E1 and E6: R200's reaction, one place on. -/
theorem writeEecr_next {v : Byte} {e : Eeprom} {p : Nat} (hs : e.seq = some p) (hx : eeExpects reference v e = true)
    (h1 : v ≠ reference.eeProg) (h6 : v ≠ reference.eeNormal) :
    writeEecr reference v e = { eeReact reference v e with eecr := v, seq := some (p + 1) } := by
  simp [writeEecr, eeFollow, hx, h1, h6, hs]

/-- E1 begins the sequence from anywhere, the chip not selected. -/
theorem writeEecr_e1 (e : Eeprom) : ∃ o, writeEecr reference reference.eeProg e =
    { e with eecr := reference.eeProg, sel := false, seq := some 0, out := o } := ⟨_, rfl⟩

/-- E2 after E1 selects the chip afresh (R200). -/
theorem writeEecr_e2 {e : Eeprom} (hs : e.seq = some 0) (hc : anySet e.eecr reference.eeCs = false) :
    writeEecr reference (eeSelected reference) e =
      ⟨eeSelected reference, true, 0, 0#32, some false, some 1, e.cells⟩ := by
  have hr : eeReact reference (eeSelected reference) e = { e with sel := true, n := 0, sh := 0#32, out := some false } :=
    by
    rw [eeReact, if_neg (by decide), hc]; rfl
  have hx : eeExpects reference (eeSelected reference) e = true := by rw [eeExpects, hs]; rfl
  rw [writeEecr_next hs hx (by decide) (by decide), hr]

/-- With the chip kept selected and the clock low, R200 asks for nothing. -/
theorem eeReact_low {v : Byte} {e : Eeprom} (hp : anySet v reference.eeProg = true)
    (hc : anySet v reference.eeCs = true)
    (hk : anySet v reference.eeSk = false) (hs : anySet e.eecr reference.eeCs = true) : eeReact reference v e = e := by
  simp [eeReact, hp, hc, hk, hs]

/-- With the chip kept selected, a clock that rises is one clock edge (R200). -/
theorem eeReact_rise {v : Byte} {e : Eeprom} (hp : anySet v reference.eeProg = true)
    (hc : anySet v reference.eeCs = true)
    (hk : anySet v reference.eeSk = true) (hs : anySet e.eecr reference.eeCs = true) (hl : e.sel = true)
    (hu : anySet e.eecr reference.eeSk = false) : eeReact reference v e =
    eeClock reference (anySet v reference.eeDi) e := by
  simp [eeReact, hp, hc, hk, hs, hl, hu]

theorem clockLow_levels (b : Bool) : anySet (clockLow reference b) reference.eeProg = true ∧
    anySet (clockLow reference b) reference.eeCs = true ∧
    anySet (clockLow reference b) reference.eeSk = false ∧ clockLow reference b ≠ reference.eeProg ∧
      clockLow reference b ≠ reference.eeNormal := by
  revert b; decide

theorem clockHigh_levels (b : Bool) : anySet (clockHigh reference b) reference.eeProg = true ∧
    anySet (clockHigh reference b) reference.eeCs = true ∧ anySet (clockHigh reference b) reference.eeSk = true ∧
    anySet (clockHigh reference b) reference.eeDi = b ∧ clockHigh reference b ≠ reference.eeProg ∧
      clockHigh reference b ≠ reference.eeNormal := by
  revert b; decide

/-- R120's sequence in numbers: place 0 is after E1, 1 to 18 the command half-clocks, 19 is E4, 20 to 51 the response
half-clocks. -/
theorem eeExpects_at {v : Byte} {e : Eeprom} {p : Nat} (hs : e.seq = some p) : eeExpects reference v e =
    if p = 0 then v == (eeSelected reference)
    else if p ≤ 18 then
      (if p % 2 = 1 then v == clockLow reference false || v == clockLow reference true
       else v == (e.eecr ||| reference.eeSk))
    else if p = 19 then v == (eeSelected reference)
    else if p ≤ 51 then v == (if p % 2 = 0 then (eeSelected reference) ||| reference.eeSk else (eeSelected reference))
    else v == reference.eeNormal := by
  rw [eeExpects, hs]; rfl

/-- E3a is what the sequence has next before each command bit. -/
theorem eeExpects_low (b : Bool) {e : Eeprom} {j : Nat} (hs : e.seq = some (2 * j + 1)) (hj : j < 9) :
    eeExpects reference (clockLow reference b) e = true := by
  rw [eeExpects_at hs, if_neg (by omega), if_pos (by omega), if_pos (by omega)]
  cases b <;> simp

/-- E3b is what the sequence has next after E3a. -/
theorem eeExpects_high (b : Bool) {e : Eeprom} {j : Nat} (hs : e.seq = some (2 * j + 2)) (hj : j < 9)
    (he : e.eecr = clockLow reference b) : eeExpects reference (clockHigh reference b) e = true := by
  rw [eeExpects_at hs, if_neg (by omega), if_pos (by omega), if_neg (by omega), he]
  simp [clockHigh]

/-- One command bit shifts into `sh`. -/
theorem writeEecr_commandBit (b : Bool) (cells : List Half) (u : Byte) (j : Nat) (sh : Word)
    (o : Option Bool) (hj : j < 9) (hu : anySet u reference.eeCs = true) :
    writeEecr reference (clockHigh reference b) (writeEecr reference (clockLow reference b)
      ⟨u, true, j, sh, o, some (2 * j + 1), cells⟩) =
      ⟨clockHigh reference b, true, j + 1, (sh <<< 1) ||| (if b then 1#32 else 0#32), some false, some (2 * (j + 1) + 1),
        cells⟩ := by
  obtain ⟨l7, l3, l2, ln, lm⟩ := clockLow_levels b
  obtain ⟨h7, h3, h2, h1, hn, hm⟩ := clockHigh_levels b
  rw [writeEecr_next rfl (eeExpects_low b rfl hj) ln lm, eeReact_low l7 l3 l2 hu]
  rw [writeEecr_next rfl (eeExpects_high b rfl hj rfl) hn hm, eeReact_rise h7 h3 h2 l3 rfl l2, h1]
  have hb : j + 1 ≤ reference.eeCmdBits := by rw [Config.eeCmdBits_val]; omega
  simp only [eeClock, eeOutput, if_pos hb]
  rfl

theorem commandBit_eq (a : EeAddr) (k : Nat) : commandBit reference a k = (0x180#32 ||| a.setWidth 32).getLsbD k := by
  have h : eecmdWord reference a = 0x180#32 ||| a.setWidth 32 := rfl
  rw [commandBit, h]

/-- An address the EEPROM has is six bits wide. -/
theorem eeAddr_six {a : EeAddr} (h : a.toNat < 64) : ∃ b : BitVec 6, a = b.setWidth 16 :=
  ⟨a.setWidth 6, BitVec.eq_of_toNat_eq (by simp only [BitVec.toNat_setWidth]; omega)⟩

theorem bit32 (b : Bool) (j : Nat) : (if b = true then 1#32 else 0#32).getLsbD j = (b && decide (j = 0)) := by
  cases b
  · simp
  · rw [if_pos rfl]; simp only [BitVec.getLsbD_one]; simp

/-- The nine command bits sent to a freshly selected EEPROM. -/
theorem eeCommand_all {a : EeAddr} (ha : a.toNat < 64) (e : Eeprom) (h : e.sel = true) (hn : e.n = 0)
    (hs : e.sh = 0#32) (hq : e.seq = some 1)
    (hu : anySet e.eecr reference.eeCs = true) :
    eeCommand a 8 e =
      ⟨clockHigh reference (commandBit reference a 0), true, 9, 0x180#32 ||| a.setWidth 32, some false, some 19,
        e.cells⟩ := by
  obtain ⟨u, sel, n, x, o, q, cells⟩ := e
  simp only at h hn hs hq hu
  subst h hn hs hq
  have hc : ∀ b, anySet (clockHigh reference b) reference.eeCs = true := fun b => (clockHigh_levels b).2.1
  simp only [eeCommand]
  rw [writeEecr_commandBit _ cells u 0 _ o (by decide) hu, writeEecr_commandBit _ cells _ 1 _ _ (by decide) (hc _),
    writeEecr_commandBit _ cells _ 2 _ _ (by decide) (hc _), writeEecr_commandBit _ cells _ 3 _ _ (by decide) (hc _),
    writeEecr_commandBit _ cells _ 4 _ _ (by decide) (hc _), writeEecr_commandBit _ cells _ 5 _ _ (by decide) (hc _),
    writeEecr_commandBit _ cells _ 6 _ _ (by decide) (hc _), writeEecr_commandBit _ cells _ 7 _ _ (by decide) (hc _),
    writeEecr_commandBit _ cells _ 8 _ _ (by decide) (hc _)]
  congr 1
  apply BitVec.eq_of_getLsbD_eq
  intro i hi
  obtain ⟨b, rfl⟩ := eeAddr_six ha
  simp only [BitVec.getLsbD_or, BitVec.getLsbD_shiftLeft, bit32, commandBit_eq]
  interval_cases i <;> simp

theorem bit16 (b : Bool) (j : Nat) : (if b = true then 1#16 else 0#16).getLsbD j = (b && decide (j = 0)) := by
  cases b
  · simp
  · rw [if_pos rfl]; simp only [BitVec.getLsbD_one]; simp

theorem shiftIn_getLsbD (v : Half) (b : Bool) (i : Nat) (hi : i < 16) :
    (shiftIn v b).getLsbD i = if i = 0 then b else v.getLsbD (i - 1) := by
  simp only [shiftIn, BitVec.getLsbD_or, bit16, BitVec.getLsbD_shiftLeft]
  rcases i with _ | i
  · simp
  · simp [hi]

/-- Sixteen bits shifted in, bit 15 first, are the word (R126). -/
theorem shiftIn_word (w : Half) : (List.range 16).reverse.foldl (fun v j => shiftIn v (w.getLsbD j)) 0#16 = w := by
  apply BitVec.eq_of_getLsbD_eq
  intro i hi
  simp only [List.range, List.range.loop, List.reverse_cons, List.reverse_nil, List.nil_append, List.cons_append,
    List.foldl]
  interval_cases i <;> repeat (first | rfl | rw [shiftIn_getLsbD _ _ _ (by decide)])

/-- E5a is what the sequence has next before each response bit. -/
theorem eeExpects_dataHigh {e : Eeprom} {j : Nat} (hs : e.seq = some (2 * j + 2)) (hj : 9 ≤ j) (hj' : j < 25) :
    eeExpects reference ((eeSelected reference) ||| reference.eeSk) e = true := by
  rw [eeExpects_at hs, if_neg (by omega), if_neg (by omega), if_neg (by omega), if_pos (by omega), if_pos (by omega)]
  simp

/-- E5c is what it has next after E5a. -/
theorem eeExpects_dataLow {e : Eeprom} {j : Nat} (hs : e.seq = some (2 * j + 3)) (hj : 9 ≤ j) (hj' : j < 25) :
    eeExpects reference (eeSelected reference) e = true := by
  rw [eeExpects_at hs, if_neg (by omega), if_neg (by omega), if_neg (by omega), if_pos (by omega), if_neg (by omega)]
  simp

/-- A data clock brings the next bit of the addressed cell out (R200). -/
theorem writeEecr_dataBit (cells : List Half) (j : Nat) {a : EeAddr} (ha : a.toNat < 64) (o : Option Bool) (hj : 9 ≤ j)
    (hj' : j < 25) :
    writeEecr reference ((eeSelected reference) ||| reference.eeSk)
        ⟨eeSelected reference, true, j, 0x180#32 ||| a.setWidth 32, o, some (2 * j + 2), cells⟩ =
      ⟨(eeSelected reference) ||| reference.eeSk, true, j + 1, 0x180#32 ||| a.setWidth 32,
        some ((eeCell cells a.toNat).getLsbD (24 - j)), some (2 * j + 3), cells⟩ := by
  have h1 : ((0x180#32 ||| a.setWidth 32) >>> reference.eeAddrBits).setWidth 3 = reference.eeReadOpcode := by
    obtain ⟨b, rfl⟩ := eeAddr_six ha; clear ha; revert b; decide
  have h2 : (0x180#32 ||| a.setWidth 32).toNat % 2 ^ reference.eeAddrBits = a.toNat := by
    obtain ⟨b, rfl⟩ := eeAddr_six ha; clear ha; revert b; decide
  rw [writeEecr_next rfl (eeExpects_dataHigh rfl hj hj') (by decide) (by decide),
    eeReact_rise (by decide) (by decide) (by decide) (show anySet
      (eeSelected reference) reference.eeCs = true by decide) rfl
      (show anySet (eeSelected reference) reference.eeSk = false by decide)]
  have h3 : ¬ j + 1 ≤ reference.eeCmdBits := by rw [Config.eeCmdBits_val]; omega
  have h4 : j + 1 ≤ reference.eeCmdBits + reference.eeDataBits := by
    rw [Config.eeCmdBits_val, Config.eeDataBits_val]; omega
  have h5 : reference.eeCmdBits + reference.eeDataBits - (j + 1) = 24 - j := by
    rw [Config.eeCmdBits_val, Config.eeDataBits_val]; omega
  simp only [eeClock, eeOutput, if_neg h3, if_pos (show _ ∧ _ from ⟨h4, h1⟩), h2, h5]

/-- The clock's return to low keeps the bit (R200). -/
theorem writeEecr_dataLow (cells : List Half) (j : Nat) (sh : Word) (o : Option Bool) (hj : 9 ≤ j)
    (hj' : j < 25) :
    writeEecr reference (eeSelected reference) ⟨(eeSelected reference) ||| reference.eeSk, true, j + 1, sh, o, some
      (2 * j + 3), cells⟩ =
      ⟨eeSelected reference, true, j + 1, sh, o, some (2 * (j + 1) + 2), cells⟩ := by
  rw [writeEecr_next rfl (eeExpects_dataLow rfl hj hj') (by decide) (by decide),
    eeReact_low (by decide) (by decide) (by decide)
      (show anySet ((eeSelected reference) ||| reference.eeSk) reference.eeCs = true by decide)]
  rfl

theorem waiting_readWord {s : State} {l : ReadWordAt} {rest : List Frame}
    (h : s.bringup.stack = .readWord l :: rest) : waiting .bringup s = false := by simp [waiting, h]

theorem waiting_hwAddr {s : State} {l : HwAddrAt} {rest : List Frame}
    (h : s.bringup.stack = .hwAddr l :: rest) : waiting .bringup s = false := by simp [waiting, h]

/-- One label of `readWord`, undisturbed. -/
theorem readWord_label {s t : State} {l : ReadWordAt} {rest : List Frame} {k : Ctl} (n : Nat)
    (hv : AtReference s) (hs : s.bringup.stack = .readWord l :: rest) (hf : readWordStep reference l s = .go t k)
    (ha : s.agenda = []) :
    runContext .bringup (n + 1) s = runContext .bringup n (applyCtl .bringup k t) :=
  runContext_label n hv hs ha (waiting_readWord hs) hf

/-- E3 from command bit `k` to E4. -/
theorem run_commandBits (s : State) (a : EeAddr) (m : Nat) (tl : List Frame) (r : Option OpResult)
    (hv : AtReference s) (ha : s.agenda = []) (k : Nat) :
    runContext .bringup (m + 2 * (k+1)) { s with bringup := ⟨.readWord (.e3a a k) :: tl, r⟩ } =
     runContext .bringup m { s with ee := eeCommand a k s.ee, bringup := ⟨.readWord .e4 :: tl, r⟩ } := by
  induction k generalizing s with
  | zero =>
    refine (readWord_label (hv := by exact hv) (m+1) (l := (.e3a a 0)) (rest := tl) (by exact rfl) (by exact rfl)
      (by exact ha)).trans ?_
    simp only [write8_eecr]
    refine (readWord_label (hv := by exact hv) (m) (l := (.e3b a 0)) (rest := tl) (by exact rfl) (by exact rfl)
      (by exact ha)).trans ?_
    simp only [write8_eecr]
    rfl
  | succ k ih =>
    rw [show m + 2 * (k+1+1) = m + 2 * (k+1) + 1 + 1 by ring]
    refine (readWord_label (hv := by exact hv) (m+ 2 * (k+1) + 1) (l := (.e3a a (k+1))) (rest := tl) (by exact rfl)
      (by exact rfl) (by exact ha)).trans ?_
    simp only [write8_eecr]
    refine (readWord_label (hv := by exact hv) (m+ 2 * (k+1)) (l := (.e3b a (k+1))) (rest := tl) (by exact rfl)
      (by exact rfl) (by exact ha)).trans ?_
    simp only [write8_eecr]
    refine Eq.trans ?_ ((ih
      { s with
        ee := writeEecr reference (clockHigh reference (commandBit reference a (k+1)))
          (writeEecr reference (clockLow reference (commandBit reference a (k+1))) s.ee) }
      (by exact hv) ha).trans ?_)
    · rfl
    · rfl

/-- E5 from data bit `k` to E6. -/
theorem run_dataBits {a : EeAddr} (h6 : a.toNat < 64) (m : Nat) (tl : List Frame) (r : Option OpResult) (k : Nat) :
    k ≤ 15 → ∀ (val : Half) (s : State) (o : Option Bool), AtReference s → s.agenda = [] →
    s.ee = ⟨eeSelected reference, true, 24 - k, 0x180#32 ||| a.setWidth 32, o, some (2 * (24 - k) + 2), s.ee.cells⟩ →
    ∃ o', runContext .bringup (m + 3 * (k+1)) { s with bringup := ⟨.readWord (.e5a k val) :: tl, r⟩ } =
      runContext .bringup m
        { s with
          ee := ⟨eeSelected reference, true, 25, 0x180#32 ||| a.setWidth 32, o', some 52, s.ee.cells⟩
          bringup := ⟨.readWord (.e6 ((List.range (k+1)).reverse.foldl
            (fun v j => shiftIn v ((eeCell s.ee.cells a.toNat).getLsbD j)) val)) :: tl, r⟩ } := by
  induction k with
  | zero =>
    intro hk val s o hv ha he
    refine ⟨some ((eeCell s.ee.cells a.toNat).getLsbD 0), ?_⟩
    refine (readWord_label (hv := by exact hv) (m+2) (l := (.e5a 0 val)) (rest := tl) (by exact rfl) (by exact rfl)
      (by simpa [write8_eecr] using ha)).trans ?_
    have e1 : write8 reference reference.eecr.off ((eeSelected reference) ||| reference.eeSk)
      { s with bringup := ⟨.readWord (.e5a 0 val) :: tl, r⟩ } =
      { s with ee := ⟨(eeSelected reference) ||| reference.eeSk, true, 25, 0x180#32 ||| a.setWidth 32, some
      ((eeCell s.ee.cells a.toNat).getLsbD 0), some 51, s.ee.cells⟩, bringup := ⟨.readWord
      (.e5a 0 val) :: tl, r⟩ } := by
      rw [write8_eecr]; simp only; rw [he, writeEecr_dataBit _ _ h6 _ (by omega) (by omega)]
    rw [e1]
    refine (readWord_label (hv := by exact hv) (m+1) (l := (.e5b 0 val)) (rest := tl) (by exact rfl) (by exact rfl)
      (by exact ha)).trans ?_
    refine (readWord_label (hv := by exact hv) (m) (l := (.e5c 0 _)) (rest := tl) (by exact rfl) (by exact rfl)
      (by exact ha)).trans ?_
    simp only [write8_eecr]
    refine Eq.trans ?_ (congrArg (fun e => runContext .bringup m { s with
      ee := e
      bringup := ⟨.readWord (.e6 (shiftIn val ((eeCell s.ee.cells a.toNat).getLsbD 0))) :: tl, r⟩ })
      (writeEecr_dataLow s.ee.cells 24 (0x180#32 ||| a.setWidth 32)
        (some ((eeCell s.ee.cells a.toNat).getLsbD 0)) (by omega) (by omega)))
    rfl
  | succ k ih =>
    intro hk val s o hv ha he
    rw [show m + 3 * (k+1+1) = m + 3 * (k+1) + 3 by ring]
    obtain ⟨o', e⟩ := ih (by omega) (shiftIn val ((eeCell s.ee.cells a.toNat).getLsbD (k+1)))
      { s with ee := ⟨eeSelected reference, true, 24 - k, 0x180#32 ||| a.setWidth 32, some
      ((eeCell s.ee.cells a.toNat).getLsbD (k+1)), some (2 * (24 - k) + 2), s.ee.cells⟩ }
      (some ((eeCell s.ee.cells a.toNat).getLsbD (k+1))) (by exact hv) ha rfl
    refine ⟨o', ?_⟩
    refine Eq.trans ?_ (e.trans ?_)
    · refine (readWord_label (hv := by exact hv) (m + 3 * (k+1)+2) (l := (.e5a (k+1) val)) (rest := tl)
      (by exact rfl) (by exact rfl) (by simpa [write8_eecr] using ha)).trans ?_
      have e1 : write8 reference reference.eecr.off ((eeSelected reference) ||| reference.eeSk)
        { s with bringup := ⟨.readWord (.e5a (k+1) val) :: tl, r⟩ } =
        { s with ee := ⟨(eeSelected reference) ||| reference.eeSk, true, 24 - k, 0x180#32 ||| a.setWidth 32, some
        ((eeCell s.ee.cells a.toNat).getLsbD (k+1)), some (2 * (24 - k) + 1), s.ee.cells⟩, bringup := ⟨.readWord
        (.e5a (k+1) val) :: tl, r⟩ } := by
        rw [write8_eecr]; simp only; rw [he, writeEecr_dataBit _ _ h6 _ (by omega) (by omega)]
        simp only [show 24 - (k+1) + 1 = 24 - k by omega, show 24 - (24 - (k+1)) = k+1 by omega,
          show 2 * (24 - (k+1)) + 3 = 2 * (24 - k) + 1 by omega]
      rw [e1]
      refine (readWord_label (hv := by exact hv) (m + 3 * (k+1)+1) (l := (.e5b (k+1) val)) (rest := tl)
        (by exact rfl) (by exact rfl) (by exact ha)).trans ?_
      refine (readWord_label (hv := by exact hv) (m + 3 * (k+1)) (l := (.e5c (k+1) _)) (rest := tl) (by exact rfl)
        (by exact rfl) (by exact ha)).trans ?_
      simp only [write8_eecr]
      have e2 := writeEecr_dataLow s.ee.cells (24 - (k+1)) (0x180#32 ||| a.setWidth 32)
        (some ((eeCell s.ee.cells a.toNat).getLsbD (k+1))) (by omega) (by omega)
      rw [show 24 - (k+1) + 1 = 24 - k by omega, show 2 * (24 - (k+1)) + 3 = 2 * (24 - k) + 1 by omega] at e2
      refine Eq.trans ?_ (congrArg (fun e => runContext .bringup (m + 3 * (k+1)) { s with
        ee := e
        bringup := ⟨.readWord (.e5a k (shiftIn val ((eeCell s.ee.cells a.toNat).getLsbD (k+1)))) :: tl, r⟩ }) e2)
      rfl
    · simp only
      rw [List.range_succ (n := k+1), List.reverse_append]
      rfl

/-- A whole `readWord`, 71 labelled steps, to its return (R120). -/
theorem run_readWord (s : State) {a : EeAddr} (h6 : a.toNat < 64) (m : Nat) (tl : List Frame) (r : Option OpResult)
    (hv : AtReference s) (ha : s.agenda = []) :
    ∃ o', runContext .bringup (m + 71) { s with bringup := ⟨.readWord (.e1 a) :: tl, r⟩ } =
      runContext .bringup m
        { s with
          ee := ⟨0x00#8, false, 25, 0x180#32 ||| a.setWidth 32, o', none, s.ee.cells⟩
          bringup := ⟨tl, some (.value16
            (toNative16 s.plat.params.hostBE (eeCell s.ee.cells a.toNat)))⟩ } := by
  obtain ⟨o', e⟩ := run_dataBits h6 (m+2) tl r 15 (by omega) 0#16
    { s with ee := ⟨eeSelected reference, true, 9, 0x180#32 ||| a.setWidth 32, some false, some 20, s.ee.cells⟩ }
    (some false) (by exact hv) ha rfl
  rw [shiftIn_word] at e
  refine ⟨o', ?_⟩
  refine (readWord_label (hv := by exact hv) (m+70) (l := (.e1 a)) (rest := tl) (by exact rfl) (by exact rfl)
    (by simpa [write8_eecr] using ha)).trans ?_
  simp only [write8_eecr]
  refine (readWord_label (hv := by exact hv) (m+69) (l := (.e2 a)) (rest := tl) (by exact rfl) (by exact rfl)
    (by simpa [write8_eecr] using ha)).trans ?_
  simp only [write8_eecr, applyCtl, context_bringup, List.tail_cons, setContext_bringup]
  have e0 : writeEecr reference (eeSelected reference) (writeEecr reference reference.eeProg s.ee) =
    ⟨eeSelected reference, true, 0, 0#32, some false, some 1, s.ee.cells⟩ := by
    obtain ⟨o, e1⟩ := writeEecr_e1 s.ee
    rw [e1, writeEecr_e2 rfl (show anySet reference.eeProg reference.eeCs = false by decide)]
  rw [e0]
  have ec := run_commandBits { s with ee := ⟨eeSelected reference, true, 0, 0#32, some false, some 1, s.ee.cells⟩ }
    a (m+51) tl r (by exact hv) ha 8
  rw [eeCommand_all h6 _ rfl rfl rfl rfl (show anySet (eeSelected reference) reference.eeCs = true by decide)] at ec
  refine ec.trans ?_
  refine (readWord_label (hv := by exact hv) (m+50) (l := .e4) (rest := tl) (by exact rfl) (by exact rfl)
    (by simpa [write8_eecr] using ha)).trans ?_
  simp only [write8_eecr]
  have e4 : writeEecr reference (eeSelected reference)
      ⟨clockHigh reference (commandBit reference a 0), true, 9, 0x180#32 ||| a.setWidth 32, some false, some 19,
        s.ee.cells⟩ =
      ⟨eeSelected reference, true, 9, 0x180#32 ||| a.setWidth 32, some false, some 20, s.ee.cells⟩ := by
    rw [writeEecr_next rfl (by rfl) (by decide) (by decide), eeReact_low (by decide) (by decide) (by decide)
      (clockHigh_levels _).2.1]
  rw [e4]
  refine Eq.trans ?_ (e.trans ?_)
  · rfl
  · refine (readWord_label (hv := by exact hv) (m+1) (l := (.e6 _)) (rest := tl) (by exact rfl) (by exact rfl)
    (by simpa [write8_eecr] using ha)).trans ?_
    simp only [write8_eecr]
    refine (readWord_label (hv := by exact hv) (m) (l := (.e7 _)) (rest := tl) (by exact rfl) (by exact rfl)
      (by exact ha)).trans ?_
    rfl


/-- A word in native order stands in host memory as its little-endian bytes (R127, R129). -/
theorem hostBytes16_native (be : Bool) (w : Half) :
    hostBytes16 be (toNative16 be w) = [w.extractLsb' 0 8, w.extractLsb' 8 8] := by
  cases be
  · rfl
  · simp only [toNative16, hostBytes16, if_true, bswap16]
    congr 1
    · apply BitVec.eq_of_getLsbD_eq; intro i hi
      simp only [BitVec.getLsbD_extractLsb', BitVec.getLsbD_append]; simp [hi]
    · congr 1
      apply BitVec.eq_of_getLsbD_eq; intro i hi
      simp only [BitVec.getLsbD_extractLsb', BitVec.getLsbD_append]; simp [hi]

/-- `hw_addr` with word `i` stored. -/
def withWord (i : Nat) (w : Half) (v : List Byte) : List Byte :=
  (v.set (2 * i) (w.extractLsb' 0 8)).set (2 * i + 1) (w.extractLsb' 8 8)

theorem storeHwAddr_native (i : Nat) (w : Half) (s : State) :
    storeHwAddr i (toNative16 s.plat.params.hostBE w) s =
      { s with eng := { s.eng with hwAddr := withWord i w s.eng.hwAddr } } := by
  rw [storeHwAddr, hostBytes16_native]; rfl

theorem hwAddrStep_store (i : Nat) (s : State) : hwAddrStep reference (.store i) s =
    if i + 1 < 3 then
      .go (storeHwAddr i (returnedWord s.bringup.result) s) (.goto (.hwAddr (.call (i + 1))))
    else
      .go (storeHwAddr i (returnedWord s.bringup.result) s)
        (.ret (.bytes (storeHwAddr i (returnedWord s.bringup.result) s).eng.hwAddr)) := rfl

/-- Word `i` of `readHardwareAddress`: the call, `readWord`, and the store (R129). -/
theorem run_hwAddrWord (s : State) (i m : Nat) (r : Option OpResult) (hi : i < 3) (hv : AtReference s)
    (ha : s.agenda = []) :
    ∃ o', runContext .bringup (m + 73) { s with bringup := ⟨[.hwAddr (.call i)], r⟩ } =
      runContext .bringup m (applyCtl .bringup
        (if i + 1 < 3 then .goto (.hwAddr (.call (i + 1)))
         else .ret (.bytes (withWord i (eeCell s.ee.cells (7 + i)) s.eng.hwAddr)))
        { s with
          eng := { s.eng with hwAddr := withWord i (eeCell s.ee.cells (7 + i)) s.eng.hwAddr }
          ee := ⟨0x00#8, false, 25, 0x180#32 ||| (BitVec.ofNat 16 (7 + i)).setWidth 32, o', none, s.ee.cells⟩
          bringup := ⟨[.hwAddr (.store i)],
            some (.value16 (toNative16 s.plat.params.hostBE (eeCell s.ee.cells (7 + i))))⟩ }) := by
  have h7 : (BitVec.ofNat 16 (7 + i)).toNat = 7 + i := by simp only [BitVec.toNat_ofNat]; omega
  obtain ⟨o', e⟩ := run_readWord s (a := BitVec.ofNat 16 (7 + i)) (by omega) (m + 1) [.hwAddr (.store i)] r hv ha
  refine ⟨o', ?_⟩
  refine (runContext_label (hv := by exact hv) (m + 72) (f := .hwAddr (.call i)) (rest := []) (by exact rfl)
    (by exact ha)
    (by exact waiting_hwAddr rfl) (by exact rfl)).trans ?_
  refine Eq.trans ?_ (e.trans ?_)
  · rfl
  simp only [h7]
  refine runContext_label (hv := by exact hv) m (f := .hwAddr (.store i)) (rest := []) (by exact rfl) (by exact ha)
    (by exact waiting_hwAddr rfl) ?_
  simp only [frameStep, hwAddrStep_store, returnedWord]
  erw [storeHwAddr_native i (eeCell s.ee.cells (7 + i)) { s with
    ee := ⟨0x00#8, false, 25, 0x180#32 ||| (BitVec.ofNat 16 (7 + i)).setWidth 32, o', none, s.ee.cells⟩
    bringup := ⟨[.hwAddr (.store i)],
      some (.value16 (toNative16 s.plat.params.hostBE (eeCell s.ee.cells (7 + i))))⟩ }]
  split <;> rfl

end Sys2Proof.Machine
end

