-- ==== Sys2Proof/Laws/Receive.lean ====
section
/-! SUPPORT. `drain` run label by label: one record, then as many as lie unread (R156 to R169). -/

namespace Sys2Proof.Machine

open Config (reference)

/-- One label of `drain`, undisturbed. -/
theorem drain_label {s t : State} {l : DrainAt} {rest : List Frame} {k : Ctl} (n : Nat)
    (hv : AtReference s) (hs : s.interrupt.stack = .drain l :: rest) (hf : drainStep reference l s = .go t k)
    (ha : s.agenda = []) :
    runContext .interrupt (n + 1) s = runContext .interrupt n (applyCtl .interrupt k t) :=
  runContext_label n hv hs ha (waiting_interrupt hs rfl) hf

theorem headerOk_iff (off size : Half) : headerOk reference off size = true ↔
    off.toNat % 4 = 0 ∧ 4 ≤ size.toNat ∧ 4 + size.toNat ≤ 8192 := by
  simp [show headerOk reference off size = (decide (off.toNat % 4 = 0) && decide (4 ≤ size.toNat) &&
    decide (4 + size.toNat ≤ 8192)) from rfl, and_assoc]

theorem rxRead_some {s : State} (h : s.plat.rxHeld = true) {k n : Nat} (hk : k + n ≤ 8208) :
    rxRead reference s k n = some (bytesAt s (s.plat.params.rxDmaBase.toNat + k) n) := by
  have hm : mapped reference s.plat (s.plat.params.rxDmaBase.toNat + k) n = true := by
    have h1 : s.plat.params.rxDmaBase.toNat ≤ s.plat.params.rxDmaBase.toNat + k := by omega
    have h2 : s.plat.params.rxDmaBase.toNat + k + n ≤ s.plat.params.rxDmaBase.toNat + reference.rxBufBytes := by
      simp only [Config.rxBufBytes_val]; omega
    simp [mapped, h, h2]
  rw [rxRead, memRead, if_pos (.inr hm)]

/-- The payload read whole or in two parts is the bytes taken modulo the buffer (R159, R160). -/
theorem recordPayload_eq {s : State} {size : Half} (hr : s.plat.rxHeld = true)
    (hb : s.eng.rxOff.toNat < 8192) (h : headerOk reference s.eng.rxOff size = true) :
    recordPayload reference s size =
      some ((List.range (size.toNat - 4)).map (fun j => rxByte s (s.eng.rxOff.toNat + 4 + j))) := by
  obtain ⟨h1, h2, h3⟩ := (headerOk_iff _ _).1 h
  have e : recordPayload reference s size =
      if 8192 < s.eng.rxOff.toNat + 4 + (size.toNat - 4) then
        match rxRead reference s (s.eng.rxOff.toNat + 4) (8192 - (s.eng.rxOff.toNat + 4)),
            rxRead reference s 0 (size.toNat - 4 - (8192 - (s.eng.rxOff.toNat + 4))) with
        | some a, some b => some (a ++ b)
        | _, _ => none
      else rxRead reference s (s.eng.rxOff.toNat + 4) (size.toNat - 4) := rfl
  rw [e]
  generalize s.eng.rxOff.toNat = o at *
  by_cases hw : 8192 < o + 4 + (size.toNat - 4)
  · rw [if_pos hw, rxRead_some hr (by omega), rxRead_some hr (by omega)]
    simp only [bytesAt]
    congr 1
    apply List.ext_getElem?
    intro j
    by_cases hj : j < 8192 - (o + 4)
    · rw [List.getElem?_append_left (by simpa using hj)]
      rw [List.getElem?_map, List.getElem?_map, List.getElem?_range (by omega), List.getElem?_range (by omega)]
      simp only [Option.map_some, rxByte]
      rw [Nat.mod_eq_of_lt (by omega : o + 4 + j < 8192)]; rw [Nat.add_assoc]
    · rw [List.getElem?_append_right (by simpa using hj)]
      simp only [List.length_map, List.length_range]
      by_cases hj2 : j < size.toNat - 4
      · rw [List.getElem?_map, List.getElem?_map, List.getElem?_range (by omega), List.getElem?_range (by omega)]
        simp only [Option.map_some, rxByte]
        have e2 : (o + 4 + j) % 8192 = 0 + (j - (8192 - (o + 4))) := by omega
        rw [e2, ← Nat.add_assoc]
      · rw [List.getElem?_eq_none (by simp; omega), List.getElem?_eq_none (by simp; omega)]
  · rw [if_neg hw, rxRead_some hr (by omega)]
    simp only [bytesAt]
    congr 1
    apply List.map_congr_left
    intro j hj
    have hj := List.mem_range.1 hj
    simp only [rxByte]
    rw [Nat.mod_eq_of_lt (by omega : o + 4 + j < 8192)]; rw [Nat.add_assoc]

/-! ## Offsets (R161, R162, R165, R196) -/

theorem advanceOffset_toNat (off : Half) (n : Nat) :
    (advanceOffset reference off n).toNat = (off.toNat + n) % 8192 := by
  simp only [advanceOffset, Config.rxBufLen_val, BitVec.toNat_ofNat]
  omega

theorem advanceOffset_zero {off : Half} (h : off.toNat < 8192) : advanceOffset reference off 0 = off := by
  apply BitVec.eq_of_toNat_eq
  rw [advanceOffset_toNat]; omega

theorem advanceOffset_add (off : Half) (a b : Nat) :
    advanceOffset reference (advanceOffset reference off a) b =
      advanceOffset reference off (a + b) := by
  apply BitVec.eq_of_toNat_eq
  simp only [advanceOffset_toNat]
  omega

theorem advanceOffset_ne {off : Half} {n : Nat} (h0 : 0 < n) (h : n < 8192) :
    off ≠ advanceOffset reference off n := by
  intro e
  have e := congrArg BitVec.toNat e
  rw [advanceOffset_toNat] at e
  omega

theorem distance_eq (a b : Half) : distance reference a b = (b.toNat + 8192 - a.toNat) % 8192 := rfl

theorem distance_self (off : Half) : distance reference off off = 0 := by
  rw [distance_eq]; omega

theorem distance_advance {off : Half} {n : Nat} (h : off.toNat < 8192) (hn : n < 8192) :
    distance reference off (advanceOffset reference off n) = n := by
  rw [distance_eq, advanceOffset_toNat]; omega

theorem readPointerOf_toNat (c : Half) : (readPointerOf reference c).toNat = (c.toNat + 16) % 65536 % 8192 := by
  simp only [readPointerOf, Config.rxBufLen_val, Config.rxReadPad_val, BitVec.toNat_ofNat, BitVec.toNat_add]
  omega

/-- The NIC's read pointer after a commit is the offset committed. -/
theorem readPointerOf_commitValue {off : Half} (h : off.toNat < 8192) :
    readPointerOf reference (commitValue reference off) = off := by
  simp only [readPointerOf, commitValue, BitVec.sub_add_cancel, Config.rxBufLen_val]
  apply BitVec.eq_of_toNat_eq
  simp only [BitVec.toNat_ofNat]; omega

/-! ## Visible records (R58) -/

theorem visible_mono {K : Config.Values} {n : Nic} {off : Half} {a b : Nat} (h : visible K n off b = true)
    (hab : a ≤ b) : visible K n off a = true := by
  simp only [visible, decide_eq_true_eq] at *; omega

/-- A record whose bytes lie between the pointers is visible. -/
theorem visible_first {n : Nic} {total k : Nat} (h : n.rxRd.toNat < 8192)
    (hw : n.rxWr = advanceOffset reference n.rxRd total) (ht : total < 8192) (hk : k ≤ total) :
    visible reference n n.rxRd k = true := by
  simp only [visible, hw, distance_self, distance_advance h ht, decide_eq_true_eq]; omega

theorem footprint_header (size : Nat) : reference.rxHdrLen ≤ footprint reference size := by
  simp only [footprint, align4, Config.rxHdrLen_val]; omega

/-- D2 finds the header that lies at `rx_off`. -/
theorem withHeader_eq {α : Type} {s : State} {size : Half} (f : Half → α) (g : Fault → α) (u : Refusal → α)
    (h1 : s.eng.rxOff.toNat % 4 = 0) (hb : s.eng.rxOff.toNat < 8192)
    (hv : visible reference s.nic s.eng.rxOff 4 = true) (hr : s.plat.rxHeld = true)
    (hl : rxByte s (s.eng.rxOff.toNat + 2) = size.extractLsb' 0 8)
    (hu : rxByte s (s.eng.rxOff.toNat + 3) = size.extractLsb' 8 8) :
    withHeader reference s f g u = f size := by
  have e : ∀ k, k < 4 → byteAt s (s.plat.params.rxDmaBase.toNat + s.eng.rxOff.toNat + k) =
      rxByte s (s.eng.rxOff.toNat + k) := by
    intro k hk
    simp only [rxByte]
    rw [Nat.mod_eq_of_lt (by omega : s.eng.rxOff.toNat + k < 8192), Nat.add_assoc]
  have hd : bytesAt s (s.plat.params.rxDmaBase.toNat + s.eng.rxOff.toNat) 4 =
      [rxByte s (s.eng.rxOff.toNat + 0), rxByte s (s.eng.rxOff.toNat + 1), rxByte s (s.eng.rxOff.toNat + 2),
        rxByte s (s.eng.rxOff.toNat + 3)] := by
    rw [← e 0 (by omega), ← e 1 (by omega), ← e 2 (by omega), ← e 3 (by omega)]; rfl
  rw [withHeader, if_neg (by simpa using h1), Config.rxHdrLen_val, if_pos hv, rxRead_some hr (by omega), hd]
  simp only [headerSize, hl, hu, join16_extract]

/-- D4 finds the payload of the record that lies at `rx_off`. -/
theorem withPayload_eq {α : Type} {s : State} {size : Half} (f : List Byte → α) (g : Fault → α) (u : Refusal → α)
    (hb : s.eng.rxOff.toNat < 8192)
    (hv : visible reference s.nic s.eng.rxOff (footprint reference size.toNat) = true) (hr : s.plat.rxHeld = true)
    (hh : headerOk reference s.eng.rxOff size = true) :
    withPayload reference size s f g u =
      f ((List.range (size.toNat - 4)).map (fun j => rxByte s (s.eng.rxOff.toNat + 4 + j))) := by
  rw [withPayload, if_pos hv, recordPayload_eq hr hb hh]

theorem crNamed_bufe (n : Nic) : crNamed reference n &&& reference.crBufe ≠ 0#8 ↔ n.rxRd = n.rxWr := by
  by_cases h : n.rxRd = n.rxWr
  · have h' : (n.rxRd == n.rxWr) = true := by simpa using h
    rw [iff_true_right h]
    simp only [crNamed, bufferEmpty, h']; cases n.te <;> cases n.re <;> cases n.resetting <;> decide
  · have h' : (n.rxRd == n.rxWr) = false := by simpa using h
    rw [iff_false_right h]
    simp only [crNamed, bufferEmpty, h']; cases n.te <;> cases n.re <;> cases n.resetting <;> decide

/-- What one record's `drain` round does (R158 to R163). -/
def drainedOne (size : Half) (payload : List Byte) (s : State) : State :=
  { s with
    events := s.events ++ [.delivered payload]
    eng := { s.eng with rxOff := advanceOffset reference s.eng.rxOff (footprint reference size.toNat) }
    nic := { s.nic with
      capr := commitValue reference (advanceOffset reference s.eng.rxOff (footprint reference size.toNat))
      rxRd := advanceOffset reference s.eng.rxOff (footprint reference size.toNat) } }

/-- One record, from D1 to the next D1: seven labels. -/
theorem run_record (s : State) (size : Half) (payload : List Byte) (n : Nat) (tl : List Frame)
    (r : Option OpResult) (hv : AtReference s) (ha : s.agenda = []) (hr : s.plat.rxHeld = true)
    (hb : s.eng.rxOff.toNat < 8192) (hne : s.nic.rxRd ≠ s.nic.rxWr)
    (hs : visible reference s.nic s.eng.rxOff (footprint reference size.toNat) = true)
    (h : RecordLies s s.eng.rxOff size payload) :
    runContext .interrupt (n + 7) { s with interrupt := ⟨.drain .d1 :: tl, r⟩ } =
      runContext .interrupt n { drainedOne size payload s with interrupt := ⟨.drain .d1 :: tl, r⟩ } := by
  obtain ⟨hh, hl, hu, hp⟩ := h
  obtain ⟨h1, h2, h3⟩ := (headerOk_iff _ _).1 hh
  refine (drain_label (hv := by exact hv) (n + 6) (l := .d1) (rest := tl) (by exact rfl)
    (k := .goto (.drain .d2)) (t := { s with interrupt := ⟨.drain .d1 :: tl, r⟩ })
    (by simp only [drainStep]; rw [if_neg]; exact fun hc => hne ((crNamed_bufe _).1 hc)) (by exact ha)).trans ?_
  refine (drain_label (hv := by exact hv) (n + 5) (l := .d2) (rest := tl) (by exact rfl)
    (k := .goto (.drain (.d3 size))) (t := { s with interrupt := ⟨.drain .d2 :: tl, r⟩ })
    ?_ (by exact ha)).trans ?_
  · simp only [drainStep]
    exact withHeader_eq (s := { s with interrupt := ⟨.drain .d2 :: tl, r⟩ }) _ _ _ (by exact h1) (by exact hb)
      (by exact visible_mono hs (footprint_header _)) (by exact hr) (by exact hl) (by exact hu)
  refine (drain_label (hv := by exact hv) (n + 4) (l := .d3 size) (rest := tl) (by exact rfl)
    (k := .goto (.drain (.d4 size))) (t := { s with interrupt := ⟨.drain (.d3 size) :: tl, r⟩ })
    (by simp only [drainStep]; rw [if_pos (by exact hh)]; rfl) (by exact ha)).trans ?_
  refine (drain_label (hv := by exact hv) (n + 3) (l := .d4 size) (rest := tl) (by exact rfl)
    (k := .goto (.drain (.d5 size payload))) (t := { s with interrupt := ⟨.drain (.d4 size) :: tl, r⟩ })
    ?_ (by exact ha)).trans ?_
  · rw [hp]
    simp only [drainStep]
    exact withPayload_eq (s := { s with interrupt := ⟨.drain (.d4 size) :: tl, r⟩ }) _ _ _ (by exact hb)
      (by exact hs) (by exact hr) (by exact hh)
  refine (drain_label (hv := by exact hv) (n + 2) (l := .d5 size payload) (rest := tl) (by exact rfl) (by exact rfl)
    (by exact ha)).trans ?_
  refine (drain_label (hv := by exact hv) (n + 1) (l := .d6a size) (rest := tl) (by exact rfl) (by exact rfl)
    (by exact ha)).trans ?_
  refine (drain_label (hv := by exact hv) n (l := .d6b) (rest := tl) (by exact rfl)
    (k := .goto (.drain .d1)) (t := { drainedOne size payload s with interrupt := ⟨.drain .d6b :: tl, r⟩ })
    ?_ (by exact ha)).trans rfl
  have hx : (advanceOffset reference s.eng.rxOff (footprint reference size.toNat)).toNat < 8192 := by
    rw [advanceOffset_toNat]; omega
  simp only [drainStep, commitRx, write16_capr, writeCapr, applyCtl, setContext_interrupt, advanceRx, emit,
    readPointerOf_commitValue hx]
  rfl

/-- The buffer-empty flag set: `drain` returns at D1 (R157). -/
theorem run_drainEmpty (s : State) (n : Nat) (tl : List Frame) (r : Option OpResult) (hv : AtReference s)
    (ha : s.agenda = []) (he : s.nic.rxRd = s.nic.rxWr) :
    runContext .interrupt (n + 1) { s with interrupt := ⟨.drain .d1 :: tl, r⟩ } =
      runContext .interrupt n { s with interrupt := ⟨tl, some .done⟩ } :=
  (drain_label (hv := by exact hv) n (l := .d1) (rest := tl) (by exact rfl)
    (k := .ret .done) (t := { s with interrupt := ⟨.drain .d1 :: tl, r⟩ })
    (by simp only [drainStep]; rw [if_pos]; exact (crNamed_bufe _).2 he) (by exact ha)).trans rfl

theorem footprint_pos {off : Half} {size : Half} (h : headerOk reference off size = true) :
    8 ≤ footprint reference size.toNat := by
  obtain ⟨h1, h2, h3⟩ := (headerOk_iff _ _).1 h
  simp only [footprint, align4, Config.rxHdrLen_val]; omega

/-- A record lies where it lay, whatever `drain` has done to the rest of the state. -/
theorem RecordsLie.frame {s t : State} (hm : t.mem = s.mem) (hp : t.plat = s.plat) (recs : List (Half × List Byte)) :
    ∀ off, RecordsLie s off recs → RecordsLie t off recs := by
  have hb : ∀ k, rxByte t k = rxByte s k := by intro k; simp only [rxByte, byteAt, hm, hp]
  induction recs with
  | nil => intro off h; trivial
  | cons r recs ih =>
    intro off h
    obtain ⟨⟨h1, h2, h3, h4⟩, h5⟩ := h
    exact ⟨⟨h1, by rw [hb, h2], by rw [hb, h3], by simp only [hb]; exact h4⟩, ih _ h5⟩

/-- A whole `drain` (R163, R169), wherever it returns to. -/
theorem run_drain (tl : List Frame) (r : Option OpResult) (recs : List (Half × List Byte)) : ∀ (s : State) (n : Nat),
    AtReference s → s.agenda = [] → Unread s recs →
      runContext .interrupt (n + (7 * recs.length + 1)) { s with interrupt := ⟨.drain .d1 :: tl, r⟩ } =
        runContext .interrupt n { drained recs s with interrupt := ⟨tl, some .done⟩ } := by
  induction recs with
  | nil =>
    intro s n hv ha h
    refine (run_drainEmpty s n tl r hv ha ?_).trans ?_
    · rw [h.readPointer, h.writePointer]
      exact (advanceOffset_zero h.offset).symm
    · simp [drained]
  | cons x recs ih =>
    intro s n hv ha h
    obtain ⟨h0, h1, hb, h2, h3, hx, hrest⟩ := h
    have hp := footprint_pos hx.header
    have hsum : footprints (x :: recs) = footprint reference x.1.toNat + footprints recs := by simp [footprints]
    rw [hsum] at h1 h3
    have hu : Unread (drainedOne x.1 x.2 s) recs := by
      refine ⟨h0, by omega, by simp only [drainedOne, advanceOffset_toNat]; omega, rfl, ?_, ?_⟩
      · simp only [drainedOne, h3, advanceOffset_add]
      · exact RecordsLie.frame (by rfl) (by rfl) recs _ hrest
    rw [show n + (7 * (x :: recs).length + 1) = (n + (7 * recs.length + 1)) + 7 by simp only [List.length_cons]; omega]
    refine (run_record s x.1 x.2 (n + (7 * recs.length + 1)) tl r hv ha h0 hb ?_ ?_ hx).trans ?_
    · rw [h2, h3]; exact advanceOffset_ne (by omega) (by omega)
    · rw [← h2]
      exact visible_first (by rw [h2]; exact hb) (by rw [h3, h2]) h1 (by omega)
    refine (ih (drainedOne x.1 x.2 s) n hv ha hu).trans ?_
    congr 1
    have hne : ¬ x :: recs = [] := by simp
    unfold drained
    rw [if_neg hne, hsum, ← advanceOffset_add]
    by_cases hn : recs = []
    · subst hn
      have : advanceOffset reference (advanceOffset reference s.eng.rxOff (footprint reference x.1.toNat)) (footprints []) =
          advanceOffset reference s.eng.rxOff (footprint reference x.1.toNat) := by
        exact advanceOffset_zero (by rw [advanceOffset_toNat]; omega)
      rw [this]
      simp [drainedOne, commitValue, Config.rxReadPad_val]
    · rw [if_neg hn]
      simp [drainedOne]

/-- At most 1023 records lie unread, so a `drain` has returned long before a step's budget is used. -/
theorem Unread.short {s : State} {recs : List (Half × List Byte)} (h : Unread s recs) : 7 * recs.length + 1 ≤ 8000 := by
  have key : ∀ (recs : List (Half × List Byte)) off, RecordsLie s off recs → 8 * recs.length ≤ footprints recs := by
    intro recs
    induction recs with
    | nil => intro off _; simp
    | cons x recs ih =>
      intro off h
      have := ih _ h.2
      have hp := footprint_pos h.1.header
      simp only [footprints, List.map_cons, List.sum_cons, List.length_cons] at *; omega
  have := key recs _ h.records
  have := h.room
  omega

end Sys2Proof.Machine
end

