-- ==== Sys2Proof/Laws/Interrupt.lean ====
section
/-! SUPPORT. `check` and `onInterrupt` run label by label (R170 to R186). -/

namespace Sys2Proof.Machine

open Config (reference)

/-- One label of `onInterrupt`, undisturbed. -/
theorem interrupt_label {s t : State} {l : InterruptAt} {rest : List Frame} {k : Ctl} (n : Nat)
    (hv : AtReference s) (hs : s.interrupt.stack = .onInterrupt l :: rest)
    (hf : interruptStep reference l s = .go t k) (ha : s.agenda = []) :
    runContext .interrupt (n + 1) s = runContext .interrupt n (applyCtl .interrupt k t) :=
  runContext_label n hv hs ha (waiting_interrupt hs rfl) hf

theorem check_label {s t : State} {l : CheckAt} {rest : List Frame} {k : Ctl} (n : Nat)
    (hv : AtReference s) (hs : s.interrupt.stack = .check l :: rest) (hf : checkStep reference l s = .go t k)
    (ha : s.agenda = []) :
    runContext .interrupt (n + 1) s = runContext .interrupt n (applyCtl .interrupt k t) :=
  runContext_label n hv hs ha (waiting_interrupt hs rfl) hf

theorem msrNamed_linkb (n : Nic) : (!(msrNamed reference n &&& reference.msrLinkb == 0#8)) = n.linkBad := by
  simp only [msrNamed]; cases n.linkBad <;> rfl

theorem linkEdge_interrupt (bad : Bool) (s : State) (x : Context) :
    linkEdge bad { s with interrupt := x } = { linkEdge bad s with interrupt := x } := by
  unfold linkEdge; simp only; split <;> rfl

/-- A whole `check` (R181, R183), wherever it returns to. -/
theorem run_check (s : State) (n : Nat) (tl : List Frame) (r : Option OpResult) (hv : AtReference s)
    (ha : s.agenda = []) :
    runContext .interrupt (n + 2) { s with interrupt := ⟨.check .l1 :: tl, r⟩ } =
      runContext .interrupt n { linkEdge s.nic.linkBad s with interrupt := ⟨tl, some .done⟩ } := by
  refine (check_label (hv := by exact hv) (n + 1) (l := .l1) (rest := tl) (by exact rfl) (by exact rfl)
    (by exact ha)).trans ?_
  simp only [msrNamed_linkb]
  refine (check_label (hv := by exact hv) n (l := .l2 s.nic.linkBad) (rest := tl) (by exact rfl) (by exact rfl)
    (by exact ha)).trans ?_
  simp only [applyCtl, setContext_interrupt, linkEdge_interrupt, returnOp, context_interrupt, List.tail_cons]

theorem linkEdge_frame (bad : Bool) (s : State) : ∃ l e, linkEdge bad s =
    { s with eng := { s.eng with linkPrev := l }, events := e } := by
  unfold linkEdge; split <;> exact ⟨_, _, rfl⟩

theorem drained_frame (recs : List (Half × List Byte)) (s : State) : ∃ e o c p, drained recs s =
    { s with events := e, eng := { s.eng with rxOff := o }, nic := { s.nic with capr := c, rxRd := p } } := by
  unfold drained; split <;> exact ⟨_, _, _, _, rfl⟩

theorem anySet_iff (m bits : Half) : anySet m bits = true ↔ ¬ m &&& bits = 0#16 := by simp [anySet]

/-- I4 (R174): the link monitor, if its bit is routed. -/
theorem run_i4 (m : Half) (s : State) (tl : List Frame) (r : Option OpResult) (hv : AtReference s)
    (ha : s.agenda = []) :
    ∃ u, u ≤ 3 ∧ ∃ r', ∀ n, runContext .interrupt (n + u) { s with interrupt := ⟨.onInterrupt (.i4 m) :: tl, r⟩ } =
      runContext .interrupt n
        { (if m &&& 0x0020#16 = 0#16 then s else linkEdge s.nic.linkBad s) with
          interrupt := ⟨.onInterrupt (.i5 m) :: tl, r'⟩ } := by
  by_cases h : m &&& 0x0020#16 = 0#16
  · refine ⟨1, by omega, r, fun n => (interrupt_label (hv := by exact hv) n (l := .i4 m) (rest := tl) (by exact rfl)
      (k := .goto (.onInterrupt (.i5 m))) (t := { s with interrupt := ⟨.onInterrupt (.i4 m) :: tl, r⟩ })
      (by simp only [interruptStep]; rw [if_neg (by rw [anySet_iff]; exact not_not.2 h)]) (by exact ha)).trans ?_⟩
    rw [if_pos h]; rfl
  · refine ⟨3, by omega, some .done, fun n => (interrupt_label (hv := by exact hv) (n + 2) (l := .i4 m) (rest := tl)
    (by exact rfl)
      (k := .call (.check .l1) (.onInterrupt (.i5 m)))
      (t := { s with interrupt := ⟨.onInterrupt (.i4 m) :: tl, r⟩ })
      (by simp only [interruptStep]; rw [if_pos (by rw [anySet_iff]; exact h)]) (by exact ha)).trans
      ((run_check s n (.onInterrupt (.i5 m) :: tl) r hv ha).trans ?_)⟩
    rw [if_neg h]

/-- I5 (R174): the receive engine. -/
theorem run_i5 (m : Half) (s : State) (recs : List (Half × List Byte)) (tl : List Frame) (r : Option OpResult)
    (hv : AtReference s) (ha : s.agenda = []) (hu : ¬ m &&& 0x0003#16 = 0#16 → Unread s recs) :
    ∃ u, u ≤ 8001 ∧ ∃ r', ∀ n, runContext .interrupt (n + u) { s with interrupt := ⟨.onInterrupt (.i5 m) :: tl, r⟩ } =
      runContext .interrupt n
        { (if m &&& 0x0003#16 = 0#16 then s else drained recs s) with
          interrupt := ⟨.onInterrupt (.i6 m) :: tl, r'⟩ } := by
  by_cases h : m &&& 0x0003#16 = 0#16
  · refine ⟨1, by omega, r, fun n => (interrupt_label (hv := by exact hv) n (l := .i5 m) (rest := tl) (by exact rfl)
      (k := .goto (.onInterrupt (.i6 m))) (t := { s with interrupt := ⟨.onInterrupt (.i5 m) :: tl, r⟩ })
      (by simp only [interruptStep]; rw [if_neg (by rw [anySet_iff]; exact not_not.2 h)]) (by exact ha)).trans ?_⟩
    rw [if_pos h]; rfl
  · refine ⟨(7 * recs.length + 1) + 1, by have := (hu h).short; omega, some .done, fun n => ?_⟩
    refine (interrupt_label (hv := by exact hv) (n + (7 * recs.length + 1)) (l := .i5 m) (rest := tl) (by exact rfl)
      (k := .call (.drain .d1) (.onInterrupt (.i6 m)))
      (t := { s with interrupt := ⟨.onInterrupt (.i5 m) :: tl, r⟩ })
      (by simp only [interruptStep]; rw [if_pos (by rw [anySet_iff]; exact h)]) (by exact ha)).trans
      ((run_drain (.onInterrupt (.i6 m) :: tl) r recs s n hv ha (hu h)).trans ?_)
    rw [if_neg h]

/-- I6 and I7 (R174, R177): the transmit engine, and the return. -/
theorem run_i6 (m : Half) (s : State) (tl : List Frame) (r : Option OpResult) (hv : AtReference s) (ha : s.agenda = [])
    (hx : s.eng.hw < 4) (hy : s.eng.cpu < 4) (hr : ¬ m &&& 0x000C#16 = 0#16 → s.eng.ringOk = true) :
    ∃ u, u ≤ 18 ∧ ∀ n, runContext .interrupt (n + u) { s with interrupt := ⟨.onInterrupt (.i6 m) :: tl, r⟩ } =
      runContext .interrupt n
        { (if m &&& 0x000C#16 = 0#16 then s else reconciled s) with interrupt := ⟨tl, some .handled⟩ } := by
  by_cases h : m &&& 0x000C#16 = 0#16
  · refine ⟨2, by omega, fun n => (interrupt_label (hv := by exact hv) (n + 1) (l := .i6 m) (rest := tl) (by exact rfl)
      (k := .goto (.onInterrupt .i7)) (t := { s with interrupt := ⟨.onInterrupt (.i6 m) :: tl, r⟩ })
      (by simp only [interruptStep]; rw [if_neg (by rw [anySet_iff]; exact not_not.2 h)]) (by exact ha)).trans
      ((interrupt_label (hv := by exact hv) n (l := .i7) (rest := tl) (by exact rfl) (by exact rfl)
      (by exact ha)).trans ?_)⟩
    rw [if_pos h]; rfl
  · obtain ⟨u, hu, e⟩ := run_reconcile s (.onInterrupt .i7 :: tl) r hv ha hx hy (hr h)
    refine ⟨1 + u + 1, by omega, fun n => ?_⟩
    refine (interrupt_label (hv := by exact hv) (n + (1 + u)) (l := .i6 m) (rest := tl) (by exact rfl)
      (k := .call (.reconcile .c1) (.onInterrupt .i7))
      (t := { s with interrupt := ⟨.onInterrupt (.i6 m) :: tl, r⟩ })
      (by simp only [interruptStep]; rw [if_pos (by rw [anySet_iff]; exact h)]) (by exact ha)).trans ?_
    rw [← Nat.add_assoc]
    refine (e (n + 1)).trans ((interrupt_label (hv := by exact hv) n (l := .i7) (rest := tl) (by exact rfl)
      (by exact rfl)
      (by exact ha)).trans ?_)
    rw [if_neg h]; rfl

/-- I1 to I3 (R171 to R173) of an interrupt that is mine. -/
theorem run_i1 (s : State) (n : Nat) (tl : List Frame) (r : Option OpResult) (hv : AtReference s) (ha : s.agenda = [])
    (h : s.nic.isr ≠ 0#16) :
    runContext .interrupt (n + 3) { s with interrupt := ⟨.onInterrupt .i1 :: tl, r⟩ } =
      runContext .interrupt n { acknowledged s with
        interrupt := ⟨.onInterrupt (.i4 (s.nic.isr &&& s.eng.irqEnabled)) :: tl, r⟩ } := by
  refine (interrupt_label (hv := by exact hv) (n + 2) (l := .i1) (rest := tl) (by exact rfl)
    (k := .goto (.onInterrupt (.i2 s.nic.isr)))
    (t := { s with interrupt := ⟨.onInterrupt .i1 :: tl, r⟩ })
    (by simp only [interruptStep]; rw [if_neg h]) (by exact ha)).trans ?_
  refine (interrupt_label (hv := by exact hv) (n + 1) (l := .i2 s.nic.isr) (rest := tl) (by exact rfl)
    (k := .goto (.onInterrupt (.i3 s.nic.isr)))
    (t := { acknowledged s with interrupt := ⟨.onInterrupt (.i2 s.nic.isr) :: tl, r⟩ }) ?_ (by exact ha)).trans ?_
  · simp only [interruptStep, write16_isr, writeIsr]
    simp [applyCtl, acknowledged]
  · exact (interrupt_label (hv := by exact hv) n (l := .i3 s.nic.isr) (rest := tl) (by exact rfl) (by exact rfl)
    (by exact ha)).trans rfl

end Sys2Proof.Machine
end

