-- ==== Sys2Proof/Laws/PerInstr.lean ====
section
/-! SUPPORT. The statements made per instruction: the encoder keeps to the masks and the matches of the rows of
`spec/opcode_table.json` (R75 to R85). -/

namespace Sys2Proof.Laws

/-- The word a row of the opcode table describes: the `OPSEL` selector, the 32-bit word of a wire format, or the
command bits of `EECMD`. -/
def rowWord (i : Instr) : Word :=
  match i.format, encode i with
  | .opsel, op :: _ => op.setWidth 32
  | .eecmd, [b0, b1] => (join16 b0 b1).setWidth 32
  | _, b0 :: b1 :: b2 :: b3 :: _ => join32 b0 b1 b2 b3
  | _, _ => 0#32

/-- The row's "mask". -/
def rowMask (i : Instr) : Word :=
  match i with
  | .txcmd _ _ _ => 0xFFC0E000#32
  | .txstatInFlight _ _ _ _ => 0x4000C000#32
  | .txstatSuccess _ _ _ _ _ _ => 0x00008000#32
  | .txstatError _ _ _ _ _ _ => 0x00008000#32
  | .rxhdr _ _ => 0#32
  | .eecmdRead _ => 0x1C0#32
  | _ => 0xFF#32

/-- The row's "match". -/
def rowMatch (i : Instr) : Word :=
  match i with
  | .read8 _ => 0x00#32
  | .read16 _ => 0x01#32
  | .read32 _ => 0x02#32
  | .write8 _ _ => 0x04#32
  | .write16 _ _ => 0x05#32
  | .write32 _ _ => 0x06#32
  | .writeRaw16 _ _ => 0x0D#32
  | .writeRaw32 _ _ => 0x0E#32
  | .reset => 0x10#32
  | .readWord _ => 0x20#32
  | .readHardwareAddress => 0x21#32
  | .submit _ => 0x30#32
  | .reconcile => 0x31#32
  | .drain => 0x40#32
  | .onInterrupt => 0x50#32
  | .check => 0x60#32
  | .openBlock => 0x70#32
  | .closeBlock => 0x71#32
  | .txcmd _ _ _ => 0x00000000#32
  | .txstatInFlight _ _ _ _ => 0x00000000#32
  | .txstatSuccess _ _ _ _ _ _ => 0x00008000#32
  | .txstatError _ _ _ _ _ _ => 0x00000000#32
  | .rxhdr _ _ => 0#32
  | .eecmdRead _ => 0x180#32

/-- The encoding of `i` matches its row of the opcode table. -/
def TableRow.Statement (i : Instr) : Prop := rowWord i &&& rowMask i = rowMatch i

/-- An `OPSEL` row: all eight bits of the selector are fixed. -/
theorem selector_row {i : Instr} (op : Byte) (h : rowWord i = op.setWidth 32) (hm : rowMask i = 0xFF#32)
    (he : op.setWidth 32 = rowMatch i) : TableRow.Statement i := by
  have h8 : ∀ op : Byte, op.setWidth 32 &&& 0xFF#32 = op.setWidth 32 := by decide
  rw [TableRow.Statement, h, hm, h8, he]

theorem TableRow.read8 (off : BitVec 8) : TableRow.Statement (.read8 off) :=
  selector_row 0x00#8 rfl rfl rfl
theorem TableRow.read16 (off : BitVec 8) : TableRow.Statement (.read16 off) :=
  selector_row 0x01#8 rfl rfl rfl
theorem TableRow.read32 (off : BitVec 8) : TableRow.Statement (.read32 off) :=
  selector_row 0x02#8 rfl rfl rfl
theorem TableRow.write8 (off : BitVec 8) (v : Byte) : TableRow.Statement (.write8 off v) :=
  selector_row 0x04#8 rfl rfl rfl
theorem TableRow.write16 (off : BitVec 8) (v : Half) : TableRow.Statement (.write16 off v) :=
  selector_row 0x05#8 rfl rfl rfl
theorem TableRow.write32 (off : BitVec 8) (v : Word) : TableRow.Statement (.write32 off v) :=
  selector_row 0x06#8 rfl rfl rfl
theorem TableRow.writeRaw16 (off : BitVec 8) (v : Half) : TableRow.Statement (.writeRaw16 off v) :=
  selector_row 0x0D#8 rfl rfl rfl
theorem TableRow.writeRaw32 (off : BitVec 8) (v : Word) : TableRow.Statement (.writeRaw32 off v) :=
  selector_row 0x0E#8 rfl rfl rfl
theorem TableRow.reset : TableRow.Statement .reset :=
  selector_row 0x10#8 rfl rfl rfl
theorem TableRow.readWord (a : EeAddr) : TableRow.Statement (.readWord a) :=
  selector_row 0x20#8 rfl rfl rfl
theorem TableRow.readHardwareAddress : TableRow.Statement .readHardwareAddress :=
  selector_row 0x21#8 rfl rfl rfl
theorem TableRow.submit (frame : List Byte) : TableRow.Statement (.submit frame) :=
  selector_row 0x30#8 rfl rfl rfl
theorem TableRow.reconcile : TableRow.Statement .reconcile :=
  selector_row 0x31#8 rfl rfl rfl
theorem TableRow.drain : TableRow.Statement .drain :=
  selector_row 0x40#8 rfl rfl rfl
theorem TableRow.onInterrupt : TableRow.Statement .onInterrupt :=
  selector_row 0x50#8 rfl rfl rfl
theorem TableRow.check : TableRow.Statement .check :=
  selector_row 0x60#8 rfl rfl rfl
theorem TableRow.openBlock : TableRow.Statement .openBlock :=
  selector_row 0x70#8 rfl rfl rfl
theorem TableRow.closeBlock : TableRow.Statement .closeBlock :=
  selector_row 0x71#8 rfl rfl rfl

theorem TableRow.txcmd (thresh : BitVec 6) (len : BitVec 13) (slot : Nat) :
    TableRow.Statement (.txcmd thresh len slot) := by
  show join32 _ _ _ _ &&& 0xFFC0E000#32 = 0#32
  rw [join32_extract]
  apply BitVec.eq_of_getLsbD_eq
  intro k hk
  simp only [txcmdWord, BitVec.getLsbD_and, BitVec.getLsbD_append]
  interval_cases k <;> simp

theorem TableRow.txstatInFlight (b31 : BitVec 1) (mid : BitVec 14) (own : BitVec 1) (size : BitVec 13) :
    TableRow.Statement (.txstatInFlight b31 mid own size) := by
  show join32 _ _ _ _ &&& 0x4000C000#32 = 0#32
  rw [join32_extract]
  apply BitVec.eq_of_getLsbD_eq
  intro k hk
  simp only [txstatWord, BitVec.getLsbD_and, BitVec.getLsbD_append]
  interval_cases k <;> simp

theorem TableRow.txstatSuccess (b31 tabt : BitVec 1) (mid : BitVec 14) (tun own : BitVec 1) (size : BitVec 13) :
    TableRow.Statement (.txstatSuccess b31 tabt mid tun own size) := by
  show join32 _ _ _ _ &&& 0x00008000#32 = 0x00008000#32
  rw [join32_extract]
  apply BitVec.eq_of_getLsbD_eq
  intro k hk
  simp only [txstatWord, BitVec.getLsbD_and, BitVec.getLsbD_append]
  interval_cases k <;> simp

theorem TableRow.txstatError (b31 abort : BitVec 1) (mid : BitVec 14) (underrun own : BitVec 1)
    (size : BitVec 13) : TableRow.Statement (.txstatError b31 abort mid underrun own size) := by
  show join32 _ _ _ _ &&& 0x00008000#32 = 0#32
  rw [join32_extract]
  apply BitVec.eq_of_getLsbD_eq
  intro k hk
  simp only [txstatWord, BitVec.getLsbD_and, BitVec.getLsbD_append]
  interval_cases k <;> simp

theorem TableRow.rxhdr (size status : Half) : TableRow.Statement (.rxhdr size status) := by
  show join32 _ _ _ _ &&& 0#32 = 0#32
  simp

theorem TableRow.eecmdRead (a : EeAddr) : TableRow.Statement (.eecmdRead a) := by
  have h : ∀ b : BitVec 6, (join16 ((0#7 ++ (0b110#3 ++ b)).extractLsb' 0 8)
      ((0#7 ++ (0b110#3 ++ b)).extractLsb' 8 8)).setWidth 32 &&& 0x1C0#32 = 0x180#32 := by decide
  exact h (a.extractLsb' 0 6)

end Sys2Proof.Laws
end

