-- ==== Sys2Proof/Laws/Reset.lean ====
section
/-! SUPPORT. `reset` run label by label: the polls, the timeout, the success (R113 to R118, R188, R189). -/

namespace Sys2Proof.Machine

open Config (reference)

theorem nextPoll_eq (i : Nat) : nextPoll reference i = if i < 1000 then .t2a (i + 1) else .t4 := rfl

theorem waiting_reset {s : State} {l : ResetAt} {tl : List Frame}
    (h : s.bringup.stack = .reset l :: tl) : waiting .bringup s = false := by
  simp [waiting, h]

/-- `CR.RST` reads 1 while the reset lasts (R188). -/
theorem crNamed_resetting (n : Nic) (h : n.resetting = true) : crNamed reference n &&& reference.crRst ≠ 0#8 := by
  simp only [crNamed, h, if_true]
  cases bufferEmpty n <;> cases n.te <;> cases n.re <;> decide

/-- and 0 otherwise. -/
theorem crNamed_ready (n : Nic) (h : n.resetting = false) : crNamed reference n &&& reference.crRst = 0#8 := by
  simp only [crNamed, h]
  cases bufferEmpty n <;> cases n.te <;> cases n.re <;> decide

/-- One unsuccessful poll, T2a to T2c. -/
theorem run_poll (s : State) (i n : Nat) (tl : List Frame) (r : Option OpResult)
    (hv : AtReference s) (hr : s.nic.resetting = true) (ha : s.agenda = []) :
    runContext .bringup (n + 3) { s with bringup := ⟨.reset (.t2a i) :: tl, r⟩ } =
      runContext .bringup n { s with bringup := ⟨.reset (nextPoll reference i) :: tl, r⟩ } := by
  refine (runContext_label (hv := by exact hv) (n + 2) (f := .reset (.t2a i)) (rest := tl) rfl (by exact ha)
    (by exact waiting_reset rfl) rfl).trans ?_
  refine (runContext_label (hv := by exact hv) (n + 1) (f := .reset (.t2b i (crNamed reference s.nic)))
    (rest := tl) rfl (by exact ha) (by exact waiting_reset rfl) rfl).trans ?_
  rw [if_neg (crNamed_resetting _ hr)]
  refine (runContext_label (hv := by exact hv) n (f := .reset (.t2c i)) (rest := tl) rfl (by exact ha)
    (by exact waiting_reset rfl) rfl).trans ?_
  rfl

/-- `j` unsuccessful polls. -/
theorem run_polls (s : State) (j n : Nat) (tl : List Frame) (r : Option OpResult)
    (hv : AtReference s) (hr : s.nic.resetting = true) (ha : s.agenda = []) : ∀ i, i + j ≤ 1000 →
    runContext .bringup (n + 3 * j) { s with bringup := ⟨.reset (.t2a i) :: tl, r⟩ } =
      runContext .bringup n { s with bringup := ⟨.reset (if j = 0 then .t2a i else nextPoll reference
        (i + j - 1)) :: tl, r⟩ } := by
  induction j with
  | zero => intro i hi; rfl
  | succ j ih =>
    intro i hi
    rw [show n + 3 * (j+1) = (n + 3 * j) + 3 by ring, run_poll s i _ tl r hv hr ha]
    have : nextPoll reference i = .t2a (i+1) ∨ j = 0 := by
      rw [nextPoll_eq]
      by_cases h : i < 1000
      · simp [h]
      · right; omega
    rcases this with h | h
    · rw [h, ih (i+1) (by omega)]
      by_cases hj : j = 0
      · subst hj; simp [h]
      · simp [hj, show i + 1 + j - 1 = i + j by omega]
    · subst h; simp

/-- From the first poll to poll `j + 1`. -/
theorem run_pollsTo (s : State) (n j : Nat) (tl : List Frame) (r : Option OpResult)
    (hv : AtReference s) (hr : s.nic.resetting = true) (ha : s.agenda = []) (hj : j < 1000):
    runContext .bringup (n + 3 * j) { s with bringup := ⟨.reset (.t2a 1) :: tl, r⟩ } =
      runContext .bringup n { s with bringup := ⟨.reset (.t2a (j+1)) :: tl, r⟩ } := by
  rw [run_polls s j n tl r hv hr ha 1 (by omega)]
  by_cases h : j = 0
  · simp [h]
  · simp only [h, if_false, nextPoll_eq]; rw [if_pos (by omega)]
    rw [show 1 + j - 1 + 1 = j + 1 by omega]

/-- All `RESET_POLL_MAX` polls, to T4 (R118). -/
theorem run_allPolls (s : State) (n : Nat) (tl : List Frame) (r : Option OpResult)
    (hv : AtReference s) (hr : s.nic.resetting = true) (ha : s.agenda = []) :
    runContext .bringup (n + 3000) { s with bringup := ⟨.reset (.t2a 1) :: tl, r⟩ } =
      runContext .bringup n { s with bringup := ⟨.reset .t4 :: tl, r⟩ } := by
  have := run_polls s 999 (n+3) tl r hv hr ha 1 (by omega)
  rw [show n + 3000 = n + 3 + 3 * 999 by ring, this]
  simp only [if_neg (show ¬ 999 = 0 by omega), nextPoll_eq]
  rw [if_pos (by omega)]
  rw [run_poll s 1000 n tl r hv hr ha]
  rfl

/-- A whole `reset` with a NIC that never finishes: 3002 labelled steps (R118). -/
theorem run_resetTimeout (s : State) (n : Nat) (tl : List Frame) (r : Option OpResult)
    (hv : AtReference s) (ha : s.agenda = []) :
    runContext .bringup (n + 3002) { s with bringup := ⟨.reset .t1 :: tl, r⟩ } =
      runContext .bringup n
        { afterTimeout reference { s with nic := { s.nic with te := false, re := false, resetting := true } } with
          bringup := ⟨tl, some .timeout⟩ } := by
  refine (runContext_label (hv := by exact hv) (n + 3001) (f := .reset .t1) (rest := tl) rfl (by exact ha)
    (by exact waiting_reset rfl) rfl).trans ?_
  simp only [write8_cr, applyCtl, context_bringup, List.tail_cons, setContext_bringup]
  have hn : writeCr reference reference.crRst s.nic = { s.nic with te := false, re := false, resetting := true } := by
    simp [writeCr_eq, Config.crRst_val]
  rw [hn]
  rw [show n + 3001 = n + 1 + 3000 by ring]
  have := run_allPolls { s with nic := { s.nic with te := false, re := false, resetting := true } } (n+1) tl r
    (by exact hv) rfl ha
  simp only at this
  rw [this]
  exact (runContext_label (hv := by exact hv) n (f := .reset .t4) (rest := tl) rfl (by exact ha)
    (by exact waiting_reset rfl) rfl).trans rfl

/-- One unsuccessful poll, each step asked for by the agenda. -/
theorem run_pollPaced (s : State) (i n : Nat) (tl : List Frame) (r : Option OpResult)
    (more : List Move) (hv : AtReference s) (hr : s.nic.resetting = true) :
    runContext .bringup (n + 3)
        { s with
          bringup := ⟨.reset (.t2a i) :: tl, r⟩
          agenda := .advance .bringup :: .advance .bringup :: .advance .bringup :: more } =
      runContext .bringup n { s with bringup := ⟨.reset (nextPoll reference i) :: tl, r⟩, agenda := more } := by
  refine (runContext_advance (hv := by exact hv) (n + 2) (f := .reset (.t2a i)) (rest := tl) (by simp)
    (by exact rfl) rfl rfl).trans ?_
  refine (runContext_advance (hv := by exact hv) (n + 1) (f := .reset (.t2b i (crNamed reference s.nic)))
    (rest := tl) (by simp [applyCtl]) (by exact rfl) rfl (by exact rfl)).trans ?_
  rw [if_neg (crNamed_resetting _ hr)]
  refine (runContext_advance (hv := by exact hv) n (f := .reset (.t2c i)) (rest := tl) (by simp [applyCtl])
    (by exact rfl) rfl (by exact rfl)).trans ?_
  rfl

/-- `j` of those. -/
theorem run_pollsPaced (s : State) (j n : Nat) (tl : List Frame) (r : Option OpResult)
    (more : List Move) (hv : AtReference s) (hr : s.nic.resetting = true) : ∀ i, i + j ≤ 1000 →
    runContext .bringup (n + 3 * j)
        { s with
          bringup := ⟨.reset (.t2a i) :: tl, r⟩
          agenda := List.replicate (3 * j) (.advance .bringup) ++ more } =
      runContext .bringup n { s with bringup := ⟨.reset (.t2a (i+j)) :: tl, r⟩, agenda := more } := by
  induction j with
  | zero => intro i hi; rfl
  | succ j ih =>
    intro i hi
    rw [show n + 3 * (j+1) = (n + 3 * j) + 3 by ring]
    have : List.replicate (3 * (j+1)) (Move.advance .bringup) ++ more =
      .advance .bringup :: .advance .bringup :: .advance .bringup ::
        (List.replicate (3 * j) (.advance .bringup) ++ more) := by
      rw [show 3 * (j+1) = 3 * j + 1 + 1 + 1 by ring]
      simp [List.replicate_succ]
    rw [this, run_pollPaced s i _ tl r _ hv hr]
    have hnp : nextPoll reference i = .t2a (i+1) := by rw [nextPoll_eq, if_pos (by omega)]
    rw [hnp, ih (i+1) (by omega), show i + 1 + j = i + (j + 1) by omega]

/-- A whole `reset` whose NIC finishes after `j` unsuccessful polls (R115, R189). -/
theorem run_resetOk (s : State) (k j : Nat) (tl : List Frame) (r : Option OpResult)
    (hv : AtReference s) (hj : j < 1000) :
    runContext .bringup (k + 3 + 1 + 3 * j + 1)
        { s with
          bringup := ⟨.reset .t1 :: tl, r⟩
          agenda := List.replicate (1 + 3 * j) (.advance .bringup) ++ [.nic .resetDone] } =
      runContext .bringup k { drew 18 s with
        eng := { s.eng with cpu := 0, hw := 0, ringOk := true }
        nic := nicAfterReset reference s
        ee := eeUnspecified ((freeAt s 17).setWidth 8) s.ee
        agenda := []
        bringup := ⟨tl, some .ok⟩ } := by
  rw [show List.replicate (1 + 3 * j) (Move.advance .bringup) ++ [.nic .resetDone] = .advance .bringup ::
    (List.replicate (3 * j) (.advance .bringup) ++ [.nic .resetDone]) by
    rw [Nat.add_comm]; simp [List.replicate_succ]]
  refine (runContext_advance (hv := by exact hv) (k + 3 + 1 + 3 * j) (f := .reset .t1) (rest := tl) (by simp)
    (by exact rfl) rfl (by exact rfl)).trans ?_
  have hn : writeCr reference reference.crRst s.nic = { s.nic with te := false, re := false, resetting := true } := by
    simp [writeCr_eq, Config.crRst_val]
  simp only [write8_cr, applyCtl, context_bringup, List.tail_cons, setContext_bringup, hn]
  have := run_pollsPaced { s with nic := { s.nic with te := false, re := false, resetting := true } } j
    (k+3+1) tl r [.nic .resetDone] (by exact hv) rfl 1 (by omega)
  simp only at this
  rw [this]
  refine (runContext_nic (hv := by exact hv) (k+3) (by simp) rfl (by exact rfl)).trans ?_
  simp only [devResetDone, if_true]
  refine (runContext_label (hv := by exact hv) (k+2) (f := .reset (.t2a (1+j))) (rest := tl) (by simp)
    (by exact rfl) (by exact waiting_reset rfl) (by exact rfl)).trans ?_
  refine (runContext_label (hv := by exact hv) (k+1) (f := .reset (.t2b (1+j) _)) (rest := tl) (by exact rfl)
    (by exact rfl) (by exact waiting_reset rfl) (by exact rfl)).trans ?_
  rw [if_pos (crNamed_ready _ rfl)]
  exact (runContext_label (hv := by exact hv) k (f := .reset .t3) (rest := tl) (by exact rfl) (by exact rfl)
    (by exact waiting_reset rfl) (by exact rfl)).trans rfl

end Sys2Proof.Machine
end

