-- ==== Sys2Proof/Tests/Slice0.lean ====
section
/-! SUPPORT. The model's own tests.  Every expected value comes from the vectors of `spec/95_test_vectors.md` (named
beside each test) or from the encodings of `spec/opcode_table.json`.  Then one witness for the hypotheses of every
statement of `Certificates/Slice0/Obligations.lean`. -/

namespace Sys2Proof.Tests

open Sys2Proof Sys2Proof.Machine
open Sys2Proof.Config (reference)

set_option Elab.async false

/-! ## Small states -/

/-- What an outcome shows, if it is a next state. -/
def look {α : Type} (o : Host.Outcome State Fault Refusal) (f : State → α) : Option α :=
  match o with
  | .next t => some (f t)
  | .fault _ => none
  | .refused _ => none

/-- The fault of an outcome. -/
def faultOf (o : Host.Outcome State Fault Refusal) : Option Fault :=
  match o with
  | .next _ => none
  | .fault e => some e
  | .refused _ => none

/-- The refusal of an outcome. -/
def refusalOf (o : Host.Outcome State Fault Refusal) : Option Refusal :=
  match o with
  | .next _ => none
  | .fault _ => none
  | .refused r => some r

/-- After power-on, with the EEPROM of program P1. -/
def down : State :=
  { State.reset with ee := { State.reset.ee with
      cells := ((List.replicate 64 0#16).set 7 0x1100#16).set 8 0x3322#16 |>.set 9 0x5544#16 } }

/-- The same block on a big-endian host. -/
def downBE : State :=
  { down with plat := { down.plat with params := { down.plat.params with hostBE := true } } }

/-- Steady state: the end of program P1. -/
def steady : State :=
  { down with
    eng := { down.eng with ringOk := true, irqEnabled := 0x002F#16, lifecycle := .up }
    nic := { down.nic with te := true, re := true, imr := 0x002F#16, rbstart := 0x00200000#32,
                           tsad := [0x00100000#32, 0x00100600#32, 0x00100C00#32, 0x00101200#32] }
    plat := { down.plat with irqHeld := true, txHeld := true, rxHeld := true, gen := 1 } }

/-- Two slots armed: the start of program P5. -/
def twoQueued : State :=
  { steady with
    eng := { steady.eng with cpu := 2 }
    nic := { steady.nic with
      tsd := [0x0008003C#32, 0x0008003C#32, 0#32, 0#32]
      tx := [.armed 60#13, .armed 60#13, .idle, .idle]
      armOrder := [0, 1] } }

/-- `n` slots outstanding from slot 0, with these status words. -/
def outstandingWith (cpu hw : Nat) (words : List Word) (stopped : Bool) : State :=
  { steady with
    eng := { steady.eng with cpu := cpu, hw := hw, txStopped := stopped }
    nic := { steady.nic with tsd := words } }

/-- Bytes in memory. -/
def withBytes (a : Nat) (bs : List Byte) (s : State) : State := { s with mem := Memory.setRange s.mem a bs }

/-- `n` payload bytes from value `b` on. -/
def payload (b n : Nat) : List Byte := (List.range n).map (fun j => BitVec.ofNat 8 (b + j))

/-- The receive buffer with the NIC's pointers at `rd` and `wr` and `rx_off` at `rd`. -/
def unread (rd wr : Half) (s : State) : State :=
  { s with eng := { s.eng with rxOff := rd }, nic := { s.nic with rxRd := rd, rxWr := wr } }

/-- The start of program P3: three records, the second across the wrap. -/
def threeRecords : State :=
  unread 8112#16 128#16
    (withBytes 0x00200000 (payload 0x88 52 ++ [0#8, 0#8, 0#8, 0#8] ++ [1#8, 0#8, 0x41#8, 0#8] ++ payload 0xC0 61)
      (withBytes 0x00201FB0 ([1#8, 0#8, 0x40#8, 0#8] ++ payload 0x40 60 ++ [0#8, 0#8, 0#8, 0#8] ++
        [1#8, 0#8, 0x40#8, 0#8] ++ payload 0x80 8) steady))

/-- The reference parameters meet R7's constraints. -/
theorem test_reference_parameters_ok : reference.Ok ∧ Config.Params.reference.Ok reference ∧
    reference.mtuBound = 1518 := by decide

/-! ## WellFormed: an ill-formed term for each check -/

theorem test_wellFormed_refuses_misaligned_halves :
    (Instr.read16 0x3D#8).wellFormed reference = false ∧ (Instr.write16 0x3D#8 0#16).wellFormed reference = false ∧
      (Instr.writeRaw16 0x3D#8 0#16).wellFormed reference = false := by decide

theorem test_wellFormed_refuses_misaligned_words :
    (Instr.read32 0xFE#8).wellFormed reference = false ∧ (Instr.write32 0x22#8 0#32).wellFormed reference = false ∧
      (Instr.writeRaw32 0x22#8 0#32).wellFormed reference = false := by decide

theorem test_wellFormed_refuses_empty_frame : (Instr.submit []).wellFormed reference = false := by decide

theorem test_wellFormed_refuses_error_without_bits :
    (Instr.txstatError 0#1 0#1 0#14 0#1 0#1 0#13).wellFormed reference = false := by decide

/-- An address of seven bits, slot 4. -/
theorem test_wellFormed_refuses_wide_operands :
    (Instr.readWord 64#16).wellFormed reference = false ∧ (Instr.eecmdRead 64#16).wellFormed reference = false ∧
      (Instr.txcmd 0#6 60#13 4).wellFormed reference = false := by decide

/-- X10, X11. -/
theorem test_wellFormed_refuses_bad_headers :
    (Instr.rxhdr 3#16 1#16).wellFormed reference = false ∧
    (Instr.rxhdr 8189#16 1#16).wellFormed reference = false := by decide

/-- The machine refuses or faults the same terms: G11, T12, X10. -/
theorem test_machine_stops_on_ill_formed :
    refusalOf (exec (.write16 0x3D#8 0#16) down) = some .badAccess ∧
    refusalOf (exec (.write32 0x22#8 0#32) down) = some .badAccess ∧
    refusalOf (exec (.read32 0xFE#8) down) = some .badAccess ∧
    refusalOf (exec (.submit []) steady) = some .emptyFrame ∧
    refusalOf (exec (.readWord 64#16) down) = some (.illegalRequest .addressRange) ∧
    refusalOf (exec (.eecmdRead 64#16) down) = some (.illegalRequest .addressRange) ∧
    refusalOf (exec (.txcmd 0#6 60#13 4) steady) = some (.illegalRequest .notTxcmd) ∧
    faultOf (exec (.rxhdr 3#16 1#16)
      (unread 0#16 64#16 (withBytes 0x00200000 [1#8, 0#8, 3#8, 0#8] steady))) = some .malformedHeader := by
  decide +kernel

/-! ## Decoding: words written out from the encodings -/

theorem test_decode_reads :
    decode reference .opsel [0b00000000#8, 0x58#8] = .ok (.read8 0x58#8) ∧
    decode reference .opsel [0b00000001#8, 0x3E#8] = .ok (.read16 0x3E#8) ∧
    decode reference .opsel [0b00000010#8, 0x10#8] = .ok (.read32 0x10#8) := ⟨rfl, rfl, rfl⟩

theorem test_decode_writes :
    decode reference .opsel [0b00000100#8, 0x37#8, 0x0C#8] = .ok (.write8 0x37#8 0x0C#8) ∧
    decode reference .opsel [0b00000101#8, 0x3C#8, 0x2F#8, 0x00#8] = .ok (.write16 0x3C#8 0x002F#16) ∧
    decode reference .opsel [0b00000110#8, 0x20#8, 0x78#8, 0x56#8, 0x34#8, 0x12#8] =
      .ok (.write32 0x20#8 0x12345678#32) := by
  decide +kernel

theorem test_decode_raw_writes :
    decode reference .opsel [0b00001101#8, 0x04#8, 0x44#8, 0x55#8] = .ok (.writeRaw16 0x04#8 0x5544#16) ∧
    decode reference .opsel [0b00001110#8, 0x00#8, 0x00#8, 0x11#8, 0x22#8, 0x33#8] =
      .ok (.writeRaw32 0x00#8 0x33221100#32) := by
  decide +kernel

theorem test_decode_bringup :
    decode reference .opsel [0b00010000#8] = .ok .reset ∧
    decode reference .opsel [0b00100000#8, 0x2A#8, 0x00#8] = .ok (.readWord 0x2A#16) ∧
    decode reference .opsel [0b00100001#8] = .ok .readHardwareAddress ∧
    decode reference .opsel [0b01110000#8] = .ok .openBlock ∧
    decode reference .opsel [0b01110001#8] = .ok .closeBlock := by decide +kernel

theorem test_decode_traffic :
    decode reference .opsel [0b00110000#8, 0xAB#8, 0xCD#8] = .ok (.submit [0xAB#8, 0xCD#8]) ∧
    decode reference .opsel [0b00110001#8] = .ok .reconcile ∧
    decode reference .opsel [0b01000000#8] = .ok .drain ∧
    decode reference .opsel [0b01010000#8] = .ok .onInterrupt ∧
    decode reference .opsel [0b01100000#8] = .ok .check := by decide +kernel

/-- C-3. -/
theorem test_decode_refuses_reserved :
    ∀ op ∈ [0x03#8, 0x07#8, 0x08#8, 0x0C#8, 0x0F#8, 0x11#8, 0x22#8, 0x32#8, 0x72#8, 0x80#8, 0xFF#8],
      decode reference .opsel [op] = .error (.reservedSelector op) := by decide +kernel

/-- C-5 and the pattern `0000000000tttttt000lllllllllllll`; the word is stored least significant byte first. -/
theorem test_decode_txcmd :
    decode reference .txcmd [0b00111100#8, 0b00000000#8, 0b00001000#8, 0b00000000#8, 0x02#8] =
      .ok (.txcmd 0b001000#6 60#13 2) ∧
    decode reference .txcmd [0x3C#8, 0x20#8, 0x08#8, 0x00#8, 0x00#8] = .error .notTxcmd ∧
    decode reference .txcmd [0x3C#8, 0x00#8, 0x08#8, 0x00#8, 0x04#8] = .error .notTxcmd := by decide +kernel

/-- T14, T17, T20, T13: success, error, and twice in flight. -/
theorem test_decode_txstat :
    decode reference .txstat [0x3C#8, 0x80#8, 0x08#8, 0x00#8] = .ok (.txstatSuccess 0#1 0#1 0b001000#14 0#1 0#1 60#13) ∧
    decode reference .txstat [0x3C#8, 0x40#8, 0x08#8, 0x00#8] = .ok (.txstatError 0#1 0#1 0b001000#14 1#1 0#1 60#13) ∧
    decode reference .txstat [0x64#8, 0x20#8, 0x08#8, 0x00#8] = .ok (.txstatInFlight 0#1 0b001000#14 1#1 100#13) ∧
    decode reference .txstat [0x3C#8, 0x00#8, 0x08#8, 0x00#8] = .ok (.txstatInFlight 0#1 0b001000#14 0#1 60#13) := by
  decide +kernel

/-- C-8 and C-7 (`0b110000111`), and an opcode that is no read. -/
theorem test_decode_rxhdr_eecmd :
    decode reference .rxhdr [0x01#8, 0x00#8, 0x40#8, 0x00#8] = .ok (.rxhdr 0x0040#16 0x0001#16) ∧
    decode reference .eecmd [0b10000111#8, 0b00000001#8] = .ok (.eecmdRead 7#16) ∧
    decode reference .eecmd [0b01000111#8, 0b00000001#8] = .error .notEecmd := by decide +kernel

/-- The table's numbering: operand bytes above the selector, zero where the table gives none. -/
theorem test_decodeTableWord :
    decodeTableWord 8 0x06 = some (.write32 0#8 0#32) ∧
    decodeTableWord 8 0x30 = some (.submit [0#8]) ∧
    decodeTableWord 8 0x33 = none ∧
    decodeTableWord 32 0x00008000 = some (.txstatSuccess 0#1 0#1 0#14 0#1 0#1 0#13) ∧
    decodeTableWord 32 0x40004000 = some (.txstatError 0#1 1#1 0#14 1#1 0#1 0#13) ∧
    decodeTableWord 9 0x1BF = some (.eecmdRead 63#16) := by decide +kernel

/-! ## RegisterInterface -/

/-- G1: the bytes of a typed write, read back one by one. -/
theorem test_write32_bytes : ∀ be ∈ [down, downBE],
    (look (exec (.write32 0x20#8 0x12345678#32) { be with draws := [0#32] }) fun t =>
      [0x20, 0x21, 0x22, 0x23].map (readByte reference t · 0)) =
      some [0x78#8, 0x56#8, 0x34#8, 0x12#8] := by decide +kernel

/-- G2, G3. -/
theorem test_writeRaw32_bytes :
    (look (exec (.writeRaw32 0x20#8 0x12345678#32) down) fun t => atSlot t.nic.tsad 0) = some 0x12345678#32 ∧
    (look (exec (.writeRaw32 0x20#8 0x12345678#32) downBE) fun t => atSlot t.nic.tsad 0) = some 0x78563412#32 := by
  decide +kernel

/-- G5. -/
theorem test_writeRaw16_bytes :
    (look (exec (.writeRaw16 0x04#8 0x5544#16) down) fun t => [t.nic.idr[4], t.nic.idr[5]]) =
      some [0x44#8, 0x55#8] ∧
    (look (exec (.writeRaw16 0x04#8 0x5544#16) downBE) fun t => [t.nic.idr[4], t.nic.idr[5]]) =
      some [0x55#8, 0x44#8] := by decide +kernel

/-- G4, G6. -/
theorem test_write16_write8 :
    (look (exec (.write16 0x3C#8 0x002F#16) downBE) fun t => t.nic.imr) = some 0x002F#16 ∧
    (look (exec (.write8 0x37#8 0x0C#8) down) fun t => crNamed reference t.nic) = some 0x0D#8 := by decide +kernel

/-- G7, G8, G9. -/
theorem test_reads :
    (look (exec (.read16 0x3E#8) { downBE with nic := { downBE.nic with isr := 0x1234#16 }, draws := [0#32] })
      fun t => t.bringup.result) = some (some (.value16 0x1234#16)) ∧
    (look (exec (.read32 0x10#8)
        { outstandingWith 1 0 [0x0008A03C#32, 0#32, 0#32, 0#32] false with draws := [0#32] })
      fun t => t.bringup.result) = some (some (.value32 0x0008A03C#32)) ∧
    (look (exec (.read8 0x58#8) { down with draws := [0#32] })
      fun t => t.bringup.result) = some (some (.value8 0x04#8)) := by decide +kernel

/-! ## ResetSequencer -/

/-- Z6, Z2: the NIC finishes after two unsuccessful polls. -/
theorem test_reset_ok :
    (look (exec .reset { down with
        eng := { down.eng with cpu := 3, hw := 1, txStopped := true }
        agenda := List.replicate 7 (.advance .bringup) ++ [.nic .resetDone] })
      fun t => (t.bringup.result, t.eng.cpu, t.eng.hw, t.eng.txStopped)) =
      some (some .ok, 0, 0, true) := by decide +kernel

/-! ## EepromSerialReader -/

/-- E4, E5 with the cells that give those samples. -/
theorem test_readWord_host_order :
    (look (exec (.readWord 3#16) { down with ee := { down.ee with cells := down.ee.cells.set 3 0x8000#16 } })
      fun t => t.bringup.result) = some (some (.value16 0x8000#16)) ∧
    (look (exec (.readWord 3#16) { downBE with ee := { downBE.ee with cells := downBE.ee.cells.set 3 0x8000#16 } })
      fun t => t.bringup.result) = some (some (.value16 0x0080#16)) := by decide +kernel

/-- E10, on either host. -/
theorem test_readHardwareAddress : ∀ s ∈ [down, downBE],
    (look (exec .readHardwareAddress s) fun t => (t.eng.hwAddr, t.ee.eecr)) =
      some ([0x00#8, 0x11#8, 0x22#8, 0x33#8, 0x44#8, 0x55#8], 0x00#8) := by decide +kernel

/-- E9: `cmd = 0x1AA`. -/
theorem test_eecmd_shifts :
    (look (exec (.eecmdRead 0x2A#16)
        { down with ee := { down.ee with eecr := 0x88#8, sel := true, out := some false, seq := some 1 } })
      fun t => (t.ee.sh, t.ee.n, t.ee.out)) = some (0x1AA#32, 9, some false) := by decide +kernel

/-- R201, U15: after E1 and E2 data-out is low; a clock edge with no E3a before it departs from R120, and data-out is
unspecified until the sequence begins again. -/
theorem test_departure_leaves_data_out_unspecified :
    (writeEecr reference 0x88#8 (writeEecr reference 0x80#8 down.ee)).out = some false ∧
    (writeEecr reference 0x8C#8 (writeEecr reference 0x88#8 (writeEecr reference 0x80#8 down.ee))).out = none ∧
    (writeEecr reference 0x88#8 (writeEecr reference 0x80#8 (writeEecr reference 0x8C#8
      (writeEecr reference 0x88#8 (writeEecr reference 0x80#8 down.ee))))).out =
      some false := by decide +kernel

/-- R199, R200: chip-select is the level last written to bit 3: after 0x08 the write 0x88 selects nothing. -/
theorem test_chip_select_is_the_level : (writeEecr reference 0x88#8 (writeEecr reference 0x08#8 down.ee)).sel = false ∧
    (writeEecr reference 0x88#8 (writeEecr reference 0x80#8 down.ee)).sel = true := by decide +kernel

/-! ## TxRingEngine -/

/-- T1: one byte, padded to 60. -/
theorem test_submit_pads :
    (look (exec (.submit [0xB0#8]) steady) fun t =>
      (t.submission.result, atSlot t.nic.tsd 0, t.eng.cpu, bytesAt t 0x00100000 60)) =
      some (some .ok, 0x0008003C#32, 1, 0xB0#8 :: List.replicate 59 0#8) := by decide +kernel

/-- T9: full at once, the frame queued. -/
theorem test_submit_full :
    (look (exec (.submit (List.replicate 60 0x11#8)) (outstandingWith 0 2 [0#32, 0#32, 0#32, 0#32] false))
      fun t => (t.submission.result, t.eng.cpu, t.eng.txStopped, atSlot t.nic.tx 0)) =
      some (some .full, 1, true, .armed 60#13) := by decide +kernel

/-- T24: one success, the next in flight, the caller stopped. -/
theorem test_reconcile_resumes :
    (look (exec .reconcile (outstandingWith 3 0 [0x0008803C#32, 0x0008003C#32, 0#32, 0#32] true))
      fun t => (t.events, t.eng.hw, t.eng.txStopped)) = some ([.txDone 60#13, .resume], 1, false) := by
  decide +kernel

/-- T27 with T18 second: wraps through 0, an error clears `ISR.TER`. -/
theorem test_reconcile_wraps :
    (look (exec .reconcile
        { outstandingWith 1 3 [0x4008003C#32, 0#32, 0#32, 0x0008A03C#32] false with
          nic := { (outstandingWith 1 3 [0x4008003C#32, 0#32, 0#32, 0x0008A03C#32] false).nic with
            isr := 0x000D#16 } })
      fun t => (t.events, t.eng.hw, t.nic.isr)) =
      some ([.txDone 60#13, .txError false true], 1, 0x0005#16) := by decide +kernel

/-- C-6: `0x003F_05FC` in slot 3. -/
theorem test_txcmd_arms :
    (look (exec (.txcmd 0x3F#6 1532#13 3) steady) fun t => (atSlot t.nic.tsd 3, atSlot t.nic.tx 3, t.nic.armOrder)) =
      some (0x003F05FC#32, .armed 1532#13, [3]) := by decide +kernel

/-- T19, T21, T20: the words standing by themselves. -/
theorem test_txstat_words :
    (look (exec (.txstatError 0#1 1#1 0b001000#14 1#1 0#1 60#13)
        (outstandingWith 1 0 [0#32, 0#32, 0#32, 0#32] false))
      fun t => (t.events, t.eng.hw)) = some ([.txError true true], 1) ∧
    (look (exec (.txstatSuccess 0#1 0#1 0#14 0#1 0#1 0x1FFF#13)
        (outstandingWith 1 0 [0#32, 0#32, 0#32, 0#32] false))
      fun t => (t.events, t.eng.hw)) = some ([.txDone 8191#13], 1) ∧
    (look (exec (.txstatInFlight 0#1 0b001000#14 1#1 100#13)
        (outstandingWith 1 0 [0#32, 0#32, 0#32, 0#32] false))
      fun t => (t.events, t.eng.hw)) = some ([], 0) := by decide +kernel

/-- The interleaving of program P5. -/
def lostWakeUp : State :=
  { twoQueued with
    agenda := List.replicate 6 (.advance .submission) ++
      [.nic (.txComplete 0 ⟨true, false, false, 0#32⟩), .nic (.txComplete 1 ⟨true, false, false, 0#32⟩),
       .nic (.txComplete 2 ⟨true, false, false, 0#32⟩), .request .interrupt .opsel [0x50#8]] ++
      List.replicate 22 (.advance .interrupt) }

/-- Program P5 in one step: the lost wake-up. -/
theorem test_lost_wake_up :
    (look (exec (.submit (List.replicate 60 0xCC#8)) lostWakeUp) fun t =>
      ((t.submission.result, t.interrupt.result, t.eng.cpu, t.eng.hw), t.eng.txStopped, t.nic.isr, t.events)) =
      some ((some .full, some .handled, 3, 3), true, 0#16, [.txDone 60#13, .txDone 60#13, .txDone 60#13]) := by
  decide +kernel

/-- R153 (1) on one frame: submitted, completed with `OWN` set as in P2, reconciled. -/
theorem test_submit_complete_reconcile :
    (look (andThen (exec (.submit [0xAA#8]) steady) fun t =>
        andThen (nicStep reference (.txComplete 0 ⟨true, false, false, 0x00002000#32⟩) t) (exec .reconcile))
      fun v => (v.events, atSlot v.nic.tsd 0, v.eng.hw, v.eng.cpu)) =
      some ([.txDone 60#13], 0x0008A03C#32, 1, 1) := by decide +kernel

/-! ## RxRingEngine -/

/-- P3 through `drain` itself. -/
theorem test_drain_three_records :
    (look (exec .drain threeRecords) fun t => (t.events, t.eng.rxOff, t.nic.capr, t.nic.rxRd)) =
      some ([.delivered (payload 0x40 60), .delivered (payload 0x80 60), .delivered (payload 0xC0 61)],
        128#16, 0x0070#16, 128#16) := by decide +kernel

/-- X8 as a header word: an empty payload at the buffer's end; X3's commit below zero. -/
theorem test_rxhdr_edges :
    (look (exec (.rxhdr 4#16 0#16) (unread 8188#16 4#16 (withBytes 0x00201FFC [0#8, 0#8, 4#8, 0#8] steady)))
      fun t => (t.events, t.eng.rxOff, t.nic.capr)) = some ([.delivered []], 4#16, 0xFFF4#16) ∧
    (look (exec (.rxhdr 4#16 0xFFFF#16) (unread 0#16 8#16 (withBytes 0x00200000 [0xFF#8, 0xFF#8, 4#8, 0#8] steady)))
      fun t => (t.events, t.eng.rxOff, t.nic.capr)) = some ([.delivered []], 8#16, 0xFFF8#16) ∧
    (look (exec (.rxhdr 4#16 0#16) steady) fun t => (t.events, t.eng.rxOff)) = some ([], 0#16) := by decide +kernel

/-- R58: a size that reaches past the unread bytes is refused, by the header word and by `drain`; so is a word that is
not the header that lies there. -/
theorem test_invisible_records_are_refused :
    (∀ s ∈ [unread 0#16 4#16 (withBytes 0x00200000 [1#8, 0#8, 4#8, 0#8] steady)],
      refusalOf (exec (.rxhdr 4#16 1#16) s) = some .recordNotVisible ∧
      refusalOf (exec .drain s) = some .recordNotVisible) ∧
    refusalOf (exec (.rxhdr 8#16 1#16) (unread 0#16 64#16 (withBytes 0x00200000 [1#8, 0#8, 4#8, 0#8] steady))) =
      some .recordNotVisible := by decide +kernel

/-- R194: a record the NIC writes across the wrap, drained. -/
theorem test_received_frame :
    (look (andThen (nicStep reference (.rxRecord 1#16 (payload 0x80 60) [0xEF#8, 0xBE#8, 0xAD#8, 0xDE#8] false)
        (unread 8180#16 8180#16 steady))
        (exec .drain))
      fun t => (t.events, t.eng.rxOff, t.nic.isr)) =
      some ([.delivered (payload 0x80 60)], 56#16, 0x0001#16) := by decide +kernel

/-! ## InterruptDispatcher, LinkMonitor -/

/-- Q9 on P3's buffer with the link good: link, then the deliveries, then the completion. -/
theorem test_onInterrupt_order :
    (look (exec .onInterrupt { threeRecords with
        eng := { threeRecords.eng with cpu := 1 }
        nic := { threeRecords.nic with isr := 0xFFFF#16, linkBad := false,
                                       tsd := [0x0008A03C#32, 0#32, 0#32, 0#32] } })
      fun t => (t.events, t.nic.isr, t.interrupt.result)) =
      some ([.linkUp, .delivered (payload 0x40 60), .delivered (payload 0x80 60), .delivered (payload 0xC0 61),
        .txDone 60#13], 0#16, some .handled) := by decide +kernel

/-- Q1, Q6. -/
theorem test_onInterrupt_not_mine :
    (look (exec .onInterrupt steady) fun t => (t.interrupt.result, t.events)) = some (some .notMine, []) ∧
    (look (exec .onInterrupt { twoQueued with
        eng := { twoQueued.eng with irqEnabled := 0x0001#16 }, nic := { twoQueued.nic with isr := 0x0004#16 } })
      fun t => (t.interrupt.result, t.nic.isr, t.eng.hw)) = some (some .handled, 0#16, 0) := by decide +kernel

/-- K2, K7. -/
theorem test_check :
    (look (exec .check { steady with nic := { steady.nic with linkBad := false } })
      fun t => (t.events, t.eng.linkPrev)) = some ([.linkUp], .up) ∧
    (look (exec .check { steady with eng := { steady.eng with linkPrev := .up } })
      fun t => (t.events, t.eng.linkPrev)) = some ([.linkDown], .down) := by decide +kernel

/-! ## Lifecycle -/

/-- O-1 and P1's end state. -/
theorem test_open :
    (look (exec .openBlock { down with agenda := List.replicate 8 (.advance .bringup) ++ [.nic .resetDone] })
      fun t => ((t.bringup.result, t.eng.lifecycle), t.nic.tsad, crNamed reference t.nic, t.nic.imr,
        t.nic.rbstart)) =
      some ((some .ok, .up), [0x00100000#32, 0x00100600#32, 0x00100C00#32, 0x00101200#32], 0x0D#8, 0x002F#16,
        0x00200000#32) := by decide +kernel

/-- O-4: `rxbuf` refused, everything released. -/
theorem test_open_fails :
    (look (exec .openBlock { down with plat := { down.plat with grantRx := false } })
      fun t => (t.bringup.result, t.eng.lifecycle, t.plat.irqHeld, t.plat.txHeld, t.plat.rxHeld)) =
      some (some .allocFail, .down, false, false, false) := by decide +kernel

/-- O-7: `CR` is not written. -/
theorem test_close :
    (look (exec .closeBlock (withBytes 0x00100000 [1#8, 2#8] steady))
      fun t => ((t.eng.lifecycle, t.eng.irqEnabled, t.nic.imr), t.nic.te, t.plat.irqHeld, t.mem.length)) =
      some ((.down, 0#16, 0#16), true, false, 0) := by decide +kernel

/-! ## The step -/

/-- Every operation a block in `Down` may be asked for runs as the very next step after reset. -/
theorem test_step_after_reset :
    ∀ w ∈ [0x00, 0x01, 0x02, 0x04, 0x05, 0x06, 0x0D, 0x0E, 0x20, 0x21],
      (look (step (State.reset.withFetchWord 8 w)) fun t => t.bringup.stack) = some [] := by decide +kernel

/-- R7, R31, U21: the configuration record is an argument; other values than the reference ones give another machine. -/
theorem test_configuration_is_an_argument :
    (look (exec (.submit (List.replicate 2000 0#8))
        { steady with plat := { steady.plat with values := { reference with maxFrameSize := 2048 } } })
      fun t => (t.submission.result, atSlot t.nic.tsd 0)) = some (some .ok, 0x000807D0#32) ∧
    (look (exec (.write16 0x44#8 0x0004#16)
        { down with
          plat := { down.plat with values := { reference with isr := ⟨0x44, 2⟩ } }
          nic := { down.nic with isr := 0x000C#16 } })
      fun t => t.nic.isr) = some 0x0008#16 := by decide +kernel

/-- R7: eight slots: `open` writes eight `TSAD`, the fifth frame queued is in slot 4, and a ring with six outstanding is
full with the seventh; an EEPROM of eight address bits sends eleven command bits and has a cell 200. -/
theorem test_quantities_are_arguments :
    (∀ s ∈ [{ down with plat := { down.plat with values :=
        { reference with nTx := 8, tsad := ⟨0x60, 4⟩, tsd := ⟨0x80, 4⟩ } } }],
      (look (andThen (exec .openBlock
          { s with agenda := List.replicate 8 (.advance .bringup) ++ [.nic .resetDone] }) fun t =>
          exec (.submit [0xB0#8]) { t with eng := { t.eng with cpu := 4, hw := 6 } })
        fun t => (t.nic.tsad.length, atSlot t.nic.tsad 7, t.eng.cpu, t.submission.result, t.nic.armOrder)) =
        some (8, 0x00102A00#32, 5, some .full, [4])) ∧
    (look (exec (.readWord 200#16)
        { down with
          plat := { down.plat with values := { reference with eeAddrBits := 8, eeCmdBits := 11 } }
          ee := { down.ee with cells := (List.replicate 256 0#16).set 200 0xBEEF#16 } })
      fun t => (t.bringup.result, t.ee.n)) = some (some (.value16 0xBEEF#16), 27) := by decide +kernel

/-! ## Witnesses: states and operands that meet the hypotheses of each statement -/

theorem witness_DecodeOfEncode :
    (Instr.rxhdr 8188#16 0#16).wellFormed reference = true ∧
    (Instr.rxhdr 4#16 0xFFFF#16).wellFormed reference = true ∧
      (Instr.read16 0xFE#8).wellFormed reference = true ∧ (Instr.write32 0xFC#8 0#32).wellFormed reference = true ∧
      (Instr.submit [0#8]).wellFormed reference = true ∧
      (Instr.txstatError 1#1 0#1 0#14 1#1 1#1 0#13).wellFormed reference = true := by
  decide +kernel

theorem witness_EncodeOfDecode : ∃ i, decode reference .rxhdr [0x01#8, 0x00#8, 0x40#8, 0x00#8] = .ok i :=
  ⟨.rxhdr 0x0040#16 0x0001#16, by decide +kernel⟩

theorem witness_UnlistedSelectorsAreRefused :
    0x03#8 ∉ [0x00#8, 0x01#8, 0x02#8, 0x04#8, 0x05#8, 0x06#8, 0x0D#8, 0x0E#8, 0x10#8, 0x20#8, 0x21#8, 0x30#8, 0x31#8,
      0x40#8, 0x50#8, 0x60#8, 0x70#8, 0x71#8] ∧
    { down with agenda := [.request .bringup .opsel [0x03#8]] }.agenda =
      .request .bringup .opsel (0x03#8 :: []) :: [] := by decide +kernel

theorem witness_StatusWordClasses :
    0xBFFF3FFF#32 &&& 0x4000C000#32 = 0#32 ∧
    (0xFFFFFFFF#32 &&& 0x4000C000#32 ≠ 0#32 ∧ 0xFFFFFFFF#32 &&& 0x00008000#32 ≠ 0#32) ∧
    (0x40000000#32 &&& 0x4000C000#32 ≠ 0#32 ∧ 0x40000000#32 &&& 0x00008000#32 = 0#32) ∧
    (steady.eng.ringOk = true ∧ atSlot steady.nic.tsd steady.eng.hw = 0#32) := by decide +kernel

theorem witness_SubmitCommandIsADisjointUnion :
    Config.Params.reference.txThreshFlags &&& ~~~0x003F0000#32 = 0#32 ∧
      oversized reference [0#8] = false ∧ oversized reference (List.replicate 1532 0#8) = false := by decide +kernel

theorem witness_StepRunsTheDecodedRequest :
    decode down.plat.values .opsel [0x71#8] = .ok .closeBlock ∧ homeContext .closeBlock = .bringup ∧
    Ctx.submission ≠ homeContext .closeBlock ∧
    { down with agenda := [.request .bringup .opsel [0x71#8]] }.agenda = .request .bringup .opsel [0x71#8] :: [] ∧
    { down with agenda := [.advance .interrupt] }.agenda = .advance .interrupt :: [] ∧
    { down with agenda := [.nic .retrigger] }.agenda = .nic .retrigger :: [] ∧
    down.agenda = [] ∧ AllIdle down := by decide +kernel

/-- `off` at the last aligned offset, for the reads, the typed and the raw writes. -/
theorem witness_ReadsReturnTheWireBytes :
    AtReference down ∧ AllIdle down ∧ (0xFE#8).toNat % 2 = 0 ∧ (0xFC#8).toNat % 4 = 0 := by decide +kernel

theorem witness_RegistersAreLittleEndian :
    (⟨.msr, 0x58, 1⟩ : Config.RegRow) ∈ reference.regMap ∧ 0 < (⟨.msr, 0x58, 1⟩ : Config.RegRow).width ∧
    (⟨.tcr, 0x40, 4⟩ : Config.RegRow) ∈ reference.regMap ∧ 3 < (⟨.tcr, 0x40, 4⟩ : Config.RegRow).width := by
  decide +kernel

theorem witness_TypedAccessRoundTrip : AtReference downBE ∧ Shaped downBE ∧ AllIdle downBE := by decide +kernel

theorem witness_TypedWritesPutLittleEndianBytes :
    AtReference downBE ∧ AllIdle downBE ∧ (0xFE#8).toNat % 2 = 0 ∧ (0xFC#8).toNat % 4 = 0 := by decide +kernel

theorem witness_RawWritesPutHostBytes :
    (AtReference down ∧ AllIdle down ∧ down.plat.params.hostBE = false) ∧
      (AtReference downBE ∧ AllIdle downBE ∧ downBE.plat.params.hostBE = true) ∧
      (0xFE#8).toNat % 2 = 0 ∧ (0xFC#8).toNat % 4 = 0 := by decide +kernel

theorem witness_RawWritesCopyTheHardwareAddress :
    (AtReference down ∧ AllIdle down ∧ AtReference downBE ∧ AllIdle downBE) ∧
    (hostBytes32 down.plat.params.hostBE 0x33221100#32 = [0x00#8, 0x11#8, 0x22#8, 0x33#8] ∧
      hostBytes16 down.plat.params.hostBE 0x5544#16 = [0x44#8, 0x55#8]) ∧
    (hostBytes32 downBE.plat.params.hostBE 0x00112233#32 = [0x00#8, 0x11#8, 0x22#8, 0x33#8] ∧
      hostBytes16 downBE.plat.params.hostBE 0x4455#16 = [0x44#8, 0x55#8]) := by decide +kernel

theorem witness_BadAccessesAreRefused :
    AtReference down ∧
    ¬ ((0xFF#8).toNat % 2 = 0 ∧ (0xFF#8).toNat + 2 ≤ 0x100) ∧
      ¬ ((0xFE#8).toNat % 4 = 0 ∧ (0xFE#8).toNat + 4 ≤ 0x100) ∧
      (⟨.isr, 0x3E, 2⟩ : Config.RegRow) ∈ reference.regMap := by decide +kernel

theorem witness_AccessorsWriteNoEngineRegister :
    isAccessor (.write16 0x3E#8 0xFFFF#16) = true ∧ isAccessor (.write16 0x3F#8 0#16) = true ∧
      look (exec (.write16 0x3E#8 0xFFFF#16) down) (fun _ => ()) = some () ∧
      refusalOf (exec (.write16 0x3F#8 0#16) down) = some .badAccess ∧
      refusalOf (exec (.write16 0x3E#8 0#16) { down with bringup := ⟨[.closeBlock .x2], none⟩ }) =
        some .contextBusy ∧
      refusalOf (exec (.write16 0x3E#8 0xFFFF#16) { steady with interrupt := ⟨[.onInterrupt .i7], none⟩ }) =
        some .otherContextActive := by decide +kernel

theorem witness_RegisterWriteReactions : AtReference steady ∧ AllIdle steady := by decide +kernel

theorem witness_StatusRegisterWriteArmsItsSlot : AtReference steady ∧ Shaped steady ∧ AllIdle steady ∧ 3 < 4 := by decide +kernel

theorem witness_TxcmdArmsItsSlot :
    AtReference steady ∧ steady.submission.stack = [] ∧ steady.bringup.stack = [] ∧ 3 < 4 ∧ 4 ≤ 4 := by decide +kernel

/-- `n` unsuccessful polls, at both ends of the range. -/
theorem witness_ResetSucceeds :
    ∀ n ∈ [0, 999], ∀ s ∈ [{ down with
        agenda := List.replicate (1 + 3 * n) (.advance .bringup) ++ [.nic .resetDone] }],
      AtReference s ∧ BringupReady s ∧ n < 1000 := by decide +kernel

theorem witness_ResetTimesOut : AtReference down ∧ BringupReady down ∧ down.agenda = [] := by decide +kernel

theorem witness_UnspecifiedIndicesAreAFault :
    ∀ s ∈ [{ steady with eng := { steady.eng with ringOk := false } }],
      AtReference s ∧ s.eng.ringOk = false ∧ s.agenda = [] ∧ SubmitReady s ∧ HandlerReady s ∧
      (0#1 ||| 1#1 : BitVec 1) = 1#1 ∧ List.replicate 1532 0#8 ≠ [] ∧ (List.replicate 1532 0#8).length + 4 ≤ 1536 := by
  decide +kernel

theorem witness_ReadWordReturnsTheCell : AtReference downBE ∧ (63#16).toNat < 64 ∧ 64 ≤ (64#16).toNat ∧ BringupReady downBE ∧
    downBE.agenda = [] := by decide +kernel

theorem witness_ReadHardwareAddressReturnsSixBytes : AtReference down ∧ Shaped down ∧ BringupReady down ∧
    down.agenda = [] := by decide +kernel

theorem witness_EecmdShiftsTheCommandIn :
    (AtReference down ∧ BringupReady down ∧ down.ee.seq = none ∧ (63#16).toNat < 64 ∧
      64 ≤ (64#16).toNat) ∧
    (∀ s ∈ [{ down with ee := writeEecr reference 0x88#8 (writeEecr reference 0x80#8 down.ee) }],
      AtReference s ∧ BringupReady s ∧ s.ee.seq = some 1 ∧ s.ee.sel = true ∧ s.ee.n = 0 ∧ s.ee.sh = 0#32 ∧
      s.ee.eecr = 0x88#8) := by decide +kernel

/-- The shortest and the longest frame of each padding class; an empty ring and one with two slots outstanding. -/
theorem witness_SubmitQueuesTheFrame :
    (∀ s ∈ [steady, twoQueued], AtReference s ∧ Shaped s ∧ SubmitReady s ∧ s.agenda = [] ∧ s.eng.ringOk = true ∧
    s.plat.txHeld = true ∧
      ringFull reference s.eng = false) ∧
    (∀ n ∈ [1, 59, 60, 1532], List.replicate n 0xAA#8 ≠ [] ∧ (List.replicate n 0xAA#8).length + 4 ≤ 1536) := by
  decide +kernel

theorem witness_SubmitPadsTheSlot :
    (60 ≤ (List.replicate 60 0#8).length ∧ (List.replicate 59 0#8).length < 60 ∧
      mapped reference steady.plat (slotBase reference steady.plat.params 3) 60 = true) ∧
    AtReference steady ∧ Shaped steady ∧ SubmitReady steady ∧ steady.agenda = [] ∧ steady.eng.ringOk = true ∧
    steady.plat.txHeld = true ∧
      ringFull reference steady.eng = false ∧ [0xB0#8] ≠ [] ∧ [0xB0#8].length + 4 ≤ 1536 ∧
      look (exec (.submit [0xB0#8]) steady) (fun _ => ()) = some () := by decide +kernel

theorem witness_OversizedChangesNothing :
    AtReference steady ∧ SubmitReady steady ∧ steady.agenda = [] ∧ List.replicate 1533 0#8 ≠ [] ∧
    List.replicate 1532 0#8 ≠ [] ∧
      1536 < (List.replicate 1533 0#8).length + 4 ∧ (List.replicate 1532 0#8).length + 4 ≤ 1536 ∧
      look (exec (.submit (List.replicate 1532 0#8)) steady) (fun _ => ()) = some () := by decide +kernel

theorem witness_SubmitPreconditions :
    (∀ s ∈ [{ steady with submission := ⟨[.submit .s5a], none⟩ }],
      AtReference s ∧ s.agenda = [] ∧ s.submission.stack ≠ []) ∧
    (AtReference down ∧ down.agenda = [] ∧ down.submission.stack = [] ∧ down.eng.lifecycle = .down) ∧
    (∀ s ∈ [{ steady with bringup := ⟨[.closeBlock .x5], none⟩ }], AtReference s ∧ s.agenda = [] ∧
      s.submission.stack = [] ∧ s.eng.lifecycle = .up ∧ s.bringup.stack ≠ []) ∧
    (∀ s ∈ [outstandingWith 3 0 [0#32, 0#32, 0#32, 0#32] true],
      AtReference s ∧ s.agenda = [] ∧ SubmitReady s ∧ s.eng.ringOk = true ∧ (s.eng.hw + 4 - s.eng.cpu) % 4 = 1) ∧
    (∀ s ∈ [{ steady with eng := { steady.eng with ringOk := false } }],
      AtReference s ∧ s.agenda = [] ∧ SubmitReady s ∧ s.eng.ringOk = false) ∧
    [0#8] ≠ [] ∧ [0#8].length + 4 ≤ 1536 := by decide +kernel

theorem witness_FullExactlyWhenThreeAreOutstanding :
    AtReference steady ∧ Shaped steady ∧ SubmitReady steady ∧ steady.agenda = [] ∧ steady.eng.ringOk = true ∧
    steady.plat.txHeld = true ∧
      steady.eng.cpu = steady.eng.hw ∧ [1#8] ≠ [] ∧ [1#8].length + 4 ≤ 1536 := by decide +kernel

/-- An empty ring; a first slot in flight while three are outstanding and the caller is stopped. -/
theorem witness_ReconcileWithNothingDone :
    (AtReference steady ∧ HandlerReady steady ∧ steady.agenda = [] ∧ steady.eng.ringOk = true ∧
    steady.eng.hw = steady.eng.cpu) ∧
    (∀ s ∈ [outstandingWith 3 0 [0xBFFF3FFF#32, 0#32, 0#32, 0#32] true],
      AtReference s ∧ HandlerReady s ∧ s.agenda = [] ∧ s.eng.ringOk = true ∧
      atSlot s.nic.tsd s.eng.hw &&& 0x4000C000#32 = 0#32) := by
  decide +kernel

theorem witness_ReconcileReportsTheCompletedPrefix :
    ∀ s ∈ [outstandingWith 1 2 [0x4008003C#32, 0#32, 0x0008803C#32, 0x0008A03C#32] true],
      AtReference s ∧ Shaped s ∧ HandlerReady s ∧ s.agenda = [] ∧ s.eng.ringOk = true ∧
      completedPrefix s = [2, 3, 0] := by decide +kernel

theorem witness_SubmitThenReconcileReportsOneSuccess :
    AtReference steady ∧ Shaped steady ∧ SubmitReady steady ∧ HandlerReady steady ∧ steady.agenda = [] ∧ steady.eng.ringOk = true ∧
      steady.plat.txHeld = true ∧ steady.eng.cpu = steady.eng.hw ∧ List.replicate 1532 0#8 ≠ [] ∧
      (List.replicate 1532 0#8).length + 4 ≤ 1536 ∧
      steady.plat.params.txThreshFlags &&& ~~~0x003F0000#32 = 0#32 ∧ steady.nic.te = true ∧
      steady.nic.armOrder = [] ∧
      mapped reference steady.plat (atSlot steady.nic.tsad steady.eng.cpu).toNat
        (max (List.replicate 1532 0#8).length 60) = true := by
  decide +kernel

theorem witness_StatusWordsRetireTheOldestSlot :
    (AtReference twoQueued ∧ HandlerReady twoQueued ∧ twoQueued.eng.ringOk = true ∧
    twoQueued.eng.hw ≠ twoQueued.eng.cpu ∧
      (0#1 ||| 1#1 : BitVec 1) = 1#1) ∧
    (AtReference steady ∧ HandlerReady steady ∧ steady.eng.ringOk = true ∧
    steady.eng.hw = steady.eng.cpu) := by decide +kernel

theorem armedOk_twoQueued : ArmedOk twoQueued where
  once := by decide +kernel
  armed := by
    intro i len h
    have hi : i < 4 := lt_of_atSlot_ne twoQueued.nic.tx (by rw [h]; nofun)
    have key : ∀ i < 4, (i = 0 ∨ i = 1) ∨ atSlot twoQueued.nic.tx i = .idle := by decide +kernel
    rcases key i hi with (rfl | rfl) | hidle
    · have : len = 60#13 := by
        have h0 : atSlot twoQueued.nic.tx 0 = .armed 60#13 := by decide +kernel
        exact (SlotState.armed.inj (h.symm.trans h0))
      subst this; decide +kernel
    · have : len = 60#13 := by
        have h1 : atSlot twoQueued.nic.tx 1 = .armed 60#13 := by decide +kernel
        exact (SlotState.armed.inj (h.symm.trans h1))
      subst this; decide +kernel
    · exact absurd (h.symm.trans hidle) (by simp)
  order := by
    intro i h
    have h' : i ∈ [0, 1] := h
    simp only [List.mem_cons, List.not_mem_nil, or_false] at h'
    rcases h' with rfl | rfl
    · exact ⟨60#13, by decide +kernel⟩
    · exact ⟨60#13, by decide +kernel⟩

/-- The start of program P5 meets the statement. -/
theorem witness_LostWakeUpIsARun :
    ArmedOk lostWakeUp ∧
    (AtReference lostWakeUp ∧ Shaped lostWakeUp ∧ SubmitReady lostWakeUp ∧ HandlerReady lostWakeUp ∧ lostWakeUp.eng.ringOk = true ∧
      lostWakeUp.plat.txHeld = true ∧ 60 ≤ (List.replicate 60 0xCC#8).length ∧
      (List.replicate 60 0xCC#8).length + 4 ≤ 1536 ∧ lostWakeUp.eng.cpu = (lostWakeUp.eng.hw + 2) % 4 ∧
      lostWakeUp.plat.params.txThreshFlags &&& ~~~0x003F0000#32 = 0#32 ∧ lostWakeUp.eng.txStopped = false ∧
      lostWakeUp.eng.irqEnabled &&& 0x0004#16 = 0x0004#16 ∧ lostWakeUp.nic.isr = 0#16 ∧
      lostWakeUp.nic.te = true) ∧
    (lostWakeUp.nic.armOrder = [lostWakeUp.eng.hw, (lostWakeUp.eng.hw + 1) % 4] ∧
      atSlot lostWakeUp.nic.tx lostWakeUp.eng.hw = .armed 60#13 ∧
      atSlot lostWakeUp.nic.tx ((lostWakeUp.eng.hw + 1) % 4) = .armed 60#13 ∧
      mapped reference lostWakeUp.plat (atSlot lostWakeUp.nic.tsad lostWakeUp.eng.hw).toNat 60 = true ∧
      mapped reference lostWakeUp.plat (atSlot lostWakeUp.nic.tsad ((lostWakeUp.eng.hw + 1) % 4)).toNat 60 = true ∧
      mapped reference lostWakeUp.plat (atSlot lostWakeUp.nic.tsad ((lostWakeUp.eng.hw + 2) % 4)).toNat
        (List.replicate 60 0xCC#8).length = true) ∧
    lostWakeUp.agenda = List.replicate 6 (.advance .submission) ++
      [.nic (.txComplete lostWakeUp.eng.hw ⟨true, false, false, 0#32⟩),
       .nic (.txComplete ((lostWakeUp.eng.hw + 1) % 4) ⟨true, false, false, 0#32⟩),
       .nic (.txComplete ((lostWakeUp.eng.hw + 2) % 4) ⟨true, false, false, 0#32⟩),
       .request .interrupt .opsel [0x50#8]] ++ List.replicate 22 (.advance .interrupt) :=
  ⟨⟨armedOk_twoQueued.once, armedOk_twoQueued.armed, armedOk_twoQueued.order⟩,
   by decide +kernel, by decide +kernel, rfl⟩

theorem unread_threeRecords :
    Unread threeRecords [(64#16, payload 0x40 60), (64#16, payload 0x80 60), (65#16, payload 0xC0 61)] where
  held := by decide +kernel
  room := by decide +kernel
  offset := by decide +kernel
  readPointer := by decide +kernel
  writePointer := by decide +kernel
  records :=
    ⟨⟨by decide +kernel, by decide +kernel, by decide +kernel, by decide +kernel⟩,
     ⟨by decide +kernel, by decide +kernel, by decide +kernel, by decide +kernel⟩,
     ⟨by decide +kernel, by decide +kernel, by decide +kernel, by decide +kernel⟩, trivial⟩

/-- The second record crosses the end of the buffer; and nothing unread, at an unaligned place too. -/
theorem witness_DrainDeliversEveryRecord :
    (AtReference threeRecords ∧ HandlerReady threeRecords ∧ threeRecords.agenda = []) ∧
    Unread threeRecords [(64#16, payload 0x40 60), (64#16, payload 0x80 60), (65#16, payload 0xC0 61)] ∧
    (∀ s ∈ [unread 4092#16 4092#16 steady, unread 4093#16 4093#16 steady],
      AtReference s ∧ HandlerReady s ∧ s.agenda = [] ∧ s.nic.rxRd = s.nic.rxWr) :=
  ⟨by decide +kernel, unread_threeRecords, by decide +kernel⟩

/-- Sizes 3 and 8189, at the two bounds; the bytes of the header in the buffer. -/
theorem witness_MalformedHeadersAreAFault :
    ∀ x ∈ [(unread 8188#16 0#16 (withBytes 0x00201FFC [1#8, 0#8, 3#8, 0#8] steady), 3#16),
        (unread 0#16 64#16 (withBytes 0x00200000 [1#8, 0#8, 0xFD#8, 0x1F#8] steady), 8189#16)],
      AtReference x.1 ∧ HandlerReady x.1 ∧ RxAligned x.1 ∧ RxInRange x.1 ∧ x.1.plat.rxHeld = true ∧ x.1.agenda = [] ∧
      visible reference x.1.nic x.1.eng.rxOff 4 = true ∧ (x.2.toNat < 4 ∨ 8192 < 4 + x.2.toNat) ∧
      rxByte x.1 (x.1.eng.rxOff.toNat + 2) = x.2.extractLsb' 0 8 ∧
      rxByte x.1 (x.1.eng.rxOff.toNat + 3) = x.2.extractLsb' 8 8 := by decide +kernel

/-- For each clause in order; the shortest and the longest record that can lie unread, across the end of the buffer. -/
theorem witness_HeaderWordParsesItsRecord :
    (AtReference steady ∧ HandlerReady steady ∧ RxAligned steady ∧ RxInRange steady ∧
      steady.nic.rxRd = steady.nic.rxWr) ∧
    (∀ s ∈ [unread 8188#16 8190#16 steady],
      AtReference s ∧ HandlerReady s ∧ RxAligned s ∧ RxInRange s ∧ s.nic.rxRd ≠ s.nic.rxWr ∧
      visible reference s.nic s.eng.rxOff 4 = false ∧ s.agenda = []) ∧
    (∀ s ∈ [unread 8188#16 4#16 (withBytes 0x00201FFC [1#8, 0#8, 4#8, 0#8] steady)],
      AtReference s ∧ HandlerReady s ∧ RxAligned s ∧ RxInRange s ∧
      visible reference s.nic s.eng.rxOff 4 = true ∧ s.plat.rxHeld = true ∧
      ¬ (rxByte s (s.eng.rxOff.toNat + 2) = (5#16).extractLsb' 0 8 ∧
        rxByte s (s.eng.rxOff.toNat + 3) = (5#16).extractLsb' 8 8)) ∧
    (∀ x ∈ [(unread 8188#16 0#16 (withBytes 0x00201FFC [1#8, 0#8, 4#8, 0#8] steady), 4#16, false),
        (unread 8188#16 4#16 (withBytes 0x00201FFC [1#8, 0#8, 4#8, 0#8] steady), 4#16, true),
        (unread 8188#16 8184#16 (withBytes 0x00201FFC [1#8, 0#8, 0xF8#8, 0x1F#8] steady), 8184#16, true)],
      AtReference x.1 ∧ HandlerReady x.1 ∧ RxAligned x.1 ∧ RxInRange x.1 ∧ x.1.agenda = [] ∧
      visible reference x.1.nic x.1.eng.rxOff 4 = true ∧ x.1.plat.rxHeld = true ∧
      rxByte x.1 (x.1.eng.rxOff.toNat + 2) = x.2.1.extractLsb' 0 8 ∧
      rxByte x.1 (x.1.eng.rxOff.toNat + 3) = x.2.1.extractLsb' 8 8 ∧ 4 ≤ x.2.1.toNat ∧ 4 + x.2.1.toNat ≤ 8192 ∧
      visible reference x.1.nic x.1.eng.rxOff ((4 + x.2.1.toNat + 3) / 4 * 4) = x.2.2) := by decide +kernel

/-- The longest frame that fits an empty buffer, at the buffer's last offset. -/
theorem witness_ReceivedFramesAreDelivered :
    ∀ s ∈ [unread 8188#16 8188#16 steady],
      AtReference s ∧ HandlerReady s ∧ RxAligned s ∧ RxInRange s ∧
      [0#8, 0#8, 0#8, 0#8].length = 4 ∧ s.agenda = [] ∧ s.plat.rxHeld = true ∧
      s.nic.rbstart = s.plat.params.rxDmaBase ∧ s.nic.re = true ∧ s.nic.rxRd = s.eng.rxOff ∧
      s.nic.rxWr = s.eng.rxOff ∧ (4 + ((List.replicate 8180 0#8).length + 4) + 3) / 4 * 4 < 8192 := by decide +kernel

theorem witness_NotMineHasNoSideEffect :
    (AtReference steady ∧ steady.plat.irqHeld = true ∧ steady.interrupt.stack = [] ∧ steady.agenda = [] ∧
    steady.nic.isr = 0#16) ∧
    (∀ s ∈ [{ steady with nic := { steady.nic with isr := 0x0010#16 } }],
      AtReference s ∧ s.plat.irqHeld = true ∧ s.interrupt.stack = [] ∧ s.agenda = [] ∧ s.nic.isr ≠ 0#16 ∧
      s.nic.isr &&& s.eng.irqEnabled = 0#16) := by decide +kernel

theorem witness_AcknowledgesExactlyWhatItRead :
    ∀ s ∈ [{ steady with nic := { steady.nic with isr := 0x0004#16 }, interrupt := ⟨[.onInterrupt .i1], none⟩ }],
      AtReference s ∧ s.interrupt.stack = [.onInterrupt .i1] ∧ s.nic.isr ≠ 0#16 := by decide +kernel

/-- All three routed over three unread records; and nothing routed, with nothing known of the rings. -/
theorem witness_RoutesLinkThenReceiveThenTransmit :
    (∃ s recs m, AtReference s ∧ Shaped s ∧ s.plat.irqHeld = true ∧ s.interrupt.stack = [] ∧ s.agenda = [] ∧ s.nic.isr ≠ 0#16 ∧
      m = s.nic.isr &&& s.eng.irqEnabled ∧ (m &&& 0x0003#16 ≠ 0#16 ∧ Unread s recs) ∧
      (m &&& 0x000C#16 ≠ 0#16 ∧ s.eng.ringOk = true)) ∧
    (∀ s ∈ [{ down with nic := { down.nic with isr := 0x0020#16 }, plat := { down.plat with irqHeld := true } }],
      AtReference s ∧ Shaped s ∧ s.plat.irqHeld = true ∧ s.interrupt.stack = [] ∧ s.agenda = [] ∧ s.nic.isr ≠ 0#16 ∧
      ¬ s.nic.isr &&& s.eng.irqEnabled &&& 0x0003#16 ≠ 0#16 ∧
      ¬ s.nic.isr &&& s.eng.irqEnabled &&& 0x000C#16 ≠ 0#16) :=
  ⟨⟨{ threeRecords with nic := { threeRecords.nic with isr := 0x002F#16 } },
    [(64#16, payload 0x40 60), (64#16, payload 0x80 60), (65#16, payload 0xC0 61)], 0x002F#16,
    by decide +kernel, by decide +kernel, by decide +kernel, by decide +kernel, by decide +kernel, by decide +kernel,
    by decide +kernel,
    ⟨by decide +kernel, by decide +kernel, by decide +kernel, by decide +kernel, by decide +kernel, by decide +kernel,
     ⟨by decide +kernel, by decide +kernel, by decide +kernel, by decide +kernel⟩,
     ⟨by decide +kernel, by decide +kernel, by decide +kernel, by decide +kernel⟩,
     ⟨by decide +kernel, by decide +kernel, by decide +kernel, by decide +kernel⟩, trivial⟩,
    by decide +kernel, by decide +kernel⟩,
   by decide +kernel⟩

/-- The four cases. -/
theorem witness_CheckReportsEdges :
    ∀ l ∈ [Link.down, Link.up], ∀ b ∈ [true, false],
      ∀ s ∈ [{ steady with eng := { steady.eng with linkPrev := l }, nic := { steady.nic with linkBad := b } }],
        AtReference s ∧ HandlerReady s ∧ s.agenda = [] ∧ s.eng.linkPrev = l ∧ s.nic.linkBad = b := by decide +kernel

theorem witness_LinkSequenceReportsEachChangeOnce : AtReference steady ∧ HandlerReady steady ∧
    steady.agenda = [] := by decide +kernel

theorem witness_OpenReachesSteadyState :
    ∀ n ∈ [0, 999], ∀ s ∈ [{ down with
        agenda := List.replicate (5 + 3 * n) (.advance .bringup) ++ [.nic .resetDone] }],
      AtReference s ∧ BringupReady s ∧ n < 1000 ∧ s.plat.grantIrq = true ∧ s.plat.grantTx = true ∧
      s.plat.grantRx = true := by decide +kernel

theorem witness_OpenFailureReleasesEverything :
    ∀ irq ∈ [true, false], ∀ tx ∈ [true, false], ∀ rx ∈ [true, false],
      ∀ s ∈ [{ down with plat := { down.plat with grantIrq := irq, grantTx := tx, grantRx := rx } }],
        AtReference s ∧ BringupReady s ∧ s.agenda = [] ∧ s.plat.grantIrq = irq ∧ s.plat.grantTx = tx ∧
        s.plat.grantRx = rx := by decide +kernel

theorem witness_CloseReleasesEverything :
    (steady.eng.lifecycle = .up ∧ AtReference steady ∧ AllIdle steady ∧ steady.agenda = []) ∧
    (∀ s ∈ [{ steady with bringup := ⟨[.closeBlock .x2], none⟩, interrupt := ⟨[.onInterrupt .i7], none⟩ }],
      s.bringup = ⟨[.closeBlock .x2], none⟩ ∧ s.interrupt.stack ≠ []) := by decide +kernel

theorem witness_WrongLifecycleIsRefused :
    (steady.eng.lifecycle = .up ∧ steady.bringup.stack = [] ∧ addressOk steady.plat.values 63#16 = true) ∧
    (down.eng.lifecycle = .down ∧ down.bringup.stack = [] ∧ down.interrupt.stack = [] ∧ down.plat.irqHeld = false) ∧
    (∀ s ∈ [{ steady with interrupt := ⟨[.onInterrupt .i1], none⟩ }], s.interrupt.stack ≠ []) ∧
    (∀ s ∈ [{ down with bringup := ⟨[.reset .t4], none⟩ }, { steady with bringup := ⟨[.closeBlock .x5], none⟩ }],
      s.bringup.stack ≠ [] ∧ addressOk s.plat.values 63#16 = true ∧
      (Instr.read32 0xFC#8).wellFormed s.plat.values = true) ∧
    (∀ s ∈ [{ down with plat := { down.plat with irqHeld := true } }],
      s.eng.lifecycle = .down ∧ s.interrupt.stack = [] ∧ s.plat.irqHeld = true) ∧
    (∀ s ∈ [{ down with submission := ⟨[.submit .s5a], none⟩ }, { down with interrupt := ⟨[.onInterrupt .i7], none⟩ }],
      s.bringup.stack = [] ∧ s.eng.lifecycle = .down ∧ (s.submission.stack ≠ [] ∨ s.interrupt.stack ≠ [])) ∧
    (∀ s ∈ [{ steady with submission := ⟨[.submit .s5a], none⟩ },
        { steady with interrupt := ⟨[.onInterrupt .i7], none⟩ }],
      s.bringup.stack = [] ∧ s.eng.lifecycle = .up ∧ (s.submission.stack ≠ [] ∨ s.interrupt.stack ≠ [])) ∧
    (isAccessor (.read32 0xFC#8) = true ∧ (Instr.read32 0xFC#8).wellFormed reference = true) := by decide +kernel

theorem witness_TransmitCompletesInArmingOrder :
    atSlot twoQueued.nic.tx 0 = .armed 60#13 ∧ twoQueued.nic.armOrder = 0 :: [1] ∧ twoQueued.nic.te = true ∧
      ((⟨false, true, false, 0#32⟩ : TxOutcome).tok = true ∨ (⟨false, true, false, 0#32⟩ : TxOutcome).tun = true ∨
        (⟨false, true, false, 0#32⟩ : TxOutcome).tabt = true) ∧
      mapped reference twoQueued.plat (atSlot twoQueued.nic.tsad 0).toNat (60#13).toNat = true ∧
      (1 : Nat) ≠ 0 := by
  decide +kernel

theorem witness_NicTouchesOnlyDeviceState :
    (∀ m ∈ [NicMove.resetDone, .txComplete 0 ⟨true, false, false, 0#32⟩,
        .rxRecord 1#16 (payload 0x80 60) [0#8, 0#8, 0#8, 0#8] false, .padWrite 15 0#8],
      look (nicStep reference m twoQueued) (fun _ => ()) = some ()) ∧
    (0x001FFFFF < twoQueued.plat.params.rxDmaBase.toNat ∧
      twoQueued.plat.params.rxDmaBase.toNat + 8208 ≤ 0x00202010) ∧
    (∀ s ∈ [unread 8188#16 64#16 steady], RxInRange s ∧ 67 < distance reference s.nic.rxRd s.nic.rxWr ∧
      look (nicStep reference (.rxRecord 1#16 (payload 0x80 60) [0#8, 0#8, 0#8, 0#8] false) s) (fun _ => ()) =
        some ()) := by decide +kernel

theorem contextsOk_twoQueued : ContextsOk twoQueued := ⟨by decide, by decide, by decide⟩

theorem session_twoQueued : Session twoQueued where
  contexts := contextsOk_twoQueued
  stage := .inr (by decide +kernel)
  submitting h := absurd rfl h
  handling h := absurd rfl h
  routed h := absurd h (by decide)
  submitSizes := trivial
  drainSizes := trivial

/-- A session in the middle of an interrupt, with a `submit` next on the agenda: every invariant, and a step that
answers a next state. -/
def middle : State :=
  { lostWakeUp with
    interrupt := ⟨[.reconcile .c1, .onInterrupt .i7], none⟩
    agenda := [.request .submission .opsel (0x30#8 :: List.replicate 60 0xCC#8)] }

theorem witness_invariants :
    AtReference middle ∧ Shaped middle ∧ 0 < middle.plat.values.nTx ∧ RxInRange middle ∧ MemCanonical middle ∧ MemHeld middle ∧ RxAligned middle ∧
    ArmedOk middle ∧ Session middle ∧
      look (step middle) (fun t => (t.submission.result, t.interrupt.stack.length)) = some (some .full, 2) :=
  ⟨by decide +kernel, by decide +kernel, by decide +kernel, by decide +kernel, by decide +kernel, fun _ h => absurd h (List.not_mem_nil),
   by decide +kernel,
   ⟨armedOk_twoQueued.once, armedOk_twoQueued.armed, armedOk_twoQueued.order⟩,
   { contexts := ⟨by decide, by decide, by decide⟩
     stage := .inr (by decide +kernel)
     submitting := fun h => absurd rfl h
     handling := fun _ => by decide +kernel
     routed := fun _ => by decide +kernel
     submitSizes := trivial
     drainSizes := trivial },
   by decide +kernel⟩

/-- One labelled step of each context from a state whose contexts are in order. -/
theorem witness_EachRegisterHasItsWriter :
    ContextsOk { twoQueued with submission := ⟨[.submit (.s4 2)], none⟩
                                interrupt := ⟨[.reconcile (.c2e 2 0), .onInterrupt .i7], none⟩ } ∧
    look (advance .submission { twoQueued with submission := ⟨[.submit (.s4 2)], none⟩ }) (fun t => t.eng.cpu) =
      some 3 ∧
    look (advance .interrupt { twoQueued with
      interrupt := ⟨[.reconcile (.c2e 2 0), .onInterrupt .i7], none⟩ }) (fun t => t.eng.hw) = some 1 ∧
    look (advance .bringup { steady with bringup := ⟨[.closeBlock .x1], none⟩ }) (fun t => t.eng.irqEnabled) =
      some 0#16 := ⟨⟨by decide, by decide, by decide⟩, by decide +kernel, by decide +kernel, by decide +kernel⟩

end Sys2Proof.Tests
end

section
/-! # What steps keep

SUPPORT, for every configuration record: what one labelled step of a context can do to the whole state, said once, and
the reduction of "every step keeps `P`" to it. -/

namespace Sys2Proof.Machine

open Config (reference)

/-! ## The effects of labelled steps -/

/-- What a labelled step can do to the state, by the context that takes it (R24); where it sends control is `ctlOk`'s
subject and not this one's. -/
inductive LabelEffect (K : Config.Values) (s : State) : Ctx → State → Prop where
  | keep {c : Ctx} : LabelEffect K s c s
  | window {c : Ctx} (off : Nat) (bs : List Byte) : LabelEffect K s c (regWrite K off bs s)
  | draw : LabelEffect K s .bringup (drew 1 s)
  | clearIndices : LabelEffect K s .bringup (zeroIndices s)
  | loseIndices : LabelEffect K s .bringup (afterTimeout K s)
  | storeAddress (i : Nat) (w : Half) : LabelEffect K s .bringup (storeHwAddr i w s)
  | holdIrq : LabelEffect K s .bringup { s with plat := { s.plat with irqHeld := true } }
  | holdTx : LabelEffect K s .bringup { s with plat := { s.plat with txHeld := true, gen := s.plat.gen + 1 } }
  | holdRx : LabelEffect K s .bringup { s with plat := { s.plat with rxHeld := true } }
  | releaseIrq (h : s.interrupt.stack = []) : LabelEffect K s .bringup (releaseIrqLine s)
  | releaseTx : LabelEffect K s .bringup (releaseTxBuf K s)
  | releaseRx : LabelEffect K s .bringup (releaseRxBuf K s)
  | initRegisters : LabelEffect K s .bringup (initEngine s)
  | enable (v : Half) : LabelEffect K s .bringup (setIrqEnabled K v s)
  | lifecycle (l : Lifecycle) : LabelEffect K s .bringup (setLifecycle l s)
  | store {t : State} (a : Nat) (bs : List Byte) (h : memWrite K s a bs = some t) : LabelEffect K s .submission t
  | queue (i : Nat) : LabelEffect K s .submission (storeCpu (nextSlot K i) s)
  | stop : LabelEffect K s .submission { s with eng := { s.eng with txStopped := true } }
  | report (e : Event) : LabelEffect K s .interrupt (emit e s)
  | reportError (u a : Bool) : LabelEffect K s .interrupt (reportError K u a s)
  | retire : LabelEffect K s .interrupt (retireSlot K s)
  | resume (old : Nat) : LabelEffect K s .interrupt (resumeIf old s)
  | consume (z : Half) : LabelEffect K s .interrupt (advanceRx K z s)
  | link (bad : Bool) : LabelEffect K s .interrupt (linkEdge bad s)

section
variable {K : Config.Values} {s t : State} {k : Ctl}

theorem resetStep_effect {l : ResetAt} (h : resetStep K l s = .go t k) : LabelEffect K s .bringup t := by
  cases l with
  | t1 => cases h; exact .window _ _
  | t2a i | t2b i v | t2c i => cases h; exact .keep
  | t3 => cases h; exact .clearIndices
  | t4 => cases h; exact .loseIndices

theorem readWordStep_effect {l : ReadWordAt} (h : readWordStep K l s = .go t k) : LabelEffect K s .bringup t := by
  cases l with
  | e5b i v =>
    cases h
    unfold afterSample
    split
    · exact .keep
    · exact .draw
  | e7 v => cases h; exact .keep
  | _ => cases h; exact .window _ _

theorem hwAddrStep_effect {l : HwAddrAt} (h : hwAddrStep K l s = .go t k) : LabelEffect K s .bringup t := by
  cases l with
  | call i => cases h; exact .keep
  | store i =>
    simp only [hwAddrStep] at h
    split at h <;> cases h <;> exact .storeAddress _ _

theorem openStep_effect {l : OpenAt} (h : openStep K l s = .go t k) : LabelEffect K s .bringup t := by
  cases l with
  | o1 =>
    simp only [openStep, raiseResult] at h
    split at h <;> cases h
    · exact .holdIrq
    · exact .keep
  | o2 =>
    simp only [openStep] at h
    split at h <;> cases h
    · exact .holdTx
    · exact .keep
  | o3 =>
    simp only [openStep] at h
    split at h <;> cases h
    · exact .holdRx
    · exact .keep
  | o4 => cases h; exact .keep
  | o4r => simp only [openStep] at h; split at h <;> cases h <;> exact .keep
  | o5 => cases h; exact .initRegisters
  | o6 i | o7 | o8 | o9 => cases h; exact .window _ _
  | o10 => cases h; exact .enable _
  | o11 => cases h; exact .lifecycle _
  | releaseRx e => cases h; exact .releaseRx
  | releaseTx e => cases h; exact .releaseTx
  | releaseIrq e =>
    simp only [openStep, raiseResult] at h
    split at h <;> cases h
    · exact .releaseIrq (by simpa using ‹idle .interrupt s = true›)
    · exact .keep

theorem closeStep_effect {l : CloseAt} (h : closeStep K l s = .go t k) : LabelEffect K s .bringup t := by
  cases l with
  | x1 => cases h; exact .enable _
  | x2 =>
    simp only [closeStep] at h
    split at h <;> cases h
    · exact .releaseIrq (by simpa using ‹idle .interrupt s = true›)
    · exact .keep
  | x3 => cases h; exact .releaseTx
  | x4 => cases h; exact .releaseRx
  | x5 => cases h; exact .lifecycle _

theorem submitStep_effect {l : SubmitAt} (h : submitStep K l s = .go t k) : LabelEffect K s .submission t := by
  cases l with
  | s1 f =>
    simp only [submitStep, raiseResult] at h
    split at h
    · cases h; exact .keep
    · obtain ⟨-, h⟩ := withRing_go h
      split at h <;> cases h
      exact .keep
  | s2a f i =>
    simp only [submitStep] at h
    split at h
    · exact .store _ _ (storeStep_go h).1
    · cases h; exact .keep
  | s2b f i => exact .store _ _ (storeStep_go h).1
  | s3 z i => cases h; exact .window _ _
  | s4 i => cases h; exact .queue _
  | s5a => obtain ⟨-, h⟩ := withRing_go h; cases h; exact .keep
  | s5b x =>
    obtain ⟨-, h⟩ := withRing_go h
    split at h <;> cases h
    · exact .stop
    · exact .keep

theorem reconcileStep_effect {l : ReconcileAt} (h : reconcileStep K l s = .go t k) :
    LabelEffect K s .interrupt t := by
  cases l with
  | c1 | c2a c old | c2b c old => obtain ⟨-, h⟩ := withRing_go h; cases h; exact .keep
  | c2c c old z => cases h; exact .report _
  | c2d c old u a => cases h; exact .reportError _ _
  | c2e c old => obtain ⟨-, h⟩ := withRing_go h; cases h; exact .retire
  | c3 old => obtain ⟨-, h⟩ := withRing_go h; cases h; exact .resume _

theorem drainStep_effect {l : DrainAt} (h : drainStep K l s = .go t k) : LabelEffect K s .interrupt t := by
  cases l with
  | d1 => simp only [drainStep] at h; split at h <;> cases h <;> exact .keep
  | d2 => simp only [drainStep, withHeader] at h; split_ifs at h; split at h <;> cases h; exact .keep
  | d3 z => simp only [drainStep] at h; split at h <;> cases h; exact .keep
  | d4 z => simp only [drainStep, withPayload] at h; split_ifs at h; split at h <;> cases h; exact .keep
  | d5 z p => cases h; exact .report _
  | d6a z => cases h; exact .consume _
  | d6b => cases h; exact .window _ _

theorem interruptStep_effect {l : InterruptAt} (h : interruptStep K l s = .go t k) :
    LabelEffect K s .interrupt t := by
  cases l with
  | i1 => simp only [interruptStep, raiseResult] at h; split at h <;> cases h <;> exact .keep
  | i2 v => cases h; exact .window _ _
  | i4 m | i5 m | i6 m => simp only [interruptStep] at h; split at h <;> cases h <;> exact .keep
  | i3 v | i7 => cases h; exact .keep

theorem checkStep_effect {l : CheckAt} (h : checkStep K l s = .go t k) : LabelEffect K s .interrupt t := by
  cases l with
  | l1 => cases h; exact .keep
  | l2 bad => cases h; exact .link _

/-- Every labelled step is an effect of its own context. -/
theorem frameStep_effect {f : Frame} (h : frameStep K f s = .go t k) : LabelEffect K s (frameContext f) t := by
  cases f with
  | reset l => exact resetStep_effect h
  | readWord l => exact readWordStep_effect h
  | hwAddr l => exact hwAddrStep_effect h
  | submit l => exact submitStep_effect h
  | reconcile l => exact reconcileStep_effect h
  | drain l => exact drainStep_effect h
  | onInterrupt l => exact interruptStep_effect h
  | check l => exact checkStep_effect h
  | openBlock l => exact openStep_effect h
  | closeBlock l => exact closeStep_effect h

end

/-! ## From effects to steps -/

/-- An operation that is one atomic step does in sequence what labelled steps do. -/
theorem AtomicEffect.keeps {P : State → Prop} {K : Config.Values}
    (label : ∀ c s t, s.plat.values = K → P s → LabelEffect K s c t → P t) {s t : State} (hv : s.plat.values = K)
    (hs : P s) (h : AtomicEffect K s t) : P t := by
  cases h with
  | none => exact hs
  | read => exact label _ _ _ hv hs .draw
  | write off bs => exact label _ _ _ hv hs (.window (c := .bringup) off bs)
  | command a =>
    unfold sendCommand
    generalize (List.range K.eeCmdBits).reverse = ks
    induction ks generalizing s with
    | nil => exact hs
    | cons k ks ih =>
      have low := label _ _ _ hv hs (.window (c := .bringup) K.eecr.off [clockLow K (commandBit K a k)])
      have high := label _ _ _ (by simpa using hv) low
        (.window (c := .bringup) K.eecr.off [clockHigh K (commandBit K a k)])
      exact ih (by simpa [sendBit, write8] using hv) high
  | retire e hr => exact label _ _ _ (by simpa using hv) (label _ _ _ hv hs (.report e)) .retire
  | retireError u a hr =>
    exact label _ _ _ (by simpa [reportError, write16] using hv) (label _ _ _ hv hs (.reportError u a)) .retire
  | record z p hz =>
    have delivered := label _ _ _ hv hs (.report (.delivered p))
    have consumed := label _ _ _ (by simpa using hv) delivered (.consume z)
    exact label _ _ _ (by simpa using hv) consumed (.window (c := .bringup) _ _)

/-- A property that control does not touch and every effect keeps is kept by every step. -/
theorem StepKeeps.of_effects {P : State → Prop} (control : ∀ c x s, P s → P (setContext c x s))
    (agenda : ∀ s a, P s → P { s with agenda := a })
    (label : ∀ c s t, P s → LabelEffect s.plat.values s c t → P t)
    (nic : ∀ m s t, P s → nicStep s.plat.values m s = .next t → P t) (setCfg : ∀ c s, P s → P (hostSetCfg c s))
    (grants : ∀ i t r s, P s → P (platformGrants i t r s)) : StepKeeps P where
  agenda := agenda
  nic := nic
  setCfg := setCfg
  grants := grants
  advance := advance_keeps (fun c k s hs => by cases k <;> exact control _ _ _ hs)
    (fun f s t k hs h => label _ _ _ hs (frameStep_effect h))
  begins i s t hs h := by
    obtain ⟨-, ⟨f, -, rfl⟩ | ⟨u, r, -, hu, rfl⟩⟩ := beginInstr_next h
    · exact control _ _ _ hs
    · exact control _ _ _ (hu.keeps (fun c a b hv ha hb => label c a b ha (by rwa [hv])) rfl hs)

/-- A register write keeps what each register it reaches keeps. -/
theorem regWrite_keeps {P : State → Prop} {K : Config.Values} {off : Nat} {bs : List Byte}
    (h : ∀ s row, P s → P (writeReg K off bs s row)) {s : State} (hs : P s) : P (regWrite K off bs s) :=
  List.foldlRecOn _ _ hs fun s hs row _ => h s row hs

end Sys2Proof.Machine
end

section
/-! # What no step changes, and who writes what (R22, R24, R29, R30) -/

namespace Sys2Proof.Machine

open Config (reference)

/-! ## The cells, the parameters and the configuration record -/

/-- The EEPROM's cells, the OPEN parameters and the configuration record of `t` are those of `s`. -/
structure SameMachine (s t : State) : Prop where
  cells : t.ee.cells = s.ee.cells
  params : t.plat.params = s.plat.params
  values : t.plat.values = s.plat.values

theorem SameMachine.trans {s t u : State} (h : SameMachine s t) (g : SameMachine t u) : SameMachine s u :=
  ⟨g.cells.trans h.cells, g.params.trans h.params, g.values.trans h.values⟩

theorem StepFrame.sameMachine {s t : State} (h : StepFrame s t) : SameMachine s t := ⟨h.cells, h.params, h.values⟩

theorem LabelEffect.sameMachine {K : Config.Values} {s t : State} {c : Ctx} (h : LabelEffect K s c t) :
    SameMachine s t := by
  cases h with
  | window off bs => exact (StepFrame.regWrite K off bs s).sameMachine
  | storeAddress i w => obtain ⟨v, h⟩ := storeHwAddr_frame i w s; rw [h]; exact ⟨rfl, rfl, rfl⟩
  | enable v => exact (setIrqEnabled_stepFrame K v s).sameMachine
  | store a bs h => exact (memWrite_stepFrame h).sameMachine
  | reportError u a => constructor <;> simp [Machine.reportError, write16, regWrite_cells]
  | resume old => unfold resumeIf; split <;> exact ⟨rfl, rfl, rfl⟩
  | link bad => exact (linkEdge_stepFrame bad s).sameMachine
  | _ => exact ⟨rfl, rfl, rfl⟩

theorem nicStep_sameMachine {K : Config.Values} {m : NicMove} {s t : State} (h : nicStep K m s = .next t) :
    SameMachine s t := by
  obtain ⟨n, e, mm, d, k, rfl, he⟩ := nicStep_frame m s t h
  exact ⟨he, rfl, rfl⟩

theorem hostSetCfg_sameMachine (c : Cfg) (s : State) : SameMachine s (hostSetCfg c s) := by
  obtain ⟨c', h⟩ := hostSetCfg_frame c s
  rw [h]; exact ⟨rfl, rfl, rfl⟩

theorem sameMachine_kept (s₀ : State) : StepKeeps (SameMachine s₀) :=
  .of_effects (fun c x s h => h.trans (by cases c <;> exact ⟨rfl, rfl, rfl⟩))
    (fun s a h => h.trans ⟨rfl, rfl, rfl⟩) (fun c s t h g => h.trans g.sameMachine)
    (fun m s t h g => h.trans (nicStep_sameMachine g)) (fun c s h => h.trans (hostSetCfg_sameMachine c s))
    (fun i t r s h => h.trans ⟨rfl, rfl, rfl⟩)

theorem atReference_kept : StepKeeps AtReference :=
  .of_effects (fun c x s h => by rwa [AtReference, setContext_plat]) (fun s a h => h)
    (fun c s t h g => g.sameMachine.values.trans h) (fun m s t h g => (nicStep_sameMachine g).values.trans h)
    (fun c s h => (hostSetCfg_sameMachine c s).values.trans h) (fun i t r s h => h)

/-- `StepKeeps.of_effects` for what holds at the reference values, which no step changes. -/
theorem StepKeeps.of_effects_atReference {P : State → Prop} (control : ∀ c x s, P s → P (setContext c x s))
    (agenda : ∀ s a, P s → P { s with agenda := a })
    (label : ∀ c s t, P s → LabelEffect reference s c t → P t)
    (nic : ∀ m s t, P s → nicStep reference m s = .next t → P t) (setCfg : ∀ c s, P s → P (hostSetCfg c s))
    (grants : ∀ i t r s, P s → P (platformGrants i t r s)) : StepKeeps (fun s => AtReference s ∧ P s) :=
  .of_effects (fun c x s ⟨hv, hs⟩ => ⟨by rwa [AtReference, setContext_plat], control _ _ _ hs⟩)
    (fun s a ⟨hv, hs⟩ => ⟨hv, agenda _ _ hs⟩)
    (fun c s t ⟨hv, hs⟩ g => ⟨g.sameMachine.values.trans hv, label _ _ _ hs (hv ▸ g)⟩)
    (fun m s t ⟨hv, hs⟩ g => ⟨atReference_kept.nic _ _ _ hv g, nic _ _ _ hs (hv ▸ g)⟩)
    (fun c s ⟨hv, hs⟩ => ⟨atReference_kept.setCfg _ _ hv, setCfg _ _ hs⟩)
    (fun i t r s ⟨hv, hs⟩ => ⟨hv, grants _ _ _ _ hs⟩)

/-! ## The shape: one entry for each slot, indexes that are slots -/

/-- The slot-indexed registers and states of the NIC have an entry for each slot. -/
def NicShaped (K : Config.Values) (n : Nic) : Prop :=
  n.tsd.length = K.nTx ∧ n.tsad.length = K.nTx ∧ n.tx.length = K.nTx

/-- `cpu` and `hw` are slots and `hw_addr` has its bytes. -/
def EngineShaped (K : Config.Values) (e : Engine) : Prop :=
  (e.cpu < K.nTx ∧ e.hw < K.nTx) ∧ e.hwAddr.length = 2 * K.eeHwAddrWords

theorem shaped_iff {s : State} :
    Shaped s ↔ NicShaped s.plat.values s.nic ∧ EngineShaped s.plat.values s.eng := Iff.rfl

theorem writeReg_nicShaped {K : Config.Values} {off : Nat} {bs : List Byte} (s : State) (row : Config.RegRow)
    (h : NicShaped K s.nic) : NicShaped K (writeReg K off bs s row).nic := by
  unfold writeReg
  cases row.reg with
  | tsd i => simpa [NicShaped, armSlot] using h
  | tsad i => simpa [NicShaped] using h
  | _ => exact h

theorem regWrite_nicShaped {K : Config.Values} {off : Nat} {bs : List Byte} {s : State}
    (h : NicShaped K s.nic) : NicShaped K (regWrite K off bs s).nic :=
  regWrite_keeps (P := fun s => NicShaped K s.nic) writeReg_nicShaped h

theorem nicAfterTimeout_shaped (K : Config.Values) (s : State) : NicShaped K (nicAfterTimeout K s) := by
  simp [NicShaped, nicAfterTimeout, nicUnspecified]

theorem nicAfterReset_shaped (K : Config.Values) (s : State) : NicShaped K (nicAfterReset K s) := by
  simp [NicShaped, nicAfterReset, nicUnspecified]

theorem storeHwAddr_length (i : Nat) (w : Half) (s : State) :
    (storeHwAddr i w s).eng.hwAddr.length = s.eng.hwAddr.length := by
  unfold storeHwAddr; split <;> simp

theorem linkEdge_eng (bad : Bool) (s : State) : ∃ l, (linkEdge bad s).eng = { s.eng with linkPrev := l } := by
  obtain h | ⟨e, l, h⟩ := linkEdge_cases bad s <;> rw [h] <;> exact ⟨_, rfl⟩

theorem resumeIf_eng (old : Nat) (s : State) :
    (resumeIf old s).eng = s.eng ∨ (resumeIf old s).eng = { s.eng with txStopped := false } := by
  unfold resumeIf; split
  · exact .inr rfl
  · exact .inl rfl

theorem linkEdge_nic (bad : Bool) (s : State) : (linkEdge bad s).nic = s.nic := by
  unfold linkEdge; split <;> rfl

theorem resumeIf_nic (old : Nat) (s : State) : (resumeIf old s).nic = s.nic := by
  unfold resumeIf; split <;> rfl

theorem storeHwAddr_nic (i : Nat) (w : Half) (s : State) : (storeHwAddr i w s).nic = s.nic := by
  obtain ⟨v, h⟩ := storeHwAddr_frame i w s; rw [h]

theorem LabelEffect.nicShaped {K : Config.Values} {s t : State} {c : Ctx} (h : LabelEffect K s c t)
    (hs : NicShaped K s.nic) : NicShaped K t.nic := by
  cases h with
  | window off bs => exact regWrite_nicShaped hs
  | loseIndices => exact nicAfterTimeout_shaped K s
  | storeAddress i w => rwa [storeHwAddr_nic]
  | enable v => exact regWrite_nicShaped hs
  | store a bs h => obtain ⟨-, rfl⟩ := memWrite_some h; exact hs
  | reportError u a => exact regWrite_nicShaped hs
  | resume old => rwa [resumeIf_nic]
  | link bad => rwa [linkEdge_nic]
  | _ => exact hs

theorem nextSlot_lt {K : Config.Values} (h : 0 < K.nTx) (i : Nat) : nextSlot K i < K.nTx := Nat.mod_lt _ h

theorem LabelEffect.engineShaped {K : Config.Values} {s t : State} {c : Ctx} (h : LabelEffect K s c t)
    (hn : 0 < K.nTx) (hs : EngineShaped K s.eng) : EngineShaped K t.eng := by
  obtain ⟨⟨hcpu, hhw⟩, hlen⟩ := hs
  cases h with
  | window off bs => rw [regWrite_eng]; exact ⟨⟨hcpu, hhw⟩, hlen⟩
  | clearIndices => exact ⟨⟨hn, hn⟩, hlen⟩
  | loseIndices => exact ⟨⟨Nat.mod_lt _ hn, Nat.mod_lt _ hn⟩, hlen⟩
  | storeAddress i w =>
    have hl := storeHwAddr_length i w s
    obtain ⟨v, h⟩ := storeHwAddr_frame i w s
    rw [h] at hl ⊢
    exact ⟨⟨hcpu, hhw⟩, hl.trans hlen⟩
  | enable v => rw [setIrqEnabled, write16, regWrite_eng]; exact ⟨⟨hcpu, hhw⟩, hlen⟩
  | store a bs h => obtain ⟨-, rfl⟩ := memWrite_some h; exact ⟨⟨hcpu, hhw⟩, hlen⟩
  | queue i => exact ⟨⟨nextSlot_lt hn i, hhw⟩, hlen⟩
  | reportError u a => rw [Machine.reportError, write16, regWrite_eng]; exact ⟨⟨hcpu, hhw⟩, hlen⟩
  | retire => exact ⟨⟨hcpu, nextSlot_lt hn _⟩, hlen⟩
  | resume old => obtain h | h := resumeIf_eng old s <;> rw [h] <;> exact ⟨⟨hcpu, hhw⟩, hlen⟩
  | link bad => obtain ⟨l, h⟩ := linkEdge_eng bad s; rw [h]; exact ⟨⟨hcpu, hhw⟩, hlen⟩
  | _ => exact ⟨⟨hcpu, hhw⟩, hlen⟩

theorem devTxComplete_next {K : Config.Values} {i : Nat} {o : TxOutcome} {s t : State}
    (h : devTxComplete K i o s = .next t) : t = s ∨ ∃ bytes, t = { s with nic := nicCompleted K i o bytes s.nic } := by
  unfold devTxComplete at h
  split at h
  · split at h
    · split at h <;> cases h
      exact .inr ⟨_, rfl⟩
    · cases h; exact .inl rfl
  · cases h; exact .inl rfl
  · cases h; exact .inl rfl

theorem devRxRecord_next {K : Config.Values} {st : Half} {frame fcs : List Byte} {bad : Bool} {s t : State}
    (h : devRxRecord K st frame fcs bad s = .next t) :
    t = s ∨ (rxTargetMapped K s = true ∧ ∃ isr, t = { s with
      mem := writeRecord K s.nic.rbstart.toNat s.nic.rxWr.toNat st frame fcs s.mem
      nic := { s.nic with
        rxWr := advanceOffset K s.nic.rxWr (footprint K (frame.length + K.fcsLen)), isr := isr } }) := by
  unfold devRxRecord at h
  split at h
  · split at h <;> cases h
    exact .inr ⟨‹_›, _, rfl⟩
  · cases h; exact .inl rfl

theorem devPadWrite_next {K : Config.Values} {k : Nat} {b : Byte} {s t : State} (h : devPadWrite K k b s = .next t) :
    t = s ∨ (k < K.rxGuardPad ∧ rxTargetMapped K s = true ∧
      t = { s with mem := Memory.set s.mem (s.nic.rbstart.toNat + K.rxBufLen + k) b }) := by
  unfold devPadWrite at h
  split at h
  · rename_i hk
    simp only [Bool.and_eq_true, decide_eq_true_eq] at hk
    split at h <;> cases h
    exact .inr ⟨hk.2, ‹_›, rfl⟩
  · cases h; exact .inl rfl

theorem nicStep_nicShaped {K : Config.Values} {m : NicMove} {s t : State} (h : nicStep K m s = .next t)
    (hs : NicShaped K s.nic) : NicShaped K t.nic := by
  cases m with
  | resetDone =>
    cases h; unfold devResetDone; split
    · exact nicAfterReset_shaped K s
    · exact hs
  | txComplete i o =>
    obtain rfl | ⟨bytes, rfl⟩ := devTxComplete_next h
    · exact hs
    · simpa [NicShaped, nicCompleted] using hs
  | rxRecord st f fcs bad =>
    obtain rfl | ⟨-, isr, rfl⟩ := devRxRecord_next h <;> exact hs
  | link b => cases h; exact hs
  | retrigger => cases h; unfold devRetrigger; split <;> exact hs
  | isrUnnamed b => cases h; exact hs
  | tsdUnnamed i b =>
    cases h; unfold devTsdUnnamed; split
    · exact hs
    · simpa [NicShaped] using hs
    · simpa [NicShaped] using hs
  | padWrite k b => obtain rfl | ⟨-, -, rfl⟩ := devPadWrite_next h <;> exact hs

theorem shaped_of_parts {s t : State} (hv : t.plat.values = s.plat.values) (hn : NicShaped s.plat.values t.nic)
    (he : EngineShaped s.plat.values t.eng) : Shaped t := by
  rw [shaped_iff, hv]; exact ⟨hn, he⟩

/-- With at least one slot, every step keeps the shape. -/
theorem shaped_kept : StepKeeps (fun s => 0 < s.plat.values.nTx ∧ Shaped s) := by
  refine .of_effects ?control ?agenda ?label ?nic ?setCfg ?grants
  case control => rintro c x s ⟨hn, hs⟩; cases c <;> exact ⟨hn, hs⟩
  case agenda => exact fun s a h => h
  case label =>
    rintro c s t ⟨hn, hs⟩ h
    obtain ⟨hnic, heng⟩ := shaped_iff.1 hs
    have hv := h.sameMachine.values
    exact ⟨hv ▸ hn, shaped_of_parts hv (h.nicShaped hnic) (h.engineShaped hn heng)⟩
  case nic =>
    rintro m s t ⟨hn, hs⟩ h
    obtain ⟨hnic, heng⟩ := shaped_iff.1 hs
    have hnic' := nicStep_nicShaped h hnic
    obtain ⟨n, e, mm, d, k, rfl, -⟩ := nicStep_frame m s t h
    exact ⟨hn, shaped_of_parts rfl hnic' heng⟩
  case setCfg =>
    rintro c s ⟨hn, hs⟩
    obtain ⟨c', h⟩ := hostSetCfg_frame c s
    rw [h]; exact ⟨hn, hs⟩
  case grants => exact fun i t r s h => h

/-- Settles O59: cells, parameters and record by the effects' frame, the shape by `shaped_kept`. -/
theorem cellsParametersAndShapeAreKept : Obligations.CellsParametersAndShapeAreKept := by
  intro s t h
  obtain ⟨hc, hp, hv⟩ := (sameMachine_kept s).step ⟨rfl, rfl, rfl⟩ h
  exact ⟨hc, hp, hv, fun hn hs => (shaped_kept.step ⟨hn, hs⟩ h).2⟩

/-! ## Events (R30) -/

theorem StepFrame.events_prefix {s t : State} (h : StepFrame s t) : s.events <+: t.events := by
  obtain h | ⟨e, h⟩ := h.events <;> rw [h]
  exact List.prefix_append _ _

theorem events_kept (es : List Event) : StepKeeps (fun s => es <+: s.events) where
  agenda _ _ h := h
  advance := advance_keeps (fun c k s h => by rwa [applyCtl_events])
    (fun f s t k h hf => h.trans (frameStep_stepFrame hf).events_prefix)
  begins i s t h hb := by
    obtain ⟨-, ⟨f, -, rfl⟩ | ⟨u, r, -, hu, rfl⟩⟩ := beginInstr_next hb
    · rwa [enterOp_events]
    · rw [setContext_events]; exact h.trans hu.stepFrame.events_prefix
  nic m s t h hm := by obtain ⟨n, e, mm, d, k, rfl, -⟩ := nicStep_frame m s t hm; exact h
  setCfg c s h := by obtain ⟨c', e⟩ := hostSetCfg_frame c s; rw [e]; exact h
  grants _ _ _ _ h := h

/-- Settles O58: each labelled step and each start of an operation appends, and the NIC and the host emit nothing. -/
theorem eventsOnlyGrow : Obligations.EventsOnlyGrow := by
  refine ⟨fun s t h => (events_kept s.events).step (List.prefix_refl _) h, fun c s t h => ?_⟩
  obtain ⟨-, rfl⟩ | ⟨f, rest, u, k, -, hm, rfl⟩ := advance_next h
  · exact .inl rfl
  · rw [applyCtl_events]; exact (frameStep_stepFrame hm).events

/-! ## Control locations (R22) -/

theorem contextsOk_kept : StepKeeps ContextsOk where
  agenda _ _ h := ⟨h.bringup, h.submission, h.interrupt⟩
  advance _ _ _ h ha := adv_ctx h ha
  begins _ _ _ h hb := begin_ctx h hb
  nic m s t h hm := by
    obtain ⟨n, e, mm, d, k, rfl, -⟩ := nicStep_frame m s t hm
    exact ⟨h.bringup, h.submission, h.interrupt⟩
  setCfg c s h := by
    obtain ⟨c', e⟩ := hostSetCfg_frame c s
    rw [e]; exact ⟨h.bringup, h.submission, h.interrupt⟩
  grants _ _ _ _ h := ⟨h.bringup, h.submission, h.interrupt⟩

/-- Settles O55: only labelled steps and starts of operations move control, and each stays with its own labels. -/
theorem stepsKeepContextsApart : Obligations.StepsKeepContextsApart :=
  fun _ _ hs h => contextsOk_kept.step hs h

/-! ## Who writes which engine register (R24) -/

section
variable {K : Config.Values} {s t : State}

theorem LabelEffect.submission_eng (h : LabelEffect K s .submission t) :
    t.eng = { s.eng with cpu := t.eng.cpu, txStopped := t.eng.txStopped } ∧
      (t.eng.txStopped = s.eng.txStopped ∨ t.eng.txStopped = true) := by
  cases h with
  | keep => exact ⟨rfl, .inl rfl⟩
  | window off bs => rw [regWrite_eng]; exact ⟨rfl, .inl rfl⟩
  | store a bs h => obtain ⟨-, rfl⟩ := memWrite_some h; exact ⟨rfl, .inl rfl⟩
  | queue i => exact ⟨rfl, .inl rfl⟩
  | stop => exact ⟨rfl, .inr rfl⟩

theorem LabelEffect.interrupt_eng (h : LabelEffect K s .interrupt t) :
    t.eng = { s.eng with hw := t.eng.hw, txStopped := t.eng.txStopped, rxOff := t.eng.rxOff,
                         linkPrev := t.eng.linkPrev } ∧
      (t.eng.txStopped = s.eng.txStopped ∨ t.eng.txStopped = false) := by
  cases h with
  | keep => exact ⟨rfl, .inl rfl⟩
  | window off bs => rw [regWrite_eng]; exact ⟨rfl, .inl rfl⟩
  | report e => exact ⟨rfl, .inl rfl⟩
  | reportError u a => rw [Machine.reportError, write16, regWrite_eng]; exact ⟨rfl, .inl rfl⟩
  | retire => exact ⟨rfl, .inl rfl⟩
  | resume old => obtain h | h := resumeIf_eng old s <;> rw [h] <;> simp
  | consume z => exact ⟨rfl, .inl rfl⟩
  | link bad => obtain ⟨l, h⟩ := linkEdge_eng bad s; rw [h]; exact ⟨rfl, .inl rfl⟩

theorem LabelEffect.bringup_eng (h : LabelEffect K s .bringup t) :
    t.eng.cfg = s.eng.cfg ∧ t.eng.chipVersion = s.eng.chipVersion := by
  cases h with
  | window off bs => simp
  | storeAddress i w => obtain ⟨v, h⟩ := storeHwAddr_frame i w s; simp [h]
  | enable v => simp [setIrqEnabled, write16]
  | _ => exact ⟨rfl, rfl⟩

end

/-- With the contexts in order, a labelled step of a context is an effect of that context and a move of its control. -/
theorem advance_effect {c : Ctx} {s t : State} (hs : ContextsOk s) (h : advance c s = .next t) :
    ∃ u, LabelEffect s.plat.values s c u ∧ t.eng = u.eng := by
  obtain ⟨-, rfl⟩ | ⟨f, rest, u, k, hst, hm, rfl⟩ := advance_next h
  · exact ⟨t, .keep, rfl⟩
  · have hok := (ctxOk_iff s).1 hs c
    rw [stOk, hst] at hok
    exact ⟨u, stackOk_top hok ▸ frameStep_effect hm, applyCtl_eng _ _ _⟩

/-- Settles O60: each context's effects write its own registers only. -/
theorem eachRegisterHasItsWriter : Obligations.EachRegisterHasItsWriter := by
  intro s t hs
  refine ⟨fun h => ?_, fun h => ?_, fun h => ?_⟩ <;> obtain ⟨u, hu, he⟩ := advance_effect hs h <;> rw [he]
  · exact hu.submission_eng
  · exact hu.interrupt_eng
  · exact hu.bringup_eng

end Sys2Proof.Machine
end

section
/-! # Every step keeps the session (R21, R28, R134, R179, R214, R240, R241, R243)

A step of the submission or the interrupt context leaves what `stageOk` speaks of as it was (`SameStage`), so only the
bring-up context moves between stages; the work of the interrupt context begins at I3 with a nonzero masked status,
which no stage with `irq_enabled = 0` allows. -/

namespace Sys2Proof.Machine

open Config (reference)

/-! ## What a stage speaks of -/

/-- `lifecycle`, `irq_enabled`, the reset's success and the resources of `t` are those of `s`. -/
structure SameStage (s t : State) : Prop where
  lifecycle : t.eng.lifecycle = s.eng.lifecycle
  enabled : t.eng.irqEnabled = s.eng.irqEnabled
  ringOk : t.eng.ringOk = s.eng.ringOk
  irqHeld : t.plat.irqHeld = s.plat.irqHeld
  txHeld : t.plat.txHeld = s.plat.txHeld
  rxHeld : t.plat.rxHeld = s.plat.rxHeld
  params : t.plat.params = s.plat.params

theorem SameStage.of_eq {s t : State} (he : t.eng = s.eng) (hp : t.plat = s.plat) : SameStage s t := by
  constructor <;> simp [he, hp]

theorem SameStage.trans {s t u : State} (h : SameStage s t) (g : SameStage t u) : SameStage s u :=
  ⟨g.lifecycle.trans h.lifecycle, g.enabled.trans h.enabled, g.ringOk.trans h.ringOk, g.irqHeld.trans h.irqHeld,
    g.txHeld.trans h.txHeld, g.rxHeld.trans h.rxHeld, g.params.trans h.params⟩

theorem SameStage.applyCtl {s t : State} (h : SameStage s t) (c : Ctx) (k : Ctl) :
    SameStage s (applyCtl c k t) := h.trans (.of_eq (applyCtl_eng c k t) (applyCtl_plat c k t))

theorem SameStage.setContext {s t : State} (h : SameStage s t) (c : Ctx) (x : Context) :
    SameStage s (setContext c x t) := h.trans (.of_eq (setContext_eng c x t) (setContext_plat c x t))

theorem SameStage.holds {s t : State} (h : SameStage s t) {irq tx rx : Bool} (hs : Holds irq tx rx s) :
    Holds irq tx rx t := by
  rwa [Holds, h.irqHeld, h.txHeld, h.rxHeld]

theorem SameStage.running {s t : State} (h : SameStage s t) {v : Half} (hs : Running v s) : Running v t := by
  obtain ⟨hl, hh, he, hr⟩ := hs
  exact ⟨h.lifecycle.trans hl, h.holds hh, h.enabled.trans he, h.ringOk.trans hr⟩

theorem SameStage.closing {s t : State} (h : SameStage s t) {tx rx : Bool} (hs : Closing tx rx s) :
    Closing tx rx t := by
  obtain ⟨hl, hh, he⟩ := hs
  exact ⟨h.lifecycle.trans hl, h.holds hh, h.enabled.trans he⟩

/-- Nothing is routed in `t` that was not in `s`, at least while nothing is enabled. -/
abbrev RoutesNoMore (s t : State) : Prop :=
  s.eng.lifecycle = .down → s.eng.irqEnabled = 0#16 → routing s.interrupt.stack = false →
    routing t.interrupt.stack = false

theorem SameStage.preparing {s t : State} (h : SameStage s t) (hr : RoutesNoMore s t) {irq tx rx : Bool}
    (hs : Preparing irq tx rx s) : Preparing irq tx rx t := by
  obtain ⟨hl, hh, he, hq⟩ := hs
  exact ⟨h.lifecycle.trans hl, h.holds hh, h.enabled.trans he, hr hl he hq⟩

/-- The stage of a control location goes over to a state that differs in nothing it speaks of. -/
theorem SameStage.stageOk {s t : State} (h : SameStage s t) (hr : RoutesNoMore s t) {st : List Frame}
    (hres : st ≠ [] → t.bringup.result = s.bringup.result) (hs : stageOk s st) : stageOk t st := by
  have prep {irq tx rx} := h.preparing hr (irq := irq) (tx := tx) (rx := rx)
  have ring : s.eng.ringOk = true → t.eng.ringOk = true := h.ringOk.trans
  revert hs hres
  unfold Machine.stageOk
  split <;> intro hres hs
  case h_1 => exact hs.imp prep (fun hs => by rw [h.params]; exact h.running hs)
  case h_6 => exact ⟨prep hs.1, fun hok => ring (hs.2 (by rwa [← hres (by simp)]))⟩
  case h_13 =>
    obtain ⟨hl, hh, he, hq⟩ := hs
    exact ⟨h.lifecycle.trans hl, h.holds hh, by rw [h.enabled, h.params]; exact he, ring hq⟩
  case h_7 | h_8 | h_9 | h_10 | h_11 | h_12 => exact ⟨prep hs.1, ring hs.2⟩
  case h_17 => rw [h.params]; exact h.running hs
  case h_18 => exact h.running hs
  case h_19 | h_20 | h_21 => exact h.closing hs
  all_goals exact prep hs

/-! ## What a stage implies -/

theorem stageOk_idle_down {s : State} (h : stageOk s []) (hl : s.eng.lifecycle = .down) :
    Preparing false false false s :=
  h.resolve_right fun hr => by simp [hr.1] at hl

theorem stageOk_idle_up {s : State} (h : stageOk s []) (hl : s.eng.lifecycle = .up) :
    Running s.plat.params.irqEnableSet s :=
  h.resolve_left fun hp => by simp [hp.1] at hl

/-- At every control location: nothing is routed, or the handler is gone, or the block is set up: between O10 and O11,
in steady state, or before the handler's release in `close`. -/
theorem stageOk_cases {s : State} {st : List Frame} (h : stageOk s st) :
    (s.eng.lifecycle = .down ∧ s.eng.irqEnabled = 0#16 ∧ routing s.interrupt.stack = false) ∨
      (s.plat.irqHeld = false ∧ s.eng.irqEnabled = 0#16) ∨
      ((s.eng.ringOk = true ∧ s.plat.rxHeld = true) ∧
        (st = [] ∨ st = [.openBlock .o11] ∨ st = [.closeBlock .x1] ∨ st = [.closeBlock .x2])) := by
  have prep {irq tx rx} : Preparing irq tx rx s →
      s.eng.lifecycle = .down ∧ s.eng.irqEnabled = 0#16 ∧ routing s.interrupt.stack = false :=
    fun ⟨hl, _, he, hq⟩ => ⟨hl, he, hq⟩
  have run {v} : Running v s → s.eng.ringOk = true ∧ s.plat.rxHeld = true :=
    fun ⟨_, ⟨_, _, hrx⟩, _, hok⟩ => ⟨hok, hrx⟩
  have closing {tx rx} : Closing tx rx s → s.plat.irqHeld = false ∧ s.eng.irqEnabled = 0#16 :=
    fun ⟨_, ⟨hi, _, _⟩, he⟩ => ⟨hi, he⟩
  revert h
  unfold Machine.stageOk
  split <;> intro h
  case h_1 => exact h.imp prep (fun h => .inr ⟨run h, .inl rfl⟩)
  case h_6 | h_7 | h_8 | h_9 | h_10 | h_11 | h_12 => exact .inl (prep h.1)
  case h_13 =>
    obtain ⟨-, ⟨-, -, hrx⟩, -, hok⟩ := h
    exact .inr (.inr ⟨⟨hok, hrx⟩, by simp⟩)
  case h_17 | h_18 => exact .inr (.inr ⟨run h, by simp⟩)
  case h_19 | h_20 | h_21 => exact .inr (.inl (closing h))
  all_goals exact .inl (prep h)

/-- Where something is enabled, or the handler is registered in `Up`, the routed operations may run. -/
theorem stageOk_serviceable {s : State} {st : List Frame} (h : stageOk s st)
    (hs : s.eng.irqEnabled ≠ 0#16 ∨ (s.eng.lifecycle = .up ∧ s.plat.irqHeld = true)) :
    s.eng.ringOk = true ∧ s.plat.rxHeld = true := by
  obtain ⟨hl, he, -⟩ | ⟨hi, he⟩ | ⟨h, -⟩ := stageOk_cases h
  · simp [hl, he] at hs
  · simp [hi, he] at hs
  · exact h

/-! ## Sizes in control locations -/

/-- Of the state `sizesOk` reads `rx_off` only, and only at D4. -/
theorem sizesOk_congr {s t : State} {st : List Frame}
    (h : ∀ z rest, st = .drain (.d4 z) :: rest → t.eng.rxOff = s.eng.rxOff) (hs : sizesOk s st) : sizesOk t st := by
  revert hs
  unfold sizesOk
  split <;> intro hs
  case h_3 z rest => rwa [h z rest rfl]
  all_goals exact hs

/-! ## A change that the session does not see -/

/-- The submission context never stands at D4. -/
theorem not_drain_of_submission {s : State} (h : ContextsOk s) {z : Half} {rest : List Frame} :
    s.submission.stack ≠ .drain (.d4 z) :: rest := by
  intro e
  have hc := h.submission
  rw [e] at hc
  cases stackOk_top hc

/-- The session goes over to a state with the same stage, the same control and the same offset where one is in use. -/
theorem Session.congr {s t : State} (hs : Session s) (h : SameStage s t)
    (hst : ∀ c, (t.context c).stack = (s.context c).stack)
    (hres : s.bringup.stack ≠ [] → t.bringup.result = s.bringup.result)
    (hoff : s.interrupt.stack ≠ [] → t.eng.rxOff = s.eng.rxOff) : Session t := by
  have hb : t.bringup.stack = s.bringup.stack := hst .bringup
  have hu : t.submission.stack = s.submission.stack := hst .submission
  have hi : t.interrupt.stack = s.interrupt.stack := hst .interrupt
  constructor
  case contexts =>
    rw [ctxOk_iff]
    intro c
    rw [stOk, hst c]
    exact (ctxOk_iff s).1 hs.contexts c
  case stage => rw [hb]; exact h.stageOk (fun _ _ hr => hi ▸ hr) hres hs.stage
  case submitting => rw [hu, hb, h.lifecycle]; exact hs.submitting
  case handling => rw [hi, h.irqHeld]; exact hs.handling
  case routed => rw [hi, h.ringOk, h.rxHeld]; exact hs.routed
  case submitSizes =>
    rw [hu]
    exact sizesOk_congr (fun z rest e => absurd e (not_drain_of_submission hs.contexts)) hs.submitSizes
  case drainSizes => rw [hi]; exact sizesOk_congr (fun z rest e => hoff (by simp [e])) hs.drainSizes

/-! ## Labelled steps of the submission context -/

theorem LabelEffect.submission_plat {K : Config.Values} {s t : State} (h : LabelEffect K s .submission t) :
    t.plat = s.plat := by
  cases h with
  | window off bs => exact regWrite_plat K off bs s
  | store a bs h => obtain ⟨-, rfl⟩ := memWrite_some h; rfl
  | _ => rfl

theorem LabelEffect.submission_sameStage {K : Config.Values} {s t : State} (h : LabelEffect K s .submission t) :
    SameStage s t := by
  have he := h.submission_eng.1
  have hp := h.submission_plat
  exact ⟨by rw [he], by rw [he], by rw [he], by rw [hp], by rw [hp], by rw [hp], by rw [hp]⟩

/-- The submission context makes no calls and takes none. -/
theorem stackOk_submission {f : Frame} {rest : List Frame} (h : stackOk .submission (f :: rest) = true) :
    (∃ l, f = .submit l) ∧ rest = [] := by
  have hf := stackOk_top h
  cases f with
  | submit l =>
    refine ⟨⟨l, rfl⟩, ?_⟩
    rcases rest with _ | ⟨g, _ | ⟨x, y⟩⟩
    · rfl
    · simp [stackOk, callOk] at h
    · simp [stackOk] at h
  | _ => cases hf

/-- S1 accepts a frame that fits for the slot `cpu`; S2a and S2b hand both on. -/
theorem submitStep_sizes {l : SubmitAt} {s t : State} {k : Ctl} (hcpu : s.eng.cpu < 4) (u : State)
    (hs : sizesOk s [.submit l]) (h : submitStep reference l s = .go t k) : sizesOk u (ctlStack k []) := by
  cases l with
  | s1 frame =>
    simp only [submitStep, raiseResult] at h
    split at h
    · cases h; trivial
    · rename_i hfit
      obtain ⟨-, h⟩ := withRing_go h
      split at h <;> cases h
      exact ⟨by simpa [oversized_eq] using hfit, hcpu⟩
  | s2a frame i =>
    simp only [submitStep] at h
    split at h
    · obtain ⟨-, rfl⟩ := storeStep_go h; exact hs
    · cases h; exact hs
  | s2b frame i => obtain ⟨-, rfl⟩ := storeStep_go h; trivial
  | s3 z i | s4 i => cases h; trivial
  | s5a => obtain ⟨-, h⟩ := withRing_go h; cases h; trivial
  | s5b x => obtain ⟨-, h⟩ := withRing_go h; split at h <;> cases h <;> trivial

/-! ## Labelled steps of the interrupt context -/

theorem LabelEffect.interrupt_plat {K : Config.Values} {s t : State} (h : LabelEffect K s .interrupt t) :
    t.plat = s.plat := by
  cases h with
  | window off bs => exact regWrite_plat K off bs s
  | reportError u a => simp [Machine.reportError, write16]
  | resume old => unfold resumeIf; split <;> rfl
  | link bad => unfold linkEdge; split <;> rfl
  | _ => rfl

theorem LabelEffect.interrupt_sameStage {K : Config.Values} {s t : State} (h : LabelEffect K s .interrupt t) :
    SameStage s t := by
  have he := h.interrupt_eng.1
  have hp := h.interrupt_plat
  exact ⟨by rw [he], by rw [he], by rw [he], by rw [hp], by rw [hp], by rw [hp], by rw [hp]⟩

/-- Below an operation of the interrupt context stands nothing, or the `onInterrupt` that called it. -/
theorem stackOk_interrupt {f : Frame} {rest : List Frame} (h : stackOk .interrupt (f :: rest) = true) :
    rest = [] ∨ ((∃ l, rest = [.onInterrupt l]) ∧ routing (f :: rest) = true) := by
  rcases rest with _ | ⟨g, _ | ⟨x, y⟩⟩
  · exact .inl rfl
  · simp only [stackOk, Bool.and_eq_true, decide_eq_true_eq] at h
    obtain ⟨hc, hg⟩ := h
    refine .inr ?_
    unfold callOk at hc
    split at hc
    case h_1 | h_2 => cases hg
    case h_3 | h_4 | h_5 => exact ⟨⟨_, rfl⟩, rfl⟩
    case h_6 => cases hc
  · simp [stackOk] at h

/-- While nothing is enabled the masked status is 0, and a status of 0 routes to nobody (R173, R174). -/
theorem interruptStep_routesNothing {l : InterruptAt} {s t : State} {k : Ctl} (he : s.eng.irqEnabled = 0#16)
    (hq : routing [.onInterrupt l] = false) (h : interruptStep reference l s = .go t k) :
    routing (ctlStack k []) = false := by
  have zero {m : Half} (hm : (!(m == 0#16)) = false) (bits : Half) : m = 0#16 ∧ anySet m bits = false := by
    obtain rfl : m = 0#16 := by simpa using hm
    simp [anySet]
  cases l with
  | i1 => simp only [interruptStep, raiseResult] at h; split at h <;> cases h <;> rfl
  | i2 v => cases h; rfl
  | i3 v =>
    cases h
    simp [ctlStack, routing, he]
  | i4 m =>
    obtain ⟨rfl, hm⟩ := zero hq reference.isrLnk
    simp only [interruptStep, hm] at h
    cases h; rfl
  | i5 m =>
    obtain ⟨rfl, hm⟩ := zero hq reference.isrRxBits
    simp only [interruptStep, hm] at h
    cases h; rfl
  | i6 m =>
    obtain ⟨rfl, hm⟩ := zero hq reference.isrTxBits
    simp only [interruptStep, hm] at h
    cases h; rfl
  | i7 => cases h; rfl

/-- Work is routed in the interrupt context only if some was, or if something is enabled. -/
theorem interrupt_routing {f : Frame} {rest : List Frame} {s t : State} {k : Ctl}
    (hok : stackOk .interrupt (f :: rest) = true) (h : frameStep reference f s = .go t k)
    (he : s.eng.irqEnabled = 0#16) (hq : routing (f :: rest) = false) : routing (ctlStack k rest) = false := by
  obtain rfl | ⟨-, hr⟩ := stackOk_interrupt hok
  · have hf := stackOk_top hok
    cases f with
    | onInterrupt l => exact interruptStep_routesNothing he hq h
    | drain l | check l | reconcile l => cases hq
    | _ => cases hf
  · rw [hr] at hq; cases hq

/-- D3 lets D4 begin with a header that fits only. -/
theorem drainStep_sizes {l : DrainAt} {s t u : State} {k : Ctl} {rest : List Frame} (hu : u.eng = t.eng)
    (hrest : sizesOk u rest) (h : drainStep reference l s = .go t k) : sizesOk u (ctlStack k rest) := by
  cases l with
  | d1 =>
    simp only [drainStep] at h
    split at h <;> cases h
    · exact hrest
    · trivial
  | d2 => simp only [drainStep, withHeader] at h; split_ifs at h; split at h <;> cases h; trivial
  | d3 z =>
    simp only [drainStep] at h
    split at h <;> cases h
    show headerOk reference u.eng.rxOff z = true
    rw [hu]; assumption
  | d4 z => simp only [drainStep, withPayload] at h; split_ifs at h; split at h <;> cases h; trivial
  | d5 z p | d6a z | d6b => cases h; trivial

theorem interruptStep_sizes {l : InterruptAt} {s t : State} {k : Ctl} {rest : List Frame} (u : State)
    (hrest : sizesOk u rest) (h : interruptStep reference l s = .go t k) : sizesOk u (ctlStack k rest) := by
  cases l with
  | i1 =>
    simp only [interruptStep, raiseResult] at h
    split at h <;> cases h
    · exact hrest
    · trivial
  | i2 v | i3 v => cases h; trivial
  | i4 m | i5 m | i6 m => simp only [interruptStep] at h; split at h <;> cases h <;> trivial
  | i7 => cases h; exact hrest

theorem reconcileStep_sizes {l : ReconcileAt} {s t : State} {k : Ctl} {rest : List Frame} (u : State)
    (hrest : sizesOk u rest) (h : reconcileStep reference l s = .go t k) : sizesOk u (ctlStack k rest) := by
  cases l with
  | c1 | c2a c old | c2b c old | c2e c old => obtain ⟨-, h⟩ := withRing_go h; cases h; trivial
  | c2c c old z | c2d c old un ab => cases h; trivial
  | c3 old => obtain ⟨-, h⟩ := withRing_go h; cases h; exact hrest

/-- Of the interrupt context's labelled steps only D3 leads to D4. -/
theorem interrupt_sizes {f : Frame} {rest : List Frame} {s t u : State} {k : Ctl} (hu : u.eng = t.eng)
    (hok : stackOk .interrupt (f :: rest) = true) (h : frameStep reference f s = .go t k) :
    sizesOk u (ctlStack k rest) := by
  have hrest : sizesOk u rest := by
    obtain rfl | ⟨⟨l, rfl⟩, -⟩ := stackOk_interrupt hok <;> trivial
  have hf := stackOk_top hok
  cases f with
  | drain l => exact drainStep_sizes hu hrest h
  | onInterrupt l => exact interruptStep_sizes u hrest h
  | reconcile l => exact reconcileStep_sizes u hrest h
  | check l =>
    cases l with
    | l1 => cases h; trivial
    | l2 bad => cases h; exact hrest
  | _ => cases hf

/-! ## Labelled steps of the bring-up context -/

/-- Where the stage prepares, a step that leaves the stage's terms alone goes on preparing. -/
theorem preparing_of_eq {irq tx rx : Bool} {s t : State} (he : t.eng.lifecycle = s.eng.lifecycle)
    (hn : t.eng.irqEnabled = s.eng.irqEnabled) (hp : t.plat = s.plat) (hi : t.interrupt = s.interrupt)
    (hs : Preparing irq tx rx s) : Preparing irq tx rx t := by
  rw [Preparing, Holds, he, hn, hp, hi]; exact hs

theorem resetStep_preparing {l : ResetAt} {irq tx rx : Bool} {s t : State} {k : Ctl}
    (h : resetStep reference l s = .go t k) (hs : Preparing irq tx rx s) : Preparing irq tx rx t := by
  cases l with
  | t1 => cases h; exact preparing_of_eq (by simp [write8]) (by simp [write8]) (by simp [write8]) (by simp [write8]) hs
  | _ => cases h; exact hs

theorem readWordStep_preparing {l : ReadWordAt} {irq tx rx : Bool} {s t : State} {k : Ctl}
    (h : readWordStep reference l s = .go t k) (hs : Preparing irq tx rx s) : Preparing irq tx rx t := by
  obtain ⟨v, rfl⟩ | rfl | rfl := readWordStep_frame h <;> exact hs

theorem hwAddrStep_preparing {l : HwAddrAt} {irq tx rx : Bool} {s t : State} {k : Ctl}
    (h : hwAddrStep reference l s = .go t k) (hs : Preparing irq tx rx s) : Preparing irq tx rx t := by
  obtain ⟨v, rfl⟩ := hwAddrStep_frame h
  exact hs

/-- The move of control itself leaves the stage's terms alone. -/
theorem applyCtl_preparing {irq tx rx : Bool} {k : Ctl} {s : State} (hs : Preparing irq tx rx s) :
    Preparing irq tx rx (applyCtl .bringup k s) :=
  preparing_of_eq (by simp) (by simp) (by simp) (by cases k <;> rfl) hs

/-- `reset`'s return says `Ok` only where T3 has made the indexes known (R115, R116). -/
theorem resetStep_returns {l : ResetAt} {s t : State} {r : OpResult} (h : resetStep reference l s = .go t (.ret r))
    (hr : r = .ok) : t.eng.ringOk = true := by
  cases l with
  | t3 => cases h; rfl
  | t4 => cases h; cases hr
  | _ => cases h

/-- Below an operation of the bring-up context stands nothing, or the caller of `reset` or of `readWord`. -/
theorem stackOk_bringup {f : Frame} {rest : List Frame} (h : stackOk .bringup (f :: rest) = true) :
    rest = [] ∨ ((∃ l, f = .reset l) ∧ rest = [.openBlock .o4r]) ∨
      ((∃ l, f = .readWord l) ∧ ∃ i, rest = [.hwAddr (.store i)]) := by
  rcases rest with _ | ⟨g, _ | ⟨x, y⟩⟩
  · exact .inl rfl
  · simp only [stackOk, Bool.and_eq_true, decide_eq_true_eq] at h
    obtain ⟨hc, hg⟩ := h
    unfold callOk at hc
    split at hc
    case h_1 => exact .inr (.inl ⟨⟨_, rfl⟩, rfl⟩)
    case h_2 => exact .inr (.inr ⟨⟨_, rfl⟩, ⟨_, rfl⟩⟩)
    case h_3 | h_4 | h_5 => cases hg
    case h_6 => cases hc
  · simp [stackOk] at h

/-- `reset`, by itself or called by `open`. -/
theorem resetStep_stage {l : ResetAt} {rest : List Frame} {s t : State} {k : Ctl}
    (hrest : rest = [] ∨ rest = [.openBlock .o4r]) (hk : ctlOk .bringup (.reset l) k = true)
    (h : resetStep reference l s = .go t k) (hs : stageOk s (.reset l :: rest)) :
    stageOk (applyCtl .bringup k t) (ctlStack k rest) := by
  obtain rfl | rfl := hrest
  · have prep : Preparing false false false (applyCtl .bringup k t) :=
      applyCtl_preparing (resetStep_preparing h hs)
    cases k with
    | goto g =>
      cases g with
      | reset l' => exact prep
      | _ => simp [ctlOk] at hk
    | call g b => simp [ctlOk] at hk
    | ret r => exact .inl prep
  · have prep : Preparing true true true (applyCtl .bringup k t) :=
      applyCtl_preparing (resetStep_preparing h hs)
    cases k with
    | goto g =>
      cases g with
      | reset l' => exact prep
      | _ => simp [ctlOk] at hk
    | call g b => simp [ctlOk] at hk
    | ret r => exact ⟨prep, fun hr => by rw [applyCtl_eng]; exact resetStep_returns h (Option.some.inj hr)⟩

/-- `readWord`, by itself or called by `readHardwareAddress`. -/
theorem readWordStep_stage {l : ReadWordAt} {rest : List Frame} {s t : State} {k : Ctl}
    (hrest : rest = [] ∨ ∃ i, rest = [.hwAddr (.store i)]) (hk : ctlOk .bringup (.readWord l) k = true)
    (h : readWordStep reference l s = .go t k) (hs : stageOk s (.readWord l :: rest)) :
    stageOk (applyCtl .bringup k t) (ctlStack k rest) := by
  have hs : Preparing false false false s := by obtain rfl | ⟨i, rfl⟩ := hrest <;> exact hs
  have prep : Preparing false false false (applyCtl .bringup k t) :=
    applyCtl_preparing (readWordStep_preparing h hs)
  cases k with
  | goto g =>
    cases g with
    | readWord l' => obtain rfl | ⟨i, rfl⟩ := hrest <;> exact prep
    | _ => simp [ctlOk] at hk
  | call g b => simp [ctlOk] at hk
  | ret r =>
    obtain rfl | ⟨i, rfl⟩ := hrest
    · exact .inl prep
    · exact prep

/-- `readHardwareAddress`, which calls `readWord`. -/
theorem hwAddrStep_stage {l : HwAddrAt} {s t : State} {k : Ctl} (h : hwAddrStep reference l s = .go t k)
    (hs : stageOk s [.hwAddr l]) : stageOk (applyCtl .bringup k t) (ctlStack k []) := by
  have prep : Preparing false false false (applyCtl .bringup k t) :=
    applyCtl_preparing (hwAddrStep_preparing h hs)
  cases l with
  | call i => cases h; exact prep
  | store i =>
    simp only [hwAddrStep] at h
    split at h <;> cases h
    · exact prep
    · exact .inl prep

/-- A register write of `open` leaves a stage that prepares with the indexes known as it is. -/
theorem regWrite_prepared {off : Nat} {bs : List Byte} {f : Frame} {s : State}
    (hs : Preparing true true true s ∧ s.eng.ringOk = true) :
    Preparing true true true (applyCtl .bringup (.goto f) (regWrite reference off bs s)) ∧
      (applyCtl .bringup (.goto f) (regWrite reference off bs s)).eng.ringOk = true :=
  ⟨applyCtl_preparing (preparing_of_eq (by simp) (by simp) (by simp) (by simp) hs.1), by simpa using hs.2⟩

/-- `open` (R240, R241): each stage leads to the next, the failure paths back to nothing held. -/
theorem openStep_stage {l : OpenAt} {s t : State} {k : Ctl} (h : openStep reference l s = .go t k)
    (hs : stageOk s [.openBlock l]) : stageOk (applyCtl .bringup k t) (ctlStack k []) := by
  cases l with
  | o1 =>
    obtain ⟨hl, ⟨hi, ht, hr⟩, he, hq⟩ := hs
    simp only [openStep, raiseResult] at h
    split at h <;> cases h
    · exact ⟨hl, ⟨rfl, ht, hr⟩, he, hq⟩
    · exact .inl ⟨hl, ⟨hi, ht, hr⟩, he, hq⟩
  | o2 =>
    obtain ⟨hl, ⟨hi, ht, hr⟩, he, hq⟩ := hs
    simp only [openStep] at h
    split at h <;> cases h
    · exact ⟨hl, ⟨hi, rfl, hr⟩, he, hq⟩
    · exact ⟨hl, ⟨hi, ht, hr⟩, he, hq⟩
  | o3 =>
    obtain ⟨hl, ⟨hi, ht, hr⟩, he, hq⟩ := hs
    simp only [openStep] at h
    split at h <;> cases h
    · exact ⟨hl, ⟨hi, ht, rfl⟩, he, hq⟩
    · exact ⟨hl, ⟨hi, ht, hr⟩, he, hq⟩
  | o4 | o5 => cases h; exact hs
  | o4r =>
    simp only [openStep] at h
    split at h <;> cases h
    · exact ⟨hs.1, hs.2 ‹_›⟩
    · exact hs.1
  | o6 i =>
    cases h
    split
    · exact regWrite_prepared hs
    · exact regWrite_prepared hs
  | o7 | o8 | o9 => cases h; exact regWrite_prepared hs
  | o10 =>
    obtain ⟨⟨hl, hh, -⟩, hok⟩ := hs
    cases h
    show _ ∧ _ ∧ _ ∧ _
    simp only [Holds, applyCtl_eng, applyCtl_plat, setIrqEnabled, write16, regWrite_eng, regWrite_plat]
    exact ⟨hl, hh, trivial, hok⟩
  | o11 =>
    obtain ⟨-, hh, he, hok⟩ := hs
    cases h
    exact .inr ⟨rfl, hh, he, hok⟩
  | releaseRx e =>
    obtain ⟨hl, ⟨hi, ht, -⟩, he, hq⟩ := hs
    cases h
    exact ⟨hl, ⟨hi, ht, rfl⟩, he, hq⟩
  | releaseTx e =>
    obtain ⟨hl, ⟨hi, -, hr⟩, he, hq⟩ := hs
    cases h
    exact ⟨hl, ⟨hi, rfl, hr⟩, he, hq⟩
  | releaseIrq e =>
    obtain ⟨hl, ⟨hi, ht, hr⟩, he, hq⟩ := hs
    simp only [openStep, raiseResult] at h
    split at h <;> cases h
    · exact .inl ⟨hl, ⟨rfl, ht, hr⟩, he, hq⟩
    · exact ⟨hl, ⟨hi, ht, hr⟩, he, hq⟩

/-- `close` (R243); once the handler is gone nothing is routed. -/
theorem closeStep_stage {l : CloseAt} {s t : State} {k : Ctl} (h : closeStep reference l s = .go t k)
    (hi : s.interrupt.stack ≠ [] → s.plat.irqHeld = true) (hs : stageOk s [.closeBlock l]) :
    stageOk (applyCtl .bringup k t) (ctlStack k []) := by
  cases l with
  | x1 =>
    obtain ⟨hl, hh, -, hok⟩ := hs
    cases h
    show _ ∧ _ ∧ _ ∧ _
    simp only [Holds, applyCtl_eng, applyCtl_plat, setIrqEnabled, write16, regWrite_eng, regWrite_plat]
    exact ⟨hl, hh, trivial, hok⟩
  | x2 =>
    obtain ⟨hl, ⟨hq, ht, hr⟩, he, hok⟩ := hs
    simp only [closeStep] at h
    split at h <;> cases h
    · exact ⟨hl, ⟨rfl, ht, hr⟩, he⟩
    · exact ⟨hl, ⟨hq, ht, hr⟩, he, hok⟩
  | x3 =>
    obtain ⟨hl, ⟨hq, -, hr⟩, he⟩ := hs
    cases h
    exact ⟨hl, ⟨hq, rfl, hr⟩, he⟩
  | x4 =>
    obtain ⟨hl, ⟨hq, ht, -⟩, he⟩ := hs
    cases h
    exact ⟨hl, ⟨hq, ht, rfl⟩, he⟩
  | x5 =>
    obtain ⟨-, hh, he⟩ := hs
    have hidle : s.interrupt.stack = [] := by
      by_contra hne
      exact absurd (hi hne) (by simp [hh.1])
    cases h
    exact .inl ⟨rfl, hh, he, by show routing s.interrupt.stack = false; rw [hidle]; rfl⟩

/-- A labelled step of the bring-up context leads from its stage to that of the label it goes to. -/
theorem bringup_stage {f : Frame} {rest : List Frame} {s t : State} {k : Ctl}
    (hok : stackOk .bringup (f :: rest) = true) (h : frameStep reference f s = .go t k)
    (hi : s.interrupt.stack ≠ [] → s.plat.irqHeld = true) (hs : stageOk s (f :: rest)) :
    stageOk (applyCtl .bringup k t) (ctlStack k rest) := by
  have hf := stackOk_top hok
  have hk := frame_ctl h
  rw [hf] at hk
  have hrest := stackOk_bringup hok
  cases f with
  | reset l => exact resetStep_stage (by simpa using hrest) hk h hs
  | readWord l => exact readWordStep_stage (by simpa using hrest) hk h hs
  | hwAddr l =>
    obtain rfl : rest = [] := by simpa using hrest
    exact hwAddrStep_stage h hs
  | openBlock l =>
    obtain rfl : rest = [] := by simpa using hrest
    exact openStep_stage h hs
  | closeBlock l =>
    obtain rfl : rest = [] := by simpa using hrest
    exact closeStep_stage h hi hs
  | _ => cases hf

/-- The bring-up context releases the line only while no handler runs (R243 X2, R241). -/
theorem LabelEffect.bringup_irqHeld {K : Config.Values} {s t : State} (h : LabelEffect K s .bringup t)
    (hi : s.interrupt.stack ≠ []) (hq : s.plat.irqHeld = true) : t.plat.irqHeld = true := by
  cases h with
  | window off bs => simpa using hq
  | storeAddress i w => obtain ⟨v, h⟩ := storeHwAddr_frame i w s; rw [h]; exact hq
  | holdIrq => rfl
  | releaseIrq h => exact absurd h hi
  | enable v => simpa [setIrqEnabled, write16] using hq
  | _ => exact hq

/-- Where work is routed, a step of the bring-up context touches neither what it uses nor where it stands: it is O11,
X1 or X2. -/
theorem bringup_routed {f : Frame} {rest : List Frame} {s t : State} {k : Ctl} (hs : stageOk s (f :: rest))
    (hi : s.interrupt.stack ≠ [] → s.plat.irqHeld = true) (hr : routing s.interrupt.stack = true)
    (h : frameStep reference f s = .go t k) :
    t.eng.ringOk = s.eng.ringOk ∧ t.plat.rxHeld = s.plat.rxHeld ∧ t.eng.rxOff = s.eng.rxOff := by
  have hne : s.interrupt.stack ≠ [] := fun e => by simp [e, routing] at hr
  obtain ⟨-, -, hq⟩ | ⟨hq, -⟩ | ⟨-, e | e | e | e⟩ := stageOk_cases hs
  · simp [hr] at hq
  · simp [hi hne] at hq
  · cases e
  · cases e; cases h; exact ⟨rfl, rfl, rfl⟩
  · cases e; cases h; simp [setIrqEnabled, write16]
  · cases e
    simp only [frameStep, closeStep] at h
    split at h <;> cases h <;> exact ⟨rfl, rfl, rfl⟩

end Sys2Proof.Machine
end

section
/-! # The session, carried to every step -/

namespace Sys2Proof.Machine

open Config (reference)

theorem routing_ne_nil {st : List Frame} (h : routing st = true) : st ≠ [] := by
  rintro rfl; cases h

theorem label_ownStack {K : Config.Values} {c : Ctx} {s u : State} {f : Frame} {rest : List Frame} {k : Ctl}
    (hst : (s.context c).stack = f :: rest) (h : frameStep K f s = .go u k) :
    ((applyCtl c k u).context c).stack = ctlStack k rest := by
  rw [applyCtl_stack, frame_context h, hst]; rfl

theorem label_otherContext {K : Config.Values} {c : Ctx} {s u : State} {f : Frame} {k : Ctl}
    (h : frameStep K f s = .go u k) (d : Ctx) (hd : c ≠ d) : (applyCtl c k u).context d = s.context d :=
  (applyCtl_other hd).trans (frame_context h d)

section
variable {s u : State} {f : Frame} {rest : List Frame} {k : Ctl}

theorem Session.bringupLabel (hs : Session s) (ht : ContextsOk (applyCtl .bringup k u))
    (hst : s.bringup.stack = f :: rest) (h : frameStep reference f s = .go u k) :
    Session (applyCtl .bringup k u) := by
  have hok := hs.contexts.bringup
  have hstage := hs.stage
  rw [hst] at hok hstage
  have heff : LabelEffect reference s .bringup u := stackOk_top hok ▸ frameStep_effect h
  have hb : (applyCtl .bringup k u).bringup.stack = ctlStack k rest := label_ownStack (c := .bringup) hst h
  have hu : (applyCtl .bringup k u).submission = s.submission := label_otherContext h .submission (by decide)
  have hi : (applyCtl .bringup k u).interrupt = s.interrupt := label_otherContext h .interrupt (by decide)
  have hidle : s.submission.stack = [] := by
    by_contra hne
    simp [(hs.submitting hne).1] at hst
  constructor
  case contexts => exact ht
  case stage => rw [hb]; exact bringup_stage hok h hs.handling hstage
  case submitting => rw [hu]; exact fun hne => absurd hidle hne
  case handling => rw [hi, applyCtl_plat]; exact fun hne => heff.bringup_irqHeld hne (hs.handling hne)
  case routed =>
    rw [hi, applyCtl_plat, applyCtl_eng]
    intro hr
    obtain ⟨hring, hheld, -⟩ := bringup_routed hstage hs.handling hr h
    rw [hring, hheld]; exact hs.routed hr
  case submitSizes => rw [hu, hidle]; trivial
  case drainSizes =>
    rw [hi]
    refine sizesOk_congr (fun z r e => ?_) hs.drainSizes
    rw [applyCtl_eng]
    exact (bringup_routed hstage hs.handling (by rw [e]; rfl) h).2.2

theorem Session.submissionLabel (hs : Session s) (hcpu : s.eng.cpu < 4) (ht : ContextsOk (applyCtl .submission k u))
    (hst : s.submission.stack = f :: rest) (h : frameStep reference f s = .go u k) :
    Session (applyCtl .submission k u) := by
  have hok := hs.contexts.submission
  rw [hst] at hok
  have heff : LabelEffect reference s .submission u := stackOk_top hok ▸ frameStep_effect h
  have hsame : SameStage s (applyCtl .submission k u) := heff.submission_sameStage.applyCtl .submission k
  have hb : (applyCtl .submission k u).bringup = s.bringup := label_otherContext h .bringup (by decide)
  have hi : (applyCtl .submission k u).interrupt = s.interrupt := label_otherContext h .interrupt (by decide)
  have hu : (applyCtl .submission k u).submission.stack = ctlStack k rest := label_ownStack (c := .submission) hst h
  have hup := hs.submitting (by simp [hst])
  obtain ⟨⟨l, rfl⟩, rfl⟩ := stackOk_submission hok
  constructor
  case contexts => exact ht
  case stage => rw [hb]; exact hsame.stageOk (fun _ _ hr => by rw [hi]; exact hr) (fun _ => by rw [hb]) hs.stage
  case submitting => rw [hb, hsame.lifecycle]; exact fun _ => hup
  case handling => rw [hi, hsame.irqHeld]; exact hs.handling
  case routed => rw [hi, hsame.ringOk, hsame.rxHeld]; exact hs.routed
  case submitSizes => rw [hu]; exact submitStep_sizes hcpu _ (hst ▸ hs.submitSizes) h
  case drainSizes =>
    rw [hi]
    exact sizesOk_congr (fun _ _ _ => by rw [applyCtl_eng, heff.submission_eng.1]) hs.drainSizes

theorem Session.interruptLabel (hs : Session s) (ht : ContextsOk (applyCtl .interrupt k u))
    (hst : s.interrupt.stack = f :: rest) (h : frameStep reference f s = .go u k) :
    Session (applyCtl .interrupt k u) := by
  have hok := hs.contexts.interrupt
  rw [hst] at hok
  have heff : LabelEffect reference s .interrupt u := stackOk_top hok ▸ frameStep_effect h
  have hsame : SameStage s (applyCtl .interrupt k u) := heff.interrupt_sameStage.applyCtl .interrupt k
  have hb : (applyCtl .interrupt k u).bringup = s.bringup := label_otherContext h .bringup (by decide)
  have hu : (applyCtl .interrupt k u).submission = s.submission := label_otherContext h .submission (by decide)
  have hi : (applyCtl .interrupt k u).interrupt.stack = ctlStack k rest := label_ownStack (c := .interrupt) hst h
  have quiet (he : s.eng.irqEnabled = 0#16) (hq : routing s.interrupt.stack = false) :
      routing (applyCtl .interrupt k u).interrupt.stack = false := by
    rw [hi]; exact interrupt_routing hok h he (hst ▸ hq)
  constructor
  case contexts => exact ht
  case stage => rw [hb]; exact hsame.stageOk (fun _ => quiet) (fun _ => by rw [hb]) hs.stage
  case submitting => rw [hb, hu, hsame.lifecycle]; exact hs.submitting
  case handling => rw [hsame.irqHeld]; exact fun _ => hs.handling (by simp [hst])
  case routed =>
    rw [hsame.ringOk, hsame.rxHeld]
    intro hr
    by_cases hq : routing s.interrupt.stack = true
    · exact hs.routed hq
    · exact stageOk_serviceable hs.stage (.inl fun he => by simp [quiet he (by simpa using hq)] at hr)
  case submitSizes =>
    rw [hu]
    exact sizesOk_congr (fun _ _ e => absurd e (not_drain_of_submission hs.contexts)) hs.submitSizes
  case drainSizes => rw [hi]; exact interrupt_sizes (applyCtl_eng _ _ _) hok h

end

/-- Every labelled step keeps the session. -/
theorem Session.advance {c : Ctx} {s t : State} (hv : AtReference s) (hshape : Shaped s) (hs : Session s)
    (h : Machine.advance c s = .next t) : Session t := by
  have ht := adv_ctx hs.contexts h
  obtain ⟨-, ⟨hcpu, -⟩, -⟩ := hshape
  rw [hv, Config.nTx_val] at hcpu
  obtain ⟨-, rfl⟩ | ⟨f, rest, u, k, hst, hm, rfl⟩ := advance_next h
  · exact hs
  · rw [hv] at hm
    cases c with
    | bringup => exact hs.bringupLabel ht hst hm
    | submission => exact hs.submissionLabel hcpu ht hst hm
    | interrupt => exact hs.interruptLabel ht hst hm

/-! ## The start of an operation -/

theorem submitCheck_none {s : State} (h : submitCheck s = none) :
    s.submission.stack = [] ∧ s.eng.lifecycle = .up ∧ s.bringup.stack = [] := by
  unfold submitCheck at h
  split_ifs at h
  simp_all

theorem interruptCheck_none {s : State} (h : interruptCheck s = none) :
    s.interrupt.stack = [] ∧ s.plat.irqHeld = true := by
  unfold interruptCheck at h
  split_ifs at h
  simp_all

/-- An operation of the bring-up context starts with the others idle, at the stage its first label names. -/
theorem Session.enterBringup {f : Frame} {s : State} (ht : ContextsOk (enterOp .bringup f s))
    (hu : s.submission.stack = []) (hi : s.interrupt.stack = []) (hstage : stageOk (enterOp .bringup f s) [f]) :
    Session (enterOp .bringup f s) where
  contexts := ht
  stage := hstage
  submitting hne := absurd hu hne
  handling hne := absurd hi hne
  routed hr := absurd hi (routing_ne_nil hr)
  submitSizes := by show sizesOk _ s.submission.stack; rw [hu]; trivial
  drainSizes := by show sizesOk _ s.interrupt.stack; rw [hi]; trivial

theorem Session.enterSubmit {frame : List Byte} {s : State} (hs : Session s)
    (ht : ContextsOk (enterOp .submission (.submit (.s1 frame)) s)) (h : submitCheck s = none) :
    Session (enterOp .submission (.submit (.s1 frame)) s) := by
  obtain ⟨-, hl, hb⟩ := submitCheck_none h
  exact
    { contexts := ht
      stage := SameStage.stageOk (s := s) (.of_eq rfl rfl) (fun _ _ hr => hr) (fun _ => rfl) hs.stage
      submitting := fun _ => ⟨hb, hl⟩
      handling := hs.handling
      routed := hs.routed
      submitSizes := trivial
      drainSizes := sizesOk_congr (s := s) (fun _ _ _ => rfl) hs.drainSizes }

/-- An operation of the interrupt context starts while the handler is registered; one that is routed, in `Up` only. -/
theorem Session.enterInterrupt {f : Frame} {s : State} (hs : Session s)
    (ht : ContextsOk (enterOp .interrupt f s)) (hq : s.plat.irqHeld = true)
    (hsize : sizesOk (enterOp .interrupt f s) [f])
    (hf : routing [f] = true → s.eng.lifecycle = .up) : Session (enterOp .interrupt f s) where
  contexts := ht
  stage := by
    have quiet (hl : s.eng.lifecycle = .down) : routing [f] = false := by
      by_contra hr
      simp [hf (by simpa using hr)] at hl
    exact SameStage.stageOk (s := s) (t := enterOp .interrupt f s) (.of_eq rfl rfl) (fun hl _ _ => quiet hl)
      (fun _ => rfl) hs.stage
  submitting := hs.submitting
  handling _ := hq
  routed hr := stageOk_serviceable (s := s) hs.stage (.inr ⟨hf hr, hq⟩)
  submitSizes := sizesOk_congr (s := s) (fun _ _ _ => rfl) hs.submitSizes
  drainSizes := hsize

theorem Session.enterRouted {f : Frame} {s : State} (hs : Session s) (ht : ContextsOk (enterOp .interrupt f s))
    (hsize : sizesOk (enterOp .interrupt f s) [f]) (h : handlerCheck s = none) : Session (enterOp .interrupt f s) := by
  obtain ⟨-, hq, hl⟩ := handlerCheck_none h
  exact hs.enterInterrupt ht hq hsize fun _ => hl

/-- What `open` and the operations before it find: nothing held, nothing enabled. -/
theorem Session.bringupReady {f : Frame} {s : State} (hs : Session s) (h : bringupCheck s = none) :
    Preparing false false false (enterOp .bringup f s) ∧ s.submission.stack = [] ∧ s.interrupt.stack = [] := by
  obtain ⟨hb, hl, hu, hi⟩ := bringupCheck_none h
  have hstage := hs.stage
  rw [hb] at hstage
  exact ⟨stageOk_idle_down hstage hl, hu, hi⟩

/-- The start of an operation that has labels. -/
theorem Session.enters {i : Instr} {f : Frame} {s : State} (hs : Session s) (hc : startCheck i s = none)
    (hf : firstLabel i = some f) (ht : ContextsOk (enterOp (homeContext i) f s)) :
    Session (enterOp (homeContext i) f s) := by
  cases i with
  | reset | readHardwareAddress | openBlock =>
    cases hf
    obtain ⟨hp, hu, hi⟩ := hs.bringupReady hc
    exact .enterBringup ht hu hi hp
  | readWord a =>
    cases hf
    obtain ⟨hp, hu, hi⟩ := hs.bringupReady (or_none hc).2
    exact .enterBringup ht hu hi hp
  | closeBlock =>
    cases hf
    obtain ⟨hb, hl, hu, hi⟩ := closeCheck_none hc
    have hstage := hs.stage
    rw [hb] at hstage
    exact .enterBringup ht hu hi (stageOk_idle_up hstage hl)
  | submit frame => cases hf; exact hs.enterSubmit ht hc
  | reconcile | drain | check => cases hf; exact hs.enterRouted ht trivial hc
  | onInterrupt =>
    cases hf
    exact hs.enterInterrupt ht (interruptCheck_none hc).2 trivial (fun hr => by cases hr)
  | _ => cases hf

/-! ## The operations that are one atomic step -/

theorem AtomicEffect.sameStage {K : Config.Values} {s t : State} (h : AtomicEffect K s t) : SameStage s t := by
  cases h with
  | command a => obtain ⟨n, e, h⟩ := sendCommand_frame K a s; rw [h]; exact .of_eq rfl rfl
  | _ => constructor <;> simp [reportError, write16, commitRx]

/-- An operation that is one atomic step, but for `TXCMD`, finds the interrupt context idle; one of the bring-up
context finds that idle too. -/
theorem startCheck_atomic {i : Instr} {s : State} (hc : startCheck i s = none) (hf : firstLabel i = none) :
    (s.interrupt.stack = [] ∨ ∃ th len slot, i = .txcmd th len slot) ∧
      (homeContext i = .bringup → s.bringup.stack = []) := by
  have access {off n} (hc : accessCheck off n s = none) : s.interrupt.stack = [] ∧ s.bringup.stack = [] := by
    obtain ⟨-, hb, -, hi⟩ := accessCheck_none hc
    exact ⟨hi, hb⟩
  cases i with
  | txcmd th len slot => exact ⟨.inr ⟨_, _, _, rfl⟩, fun h => by cases h⟩
  | txstatInFlight b m o z | txstatSuccess b tt m u o z | txstatError b a m u o z | rxhdr z st =>
    exact ⟨.inl (handlerCheck_none hc).1, fun h => by cases h⟩
  | eecmdRead a =>
    obtain ⟨hb, -, -, hi⟩ := bringupCheck_none (or_none hc).2
    exact ⟨.inl hi, fun _ => hb⟩
  | read8 o | read16 o | read32 o | write8 o v | write16 o v | write32 o v | writeRaw16 o v | writeRaw32 o v =>
    exact ⟨.inl (access hc).1, fun _ => (access hc).2⟩
  | _ => cases hf

/-- `TXCMD` is a register write. -/
theorem beginTxcmd_rxOff {th : BitVec 6} {len : BitVec 13} {slot : Nat} {s t : State}
    (h : beginInstr (.txcmd th len slot) s = .next t) : t.eng.rxOff = s.eng.rxOff := by
  obtain ⟨-, h⟩ := guarded_eq_next.1 h
  cases finishAtomic_next h
  simp [write32]

/-- The start of any operation keeps the session. -/
theorem Session.begins {i : Instr} {s t : State} (hs : Session s) (h : beginInstr i s = .next t) : Session t := by
  have ht := begin_ctx hs.contexts h
  obtain ⟨hc, ⟨f, hf, rfl⟩ | ⟨u, r, hf, hu, rfl⟩⟩ := beginInstr_next h
  · exact hs.enters hc hf ht
  · obtain ⟨hi, hb⟩ := startCheck_atomic hc hf
    refine hs.congr (hu.sameStage.setContext _ _) (fun c => ?stack) (fun hne => ?result) (fun hne => ?offset)
    case stack =>
      by_cases e : homeContext i = c
      · subst e; rw [context_setContext]
      · rw [setContext_other e, atomic_ctx hu]
    case result =>
      have e : homeContext i ≠ .bringup := fun e => hne (hb e)
      exact congrArg Context.result ((setContext_other e).trans (atomic_ctx hu .bringup))
    case offset =>
      obtain hi | ⟨th, len, slot, rfl⟩ := hi
      · exact absurd hi hne
      · exact beginTxcmd_rxOff h

/-! ## Every step -/

theorem nTx_pos {s : State} (hv : AtReference s) : 0 < s.plat.values.nTx := by rw [hv]; decide

/-- What the session needs to be kept at all, and the session. -/
theorem session_kept : StepKeeps (fun s => AtReference s ∧ (0 < s.plat.values.nTx ∧ Shaped s) ∧ Session s) where
  agenda := fun s a ⟨hv, hn, hs⟩ =>
    ⟨hv, hn, hs.congr (.of_eq rfl rfl) (fun c => by cases c <;> rfl) (fun _ => rfl) (fun _ => rfl)⟩
  advance := fun c s t ⟨hv, hn, hs⟩ h =>
    ⟨atReference_kept.advance _ _ _ hv h, shaped_kept.advance _ _ _ hn h, hs.advance hv hn.2 h⟩
  begins := fun i s t ⟨hv, hn, hs⟩ h =>
    ⟨atReference_kept.begins _ _ _ hv h, shaped_kept.begins _ _ _ hn h, hs.begins h⟩
  nic := fun m s t ⟨hv, hn, hs⟩ h => by
    refine ⟨atReference_kept.nic _ _ _ hv h, shaped_kept.nic _ _ _ hn h, ?_⟩
    obtain ⟨n, e, mm, d, k, rfl, -⟩ := nicStep_frame m s t h
    exact hs.congr (.of_eq rfl rfl) (fun c => by cases c <;> rfl) (fun _ => rfl) (fun _ => rfl)
  setCfg := fun c s ⟨hv, hn, hs⟩ => by
    refine ⟨atReference_kept.setCfg _ _ hv, shaped_kept.setCfg _ _ hn, ?_⟩
    obtain ⟨c', e⟩ := hostSetCfg_frame c s
    rw [e]
    exact hs.congr ⟨rfl, rfl, rfl, rfl, rfl, rfl, rfl⟩ (fun c => by cases c <;> rfl) (fun _ => rfl) (fun _ => rfl)
  grants := fun i t r s ⟨hv, hn, hs⟩ =>
    ⟨hv, hn, hs.congr ⟨rfl, rfl, rfl, rfl, rfl, rfl, rfl⟩ (fun c => by cases c <;> rfl) (fun _ => rfl) (fun _ => rfl)⟩

/-- Settles O56: the labelled steps of each context, the starts of operations, and the environment, which the session
does not see. -/
theorem stepsKeepTheSession : Obligations.StepsKeepTheSession := fun _ _ hv hshape hs h =>
  (session_kept.step ⟨hv, ⟨nTx_pos hv, hshape⟩, hs⟩ h).2.2

end Sys2Proof.Machine
end

section
/-! # The receive offsets and DMA memory (R17, R28, R58, R161, R166, R194 to R196) -/

namespace Sys2Proof.Machine

open Config (reference)

/-! ## The receive offsets stay inside the buffer -/

/-- The NIC's read and write pointers stand inside the receive buffer. -/
def PointersInRange (n : Nic) : Prop := n.rxRd.toNat < 8192 ∧ n.rxWr.toNat < 8192

theorem readPointerOf_lt (c : Half) : (readPointerOf reference c).toNat < 8192 := by
  rw [readPointerOf_toNat]; omega

theorem advanceOffset_lt (off : Half) (n : Nat) : (advanceOffset reference off n).toNat < 8192 := by
  rw [advanceOffset_toNat]; omega

theorem footprint_mod_four (z : Nat) : footprint reference z % 4 = 0 := by simp [footprint, align4]

/-- A multiple of 4 advanced by a footprint is one: 4 divides the buffer's length (R161). -/
theorem advanceOffset_aligned {off : Half} (h : off.toNat % 4 = 0) (z : Nat) :
    (advanceOffset reference off (footprint reference z)).toNat % 4 = 0 := by
  have hz := footprint_mod_four z
  rw [advanceOffset_toNat]; omega

/-- A register write moves the read pointer only, and only to where a commit can put it (R196). -/
theorem writeReg_pointers {off : Nat} {bs : List Byte} (s : State) (row : Config.RegRow)
    (h : PointersInRange s.nic) : PointersInRange (writeReg reference off bs s row).nic := by
  unfold writeReg
  cases row.reg with
  | capr => exact ⟨readPointerOf_lt _, h.2⟩
  | _ => exact h

theorem regWrite_pointers {off : Nat} {bs : List Byte} {s : State} (h : PointersInRange s.nic) :
    PointersInRange (regWrite reference off bs s).nic :=
  regWrite_keeps (P := fun s => PointersInRange s.nic) writeReg_pointers h

theorem nicAfterTimeout_pointers {s : State} (h : PointersInRange s.nic) :
    PointersInRange (nicAfterTimeout reference s) := by
  refine ⟨h.1, ?_⟩
  simp only [nicAfterTimeout, Config.rxBufLen_val, BitVec.toNat_ofNat]
  omega

theorem LabelEffect.pointers {s t : State} {c : Ctx} (h : LabelEffect reference s c t)
    (hs : PointersInRange s.nic) : PointersInRange t.nic := by
  cases h with
  | window off bs => exact regWrite_pointers hs
  | loseIndices => exact nicAfterTimeout_pointers hs
  | storeAddress i w => rwa [storeHwAddr_nic]
  | enable v => exact regWrite_pointers hs
  | store a bs h => obtain ⟨-, rfl⟩ := memWrite_some h; exact hs
  | reportError u a => exact regWrite_pointers hs
  | resume old => rwa [resumeIf_nic]
  | link bad => rwa [linkEdge_nic]
  | _ => exact hs

theorem nicStep_pointers {m : NicMove} {s t : State} (h : nicStep reference m s = .next t)
    (hs : PointersInRange s.nic) : PointersInRange t.nic := by
  cases m with
  | resetDone =>
    cases h; unfold devResetDone; split
    · exact ⟨Nat.zero_lt_succ _, Nat.zero_lt_succ _⟩
    · exact hs
  | txComplete i o => obtain rfl | ⟨bytes, rfl⟩ := devTxComplete_next h <;> exact hs
  | rxRecord st f fcs bad =>
    obtain rfl | ⟨-, isr, rfl⟩ := devRxRecord_next h
    · exact hs
    · exact ⟨hs.1, advanceOffset_lt _ _⟩
  | link b => cases h; exact hs
  | retrigger => cases h; unfold devRetrigger; split <;> exact hs
  | isrUnnamed b => cases h; exact hs
  | tsdUnnamed i b => cases h; unfold devTsdUnnamed; split <;> exact hs
  | padWrite k b => obtain rfl | ⟨-, -, rfl⟩ := devPadWrite_next h <;> exact hs

/-- `rx_off` is aligned and inside the receive buffer. -/
def OffsetPlaced (e : Engine) : Prop := e.rxOff.toNat % 4 = 0 ∧ e.rxOff.toNat < 8192

/-- Only O5 and D6a write `rx_off`. -/
theorem LabelEffect.offset {s t : State} {c : Ctx} (h : LabelEffect reference s c t)
    (hs : OffsetPlaced s.eng) : OffsetPlaced t.eng := by
  cases h with
  | window off bs => rwa [regWrite_eng]
  | storeAddress i w => obtain ⟨v, h⟩ := storeHwAddr_frame i w s; rw [h]; exact hs
  | initRegisters => exact ⟨rfl, Nat.zero_lt_succ _⟩
  | enable v => rw [setIrqEnabled, write16, regWrite_eng]; exact hs
  | store a bs h => obtain ⟨-, rfl⟩ := memWrite_some h; exact hs
  | reportError u a => rwa [Machine.reportError, write16, regWrite_eng]
  | resume old => obtain h | h := resumeIf_eng old s <;> rw [h] <;> exact hs
  | consume z => exact ⟨advanceOffset_aligned hs.1 _, advanceOffset_lt _ _⟩
  | link bad => obtain ⟨l, h⟩ := linkEdge_eng bad s; rw [h]; exact hs
  | _ => exact hs

theorem receiveOffsets_kept :
    StepKeeps (fun s => AtReference s ∧ OffsetPlaced s.eng ∧ PointersInRange s.nic) := by
  refine .of_effects_atReference ?control ?agenda ?label ?nic ?setCfg ?grants
  case control => exact fun c x s hs => by rwa [setContext_eng, setContext_nic]
  case agenda => exact fun s a hs => hs
  case label => exact fun c s t ⟨ho, hp⟩ h => ⟨h.offset ho, h.pointers hp⟩
  case nic =>
    rintro m s t ⟨ho, hp⟩ h
    have hp' := nicStep_pointers h hp
    obtain ⟨n, e, mm, d, k, rfl, -⟩ := nicStep_frame m s t h
    exact ⟨ho, hp'⟩
  case setCfg =>
    intro c s hs
    obtain ⟨c', h⟩ := hostSetCfg_frame c s
    rw [h]; exact hs
  case grants => exact fun i t r s hs => hs

/-- Settles O53: `rx_off` advances by multiples of 4 modulo 8192, the NIC's pointers move modulo 8192. -/
theorem stepsKeepTheReceiveOffsetAligned : Obligations.StepsKeepTheReceiveOffsetAligned := by
  intro s t hv ha ⟨ho, hr, hw⟩ h
  obtain ⟨-, ⟨ha', ho'⟩, hr', hw'⟩ := receiveOffsets_kept.step ⟨hv, ⟨ha, ho⟩, hr, hw⟩ h
  exact ⟨ha', ho', hr', hw'⟩

/-! ## DMA memory stays canonical and inside the held buffers -/

/-- A bus address of the transmit buffer, held or not. -/
def InTxBuf (K : Config.Values) (p : Platform) (x : Nat) : Prop :=
  p.params.txDmaBase.toNat ≤ x ∧ x < p.params.txDmaBase.toNat + K.txBufBytes

/-- A bus address of the receive buffer, held or not. -/
def InRxBuf (K : Config.Values) (p : Platform) (x : Nat) : Prop :=
  p.params.rxDmaBase.toNat ≤ x ∧ x < p.params.rxDmaBase.toNat + K.rxBufBytes

theorem mapped_one {K : Config.Values} {p : Platform} {x : Nat} : mapped K p x 1 = true ↔
    (p.txHeld = true ∧ InTxBuf K p x) ∨ (p.rxHeld = true ∧ InRxBuf K p x) := by
  simp only [mapped, InTxBuf, InRxBuf, Bool.or_eq_true, Bool.and_eq_true, decide_eq_true_eq, and_assoc,
    Nat.succ_le_iff]

/-- Each byte of a mapped range is mapped. -/
theorem mapped_byte {K : Config.Values} {p : Platform} {a n x : Nat} (h : mapped K p a n = true) (h1 : a ≤ x)
    (h2 : x < a + n) : mapped K p x 1 = true := by
  simp only [mapped, Bool.or_eq_true, Bool.and_eq_true, decide_eq_true_eq, and_assoc] at h
  exact mapped_one.2 (h.imp (fun ⟨hh, hl, hu⟩ => ⟨hh, Nat.le_trans hl h1, Nat.lt_of_lt_of_le h2 hu⟩)
    (fun ⟨hh, hl, hu⟩ => ⟨hh, Nat.le_trans hl h1, Nat.lt_of_lt_of_le h2 hu⟩))

/-- Memory is canonical with every written byte in a held buffer. -/
structure MemOk (K : Config.Values) (p : Platform) (m : List Host.Cell) : Prop where
  wf : Memory.wf m = true
  held : ∀ c ∈ m, mapped K p c.1 1 = true

section
variable {K : Config.Values} {p q : Platform} {m : List Host.Cell}

theorem MemOk.set (h : MemOk K p m) {a : Nat} (ha : mapped K p a 1 = true) (v : Byte) :
    MemOk K p (Memory.set m a v) where
  wf := Memory.wf_set m a v h.wf
  held c hc := by
    obtain e | hc := Memory.mem_set hc
    · rwa [e]
    · exact h.held c hc

theorem MemOk.setRange (h : MemOk K p m) {a : Nat} {bs : List Byte} (ha : bs = [] ∨ mapped K p a bs.length = true) :
    MemOk K p (Memory.setRange m a bs) where
  wf := Memory.wf_setRange m a bs h.wf
  held c hc := by
    obtain ⟨h1, h2⟩ | hc := Memory.mem_setRange hc
    · obtain rfl | ha := ha
      · simp at h2; omega
      · exact mapped_byte ha h1 h2
    · exact h.held c hc

theorem MemOk.setWrapped (h : MemOk K p m) {base : Nat} (hbase : ∀ k < K.rxBufLen, mapped K p (base + k) 1 = true)
    (hlen : 0 < K.rxBufLen) (off : Nat) (bs : List Byte) : MemOk K p (setWrapped K base m off bs) := by
  induction bs generalizing m off with
  | nil => exact h
  | cons b bs ih => exact ih (h.set (hbase _ (Nat.mod_lt _ hlen)) b) (off + 1)

/-- Acquiring a buffer lets no byte go. -/
theorem MemOk.mono (h : MemOk K p m) (hpq : ∀ x, mapped K p x 1 = true → mapped K q x 1 = true) : MemOk K q m :=
  ⟨h.wf, fun c hc => hpq _ (h.held c hc)⟩

/-- Releasing the transmit buffer forgets its bytes; what stays written lies in the receive buffer. -/
theorem MemOk.releaseTx (h : MemOk K p m) :
    MemOk K { p with txHeld := false } (Memory.clear m p.params.txDmaBase.toNat K.txBufBytes) where
  wf := Memory.wf_clear m _ _ h.wf
  held c hc := by
    obtain ⟨hc, hout⟩ := List.mem_filter.1 hc
    have hnot : ¬ InTxBuf K p c.1 := by simp [InTxBuf] at hout ⊢; omega
    obtain ⟨-, hin⟩ | hrx := mapped_one.1 (h.held c hc)
    · exact absurd hin hnot
    · exact mapped_one.2 (.inr hrx)

/-- Releasing the receive buffer likewise. -/
theorem MemOk.releaseRx (h : MemOk K p m) :
    MemOk K { p with rxHeld := false } (Memory.clear m p.params.rxDmaBase.toNat K.rxBufBytes) where
  wf := Memory.wf_clear m _ _ h.wf
  held c hc := by
    obtain ⟨hc, hout⟩ := List.mem_filter.1 hc
    have hnot : ¬ InRxBuf K p c.1 := by simp [InRxBuf] at hout ⊢; omega
    obtain htx | ⟨-, hin⟩ := mapped_one.1 (h.held c hc)
    · exact mapped_one.2 (.inl htx)
    · exact absurd hin hnot

end

/-- The NIC's target, where it lies in the held receive buffer, is that buffer whole: each byte up to the guard pad's
end is mapped (R204, R260). -/
theorem rxTarget_byte {K : Config.Values} {s : State} (h : rxTargetMapped K s = true) {k : Nat}
    (hk : k < K.rxBufBytes) : mapped K s.plat (s.nic.rbstart.toNat + k) 1 = true := by
  simp only [rxTargetMapped, Bool.and_eq_true, decide_eq_true_eq] at h
  obtain ⟨⟨hheld, hlow⟩, hhigh⟩ := h
  exact mapped_one.2 (.inr ⟨hheld, by simp only [InRxBuf]; omega⟩)

theorem LabelEffect.memOk {K : Config.Values} {s t : State} {c : Ctx} (h : LabelEffect K s c t)
    (hs : MemOk K s.plat s.mem) : MemOk K t.plat t.mem := by
  cases h with
  | window off bs => rwa [regWrite_plat, regWrite_mem]
  | storeAddress i w => obtain ⟨v, h⟩ := storeHwAddr_frame i w s; rw [h]; exact hs
  | holdIrq => exact hs.mono fun _ h => h
  | releaseIrq h => exact hs.mono fun _ h => h
  | holdTx => exact hs.mono fun x hx => mapped_one.2 ((mapped_one.1 hx).imp (fun h => ⟨rfl, h.2⟩) id)
  | holdRx => exact hs.mono fun x hx => mapped_one.2 ((mapped_one.1 hx).imp id (fun h => ⟨rfl, h.2⟩))
  | releaseTx => exact hs.releaseTx
  | releaseRx => exact hs.releaseRx
  | enable v => rw [setIrqEnabled, write16, regWrite_plat, regWrite_mem]; exact hs
  | store a bs h =>
    obtain ⟨ha, rfl⟩ := memWrite_some h
    exact hs.setRange ha
  | reportError u a => rw [Machine.reportError, write16, regWrite_plat, regWrite_mem]; exact hs
  | resume old => unfold resumeIf; split <;> exact hs
  | link bad => unfold linkEdge; split <;> exact hs
  | _ => exact hs

/-- Of the NIC's steps a record and a write into the guard pad touch memory, both inside the receive buffer. -/
theorem nicStep_memOk {m : NicMove} {s t : State} (h : nicStep reference m s = .next t)
    (hs : MemOk reference s.plat s.mem) : MemOk reference t.plat t.mem := by
  have hbytes : reference.rxBufBytes = reference.rxBufLen + reference.rxGuardPad := rfl
  cases m with
  | resetDone => cases h; unfold devResetDone; split <;> exact hs
  | txComplete i o => obtain rfl | ⟨bytes, rfl⟩ := devTxComplete_next h <;> exact hs
  | rxRecord st f fcs bad =>
    obtain rfl | ⟨htarget, isr, rfl⟩ := devRxRecord_next h
    · exact hs
    · have hbase : ∀ k < reference.rxBufLen, mapped reference s.plat (s.nic.rbstart.toNat + k) 1 = true :=
        fun k hk => rxTarget_byte htarget (by omega)
      exact (hs.setWrapped hbase (by decide) _ _).setWrapped hbase (by decide) _ _
  | link b => cases h; exact hs
  | retrigger => cases h; unfold devRetrigger; split <;> exact hs
  | isrUnnamed b => cases h; exact hs
  | tsdUnnamed i b => cases h; unfold devTsdUnnamed; split <;> exact hs
  | padWrite k b =>
    obtain rfl | ⟨hk, htarget, rfl⟩ := devPadWrite_next h
    · exact hs
    · refine hs.set ?_ b
      rw [Nat.add_assoc]
      exact rxTarget_byte htarget (by omega)

theorem memory_kept : StepKeeps (fun s => AtReference s ∧ MemOk reference s.plat s.mem) := by
  refine .of_effects_atReference ?control ?agenda ?label ?nic ?setCfg ?grants
  case control => exact fun c x s hs => by rwa [setContext_plat, setContext_mem]
  case agenda => exact fun s a hs => hs
  case label => exact fun c s t hs h => h.memOk hs
  case nic => exact fun m s t hs h => nicStep_memOk h hs
  case setCfg =>
    intro c s hs
    obtain ⟨c', h⟩ := hostSetCfg_frame c s
    rw [h]; exact hs
  case grants => exact fun i t r s hs => hs.mono fun _ h => h

/-- Settles O52: writes go to held buffers, and a release forgets what its buffer held. -/
theorem stepsKeepMemoryInHeldBuffers : Obligations.StepsKeepMemoryInHeldBuffers := by
  intro s t hv hwf hheld h
  obtain ⟨hv', hwf', hheld'⟩ := memory_kept.step ⟨hv, hwf, hv ▸ hheld⟩ h
  exact ⟨hwf', fun c hc => by rw [hv']; exact hheld' c hc⟩

end Sys2Proof.Machine
end

section
/-! # The step, and the host's register writes (R22, R32, R36, R39, R107, R108, R196, R234) -/

namespace Sys2Proof.Machine

open Config (reference)

/-! ## What the head of the agenda makes of a step -/

theorem readRequest_of_decode {K : Config.Values} {c : Ctx} {f : Format} {bytes : List Byte} {i : Instr}
    (h : decode K f bytes = .ok i) :
    readRequest K c f bytes = if c = homeContext i then .ok i else .error .wrongContext := by
  simp only [readRequest, h]

theorem step_instr {s : State} {c : Ctx} {f : Format} {bytes : List Byte} {i : Instr} {rest : List Move}
    (h : s.agenda = .request c f bytes :: rest) (hr : readRequest s.plat.values c f bytes = .ok i) :
    step s = exec i { s with agenda := rest } := by
  simp only [step, fetch, h, hr]

theorem step_refused {s : State} {c : Ctx} {f : Format} {bytes : List Byte} {r : Refusal} {rest : List Move}
    (h : s.agenda = .request c f bytes :: rest) (hr : readRequest s.plat.values c f bytes = .error r) :
    step s = .refused r := by
  simp only [step, fetch, h, hr]

theorem step_move {s : State} {m : Move} {rest : List Move} (h : s.agenda = m :: rest)
    (hm : ∀ c f bytes, m ≠ .request c f bytes) : step s = applyMove m { s with agenda := rest } := by
  cases m with
  | request c f bytes => exact absurd rfl (hm c f bytes)
  | _ => simp only [step, fetch, h]

/-- R234: "the block does nothing until the host requests an operation". -/
theorem step_idle {s : State} (ha : s.agenda = []) (hi : AllIdle s) : step s = .next s := by
  obtain ⟨hb, hu, hq⟩ := hi
  have hrun : runContext .bringup Config.stepBudget s = .next s := runContext_idle (c := .bringup) hb _
  simp [step, fetch, ha, idleStep, hu, hq, hrun]

/-- Settles O7: the head of the agenda decides, and nothing happens without one. -/
theorem stepRunsTheDecodedRequest : Obligations.StepRunsTheDecodedRequest := by
  intro s rest
  refine ⟨fun c f bytes i ha hd => ⟨fun hc => ?_, fun hc => ?_⟩, fun c ha => ?_, fun m ha => ?_, step_idle⟩
  · exact step_instr ha (by rw [readRequest_of_decode hd, if_pos hc])
  · exact step_refused ha (by rw [readRequest_of_decode hd, if_neg hc])
  · exact step_move ha (by simp)
  · exact step_move ha (by simp)

/-! ## A register write of the host -/

/-- With every context idle an access inside the window, aligned, passes its check (R51). -/
theorem accessCheck_idle {off : BitVec 8} {n : Nat} {s : State} (h : accessOk s.plat.values off n = true)
    (hi : AllIdle s) : accessCheck off n s = none := by
  obtain ⟨hb, hu, hq⟩ := hi
  simp [accessCheck, h, hb, hu, hq]

/-- The write of the host at the reference values, whole: its register write, and the result. -/
theorem hostWrite_idle {off : BitVec 8} {bs : List Byte} {o : Nat} {s u : State} (hv : AtReference s) (hi : AllIdle s)
    (ho : off.toNat = o) (hok : accessOk reference off bs.length = true) (hw : regWrite reference o bs s = u) :
    hostWrite off bs s = .next { u with bringup := ⟨[], some .done⟩ } := by
  have hb : u.bringup = s.bringup := by rw [← hw, regWrite_bringup]
  have hcheck : accessCheck off bs.length s = none := accessCheck_idle (by rwa [hv]) hi
  rw [hostWrite, hcheck, guarded_none, finishAtomic, hv, ho, hw, context_bringup, hb, hi.1, setContext_bringup]

theorem exec_write8_idle {off : BitVec 8} {o : Nat} {v : Byte} {s u : State} (hv : AtReference s) (hi : AllIdle s)
    (ho : off.toNat = o) (hok : accessOk reference off 1 = true) (hw : write8 reference o v s = u) :
    exec (.write8 off v) s = .next { u with bringup := ⟨[], some .done⟩ } := hostWrite_idle hv hi ho hok hw

theorem exec_write16_idle {off : BitVec 8} {o : Nat} {v : Half} {s u : State} (hv : AtReference s) (hi : AllIdle s)
    (ho : off.toNat = o) (hok : accessOk reference off 2 = true) (hw : write16 reference o v s = u) :
    exec (.write16 off v) s = .next { u with bringup := ⟨[], some .done⟩ } := hostWrite_idle hv hi ho hok hw

/-- Settles O16: each register's reaction to a write of it whole. -/
theorem registerWriteReactions : Obligations.RegisterWriteReactions := by
  intro s hv hi
  refine ⟨fun w => ?isr, fun v => ?cr, fun c => ?capr⟩
  case isr => exact exec_write16_idle hv hi (o := reference.isr.off) rfl (by decide) (write16_isr w s)
  case cr =>
    have hw := write8_cr v s
    rw [writeCr_eq] at hw
    exact exec_write8_idle hv hi (o := reference.cr.off) rfl (by decide) hw
  case capr =>
    exact ⟨_, exec_write16_idle hv hi (o := reference.capr.off) rfl (by decide) (write16_capr c s), rfl,
      readPointerOf_toNat c⟩

/-! ## The hardware address through raw writes -/

/-- A write that covers the one-byte register at `r` leaves there the byte it has for it. -/
theorem laneValue_byte (r : Config.Reg) {o off : Nat} {bs : List Byte} {b : Byte} (old : Word) (ho : off ≤ o)
    (hb : bs[o - off]? = some b) : (laneValue ⟨r, o, 1⟩ off bs old).setWidth 8 = b := by
  simp [laneValue, join32_setWidth8, laneByte, ho, hb]

/-- The first four `IDR` bytes written at once, in the order of the wire. -/
theorem regWrite_idr_four (b0 b1 b2 b3 : Byte) (s : State) : regWrite reference 0 [b0, b1, b2, b3] s =
    { s with nic := { s.nic with idr := #v[b0, b1, b2, b3, s.nic.idr[4], s.nic.idr[5]] } } := by
  have h : reached reference 0 4 =
      [⟨.idr 0, 0, 1⟩, ⟨.idr 1, 1, 1⟩, ⟨.idr 2, 2, 1⟩, ⟨.idr 3, 3, 1⟩] := by decide
  show (reached reference 0 4).foldl (writeReg reference 0 [b0, b1, b2, b3]) s = _
  rw [h]
  simp only [List.foldl_cons, List.foldl_nil, writeReg]
  rw [laneValue_byte (b := b0) _ _ (by decide) rfl, laneValue_byte (b := b1) _ _ (by decide) rfl,
    laneValue_byte (b := b2) _ _ (by decide) rfl, laneValue_byte (b := b3) _ _ (by decide) rfl]
  have hidr : (((s.nic.idr.set 0 b0).set 1 b1).set 2 b2).set 3 b3 =
      #v[b0, b1, b2, b3, s.nic.idr[4], s.nic.idr[5]] := by
    ext i hi
    interval_cases i <;> simp
  exact congrArg (fun v => { s with nic := { s.nic with idr := v } }) hidr

/-- The last two `IDR` bytes. -/
theorem regWrite_idr_two (b4 b5 : Byte) (s : State) : regWrite reference 4 [b4, b5] s =
    { s with nic := { s.nic with
      idr := #v[s.nic.idr[0], s.nic.idr[1], s.nic.idr[2], s.nic.idr[3], b4, b5] } } := by
  have h : reached reference 4 2 = [⟨.idr 4, 4, 1⟩, ⟨.idr 5, 5, 1⟩] := by decide
  show (reached reference 4 2).foldl (writeReg reference 4 [b4, b5]) s = _
  rw [h]
  simp only [List.foldl_cons, List.foldl_nil, writeReg]
  rw [laneValue_byte (b := b4) _ _ (by decide) rfl, laneValue_byte (b := b5) _ _ (by decide) rfl]
  have hidr : (s.nic.idr.set 4 b4).set 5 b5 =
      #v[s.nic.idr[0], s.nic.idr[1], s.nic.idr[2], s.nic.idr[3], b4, b5] := by
    ext i hi
    interval_cases i <;> simp
  exact congrArg (fun v => { s with nic := { s.nic with idr := v } }) hidr

/-- Settles O13: the host's bytes are the wire's bytes whatever `HOST_BE` is, and each `IDR` is one of them. -/
theorem rawWritesCopyTheHardwareAddress : Obligations.RawWritesCopyTheHardwareAddress := by
  intro s m0 m1 m2 m3 m4 m5 v w hv hi h32 h16
  have first : hostWrite 0x00#8 [m0, m1, m2, m3] s = _ := 
    hostWrite_idle hv hi rfl (show accessOk reference 0x00#8 4 = true by decide) (regWrite_idr_four m0 m1 m2 m3 s)
  refine ⟨_, (congrArg (hostWrite 0x00#8 · s) h32).trans first, ?_⟩
  have second (t : State) (ht : AtReference t) (hti : AllIdle t) : hostWrite 0x04#8 [m4, m5] t = _ :=
    hostWrite_idle ht hti rfl (show accessOk reference 0x04#8 2 = true by decide) (regWrite_idr_two m4 m5 t)
  exact (congrArg (hostWrite 0x04#8 · _) h16).trans (second _ hv ⟨rfl, hi.2⟩)

end Sys2Proof.Machine
end

section
/-! # The register window: byte order, bad accesses, typed round trips (R45, R46, R50, R51) -/

namespace Sys2Proof.Machine

open Config (reference)

/-! ## Where the bytes of a register stand -/

/-- The row of the register map that holds byte `k` of a register is the register's own: no two rows share a byte. -/
theorem locate_row {K : Config.Values} (hK : K.Ok) {row : Config.RegRow} {k : Nat} (h : row ∈ K.regMap)
    (hk : k < row.width) : locate K (row.off + k) = some (row.reg, k) := by
  obtain ⟨-, -, -, -, -, -, -, -, -, -, hdisjoint⟩ := hK
  obtain ⟨before, after, hsplit⟩ := List.append_of_mem h
  have hfind : K.regMap.find? (fun r => decide (r.off ≤ row.off + k) && decide (row.off + k < r.off + r.width)) =
      some row := by
    rw [List.find?_eq_some_iff_append]
    refine ⟨by simp [hk], before, after, hsplit, fun a ha => ?_⟩
    rw [hsplit, List.pairwise_append] at hdisjoint
    obtain ⟨-, -, hsep⟩ := hdisjoint
    have hrow := hsep a ha row List.mem_cons_self
    rw [Bool.not_eq_true', Bool.and_eq_false_iff, decide_eq_false_iff_not, decide_eq_false_iff_not]
    omega
  rw [locate, hfind, Option.map_some, Nat.add_sub_cancel_left]

theorem namedByte_row {K : Config.Values} (hK : K.Ok) {row : Config.RegRow} {k : Nat} (h : row ∈ K.regMap)
    (hk : k < row.width) (s : State) : namedByte K s (row.off + k) = byteOf k (regNamed K s row.reg) := by
  simp only [namedByte, locate_row hK h hk]

theorem unnamedByte_row {K : Config.Values} (hK : K.Ok) {row : Config.RegRow} {k : Nat} (h : row ∈ K.regMap)
    (hk : k < row.width) (s : State) : unnamedByte K s (row.off + k) = byteOf k (regUnnamed K s row.reg) := by
  simp only [unnamedByte, locate_row hK h hk]

/-- Settles O9: byte `k` of a row's bytes is located at byte `k` of its register, named bits and others alike. -/
theorem registersAreLittleEndian : Obligations.RegistersAreLittleEndian := fun s _ k h hk =>
  ⟨namedByte_row Config.reference_ok h hk s, unnamedByte_row Config.reference_ok h hk s, byteOf k (freeAt s 0), rfl⟩

/-! ## Bad accesses -/

theorem accessOk_iff {off : BitVec 8} {n : Nat} :
    accessOk reference off n = true ↔ off.toNat % n = 0 ∧ off.toNat + n ≤ 0x100 := by
  rw [accessOk, Bool.and_eq_true, beq_iff_eq, decide_eq_true_eq, Config.regWindow_val]

/-- R51 is tested before anything else, in every state. -/
theorem accessCheck_bad {off : BitVec 8} {n : Nat} {s : State} (hv : AtReference s)
    (h : ¬ (off.toNat % n = 0 ∧ off.toNat + n ≤ 0x100)) : accessCheck off n s = some .badAccess := by
  have hbad : accessOk reference off n = false := by rwa [← Bool.not_eq_true, accessOk_iff]
  simp [accessCheck, hv, hbad]

theorem hostRead_bad {off : BitVec 8} {n : Nat} {s : State} (hv : AtReference s)
    (h : ¬ (off.toNat % n = 0 ∧ off.toNat + n ≤ 0x100)) (r : OpResult) : hostRead off n r s = .refused .badAccess := by
  rw [hostRead, accessCheck_bad hv h, guarded_some]

theorem hostWrite_bad {off : BitVec 8} {n : Nat} {s : State} (hv : AtReference s)
    (h : ¬ (off.toNat % n = 0 ∧ off.toNat + n ≤ 0x100)) {bs : List Byte} (hn : bs.length = n) :
    hostWrite off bs s = .refused .badAccess := by
  rw [hostWrite, hn, accessCheck_bad hv h, guarded_some]

/-- Settles O14: the access check refuses by R51 first; R31's rows pass it by their offsets and widths. -/
theorem badAccessesAreRefused : Obligations.BadAccessesAreRefused := by
  refine ⟨fun s off hv => ⟨fun h v => ⟨?_, ?_, ?_⟩, fun h v => ⟨?_, ?_, ?_⟩⟩, by decide⟩
  · exact hostRead_bad hv h _
  · exact hostWrite_bad hv h rfl
  · exact hostWrite_bad hv h (hostBytes16_length _ v)
  · exact hostRead_bad hv h _
  · exact hostWrite_bad hv h rfl
  · exact hostWrite_bad hv h (hostBytes32_length _ v)

/-! ## What a typed read of a register returns -/

theorem byteOf_or (k : Nat) (a b : Word) : byteOf k (a ||| b) = byteOf k a ||| byteOf k b := BitVec.extractLsb'_or

theorem byteOf_and (k : Nat) (a b : Word) : byteOf k (a &&& b) = byteOf k a &&& byteOf k b := BitVec.extractLsb'_and

/-- Two neighbouring bytes of a value. -/
theorem join16_byteOf (k : Nat) (v : Word) : join16 (byteOf k v) (byteOf (k + 1) v) = v.extractLsb' (8 * k) 16 := by
  apply BitVec.eq_of_getLsbD_eq
  intro i hi
  simp only [join16, byteOf, BitVec.getLsbD_append, BitVec.getLsbD_extractLsb']
  grind

section
variable {s : State} {row : Config.RegRow} (hrow : row ∈ reference.regMap)
include hrow

/-- A read at byte `j` of a register: its wire byte `k` is the register's byte `j + k`, in the unnamed bits a free
word's byte `k`. -/
theorem readByte_row {j k : Nat} (hk : j + k < row.width) : readByte reference s (row.off + j) k =
    byteOf (j + k) (regNamed reference s row.reg) |||
      (byteOf k (freeAt s 0) &&& byteOf (j + k) (regUnnamed reference s row.reg)) := by
  rw [readByte, Nat.add_assoc, namedByte_row Config.reference_ok hrow hk, unnamedByte_row Config.reference_ok hrow hk]

/-- A 32-bit register read whole: its named bits, the others from a free word (R103). -/
theorem readValue32_row (hw : row.width = 4) : readValue32 reference row.off s =
    regNamed reference s row.reg ||| (freeAt s 0 &&& regUnnamed reference s row.reg) := by
  have hbyte (k : Nat) (hk : k < 4) : readByte reference s row.off k =
      byteOf k (regNamed reference s row.reg ||| (freeAt s 0 &&& regUnnamed reference s row.reg)) := by
    have h := readByte_row (s := s) hrow (j := 0) (k := k) (by omega)
    rwa [Nat.add_zero, Nat.zero_add, ← byteOf_and, ← byteOf_or] at h
  rw [readValue32, hbyte 0 (by decide), hbyte 1 (by decide), hbyte 2 (by decide), hbyte 3 (by decide), join32_byteOf]

/-- A byte of a register all of whose bits are named (R50, R101). -/
theorem readValue8_row (hnamed : regUnnamed reference s row.reg = 0#32) {j : Nat} (hj : j < row.width) :
    readValue8 reference (row.off + j) s = byteOf j (regNamed reference s row.reg) := by
  rw [readValue8, readByte_row hrow hj, hnamed]
  simp [byteOf]

/-- Two of its bytes (R50, R102). -/
theorem readValue16_row (hnamed : regUnnamed reference s row.reg = 0#32) {j : Nat} (hj : j + 1 < row.width) :
    readValue16 reference (row.off + j) s = (regNamed reference s row.reg).extractLsb' (8 * j) 16 := by
  rw [readValue16, readByte_row hrow (by omega), readByte_row hrow hj, hnamed, ← join16_byteOf]
  simp [byteOf]

/-- A 16-bit register read whole. -/
theorem readValue16_half {v : Half} (hnamed : regUnnamed reference s row.reg = 0#32) (hw : row.width = 2)
    (hval : regNamed reference s row.reg = v.setWidth 32) : readValue16 reference row.off s = v := by
  refine (readValue16_row hrow hnamed (j := 0) (by omega)).trans ?_
  rw [hval, ← join16_byteOf, join16_byteOf_setWidth]

end

/-! ## A typed access of the host, with every context idle -/

section
variable {off : BitVec 8} {o : Nat} {s : State} (hv : AtReference s) (hi : AllIdle s)
include hv hi

/-- A read of the host answers a state with the value read as its result. -/
theorem hostRead_idle {n : Nat} (hok : accessOk reference off n = true) (r : OpResult) :
    ∃ u, hostRead off n r s = .next u ∧ u.bringup.result = some r := by
  refine ⟨returned .bringup r (drew 1 s), ?_, rfl⟩
  rw [hostRead, accessCheck_idle (by rwa [hv]) hi, guarded_none, finishAtomic, context_bringup, drew_bringup, hi.1]
  rfl

variable (ho : off.toNat = o)
include ho

theorem exec_read8_idle {v : Byte} (hok : accessOk reference off 1 = true) (hr : readValue8 reference o s = v) :
    ∃ u, exec (.read8 off) s = .next u ∧ u.bringup.result = some (.value8 v) := by
  subst hr ho; rw [← hv]; exact hostRead_idle hv hi hok _

theorem exec_read16_idle {v : Half} (hok : accessOk reference off 2 = true) (hr : readValue16 reference o s = v) :
    ∃ u, exec (.read16 off) s = .next u ∧ u.bringup.result = some (.value16 v) := by
  subst hr ho; rw [← hv]; exact hostRead_idle hv hi hok _

theorem exec_read32_idle {v : Word} (hok : accessOk reference off 4 = true) (hr : readValue32 reference o s = v) :
    ∃ u, exec (.read32 off) s = .next u ∧ u.bringup.result = some (.value32 v) := by
  subst hr ho; rw [← hv]; exact hostRead_idle hv hi hok _

/-- A write that reaches the NIC alone leaves the contexts idle and the NIC as written. -/
theorem hostWrite_nic {bs : List Byte} {w : Nat} {n : Nic} (hlen : bs.length = w)
    (hok : accessOk reference off w = true) (hw : regWrite reference o bs s = { s with nic := n }) :
    ∃ t, hostWrite off bs s = .next t ∧ AtReference t ∧ AllIdle t ∧ t.nic = n :=
  ⟨_, hostWrite_idle hv hi ho (hlen ▸ hok) hw, hv, ⟨rfl, hi.2⟩, rfl⟩

end

/-! ## Typed round trips -/

theorem reached_idr (k : Fin 6) : reached reference k.val 1 = [⟨.idr k, k.val, 1⟩] := by
  revert k; decide

/-- R32: a write of one `IDR` byte. -/
theorem write8_idr (k : Fin 6) (v : Byte) (s : State) : write8 reference k.val v s =
    { s with nic := { s.nic with idr := s.nic.idr.set k.val v k.isLt } } := by
  rw [write8, regWrite_one (reached_idr k)]
  simp only [writeReg, laneValue_one]

/-- Bits outside a mask do not show under it. -/
theorem and_mask_of_fill (a b m : Word) : (a &&& m ||| b &&& ~~~m) &&& m = a &&& m := by
  ext i hi
  simp only [BitVec.getElem_and, BitVec.getElem_or, BitVec.getElem_not]
  cases m[i] <;> simp

/-- A register's row, from where it is the only one an access reaches. -/
theorem mem_regMap_of_reached_one {K : Config.Values} {off n : Nat} {row : Config.RegRow}
    (h : reached K off n = [row]) : row ∈ K.regMap :=
  mem_regMap_of_reached (off := off) (n := n) (by rw [h]; exact List.mem_singleton_self row)

section
variable {s : State} (hv : AtReference s) (hi : AllIdle s)
include hv hi

theorem idr_roundTrip (k : Fin 6) (v : Byte) : ∃ t u, exec (.write8 (BitVec.ofNat 8 k.val) v) s = .next t ∧
    exec (.read8 (BitVec.ofNat 8 k.val)) t = .next u ∧ u.bringup.result = some (.value8 v) := by
  have ho : (BitVec.ofNat 8 k.val).toNat = k.val := by rw [BitVec.toNat_ofNat]; omega
  have hok : accessOk reference (BitVec.ofNat 8 k.val) 1 = true := accessOk_iff.2 (by omega)
  obtain ⟨t, ht, hvt, hit, hn⟩ := hostWrite_nic hv hi ho (bs := [v]) rfl hok (write8_idr k v s)
  have hread : readValue8 reference k.val t = v := by
    have h := readValue8_row (s := t) (mem_regMap_of_reached_one (reached_idr k)) rfl (j := 0) Nat.zero_lt_one
    simpa [regNamed, hn, byteOf_setWidth8, Vector.get] using h
  obtain ⟨u, hu, hr⟩ := exec_read8_idle hvt hit ho hok hread
  exact ⟨t, u, ht, hu, hr⟩

theorem tsad_roundTrip {i : Nat} (hlen : s.nic.tsad.length = 4) (h4 : i < 4) (v : Word) :
    ∃ t u, exec (.write32 (BitVec.ofNat 8 (0x20 + 4 * i)) v) s = .next t ∧
      exec (.read32 (BitVec.ofNat 8 (0x20 + 4 * i))) t = .next u ∧ u.bringup.result = some (.value32 v) := by
  have ho : (BitVec.ofNat 8 (0x20 + 4 * i)).toNat = 0x20 + 4 * i := by rw [BitVec.toNat_ofNat]; omega
  have hok : accessOk reference (BitVec.ofNat 8 (0x20 + 4 * i)) 4 = true := accessOk_iff.2 (by omega)
  obtain ⟨t, ht, hvt, hit, hn⟩ := hostWrite_nic hv hi ho (bs := le32 v) rfl hok (write32_tsad h4 v s)
  have hread : readValue32 reference (0x20 + 4 * i) t = v := by
    refine (readValue32_row (mem_regMap_of_reached_one (reached_tsad h4)) rfl).trans ?_
    simp [regNamed, regUnnamed, hn, hlen, h4]
  obtain ⟨u, hu, hr⟩ := exec_read32_idle hvt hit ho hok hread
  exact ⟨t, u, ht, hu, hr⟩

/-- The named field of `TCR` is what was written; its other bits are free (U8). -/
theorem tcr_roundTrip (v : Word) : ∃ t u r, exec (.write32 0x40#8 v) s = .next t ∧
    exec (.read32 0x40#8) t = .next u ∧ u.bringup.result = some (.value32 r) ∧
      r &&& 0x00060000#32 = v &&& 0x00060000#32 := by
  have hok : accessOk reference 0x40#8 4 = true := by decide
  obtain ⟨t, ht, hvt, hit, hn⟩ := hostWrite_nic hv hi (off := 0x40#8) rfl (bs := le32 v) rfl hok (write32_tcr v s)
  obtain ⟨u, hu, hr⟩ := exec_read32_idle hvt hit (off := 0x40#8) rfl hok
    (readValue32_row (row := ⟨.tcr, 0x40, 4⟩) (by decide) rfl)
  refine ⟨t, u, _, ht, hu, hr, ?_⟩
  rw [regNamed, regUnnamed, hn]
  exact and_mask_of_fill v (freeAt t 0) reference.tcrLbk

/-- A 16-bit register all of whose bits are named, once written as `n` has it, is read back. -/
theorem half_roundTrip {off : BitVec 8} {row : Config.RegRow} {v : Half} {n : Nic} (ho : off.toNat = row.off)
    (hok : accessOk reference off 2 = true) (hw : write16 reference row.off v s = { s with nic := n })
    (hrow : row ∈ reference.regMap) (hwidth : row.width = 2)
    (hnamed : ∀ t, regUnnamed reference t row.reg = 0#32)
    (hval : ∀ t, t.nic = n → regNamed reference t row.reg = v.setWidth 32) :
    ∃ t u, exec (.write16 off v) s = .next t ∧ exec (.read16 off) t = .next u ∧
      u.bringup.result = some (.value16 v) := by
  obtain ⟨t, ht, hvt, hit, hn⟩ := hostWrite_nic hv hi ho (bs := le16 v) rfl hok hw
  obtain ⟨u, hu, hr⟩ := exec_read16_idle hvt hit ho hok (readValue16_half hrow (hnamed t) hwidth (hval t hn))
  exact ⟨t, u, ht, hu, hr⟩

theorem capr_roundTrip (v : Half) : ∃ t u, exec (.write16 0x38#8 v) s = .next t ∧
    exec (.read16 0x38#8) t = .next u ∧ u.bringup.result = some (.value16 v) :=
  half_roundTrip hv hi (row := ⟨.capr, 0x38, 2⟩) rfl (by decide) (write16_capr v s) (by decide) rfl (fun _ => rfl)
    (fun t ht => by rw [regNamed, ht]; rfl)

theorem imr_roundTrip (v : Half) : ∃ t u, exec (.write16 0x3C#8 v) s = .next t ∧
    exec (.read16 0x3C#8) t = .next u ∧ u.bringup.result = some (.value16 v) :=
  half_roundTrip hv hi (row := ⟨.imr, 0x3C, 2⟩) rfl (by decide) (write16_imr v s) (by decide) rfl (fun _ => rfl)
    (fun t ht => by rw [regNamed, ht])

/-- R50: `RBSTART` read whole, in halves and by its top byte after a 32-bit write. -/
theorem rbstart_roundTrip (v : Word) : ∃ t u w x y, exec (.write32 0x30#8 v) s = .next t ∧
    exec (.read32 0x30#8) t = .next u ∧ u.bringup.result = some (.value32 v) ∧
    exec (.read16 0x30#8) t = .next w ∧ w.bringup.result = some (.value16 (v.extractLsb' 0 16)) ∧
    exec (.read16 0x32#8) t = .next x ∧ x.bringup.result = some (.value16 (v.extractLsb' 16 16)) ∧
    exec (.read8 0x33#8) t = .next y ∧ y.bringup.result = some (.value8 (v.extractLsb' 24 8)) := by
  obtain ⟨t, ht, hvt, hit, hn⟩ :=
    hostWrite_nic hv hi (off := 0x30#8) rfl (bs := le32 v) (w := 4) rfl (by decide) (write32_rbstart v s)
  have hrow : (⟨.rbstart, 0x30, 4⟩ : Config.RegRow) ∈ reference.regMap := by decide
  have hnamed : regNamed reference t .rbstart = v := congrArg Nic.rbstart hn
  have whole : readValue32 reference 0x30 t = v := by
    rw [readValue32_row hrow rfl, hnamed]; simp [regUnnamed]
  have low : readValue16 reference 0x30 t = v.extractLsb' 0 16 :=
    hnamed ▸ readValue16_row hrow rfl (j := 0) (by decide)
  have high : readValue16 reference 0x32 t = v.extractLsb' 16 16 :=
    hnamed ▸ readValue16_row hrow rfl (j := 2) (by decide)
  have top : readValue8 reference 0x33 t = v.extractLsb' 24 8 :=
    hnamed ▸ readValue8_row hrow rfl (j := 3) (by decide)
  obtain ⟨u, hu, hur⟩ := exec_read32_idle hvt hit (off := 0x30#8) rfl (by decide) whole
  obtain ⟨w, hw, hwr⟩ := exec_read16_idle hvt hit (off := 0x30#8) rfl (by decide) low
  obtain ⟨x, hx, hxr⟩ := exec_read16_idle hvt hit (off := 0x32#8) rfl (by decide) high
  obtain ⟨y, hy, hyr⟩ := exec_read8_idle hvt hit (off := 0x33#8) rfl (by decide) top
  exact ⟨t, u, w, x, y, ht, hu, hur, hw, hwr, hx, hxr, hy, hyr⟩

end

/-- Settles O10, register by register; `HOST_BE` plays no part in a typed access. -/
theorem typedAccessRoundTrip : Obligations.TypedAccessRoundTrip := by
  intro s hv hshape hi
  have hlen : s.nic.tsad.length = 4 := by
    obtain ⟨⟨-, hlen, -⟩, -⟩ := hshape
    rwa [hv, Config.nTx_val] at hlen
  exact ⟨idr_roundTrip hv hi, fun i v h4 => tsad_roundTrip hv hi hlen h4 v, tcr_roundTrip hv hi, capr_roundTrip hv hi,
    imr_roundTrip hv hi, rbstart_roundTrip hv hi⟩

end Sys2Proof.Machine
end

section
/-! # Which faults a session can end in (R60, R116, R134, R158, R166, R212, R260)

The induction of `StepKeeps` said for faults: where every labelled step, every start of an operation and every step of
the NIC faults only as `Q` allows, so does every step.  In a session the block's own steps fault on a malformed header
only, and the NIC's on its own DMA only. -/

namespace Sys2Proof.Machine

open Config (reference)

/-! ## The induction, for faults -/

/-- A sequence faults in its first part, or in its second after a next state of the first. -/
theorem andThen_eq_fault {o : Host.Outcome State Fault Refusal} {f : State → Host.Outcome State Fault Refusal}
    {e : Fault} : andThen o f = .fault e ↔ o = .fault e ∨ ∃ s, o = .next s ∧ f s = .fault e := by
  cases o <;> simp [andThen]

theorem guarded_eq_fault {c : Option Refusal} {o : Host.Outcome State Fault Refusal} {e : Fault} :
    guarded c o = .fault e ↔ c = none ∧ o = .fault e := by
  cases c <;> simp [guarded]

/-- A labelled step of a context faults as the step of its control location does. -/
theorem advance_fault {c : Ctx} {s : State} {e : Fault} (h : Machine.advance c s = .fault e) :
    ∃ f rest, (s.context c).stack = f :: rest ∧ frameStep s.plat.values f s = .fault e := by
  unfold Machine.advance at h
  split at h
  · cases h
  · rename_i f rest hst
    generalize hm : frameStep s.plat.values f s = m at h
    cases m with
    | fault x => cases h; exact ⟨f, rest, hst, hm⟩
    | go u k => cases h
    | refused r => cases h

theorem StepKeeps.and {P Q : State → Prop} (hP : StepKeeps P) (hQ : StepKeeps Q) :
    StepKeeps (fun s => P s ∧ Q s) where
  agenda s a h := ⟨hP.agenda s a h.1, hQ.agenda s a h.2⟩
  advance c s t h e := ⟨hP.advance c s t h.1 e, hQ.advance c s t h.2 e⟩
  begins i s t h e := ⟨hP.begins i s t h.1 e, hQ.begins i s t h.2 e⟩
  nic m s t h e := ⟨hP.nic m s t h.1 e, hQ.nic m s t h.2 e⟩
  setCfg c s h := ⟨hP.setCfg c s h.1, hQ.setCfg c s h.2⟩
  grants i t r s h := ⟨hP.grants i t r s h.1, hQ.grants i t r s h.2⟩

/-- In states with `P` the labelled steps, the starts of operations and the NIC fault only as `Q` allows. -/
structure FaultsWithin (P : State → Prop) (Q : Fault → Prop) : Prop where
  advance : ∀ c s e, P s → Machine.advance c s = .fault e → Q e
  begins : ∀ i s e, P s → beginInstr i s = .fault e → Q e
  nic : ∀ m s e, P s → nicStep s.plat.values m s = .fault e → Q e

section
variable {P : State → Prop} {Q : Fault → Prop} (h : FaultsWithin P Q) {s : State} {e : Fault}
include h

theorem FaultsWithin.applyMove {m : Move} (hs : P s) (he : Machine.applyMove m s = .fault e) : Q e := by
  cases m with
  | request c f bytes =>
    simp only [Machine.applyMove] at he
    split at he
    · exact h.begins _ _ _ hs he
    · cases he
  | advance c => exact h.advance _ _ _ hs he
  | nic m => exact h.nic _ _ _ hs he
  | setCfg c | grants i t r => cases he

variable (hk : StepKeeps P)
include hk

theorem FaultsWithin.pace {c : Ctx} (hs : P s) (he : Machine.pace c s = .fault e) : Q e := by
  unfold Machine.pace at he
  split at he
  · exact h.advance _ _ _ hs he
  · exact h.applyMove (hk.agenda _ _ hs) he

theorem FaultsWithin.runContext {c : Ctx} {k : Nat} (hs : P s) (he : Machine.runContext c k s = .fault e) : Q e := by
  induction k generalizing s with
  | zero => cases he
  | succ k ih =>
    simp only [Machine.runContext] at he
    split at he
    · cases he
    · obtain he | ⟨u, hu, he⟩ := andThen_eq_fault.1 he
      · exact h.pace hk hs he
      · exact ih (hk.pace hs hu) he

theorem FaultsWithin.exec {i : Instr} (hs : P s) (he : Machine.exec i s = .fault e) : Q e := by
  rw [exec_eq_runToReturn] at he
  obtain he | ⟨u, hu, he⟩ := andThen_eq_fault.1 he
  · exact h.begins _ _ _ hs he
  · exact h.runContext hk (hk.begins _ _ _ hs hu) he

theorem FaultsWithin.step (hs : P s) (he : Machine.step s = .fault e) : Q e := by
  cases ha : s.agenda with
  | nil =>
    have hidle : Machine.step s = idleStep s := by simp only [Machine.step, fetch, ha]
    rw [hidle, idleStep] at he
    split_ifs at he <;> exact h.runContext hk hs he
  | cons m rest =>
    have hs' : P { s with agenda := rest } := hk.agenda _ _ hs
    by_cases hm : ∃ c f bytes, m = .request c f bytes
    · obtain ⟨c, f, bytes, rfl⟩ := hm
      cases hr : readRequest s.plat.values c f bytes with
      | ok i => rw [step_instr ha hr] at he; exact h.exec hk hs' he
      | error r => rw [step_refused ha hr] at he; cases he
    · rw [step_move ha (by simpa using hm)] at he
      exact h.applyMove hs' he

end

/-! ## Labelled steps -/

/-- The only labels that can fault are those of `submit`, `reconcile` and `drain`. -/
theorem frameStep_fault {K : Config.Values} {f : Frame} {s : State} {e : Fault} (h : frameStep K f s = .fault e) :
    (∃ l, f = .submit l) ∨ (∃ l, f = .reconcile l) ∨ ∃ l, f = .drain l := by
  cases f with
  | submit l => exact .inl ⟨l, rfl⟩
  | reconcile l => exact .inr (.inl ⟨l, rfl⟩)
  | drain l => exact .inr (.inr ⟨l, rfl⟩)
  | reset l => cases l <;> cases h
  | readWord l => cases l <;> cases h
  | check l => cases l <;> cases h
  | hwAddr l =>
    cases l with
    | call i => cases h
    | store i => simp only [frameStep, hwAddrStep] at h; split at h <;> cases h
  | onInterrupt l =>
    cases l with
    | i1 | i4 m | i5 m | i6 m => simp only [frameStep, interruptStep, raiseResult] at h; split at h <;> cases h
    | i2 v | i3 v | i7 => cases h
  | openBlock l =>
    cases l with
    | o1 | o2 | o3 | o4r | releaseIrq r =>
      simp only [frameStep, openStep, raiseResult] at h; split at h <;> cases h
    | _ => cases h
  | closeBlock l =>
    cases l with
    | x2 => simp only [frameStep, closeStep] at h; split at h <;> cases h
    | _ => cases h

/-- With the last `reset` successful `cpu` and `hw` may be read (R116). -/
theorem withRing_ok {s : State} (h : s.eng.ringOk = true) (m : Micro) : withRing s m = m := by
  rw [withRing, if_pos h]

/-- A write into a slot of the held transmit buffer is done. -/
theorem storeStep_slot {s : State} (ht : s.plat.txHeld = true) {i : Nat} (hi : i < 4) {bs : List Byte}
    (hn : bs.length ≤ 1536) (f : Frame) : ∃ t, storeStep reference (slotBase reference s.plat.params i) bs f s =
      .go t (.goto f) := by
  refine ⟨{ s with mem := Memory.setRange s.mem (slotBase reference s.plat.params i) bs }, ?_⟩
  simp only [storeStep, memWrite, if_pos (Or.inr (mapped_slot ht hi hn))]

theorem submitStep_ne_fault {l : SubmitAt} {rest : List Frame} {s : State} (hr : s.eng.ringOk = true)
    (ht : s.plat.txHeld = true) (hsize : sizesOk s (.submit l :: rest)) (e : Fault) :
    submitStep reference l s ≠ .fault e := by
  cases l with
  | s1 frame => simp only [submitStep, raiseResult, withRing_ok hr]; split_ifs <;> simp
  | s2a frame i =>
    obtain ⟨-, hi⟩ := hsize
    obtain ⟨t, hstore⟩ := storeStep_slot ht hi (bs := List.replicate 60 0#8) (by simp) (.submit (.s2b frame i))
    rw [submitStep_s2a, hstore]
    split_ifs <;> simp
  | s2b frame i =>
    obtain ⟨hfit, hi⟩ := hsize
    obtain ⟨t, hstore⟩ := storeStep_slot ht hi (bs := frame) (by omega)
      (.submit (.s3 (finalLength reference frame.length) i))
    rw [submitStep, hstore]
    simp
  | s3 flen i | s4 i => simp [submitStep]
  | s5a => simp [submitStep, withRing_ok hr]
  | s5b x => simp only [submitStep, withRing_ok hr]; split_ifs <;> simp

theorem reconcileStep_ne_fault {K : Config.Values} {l : ReconcileAt} {s : State} (hr : s.eng.ringOk = true)
    (e : Fault) : reconcileStep K l s ≠ .fault e := by
  cases l <;> simp [reconcileStep, withRing_ok hr]

/-- D2 with the receive buffer held: a misaligned offset, a header, or no visible record. -/
theorem withHeader_cases {α : Type} {s : State} (hheld : s.plat.rxHeld = true) (hoff : s.eng.rxOff.toNat < 8192)
    (f : Half → α) (g : Fault → α) (u : Refusal → α) : withHeader reference s f g u = g .malformedHeader ∨
      (∃ size, withHeader reference s f g u = f size) ∨ withHeader reference s f g u = u .recordNotVisible := by
  rw [withHeader, Config.rxHdrLen_val, rxRead_some hheld (by omega)]
  split_ifs
  · exact .inl rfl
  · exact .inr (.inl ⟨_, rfl⟩)
  · exact .inr (.inr rfl)

/-- D4 likewise, for a header that fits: a payload, or no visible record. -/
theorem withPayload_cases {α : Type} {s : State} {size : Half} (hheld : s.plat.rxHeld = true)
    (hoff : s.eng.rxOff.toNat < 8192) (hfit : headerOk reference s.eng.rxOff size = true)
    (f : List Byte → α) (g : Fault → α) (u : Refusal → α) :
    (∃ payload, withPayload reference size s f g u = f payload) ∨
      withPayload reference size s f g u = u .recordNotVisible := by
  rw [withPayload, recordPayload_eq hheld hoff hfit]
  split_ifs
  · exact .inl ⟨_, rfl⟩
  · exact .inr rfl

theorem drainStep_fault {l : DrainAt} {rest : List Frame} {s : State} {e : Fault} (hheld : s.plat.rxHeld = true)
    (hoff : s.eng.rxOff.toNat < 8192) (hsize : sizesOk s (.drain l :: rest))
    (h : drainStep reference l s = .fault e) : e = .malformedHeader := by
  cases l with
  | d1 => simp only [drainStep] at h; split_ifs at h
  | d2 =>
    simp only [drainStep] at h
    obtain hw | ⟨size, hw⟩ | hw := withHeader_cases hheld hoff
      (fun size => Micro.go s (.goto (.drain (.d3 size)))) .fault .refused <;> rw [hw] at h <;> cases h
    rfl
  | d3 size => simp only [drainStep] at h; split_ifs at h; cases h; rfl
  | d4 size =>
    simp only [drainStep] at h
    obtain ⟨p, hw⟩ | hw := withPayload_cases hheld hoff hsize
      (fun payload => Micro.go s (.goto (.drain (.d5 size payload)))) .fault .refused <;> rw [hw] at h <;> cases h
  | d5 size payload | d6a size | d6b => cases h

/-! ## Operations that are one atomic step -/

theorem retireWith_ne_fault {K : Config.Values} {report : State → State} {s : State} (hr : s.eng.ringOk = true)
    (e : Fault) : retireWith K report s ≠ .fault e := by
  rw [retireWith, if_neg (by simp [hr])]
  split <;> simp [finishAtomic]

theorem parseRecord_fault {size : Half} {s : State} {e : Fault} (hheld : s.plat.rxHeld = true)
    (hoff : s.eng.rxOff.toNat < 8192) (h : parseRecord reference size s = .fault e) : e = .malformedHeader := by
  rw [parseRecord] at h
  split at h
  · cases h
  · obtain hw | ⟨z, hw⟩ | hw := withHeader_cases hheld hoff _ _ _ <;> rw [hw] at h
    · cases h; rfl
    · split at h
      · cases h
      · split at h
        · obtain ⟨p, hw⟩ | hw := withPayload_cases hheld hoff ‹_› _ _ _ <;> rw [hw] at h <;> cases h
        · cases h; rfl
    · cases h

/-- Where the handler's words find what they use, the start of an operation faults on a malformed header only. -/
theorem beginInstr_fault {i : Instr} {s : State} {e : Fault} (hv : AtReference s)
    (hserve : handlerCheck s = none → s.eng.ringOk = true ∧ s.plat.rxHeld = true) (hoff : s.eng.rxOff.toNat < 8192)
    (h : beginInstr i s = .fault e) : e = .malformedHeader := by
  cases i with
  | submit frame => obtain ⟨-, h⟩ := guarded_eq_fault.1 h; split at h <;> cases h
  | txstatSuccess b tt m u o z =>
    obtain ⟨hc, h⟩ := guarded_eq_fault.1 h
    exact absurd h (retireWith_ne_fault (hserve hc).1 e)
  | txstatError b a m u o z =>
    obtain ⟨hc, h⟩ := guarded_eq_fault.1 h
    split at h
    · exact absurd h (retireWith_ne_fault (hserve hc).1 e)
    · cases h
  | rxhdr z st =>
    obtain ⟨hc, h⟩ := guarded_eq_fault.1 h
    rw [hv] at h
    exact parseRecord_fault (hserve hc).2 hoff h
  | _ => obtain ⟨-, h⟩ := guarded_eq_fault.1 h; cases h

/-- The NIC faults on its own DMA only (R204, R260). -/
theorem nicStep_fault {K : Config.Values} {m : NicMove} {s : State} {e : Fault} (h : nicStep K m s = .fault e) :
    e = .nicDmaUnmapped := by
  cases m with
  | txComplete i o =>
    simp only [nicStep, devTxComplete] at h
    split at h
    · split at h
      · split at h <;> cases h; rfl
      · cases h
    · cases h
    · cases h
  | rxRecord st f fcs bad => simp only [nicStep, devRxRecord] at h; split_ifs at h; cases h; rfl
  | padWrite k b => simp only [nicStep, devPadWrite] at h; split_ifs at h; cases h; rfl
  | _ => cases h

/-! ## In a session -/

/-- A `submit` that runs finds the indexes known and `txbuf` held. -/
theorem Session.submissionServed {s : State} (hs : Session s) (h : s.submission.stack ≠ []) :
    s.eng.ringOk = true ∧ s.plat.txHeld = true := by
  obtain ⟨hb, hup⟩ := hs.submitting h
  have hstage := hs.stage
  rw [hb] at hstage
  obtain ⟨-, ⟨-, htx, -⟩, -, hring⟩ := stageOk_idle_up hstage hup
  exact ⟨hring, htx⟩

/-- In a session a labelled step faults on a malformed header only. -/
theorem Session.advance_fault {c : Ctx} {s : State} {e : Fault} (hs : Session s) (hv : AtReference s)
    (hoff : s.eng.rxOff.toNat < 8192) (h : Machine.advance c s = .fault e) : e = .malformedHeader := by
  obtain ⟨f, rest, hst, hf⟩ := Machine.advance_fault h
  have hok := (ctxOk_iff s).1 hs.contexts c
  rw [stOk, hst] at hok
  have hctx := stackOk_top hok
  rw [hv] at hf
  obtain ⟨l, rfl⟩ | ⟨l, rfl⟩ | ⟨l, rfl⟩ := frameStep_fault hf <;> subst hctx
  · have hst : s.submission.stack = .submit l :: rest := hst
    obtain ⟨hring, htx⟩ := hs.submissionServed (by simp [hst])
    exact absurd hf (submitStep_ne_fault hring htx (hst ▸ hs.submitSizes) e)
  · have hst : s.interrupt.stack = .reconcile l :: rest := hst
    exact absurd hf (reconcileStep_ne_fault (hs.routed (by rw [hst]; rfl)).1 e)
  · have hst : s.interrupt.stack = .drain l :: rest := hst
    exact drainStep_fault (hs.routed (by rw [hst]; rfl)).2 hoff (hst ▸ hs.drainSizes) hf

/-- Where the handler's operations are permitted, the session has what they use. -/
theorem Session.handlerServed {s : State} (hs : Session s) (h : handlerCheck s = none) :
    s.eng.ringOk = true ∧ s.plat.rxHeld = true := by
  obtain ⟨-, hq, hl⟩ := handlerCheck_none h
  exact stageOk_serviceable hs.stage (.inr ⟨hl, hq⟩)

/-- Only O5 and D6a write `rx_off`. -/
theorem LabelEffect.rxOff_cases {K : Config.Values} {s t : State} {c : Ctx} (h : LabelEffect K s c t) :
    t.eng.rxOff = s.eng.rxOff ∨ t.eng.rxOff = 0#16 ∨
      ∃ z : Half, t.eng.rxOff = advanceOffset K s.eng.rxOff (footprint K z.toNat) := by
  cases h with
  | initRegisters => exact .inr (.inl rfl)
  | consume z => exact .inr (.inr ⟨z, rfl⟩)
  | window off bs => exact .inl (by rw [regWrite_eng])
  | storeAddress i w => obtain ⟨v, h⟩ := storeHwAddr_frame i w s; exact .inl (by rw [h])
  | enable v => exact .inl (by rw [setIrqEnabled, write16, regWrite_eng])
  | store a bs h => obtain ⟨-, rfl⟩ := memWrite_some h; exact .inl rfl
  | reportError u a => exact .inl (by rw [Machine.reportError, write16, regWrite_eng]; rfl)
  | resume old => obtain h | h := resumeIf_eng old s <;> exact .inl (by rw [h])
  | link bad => obtain ⟨l, h⟩ := linkEdge_eng bad s; exact .inl (by rw [h])
  | _ => exact .inl rfl

/-- `rx_off` stays in the buffer, aligned or not. -/
theorem rxOffInRange_kept : StepKeeps (fun s => AtReference s ∧ s.eng.rxOff.toNat < 8192) := by
  refine .of_effects_atReference ?control ?agenda ?label ?nic ?setCfg ?grants
  case control => exact fun c x s hs => by rwa [setContext_eng]
  case agenda => exact fun s a hs => hs
  case label =>
    intro c s t hs h
    obtain h | h | ⟨z, h⟩ := h.rxOff_cases <;> rw [h]
    · exact hs
    · decide
    · exact advanceOffset_lt _ _
  case nic => intro m s t hs h; obtain ⟨n, e, mm, d, k, rfl, -⟩ := nicStep_frame m s t h; exact hs
  case setCfg => intro c s hs; obtain ⟨c', h⟩ := hostSetCfg_frame c s; rw [h]; exact hs
  case grants => exact fun i t r s hs => hs

/-- A session with the receive offset inside the buffer. -/
def InSession (s : State) : Prop :=
  (AtReference s ∧ (0 < s.plat.values.nTx ∧ Shaped s) ∧ Session s) ∧ (AtReference s ∧ s.eng.rxOff.toNat < 8192)

theorem inSession_kept : StepKeeps InSession := session_kept.and rxOffInRange_kept

theorem session_faultsWithin : FaultsWithin InSession (fun e => e = .malformedHeader ∨ e = .nicDmaUnmapped) where
  advance := fun _ _ _ ⟨⟨hv, _, hs⟩, _, hoff⟩ h => .inl (hs.advance_fault hv hoff h)
  begins := fun _ _ _ ⟨⟨hv, _, hs⟩, _, hoff⟩ h => .inl (beginInstr_fault hv hs.handlerServed hoff h)
  nic := fun _ _ _ _ h => .inr (nicStep_fault h)

/-- Settles O57: a step of a session faults on a malformed header or on the NIC's own DMA only. -/
theorem sessionsNeverFaultOnTheBlocksSide : Obligations.SessionsNeverFaultOnTheBlocksSide := by
  intro s hv hshape ⟨hoff, _⟩ hs
  have hfault (e : Fault) (h : step s = .fault e) : e = .malformedHeader ∨ e = .nicDmaUnmapped :=
    session_faultsWithin.step inSession_kept ⟨⟨hv, ⟨nTx_pos hv, hshape⟩, hs⟩, hv, hoff⟩ h
  exact ⟨fun h => by simpa using hfault _ h, fun h => by simpa using hfault _ h⟩

end Sys2Proof.Machine
end

section
/-! # Decoding and encoding (R75 to R91) -/

namespace Sys2Proof.Machine

open Config (reference)

/-! ## Bytes and bits of a word -/

theorem le16_join16 (b0 b1 : Byte) : le16 (join16 b0 b1) = [b0, b1] := by
  rw [le16, join16, BitVec.extractLsb'_append_eq_right, BitVec.extractLsb'_append_eq_left]

theorem le32_join32 (b0 b1 b2 b3 : Byte) : le32 (join32 b0 b1 b2 b3) = [b0, b1, b2, b3] := by
  have h (k : Nat) : (join32 b0 b1 b2 b3).extractLsb' (8 * k) 8 = [b0, b1, b2, b3].getD k 0#8 := by
    apply BitVec.eq_of_getLsbD_eq
    intro i hi
    simp only [join32, BitVec.getLsbD_extractLsb', BitVec.getLsbD_append]
    grind
  simp only [le32, List.cons.injEq, and_true]
  exact ⟨h 0, h 1, h 2, h 3⟩

/-- A bit is clear where the mask of that one bit finds nothing. -/
theorem and_twoPow_eq_zero {w : Word} {k : Nat} (hk : k < 32) :
    w &&& BitVec.twoPow 32 k = 0#32 ↔ w.extractLsb' k 1 = 0#1 := by
  rw [← bitOf_bit w k hk, bitOf]
  split <;> simp [*]

/-- A field that a mask covers whole is 0 where the masked word is. -/
theorem extract_eq_zero {w m : Word} (h : w &&& m = 0#32) {k n : Nat} (hm : m.extractLsb' k n = BitVec.allOnes n) :
    w.extractLsb' k n = 0#n := by
  have hfield := congrArg (BitVec.extractLsb' k n) h
  rwa [BitVec.extractLsb'_and, hm, BitVec.and_allOnes, BitVec.extractLsb'_zero] at hfield

/-! ## `OPSEL` (R77, R78, R88) -/

/-- What a selector's decoder accepts is an operation that these very bytes encode. -/
def SelectorSound (op : Byte) (operands : List Byte) (r : Except DecodeError Instr) : Prop :=
  ∀ i, r = .ok i → i.format = .opsel ∧ encode i = op :: operands

section
variable {op : Byte} {operands : List Byte}

theorem SelectorSound.error (e : DecodeError) : SelectorSound op operands (.error e) := nofun

theorem SelectorSound.ok {i : Instr} (h : i.format = .opsel ∧ encode i = op :: operands) :
    SelectorSound op operands (.ok i) := by rintro _ ⟨⟩; exact h

/-- One row of the table before the others. -/
theorem SelectorSound.row {v : Byte} {r others : Except DecodeError Instr} (h : SelectorSound v operands r)
    (ho : SelectorSound op operands others) : SelectorSound op operands (if op = v then r else others) := by
  split
  · subst op; exact h
  · exact ho

theorem noOperand_sound {i : Instr} (h : i.format = .opsel ∧ encode i = [op]) :
    SelectorSound op operands (noOperand i operands) := by
  unfold noOperand
  split
  · exact .ok h
  · exact .error _

theorem offsetOperand_sound {k : BitVec 8 → Instr} (h : ∀ o, (k o).format = .opsel ∧ encode (k o) = [op, o]) :
    SelectorSound op operands (offsetOperand k operands) := by
  unfold offsetOperand
  split
  · exact .ok (h _)
  · exact .error _

theorem valueOperand8_sound {k : BitVec 8 → Byte → Instr}
    (h : ∀ o v, (k o v).format = .opsel ∧ encode (k o v) = [op, o, v]) :
    SelectorSound op operands (valueOperand8 k operands) := by
  unfold valueOperand8
  split
  · exact .ok (h _ _)
  · exact .error _

theorem valueOperand16_sound {k : BitVec 8 → Half → Instr}
    (h : ∀ o v, (k o v).format = .opsel ∧ encode (k o v) = op :: o :: le16 v) :
    SelectorSound op operands (valueOperand16 k operands) := by
  unfold valueOperand16
  split
  · exact .ok (le16_join16 _ _ ▸ h _ _)
  · exact .error _

theorem valueOperand32_sound {k : BitVec 8 → Word → Instr}
    (h : ∀ o v, (k o v).format = .opsel ∧ encode (k o v) = op :: o :: le32 v) :
    SelectorSound op operands (valueOperand32 k operands) := by
  unfold valueOperand32
  split
  · exact .ok (le32_join32 _ _ _ _ ▸ h _ _)
  · exact .error _

theorem addressOperand_sound {K : Config.Values} : SelectorSound 0x20#8 operands (addressOperand K operands) := by
  unfold addressOperand
  split
  · split
    · exact .ok ⟨rfl, congrArg (0x20#8 :: ·) (le16_join16 _ _)⟩
    · exact .error _
  · exact .error _

/-- The table row by row, in the decoder's order. -/
theorem decodeOpsel_sound (K : Config.Values) (op : Byte) (operands : List Byte) :
    SelectorSound op operands (decodeOpsel K op operands) :=
  .row (offsetOperand_sound fun _ => ⟨rfl, rfl⟩) <|
  .row (offsetOperand_sound fun _ => ⟨rfl, rfl⟩) <|
  .row (offsetOperand_sound fun _ => ⟨rfl, rfl⟩) <|
  .row (valueOperand8_sound fun _ _ => ⟨rfl, rfl⟩) <|
  .row (valueOperand16_sound fun _ _ => ⟨rfl, rfl⟩) <|
  .row (valueOperand32_sound fun _ _ => ⟨rfl, rfl⟩) <|
  .row (valueOperand16_sound fun _ _ => ⟨rfl, rfl⟩) <|
  .row (valueOperand32_sound fun _ _ => ⟨rfl, rfl⟩) <|
  .row (noOperand_sound ⟨rfl, rfl⟩) <|
  .row addressOperand_sound <|
  .row (noOperand_sound ⟨rfl, rfl⟩) <|
  .row (.ok ⟨rfl, rfl⟩) <|
  .row (noOperand_sound ⟨rfl, rfl⟩) <|
  .row (noOperand_sound ⟨rfl, rfl⟩) <|
  .row (noOperand_sound ⟨rfl, rfl⟩) <|
  .row (noOperand_sound ⟨rfl, rfl⟩) <|
  .row (noOperand_sound ⟨rfl, rfl⟩) <|
  .row (noOperand_sound ⟨rfl, rfl⟩) <|
  .error _

end

/-- An operation's bytes decode to it at any record, an EEPROM address being one the record has. -/
theorem decode_encode_opsel {K : Config.Values} {i : Instr} (hf : i.format = .opsel)
    (ha : ∀ a, i = .readWord a → addressOk K a = true) : decode K .opsel (encode i) = .ok i := by
  cases i with
  | write16 o v => exact congrArg (Except.ok ∘ Instr.write16 o) (join16_extract v)
  | write32 o v => exact congrArg (Except.ok ∘ Instr.write32 o) (join32_extract v)
  | writeRaw16 o v => exact congrArg (Except.ok ∘ Instr.writeRaw16 o) (join16_extract v)
  | writeRaw32 o v => exact congrArg (Except.ok ∘ Instr.writeRaw32 o) (join32_extract v)
  | readWord a =>
    show (if addressOk K (join16 _ _) then Except.ok (Instr.readWord (join16 _ _)) else _) = _
    rw [join16_extract, if_pos (ha a rfl)]
  | txcmd | txstatInFlight | txstatSuccess | txstatError | rxhdr | eecmdRead => cases hf
  | _ => rfl

/-! ## `TXCMD` (R79) -/

theorem txcmdWord_fixed (thresh : BitVec 6) (len : BitVec 13) : txcmdWord thresh len &&& 0xFFC0E000#32 = 0#32 := by
  rw [← join32_extract (txcmdWord thresh len)]
  exact Laws.TableRow.txcmd thresh len 0

theorem txcmdWord_thresh (thresh : BitVec 6) (len : BitVec 13) : (txcmdWord thresh len).extractLsb' 16 6 = thresh := by
  rw [txcmdWord, BitVec.extractLsb'_append_eq_of_le (by decide), BitVec.extractLsb'_append_eq_of_le (by decide)]
  exact BitVec.extractLsb'_append_eq_right

theorem txcmdWord_len (thresh : BitVec 6) (len : BitVec 13) : (txcmdWord thresh len).extractLsb' 0 13 = len :=
  BitVec.extractLsb'_append_eq_right

/-- A word is put together from R79's fields of it. -/
theorem txcmdFields_extract (w : Word) :
    w.extractLsb' 22 10 ++ w.extractLsb' 16 6 ++ w.extractLsb' 13 3 ++ w.extractLsb' 0 13 = w := by
  apply BitVec.eq_of_getLsbD_eq
  intro i hi
  simp only [BitVec.getLsbD_append, BitVec.getLsbD_extractLsb']
  grind

/-- A word with R79's fixed bits 0 is the `TXCMD` of its two fields. -/
theorem txcmdWord_extract {w : Word} (h : w &&& 0xFFC0E000#32 = 0#32) :
    txcmdWord (w.extractLsb' 16 6) (w.extractLsb' 0 13) = w := by
  have hhigh : w.extractLsb' 22 10 = 0#10 := extract_eq_zero h (by decide)
  have hmid : w.extractLsb' 13 3 = 0#3 := extract_eq_zero h (by decide)
  rw [txcmdWord, ← hhigh, ← hmid, txcmdFields_extract]

/-! ## `TXSTAT` (R81) -/

/-- None of `TOK`, `TUN` and `TABT`. -/
theorem statusClear_iff {w : Word} : w &&& 0x4000C000#32 = 0#32 ↔
    w.extractLsb' 30 1 = 0#1 ∧ w.extractLsb' 15 1 = 0#1 ∧ w.extractLsb' 14 1 = 0#1 := by
  have hmask : 0x4000C000#32 = BitVec.twoPow 32 30 ||| (BitVec.twoPow 32 15 ||| BitVec.twoPow 32 14) := by decide
  rw [hmask, BitVec.and_or_distrib_left, BitVec.and_or_distrib_left, BitVec.or_eq_zero_iff, BitVec.or_eq_zero_iff,
    and_twoPow_eq_zero (by decide), and_twoPow_eq_zero (by decide), and_twoPow_eq_zero (by decide)]

theorem tokClear_iff {w : Word} : w &&& 0x00008000#32 = 0#32 ↔ w.extractLsb' 15 1 = 0#1 :=
  and_twoPow_eq_zero (k := 15) (by decide)

theorem txstatWord_extract (w : Word) : txstatWord (w.extractLsb' 31 1) (w.extractLsb' 30 1) (w.extractLsb' 16 14)
    (w.extractLsb' 15 1) (w.extractLsb' 14 1) (w.extractLsb' 13 1) (w.extractLsb' 0 13) = w := by
  apply BitVec.eq_of_getLsbD_eq
  intro i hi
  simp only [txstatWord, BitVec.getLsbD_append, BitVec.getLsbD_extractLsb']
  grind

/-- The fields of a status word are what it was put together from. -/
theorem txstatWord_fields (b31 tabt : BitVec 1) (mid : BitVec 14) (tok tun own : BitVec 1) (size : BitVec 13) {w : Word}
    (hw : w = txstatWord b31 tabt mid tok tun own size) :
    w.extractLsb' 31 1 = b31 ∧ w.extractLsb' 30 1 = tabt ∧ w.extractLsb' 16 14 = mid ∧ w.extractLsb' 15 1 = tok ∧
      w.extractLsb' 14 1 = tun ∧ w.extractLsb' 13 1 = own ∧ w.extractLsb' 0 13 = size := by
  subst hw
  refine ⟨?_, ?_, ?_, ?_, ?_, ?_, ?_⟩ <;>
  · apply BitVec.eq_of_getLsbD_eq
    intro i hi
    simp only [txstatWord, BitVec.getLsbD_append, BitVec.getLsbD_extractLsb']
    grind

/-- R81 on a word given by its fields. -/
theorem decodeTxstat_word (b31 tabt : BitVec 1) (mid : BitVec 14) (tok tun own : BitVec 1) (size : BitVec 13) :
    decodeTxstat reference (txstatWord b31 tabt mid tok tun own size) =
      if tabt = 0#1 ∧ tok = 0#1 ∧ tun = 0#1 then .txstatInFlight b31 mid own size
      else if tok ≠ 0#1 then .txstatSuccess b31 tabt mid tun own size
      else .txstatError b31 tabt mid tun own size := by
  obtain ⟨h31, h30, hmid, h15, h14, h13, hsize⟩ := txstatWord_fields b31 tabt mid tok tun own size rfl
  simp only [decodeTxstat_eq, statusClear_iff, ne_eq, tokClear_iff, h31, h30, hmid, h15, h14, h13, hsize]

theorem encode_decodeTxstat (w : Word) :
    (decodeTxstat reference w).format = .txstat ∧ encode (decodeTxstat reference w) = le32 w := by
  rw [← txstatWord_extract w, decodeTxstat_word]
  split_ifs with hclear htok
  · obtain ⟨h30, h15, h14⟩ := hclear
    exact ⟨rfl, by rw [h30, h15, h14, encode]⟩
  · exact ⟨rfl, by rw [(BitVec.eq_zero_or_eq_one _).resolve_left htok, encode]⟩
  · exact ⟨rfl, by rw [not_not.1 htok, encode]⟩

/-! ## `RXHDR` and `EECMD` (R82, R84) -/

/-- The two halves of a header word, least significant byte first (R82). -/
theorem le32_rxhdrWord (size status : Half) : le32 (rxhdrWord size status) = le16 status ++ le16 size := by
  have hlow (k : Nat) (hk : k + 8 ≤ 16) : (rxhdrWord size status).extractLsb' k 8 = status.extractLsb' k 8 :=
    BitVec.extractLsb'_append_eq_of_add_le hk
  have hhigh (k : Nat) : (rxhdrWord size status).extractLsb' (16 + k) 8 = size.extractLsb' k 8 := by
    rw [rxhdrWord, BitVec.extractLsb'_append_eq_of_le (by omega), Nat.add_sub_cancel_left]
  simp only [le32, le16, List.cons_append, List.nil_append, List.cons.injEq, and_true]
  exact ⟨hlow 0 (by decide), hlow 8 (by decide), hhigh 0, hhigh 8⟩

/-- R84's pattern, the opcode's ten bits above the address. -/
theorem eecmdPattern (b : BitVec 6) : (0#7 ++ (0b110#3 ++ b) : Half) = 0b110#10 ++ b :=
  (BitVec.append_assoc (x₁ := 0#7)).symm

theorem eecmdPattern_extract {w : Half} (h : w.extractLsb' 6 10 = 0b110#10) : 0b110#10 ++ w.extractLsb' 0 6 = w := by
  rw [← h]
  apply BitVec.eq_of_getLsbD_eq
  intro i hi
  simp only [BitVec.getLsbD_append, BitVec.getLsbD_extractLsb']
  grind

theorem setWidth_extract_six (b : BitVec 6) : (b.setWidth 16).extractLsb' 0 6 = b := by
  rw [BitVec.extractLsb'_setWidth_of_le (by decide), BitVec.extractLsb'_eq_self]

theorem decodeEecmd_pattern (b : BitVec 6) :
    decodeEecmd reference (0b110#10 ++ b) = .ok (.eecmdRead (b.setWidth 16)) := by
  rw [decodeEecmd_eq, BitVec.extractLsb'_append_eq_left, BitVec.extractLsb'_append_eq_right, if_pos rfl]

/-! ## The two directions -/

/-- Settles O1: format by format, the fields of an encoded word are what it was put together from. -/
theorem decodeOfEncode : Obligations.DecodeOfEncode := by
  intro i hwf
  cases i with
  | txcmd thresh len slot =>
    have hslot : slot < 4 := slotOk_iff.1 hwf
    have hbyte : (BitVec.ofNat 8 slot).toNat = slot := by rw [BitVec.toNat_ofNat]; omega
    show decodeTxcmd reference (join32 _ _ _ _) _ = _
    rw [join32_extract, decodeTxcmd_eq, if_pos ⟨txcmdWord_fixed thresh len, by omega⟩, txcmdWord_thresh, txcmdWord_len,
      hbyte]
  | txstatInFlight b31 mid own size =>
    show Except.ok (decodeTxstat reference (join32 _ _ _ _)) = _
    rw [join32_extract, decodeTxstat_word, if_pos ⟨rfl, rfl, rfl⟩]
  | txstatSuccess b31 tabt mid tun own size =>
    show Except.ok (decodeTxstat reference (join32 _ _ _ _)) = _
    rw [join32_extract, decodeTxstat_word, if_neg (by simp), if_pos (by decide)]
  | txstatError b31 abort mid underrun own size =>
    have hbits : abort ||| underrun = 1#1 := beq_iff_eq.1 hwf
    have hsome : ¬ (abort = 0#1 ∧ 0#1 = 0#1 ∧ underrun = 0#1) := by
      rintro ⟨rfl, -, rfl⟩
      exact absurd hbits (by decide)
    show Except.ok (decodeTxstat reference (join32 _ _ _ _)) = _
    rw [join32_extract, decodeTxstat_word, if_neg hsome, if_neg (by simp)]
  | rxhdr size status =>
    show decode reference .rxhdr (le32 (rxhdrWord size status)) = _
    rw [le32_rxhdrWord]
    exact congrArg₂ (Except.ok <| Instr.rxhdr · ·) (join16_extract size) (join16_extract status)
  | eecmdRead a =>
    obtain ⟨b, rfl⟩ := eeAddr_six (addressOk_iff.1 hwf)
    show decodeEecmd reference (join16 _ _) = _
    rw [join16_extract, setWidth_extract_six, eecmdPattern, decodeEecmd_pattern]
  | readWord a => exact decode_encode_opsel rfl fun b hb => by cases hb; exact hwf
  | _ => exact decode_encode_opsel rfl nofun

/-- Settles O2: format by format, a decoded word is put together again from all of its fields. -/
theorem encodeOfDecode : Obligations.EncodeOfDecode := by
  intro f bytes i h
  unfold decode at h
  split at h
  case h_1 op operands => exact decodeOpsel_sound reference op operands i h
  case h_2 b0 b1 b2 b3 slot =>
    rw [decodeTxcmd_eq] at h
    split at h
    case isFalse => cases h
    case isTrue hfixed =>
      cases h
      refine ⟨rfl, ?_⟩
      rw [encode, txcmdWord_extract hfixed.1, le32_join32, BitVec.ofNat_toNat, BitVec.setWidth_eq]
      rfl
  case h_3 b0 b1 b2 b3 =>
    cases h
    rw [← le32_join32]
    exact encode_decodeTxstat _
  case h_4 b0 b1 b2 b3 =>
    cases h
    exact ⟨rfl, by rw [encode, le32_rxhdrWord, le16_join16, le16_join16]; rfl⟩
  case h_5 b0 b1 =>
    rw [decodeEecmd_eq] at h
    split at h
    case isFalse => cases h
    case isTrue hop =>
      cases h
      refine ⟨rfl, ?_⟩
      rw [encode, setWidth_extract_six, eecmdPattern, eecmdPattern_extract hop, le16_join16]
  all_goals cases h

end Sys2Proof.Machine
end

section
/-! # Selectors, table words, status words and the submit command (R77 to R81, R88) -/

namespace Sys2Proof.Machine

open Config (reference)

/-- R88: the table's selectors are the only ones. -/
theorem decodeOpsel_unlisted {K : Config.Values} {op : Byte} {operands : List Byte}
    (h : op ∉ [0x00#8, 0x01#8, 0x02#8, 0x04#8, 0x05#8, 0x06#8, 0x0D#8, 0x0E#8, 0x10#8, 0x20#8, 0x21#8, 0x30#8, 0x31#8,
      0x40#8, 0x50#8, 0x60#8, 0x70#8, 0x71#8]) : decodeOpsel K op operands = .error (.reservedSelector op) := by
  simp only [List.mem_cons, List.not_mem_nil, or_false, not_or] at h
  simp only [decodeOpsel, h, if_false]

/-- Address 0 is one of every EEPROM. -/
theorem addressOk_zero (K : Config.Values) : addressOk K 0#16 = true := decide_eq_true (Nat.two_pow_pos _)

/-- The first byte of an operation's encoding selects an operation. -/
theorem selector_decodes {K : Config.Values} {op : Byte} {operands : List Byte} (i : Instr) (hf : i.format = .opsel)
    (ha : ∀ a, i = .readWord a → addressOk K a = true) (he : encode i = op :: operands) :
    ∃ operands i, decode K .opsel (op :: operands) = .ok i :=
  ⟨operands, i, he ▸ decode_encode_opsel hf ha⟩

/-- Settles O3: each listed selector heads the encoding of an operation, any other falls through the table. -/
theorem unlistedSelectorsAreRefused : Obligations.UnlistedSelectorsAreRefused := by
  refine ⟨fun op hop K => ?_, fun op hop c operands rest s ha => ?_⟩
  · fin_cases hop
    · exact selector_decodes (.read8 0) rfl nofun rfl
    · exact selector_decodes (.read16 0) rfl nofun rfl
    · exact selector_decodes (.read32 0) rfl nofun rfl
    · exact selector_decodes (.write8 0 0) rfl nofun rfl
    · exact selector_decodes (.write16 0 0) rfl nofun rfl
    · exact selector_decodes (.write32 0 0) rfl nofun rfl
    · exact selector_decodes (.writeRaw16 0 0) rfl nofun rfl
    · exact selector_decodes (.writeRaw32 0 0) rfl nofun rfl
    · exact selector_decodes .reset rfl nofun rfl
    · exact selector_decodes (.readWord 0) rfl (fun a h => by cases h; exact addressOk_zero K) rfl
    · exact selector_decodes .readHardwareAddress rfl nofun rfl
    · exact selector_decodes (.submit []) rfl nofun rfl
    · exact selector_decodes .reconcile rfl nofun rfl
    · exact selector_decodes .drain rfl nofun rfl
    · exact selector_decodes .onInterrupt rfl nofun rfl
    · exact selector_decodes .check rfl nofun rfl
    · exact selector_decodes .openBlock rfl nofun rfl
    · exact selector_decodes .closeBlock rfl nofun rfl
  · have hd : decode s.plat.values .opsel (op :: operands) = .error (.reservedSelector op) := decodeOpsel_unlisted hop
    exact step_refused ha (by simp only [readRequest, hd])

/-- A table word is read as the instruction of its format that its bytes encode. -/
theorem decodeTableWord_of_encode {nbits w : Nat} {i : Instr} (hf : tableFormat nbits w = i.format)
    (hb : tableBytes nbits w = encode i) (hd : decode reference i.format (encode i) = .ok i) :
    decodeTableWord nbits w = some i := by
  rw [decodeTableWord, hf, hb, hd]

/-- Settles O4: the bytes of each word are the encoding of the instruction it stands for. -/
theorem wordsOfTheTable : Obligations.WordsOfTheTable :=
  ⟨decodeTableWord_of_encode (by decide) (by decide) (decode_encode_opsel rfl nofun),
   decodeTableWord_of_encode (by decide) (by decide) (decode_encode_opsel rfl nofun),
   decodeTableWord_of_encode (by decide) (by decide) (decode_encode_opsel rfl nofun),
   decodeTableWord_of_encode (by decide) (by decide) (decode_encode_opsel rfl nofun),
   decodeTableWord_of_encode (by decide) (by decide) (decodeOfEncode _ (by decide)),
   decodeTableWord_of_encode (by decide) (by decide) (decodeOfEncode _ (by decide)),
   decodeTableWord_of_encode (by decide) (by decide) (decodeOfEncode _ (by decide)),
   decodeTableWord_of_encode (by decide) (by decide) (decodeOfEncode _ (by decide))⟩

/-! ## Status words (R81) -/

theorem inFlight_iff {w : Word} : inFlight reference w = true ↔ w &&& 0x4000C000#32 = 0#32 := by
  rw [inFlight, Config.tsdStatus_val, beq_iff_eq]

theorem txSucceeded_iff {w : Word} : txSucceeded reference w = true ↔ w &&& 0x00008000#32 ≠ 0#32 := by
  rw [txSucceeded, anySet, Config.tsdTok_val, Bool.not_eq_true', beq_eq_false_iff_ne]

/-- A word that is neither in flight nor a success has one of the error bits. -/
theorem errorBit {w : Word} (hs : w &&& 0x4000C000#32 ≠ 0#32) (hk : w &&& 0x00008000#32 = 0#32) :
    w.getLsbD 14 = true ∨ w.getLsbD 30 = true := by
  simp only [BitVec.getLsbD_eq_extractLsb', beq_iff_eq]
  by_contra h
  obtain ⟨h14, h30⟩ := not_or.1 h
  exact hs (statusClear_iff.2 ⟨(BitVec.eq_zero_or_eq_one _).resolve_right h30, tokClear_iff.1 hk,
    (BitVec.eq_zero_or_eq_one _).resolve_right h14⟩)

/-- Settles O5: R81's two tests, of the word in the decoder and of `TSD[hw]` in C2b. -/
theorem statusWordClasses : Obligations.StatusWordClasses := by
  intro w
  rw [decodeTxstat_eq]
  refine ⟨fun hs => ?_, fun hs hk => ?_, fun hs hk => ⟨?_, errorBit hs hk⟩, fun s c old hr hw => ?_⟩
  · exact ⟨_, _, _, _, if_pos hs⟩
  · exact ⟨_, _, _, _, _, by rw [if_neg hs, if_pos hk]⟩
  · exact ⟨_, _, _, _, by rw [if_neg hs, if_neg (not_not.2 hk)]⟩
  · rw [reconcileStep, withRing_ok hr]
    simp only [regNamed, hw, inFlight_iff, txSucceeded_iff, txSize_eq, txUnderrun_eq, txAborted_eq]

/-! ## The submit command (R80) -/

/-- A word with no bit outside 21:16 is a `TXCMD` without a length. -/
theorem txcmdWord_flags {f : Word} (h : f &&& ~~~0x003F0000#32 = 0#32) : txcmdWord (f.extractLsb' 16 6) 0#13 = f := by
  have hhigh : f.extractLsb' 22 10 = 0#10 := extract_eq_zero h (by decide)
  have hmid : f.extractLsb' 13 3 = 0#3 := extract_eq_zero h (by decide)
  have hlow : f.extractLsb' 0 13 = 0#13 := extract_eq_zero h (by decide)
  rw [txcmdWord, ← hhigh, ← hmid, ← hlow, txcmdFields_extract]

/-- A length of 13 bits is a `TXCMD` without flags. -/
theorem txcmdWord_length {n : Nat} (h : n < 8192) : txcmdWord 0#6 (BitVec.ofNat 13 n) = BitVec.ofNat 32 n := by
  apply BitVec.eq_of_toNat_eq
  rw [← commandWord_eq, commandWord, BitVec.setWidth_zero, BitVec.zero_shiftLeft, BitVec.zero_or, BitVec.toNat_setWidth,
    BitVec.toNat_ofNat, BitVec.toNat_ofNat]
  omega

theorem txcmdWord_eq_or (thresh : BitVec 6) (len : BitVec 13) :
    txcmdWord thresh len = txcmdWord thresh 0#13 ||| txcmdWord 0#6 len := by
  simp only [← commandWord_eq, commandWord, BitVec.setWidth_zero, BitVec.zero_shiftLeft, BitVec.or_zero,
    BitVec.zero_or]

theorem txcmdWord_disjoint (thresh : BitVec 6) (len : BitVec 13) :
    txcmdWord thresh 0#13 &&& txcmdWord 0#6 len = 0#32 := by
  apply BitVec.eq_of_getLsbD_eq
  intro i hi
  simp only [txcmdWord, BitVec.getLsbD_and, BitVec.getLsbD_append, BitVec.getLsbD_zero]
  grind

theorem txcmdWord_lowBits (len : BitVec 13) : txcmdWord 0#6 len &&& ~~~0x00001FFF#32 = 0#32 := by
  have hmask : ~~~0x00001FFF#32 = 0x7FFFF#19 ++ 0#13 := by decide
  apply BitVec.eq_of_getLsbD_eq
  intro i hi
  simp only [txcmdWord, hmask, BitVec.getLsbD_and, BitVec.getLsbD_append, BitVec.getLsbD_zero]
  grind

theorem finalLength_le {frame : List Byte} (h : oversized reference frame = false) :
    finalLength reference frame.length ≤ 1536 - 4 := by
  rw [oversized, decide_eq_false_iff_not, Config.maxFrameSize_val, Config.fcsLen_val] at h
  rw [finalLength, Config.minEthLen_val]
  omega

/-- Settles O6: the flags are a `TXCMD` without a length, the length one without flags. -/
theorem submitCommandIsADisjointUnion : Obligations.SubmitCommandIsADisjointUnion := by
  intro p frame hf hv
  have hle := finalLength_le hv
  have hflags := txcmdWord_flags hf
  have hlen := txcmdWord_length (n := finalLength reference frame.length) (by omega)
  refine ⟨hle, ?_, ?_, rfl, ?_⟩
  · rw [← hlen, txcmdWord_lowBits]
  · rw [← hlen, ← hflags, txcmdWord_disjoint]
  · show _ = txcmdWord _ (BitVec.ofNat 13 (finalLength reference frame.length))
    rw [txcmdWord_eq_or, hflags, hlen, submitCommand]

end Sys2Proof.Machine
end

section
/-! # The words of the wire formats standing by themselves (R79 to R81, R84, R200, R201) -/

namespace Sys2Proof.Machine

open Config (reference)

/-- An atomic operation in an idle context gives it the result, and nothing else is new. -/
theorem finishAtomic_idle (c : Ctx) {s : State} (h : (s.context c).stack = []) (r : OpResult) :
    finishAtomic c r s = .next (returned c r s) := by
  rw [finishAtomic, h, returned]

/-! ## `TXCMD` at its slot -/

theorem and_not_eq_self {w m : Word} (h : w &&& m = 0#32) : w &&& ~~~m = w := by
  calc w &&& ~~~m = (w &&& m) ||| (w &&& ~~~m) := by rw [h, BitVec.zero_or]
    _ = w := by rw [← BitVec.and_or_distrib_left, BitVec.or_not_self, BitVec.and_allOnes]

/-- R81's status bits are among those that R79 fixes at 0. -/
theorem txcmdWord_status (thresh : BitVec 6) (len : BitVec 13) :
    txcmdWord thresh len &&& reference.tsdStatus = 0#32 := by
  have hclear {k : Nat} (hk : (0xFFC0E000#32).extractLsb' k 1 = BitVec.allOnes 1) :
      (txcmdWord thresh len).extractLsb' k 1 = 0#1 := extract_eq_zero (txcmdWord_fixed thresh len) hk
  rw [Config.tsdStatus_val]
  exact statusClear_iff.2 ⟨hclear (by decide), hclear (by decide), hclear (by decide)⟩

/-- A `TXCMD`'s slot reads the word itself and has its length (R79, R190). -/
theorem armSlot_txcmdWord (i : Nat) (thresh : BitVec 6) (len : BitVec 13) (n : Nic) :
    armSlot reference i (txcmdWord thresh len) n =
      { n with
        tsd := setSlot n.tsd i (txcmdWord thresh len), tx := setSlot n.tx i (.armed len)
        armOrder := n.armOrder.filter (· != i) ++ [i] } := by
  rw [armSlot, and_not_eq_self (txcmdWord_status thresh len), txSize_eq, txcmdWord_len]

theorem slotCheck_bad {i : Nat} {s : State} (hv : AtReference s) (h : 4 ≤ i) :
    slotCheck i s = some (.illegalRequest .notTxcmd) := by
  have hbad : ¬ slotOk reference i = true := by rw [slotOk_iff]; omega
  rw [slotCheck, hv, if_neg hbad]

/-- Settles O18: the write of `TSD[slot]`, and the slot's check before any other. -/
theorem txcmdArmsItsSlot : Obligations.TxcmdArmsItsSlot := by
  intro s thresh len i hv
  refine ⟨fun hi hsub hup => ?_, fun hi => ?_⟩
  · have hslot : slotCheck i s = none := slotCheck_eq (by rw [hv]; exact slotOk_iff.2 hi)
    have hcheck : txcmdCheck s = none := by simp [txcmdCheck, hsub, hup]
    rw [exec, execTxcmd, hslot, hcheck, hv, commandWord_eq, write32_tsd hi, armSlot_txcmdWord, Option.none_or,
      guarded_none]
    exact finishAtomic_idle .submission (by exact hsub) .done
  · rw [exec, execTxcmd, slotCheck_bad hv hi, Option.some_or, guarded_some]

/-! ## `TXSTAT` at slot `hw` -/

theorem handlerCheck_ready {s : State} (h : HandlerReady s) : handlerCheck s = none := by
  obtain ⟨hup, hheld, hidle⟩ := h
  simp [handlerCheck, hup, hheld, hidle]

theorem retireWith_empty {report : State → State} {s : State} (hidle : s.interrupt.stack = [])
    (hr : s.eng.ringOk = true) (he : s.eng.hw = s.eng.cpu) :
    retireWith reference report s = .next (returned .interrupt .done s) := by
  rw [retireWith, hr, ringEmpty, he, beq_self_eq_true]
  exact finishAtomic_idle .interrupt hidle .done

/-- On a nonempty ring the word is reported and slot `hw` retired (R148). -/
theorem retireWith_outstanding {report : State → State} {s t : State} (hr : s.eng.ringOk = true)
    (he : s.eng.hw ≠ s.eng.cpu) (ht : report s = t) (hidle : t.interrupt.stack = []) :
    retireWith reference report s =
      .next { t with eng := { t.eng with hw := (t.eng.hw + 1) % 4 }, interrupt := ⟨[], some .done⟩ } := by
  have hne : ringEmpty s.eng = false := beq_false_of_ne he.symm
  rw [retireWith, hr, hne, ht]
  exact finishAtomic_idle .interrupt (s := retireSlot reference t) hidle .done

/-- Settles O33: each word's class reports by R81 and retires slot `hw`, or finds the ring empty. -/
theorem statusWordsRetireTheOldestSlot : Obligations.StatusWordsRetireTheOldestSlot := by
  intro s b31 tabt tun own mid size hv hready
  have hcheck := handlerCheck_ready hready
  obtain ⟨-, -, hidle⟩ := hready
  have hflight := finishAtomic_idle .interrupt hidle .done
  refine ⟨?_, fun hr he => ⟨?_, fun hbits => ?_⟩, fun hr he => ⟨?_, ?_⟩⟩
  · rw [exec, execTxstatInFlight, hcheck, guarded_none, hflight]
  · rw [exec, execTxstatSuccess, hcheck, guarded_none, hv]
    exact retireWith_outstanding hr he rfl hidle
  · rw [exec, execTxstatError, hcheck, guarded_none, hv, if_pos hbits]
    exact retireWith_outstanding hr he (reportError_eq _ _ s) hidle
  · rw [exec, execTxstatSuccess, hcheck, guarded_none, hv, retireWith_empty hidle hr he]
  · rw [exec, execTxstatError, hcheck, guarded_none, hv, retireWith_empty hidle hr he, hflight, ite_self]

/-! ## `EECMD` shifted into the EEPROM -/

theorem bringupCheck_ready {s : State} (h : BringupReady s) : bringupCheck s = none := by
  obtain ⟨hdown, hb, hu, hq⟩ := h
  simp [bringupCheck, hdown, hb, hu, hq]

theorem addressCheck_bad {a : EeAddr} {s : State} (hv : AtReference s) (h : 64 ≤ a.toNat) :
    addressCheck a s = some (.illegalRequest .addressRange) := by
  have hbad : ¬ addressOk reference a = true := by rw [addressOk_iff]; omega
  rw [addressCheck, hv, if_neg hbad]

/-- The command bits reach the EEPROM one by one, the highest first (R125). -/
theorem sendBits_eq (a : EeAddr) (k : Nat) (s : State) :
    (List.range (k + 1)).reverse.foldl (fun t j => sendBit reference (commandBit reference a j) t) s =
      { s with ee := eeCommand a k s.ee } := by
  have hbit (b : Bool) (t : State) : sendBit reference b t = { t with
      ee := writeEecr reference (clockHigh reference b) (writeEecr reference (clockLow reference b) t.ee) } := by
    rw [sendBit, write8_eecr, write8_eecr]
  induction k generalizing s with
  | zero => exact hbit _ s
  | succ k ih => rw [List.range_succ, List.reverse_concat, List.foldl_cons, ih, hbit]; rfl

theorem sendCommand_eq (a : EeAddr) (s : State) : sendCommand reference a s = { s with ee := eeCommand a 8 s.ee } :=
  sendBits_eq a 8 s

/-- Outside R120's sequence only E1 begins it; any other write leaves data-out unspecified (R201, log entry 12). -/
theorem writeEecr_outside {v : Byte} {e : Eeprom} (h1 : v ≠ reference.eeProg) (h : e.seq = none) :
    (writeEecr reference v e).seq = none ∧ (writeEecr reference v e).out = none := by
  have hx : eeExpects reference v e = false := by rw [eeExpects, h]; exact beq_false_of_ne h1
  simp [writeEecr, eeFollow, hx, h1]

/-- No write of a command bit is E1, so the bits sent outside the sequence stay outside. -/
theorem eeCommand_outside (a : EeAddr) (k : Nat) {e : Eeprom} (h : e.seq = none) :
    (eeCommand a k e).out = none := by
  have hlow : ∀ b, clockLow reference b ≠ reference.eeProg := by decide
  have hhigh : ∀ b, clockHigh reference b ≠ reference.eeProg := by decide
  induction k generalizing e with
  | zero => exact (writeEecr_outside (hhigh _) (writeEecr_outside (hlow _) h).1).2
  | succ k ih => exact ih (writeEecr_outside (hhigh _) (writeEecr_outside (hlow _) h).1).1

/-- Settles O24: the nine bits as the EEPROM sees them, in and out of R120's sequence. -/
theorem eecmdShiftsTheCommandIn : Obligations.EecmdShiftsTheCommandIn := by
  intro s a hv
  refine ⟨fun ha hready => ⟨eeCommand a 8 s.ee, ?_, ?_, fun hq hsel hn hsh hecr => ?_, eeCommand_outside a 8⟩,
    fun ha => ?_⟩
  · have haddr : addressCheck a s = none := addressCheck_eq (by rw [hv]; exact addressOk_iff.2 ha)
    rw [exec, execEecmdRead, haddr, bringupCheck_ready hready, hv, sendCommand_eq, Option.none_or,
      guarded_none]
    obtain ⟨-, hidle, -⟩ := hready
    exact finishAtomic_idle .bringup (by exact hidle) .done
  · have hcells := sendCommand_cells reference a s
    rwa [sendCommand_eq] at hcells
  · have hcs : anySet s.ee.eecr reference.eeCs = true := by rw [hecr]; decide
    rw [eeCommand_all ha s.ee hsel hn hsh hq hcs]
    exact ⟨rfl, rfl, rfl, rfl⟩
  · rw [exec, execEecmdRead, addressCheck_bad hv ha, Option.some_or, guarded_some]

end Sys2Proof.Machine
end

section
/-! # The accessors of the register window, whole (R6, R51, R101 to R109) -/

namespace Sys2Proof.Machine

open Config (reference)

/-! ## What an accessor can do, in every state -/

/-- An outcome that an accessor may have in `s`: the access check's refusal, or a result and what lies behind the window
(R109): the NIC, the EEPROM's serial state, and draws. -/
def WindowOutcome (s : State) (o : Host.Outcome State Fault Refusal) : Prop :=
  ∃ off n r nic ee d k, ee.cells = s.ee.cells ∧
    o = guarded (accessCheck off n s)
      (finishAtomic .bringup r { s with nic := nic, ee := ee, draws := d, freeCount := k })

theorem hostRead_outcome (off : BitVec 8) (n : Nat) (r : OpResult) (s : State) :
    WindowOutcome s (hostRead off n r s) :=
  ⟨off, n, r, s.nic, s.ee, _, _, rfl, rfl⟩

theorem hostWrite_outcome (off : BitVec 8) (bs : List Byte) (s : State) : WindowOutcome s (hostWrite off bs s) := by
  have hcells := regWrite_cells s.plat.values off.toNat bs s
  obtain ⟨nic, ee, hw⟩ := regWrite_frame s.plat.values off.toNat bs s
  rw [hw] at hcells
  exact ⟨off, bs.length, .done, nic, ee, s.draws, s.freeCount, hcells, by rw [hostWrite, hw]⟩

theorem exec_accessor_outcome {i : Instr} (h : isAccessor i = true) (s : State) : WindowOutcome s (exec i s) := by
  cases i with
  | read8 | read16 | read32 => exact hostRead_outcome _ _ _ _
  | write8 | write16 | write32 | writeRaw16 | writeRaw32 => exact hostWrite_outcome _ _ _
  | _ => cases h

theorem accessCheck_some {off : BitVec 8} {n : Nat} {s : State} {r : Refusal} (h : accessCheck off n s = some r) :
    r = .badAccess ∨ (r = .contextBusy ∧ s.bringup.stack ≠ []) ∨
      (r = .otherContextActive ∧ (s.submission.stack ≠ [] ∨ s.interrupt.stack ≠ [])) := by
  unfold accessCheck at h
  split_ifs at h with hbad hbusy hother <;> cases h
  · exact .inl rfl
  · exact .inr (.inl ⟨rfl, by simpa using hbusy⟩)
  · exact .inr (.inr ⟨rfl, by simpa [imp_iff_not_or] using hother⟩)

theorem guarded_eq_refused {c : Option Refusal} {o : Host.Outcome State Fault Refusal} {r : Refusal} :
    guarded c o = .refused r ↔ c = some r ∨ c = none ∧ o = .refused r := by
  cases c <;> simp [guarded]

/-- Settles O15: every accessor is the access check before an atomic step that stays behind the window. -/
theorem accessorsWriteNoEngineRegister : Obligations.AccessorsWriteNoEngineRegister := by
  intro s i hi
  obtain ⟨off, n, r, nic, ee, d, k, hcells, ho⟩ := exec_accessor_outcome hi s
  rw [ho]
  refine ⟨fun e he => ?_, fun x hx => ?_, fun t ht => ?_⟩
  · obtain ⟨-, hdone⟩ := guarded_eq_fault.1 he
    cases hdone
  · obtain hcheck | ⟨-, hdone⟩ := guarded_eq_refused.1 hx
    · exact accessCheck_some hcheck
    · cases hdone
  · obtain ⟨-, hdone⟩ := guarded_eq_next.1 ht
    exact ⟨nic, ee, d, k, r, finishAtomic_next hdone, hcells⟩

/-! ## Aligned accesses with every context idle -/

/-- An offset of the window that `n` divides leaves room for `n` bytes, where `n` divides the window (R51). -/
theorem accessOk_of_aligned {off : BitVec 8} {n : Nat} (hn : n ∣ 256) (h : off.toNat % n = 0) :
    accessOk reference off n = true := by
  obtain ⟨q, hq⟩ := Nat.dvd_of_mod_eq_zero h
  obtain ⟨w, hw⟩ := hn
  have hlt : q < w := Nat.lt_of_mul_lt_mul_left (a := n) (by rw [← hq, ← hw]; exact off.isLt)
  refine accessOk_iff.2 ⟨h, ?_⟩
  calc off.toNat + n = n * (q + 1) := by rw [hq, Nat.mul_succ]
    _ ≤ n * w := Nat.mul_le_mul_left n hlt
    _ = 0x100 := hw.symm

section
variable {off : BitVec 8} {n : Nat} {s : State} (hv : AtReference s) (hi : AllIdle s) (hn : n ∣ 256)
  (hoff : off.toNat % n = 0)
include hv hi hn hoff

theorem accessCheck_aligned : accessCheck off n s = none :=
  accessCheck_idle (by rw [hv]; exact accessOk_of_aligned hn hoff) hi

theorem hostRead_aligned (r : OpResult) : hostRead off n r s = .next (returned .bringup r (drew 1 s)) := by
  rw [hostRead, accessCheck_aligned hv hi hn hoff, guarded_none]
  exact finishAtomic_idle .bringup (s := drew 1 s) hi.1 r

theorem hostWrite_aligned {bs : List Byte} (hlen : bs.length = n) :
    hostWrite off bs s = .next (returned .bringup .done (regWrite reference off.toNat bs s)) := by
  rw [hostWrite, hlen, accessCheck_aligned hv hi hn hoff, guarded_none, hv]
  exact finishAtomic_idle .bringup (by simpa using hi.1) .done

end

/-- Settles O8: with the check passed a read is its value and one draw. -/
theorem readsReturnTheWireBytes : Obligations.ReadsReturnTheWireBytes := by
  intro s off hv hi
  simp only [exec, execRead8, execRead16, execRead32, hv]
  exact ⟨hostRead_aligned hv hi (by decide) (Nat.mod_one _) _, fun h => hostRead_aligned hv hi (by decide) h _,
    fun h => hostRead_aligned hv hi (by decide) h _⟩

/-- Settles O11: with the check passed a typed write is the register write of the value's bytes, lowest first. -/
theorem typedWritesPutLittleEndianBytes : Obligations.TypedWritesPutLittleEndianBytes := fun _ _ hv hi =>
  ⟨fun _ => hostWrite_aligned hv hi (by decide) (Nat.mod_one _) rfl,
    fun _ h => hostWrite_aligned hv hi (by decide) h rfl, fun _ h => hostWrite_aligned hv hi (by decide) h rfl⟩

/-! ## The host's bytes of a raw write -/

/-- On a big-endian host a value stands in memory as its byte swap's little-endian bytes (R9, R47). -/
theorem hostBytes16_be (v : Half) : hostBytes16 true v = le16 (bswap16 v) := (le16_join16 _ _).symm

theorem hostBytes32_be (v : Word) : hostBytes32 true v = le32 (bswap32 v) := (le32_join32 _ _ _ _).symm

section
variable {off : BitVec 8} {s : State} {be : Bool} (hbe : s.plat.params.hostBE = be)
include hbe

theorem exec_writeRaw16 (v : Half) : exec (.writeRaw16 off v) s = hostWrite off (hostBytes16 be v) s := by
  subst hbe; rfl

theorem exec_writeRaw32 (v : Word) : exec (.writeRaw32 off v) s = hostWrite off (hostBytes32 be v) s := by
  subst hbe; rfl

end

/-- Settles O12: the wire carries the host's bytes, which are the value's own or its byte swap's, lowest first. -/
theorem rawWritesPutHostBytes : Obligations.RawWritesPutHostBytes := by
  intro s off hv hi
  refine ⟨fun v h => ⟨fun hbe => ?_, fun hbe => ?_, fun hbe => ?_⟩,
    fun v h => ⟨fun hbe => ?_, fun hbe => ?_, fun hbe => ?_⟩⟩
  · exact (exec_writeRaw16 hbe v).trans (hostWrite_aligned hv hi (by decide) h rfl)
  · exact exec_writeRaw16 hbe v
  · exact (exec_writeRaw16 hbe v).trans (congrArg (hostWrite off · s) (hostBytes16_be v))
  · exact (exec_writeRaw32 hbe v).trans (hostWrite_aligned hv hi (by decide) h rfl)
  · exact exec_writeRaw32 hbe v
  · exact (exec_writeRaw32 hbe v).trans (congrArg (hostWrite off · s) (hostBytes32_be v))

end Sys2Proof.Machine
end

section
/-! # `reset` from its request to its return, and the indices it leaves unspecified (R112 to R118) -/

namespace Sys2Proof.Machine

open Config (reference)

/-! ## T1, and the polls from it -/

/-- What T1 leaves: the reset in progress, `TE` and `RE` cleared by the same write (R117, R188). -/
def resetStarted (s : State) : State := { s with nic := { s.nic with te := false, re := false, resetting := true } }

/-- A permitted `reset` starts at T1. -/
theorem exec_reset {s : State} (h : BringupReady s) :
    exec .reset s = runContext .bringup Config.stepBudget (enterOp .bringup (.reset .t1) s) := by
  rw [exec, execReset, beginReset, bringupCheck_ready h, guarded_none, runToReturn_next]

/-- T1, with nothing on the agenda. -/
theorem run_resetStart (n : Nat) {s : State} (hv : AtReference s) (ha : s.agenda = []) :
    runContext .bringup (n + 1) (enterOp .bringup (.reset .t1) s) =
      runContext .bringup n { resetStarted s with bringup := ⟨[.reset (.t2a 1)], none⟩ } := by
  refine (runContext_label (hv := by exact hv) n (f := .reset .t1) (rest := []) rfl (by exact ha)
    (by exact waiting_reset rfl) rfl).trans ?_
  rw [write8_cr, writeCr_eq]
  simp [Config.crRst_val, applyCtl, enterOp, resetStarted]

/-- T1 and `i` unsuccessful polls. -/
theorem run_resetToPoll {i : Nat} (hi : i < 1000) {s : State} (hv : AtReference s) (ha : s.agenda = []) :
    runContext .bringup (1 + 3 * i) (enterOp .bringup (.reset .t1) s) =
      .next { resetStarted s with bringup := ⟨[.reset (.t2a (i + 1))], none⟩ } := by
  rw [Nat.add_comm, run_resetStart _ hv ha, ← Nat.zero_add (3 * i)]
  exact run_pollsTo (resetStarted s) 0 i [] none hv rfl ha hi

/-- T1 and all 1000 polls (R118). -/
theorem run_resetToT4 {s : State} (hv : AtReference s) (ha : s.agenda = []) :
    runContext .bringup 3001 (enterOp .bringup (.reset .t1) s) =
      .next { resetStarted s with bringup := ⟨[.reset .t4], none⟩ } :=
  (run_resetStart 3000 hv ha).trans (run_allPolls (resetStarted s) 0 [] none hv rfl ha)

/-- A value that has the bit of `RST` shows exactly that bit under the mask. -/
theorem and_crRst {v : Byte} (h : v &&& reference.crRst ≠ 0#8) : v &&& reference.crRst = reference.crRst := by
  have hbit : reference.crRst = BitVec.twoPow 8 4 := by decide
  rw [hbit, BitVec.and_twoPow] at h ⊢
  exact if_pos (of_not_not fun hclear => h (if_neg hclear))

/-- A labelled step that goes on, at the reference values. -/
theorem advance_label {c : Ctx} {s t : State} {f : Frame} {rest : List Frame} {k : Ctl} (hv : AtReference s)
    (hs : (s.context c).stack = f :: rest) (hf : frameStep reference f s = .go t k) :
    advance c s = .next (applyCtl c k t) := by
  rw [advance_top hs, hv, hf, settle]

/-- T2a samples `CR` into T2b. -/
theorem advance_t2a {i : Nat} {s : State} {r : Option OpResult} (hv : AtReference s) :
    advance .bringup { s with bringup := ⟨[.reset (.t2a i)], r⟩ } =
      .next { s with bringup := ⟨[.reset (.t2b i (crNamed reference s.nic))], r⟩ } :=
  advance_label (c := .bringup) (s := { s with bringup := ⟨[.reset (.t2a i)], r⟩ }) hv rfl rfl

/-- T2b on a value with `RST` set leads to the delay. -/
theorem advance_t2b_busy {i : Nat} {v : Byte} {s : State} {r : Option OpResult} (hv : AtReference s)
    (hb : v &&& reference.crRst ≠ 0#8) :
    advance .bringup { s with bringup := ⟨[.reset (.t2b i v)], r⟩ } =
      .next { s with bringup := ⟨[.reset (.t2c i)], r⟩ } := by
  refine (advance_label (c := .bringup) (s := { s with bringup := ⟨[.reset (.t2b i v)], r⟩ }) hv rfl rfl).trans ?_
  rw [if_neg hb]; rfl

/-! ## `reset` -/

/-- Settles O19: the run of T1, `n` polls and R189's step, then the last poll and T3. -/
theorem resetSucceeds : Obligations.ResetSucceeds := by
  intro s n hv hready hn ha
  obtain ⟨k, hk⟩ := stepBudget_split (k := 3 * n + 5) (by omega)
  have hrun := (run_resetOk s k n [] none hv hn).trans (runContext_idle rfl k)
  rw [← ha, show k + 3 + 1 + 3 * n + 1 = Config.stepBudget by omega] at hrun
  exact ⟨_, _, (exec_reset hready).trans hrun, rfl, rfl, rfl, rfl, rfl, rfl, rfl, rfl, rfl, rfl, rfl, rfl⟩

/-- The whole `reset` of a NIC that takes no step: T1, the polls, T4 (R116). -/
theorem exec_resetTimeout {s : State} (hv : AtReference s) (hready : BringupReady s) (ha : s.agenda = []) :
    exec .reset s = .next
      { afterTimeout reference (resetStarted s) with bringup := ⟨[], some .timeout⟩ } := by
  obtain ⟨k, hk⟩ := stepBudget_split (k := 3002) (by omega)
  rw [exec_reset hready, hk]
  exact (run_resetTimeout s k [] none hv ha).trans (runContext_idle rfl k)

/-- Settles O20: the whole run to T4's return, then its trace poll by poll. -/
theorem resetTimesOut : Obligations.ResetTimesOut := by
  intro s hv hready ha
  refine ⟨?_, fun i hi => ?_, _, run_resetToT4 hv ha, rfl⟩
  · exact ⟨_, _, _, _, _, _, exec_resetTimeout hv hready ha, rfl, rfl, rfl, rfl, rfl, rfl⟩
  · have hbusy := crNamed_resetting (resetStarted s).nic rfl
    exact ⟨_, _, _, run_resetToPoll hi hv ha, rfl, and_crRst hbusy, advance_t2a (s := resetStarted s) hv, rfl,
      advance_t2b_busy (s := resetStarted s) hv hbusy, rfl⟩

/-! ## Operations that read an index while it is unspecified -/

section
variable {s : State} (hr : s.eng.ringOk = false)
include hr

theorem withRing_unspecified (m : Micro) : withRing s m = .fault .indexUnspecified := by simp [withRing, hr]

/-- S1 of a frame that fits reads both indices (R134 (c)). -/
theorem submitStep_unspecified {frame : List Byte} (hfit : frame.length + 4 ≤ 1536) :
    submitStep reference (.s1 frame) s = .fault .indexUnspecified := by
  have ho : oversized reference frame = false := by rw [oversized_eq]; exact decide_eq_false (by omega)
  rw [submitStep, ho]
  exact withRing_unspecified hr _

theorem retireWith_unspecified (report : State → State) :
    retireWith reference report s = .fault .indexUnspecified := by rw [retireWith, hr]; rfl

end

/-- A labelled step that faults ends the run with its fault. -/
theorem runContext_fault {c : Ctx} {s : State} {f : Frame} {rest : List Frame} {e : Fault} (n : Nat)
    (hv : AtReference s) (hs : (s.context c).stack = f :: rest) (ha : s.agenda = []) (hw : waiting c s = false)
    (hf : frameStep reference f s = .fault e) : runContext c (n + 1) s = .fault e :=
  runContext_stop n hv hs ha hw hf (fun _ _ h => by cases h)

/-- A permitted `reconcile` starts at C1. -/
theorem exec_reconcile {s : State} (h : HandlerReady s) :
    exec .reconcile s = runContext .interrupt Config.stepBudget (enterOp .interrupt (.reconcile .c1) s) := by
  rw [exec, execReconcile, beginReconcile, handlerCheck_ready h, guarded_none, runToReturn_next]

/-- Settles O21: each operation's first read of an index, at S1, at C1 and in the word's retirement. -/
theorem unspecifiedIndicesAreAFault : Obligations.UnspecifiedIndicesAreAFault := by
  intro s hv hr ha
  obtain ⟨n, hn⟩ := stepBudget_split (k := 1) (by omega)
  refine ⟨fun frame hready hne hfit => ?_, fun hready => ?_,
    fun hready b31 tabt mid tun own size => ⟨?_, fun hbits => ?_⟩⟩
  · rw [exec_submit hready hne, hn]
    exact submit_fault n (by exact hv) rfl (submitStep_unspecified (by exact hr) hfit) ha
  · rw [exec_reconcile hready, hn]
    exact runContext_fault n (f := .reconcile .c1) (by exact hv) rfl (by exact ha) (waiting_interrupt rfl rfl)
      (withRing_unspecified (by exact hr) _)
  · rw [exec, execTxstatSuccess, handlerCheck_ready hready, guarded_none, hv]
    exact retireWith_unspecified hr _
  · rw [exec, execTxstatError, handlerCheck_ready hready, guarded_none, if_pos hbits, hv]
    exact retireWith_unspecified hr _

end Sys2Proof.Machine
end

section
/-! # `readWord` and `readHardwareAddress` from request to return (R119 to R129) -/

namespace Sys2Proof.Machine

open Config (reference)

/-- What a `readWord` leaves of the EEPROM `e`: the cells, `EE_NORMAL` in `EECR`, the chip deselected (R120 E6). -/
def LeftNormal (e e' : Eeprom) : Prop := e'.cells = e.cells ∧ e'.eecr = 0x00#8 ∧ e'.sel = false

/-! ## `readWord` -/

/-- A permitted `readWord` of an address the EEPROM has starts at E1. -/
theorem exec_readWord {s : State} {a : EeAddr} (hv : AtReference s) (ha : a.toNat < 64) (h : BringupReady s) :
    exec (.readWord a) s = runContext .bringup Config.stepBudget (enterOp .bringup (.readWord (.e1 a)) s) := by
  have haddr : addressCheck a s = none := addressCheck_eq (by rw [hv]; exact addressOk_iff.2 ha)
  rw [exec, execReadWord, beginReadWord, haddr, bringupCheck_ready h, Option.none_or, guarded_none, runToReturn_next]

/-- Settles O22: the address check, and the run of E1 to E7 from any serial state. -/
theorem readWordReturnsTheCell : Obligations.ReadWordReturnsTheCell := by
  intro s a hv
  refine ⟨fun ha hready hagenda => ?_, fun ha => ?_⟩
  · obtain ⟨n, hn⟩ := stepBudget_split (k := 71) (by omega)
    obtain ⟨o, hrun⟩ := run_readWord s ha n [] none hv hagenda
    rw [exec_readWord hv ha hready, hn]
    exact ⟨_, hrun.trans (runContext_idle rfl n), rfl, rfl, rfl⟩
  · rw [exec, execReadWord, beginReadWord, addressCheck_bad hv ha, Option.some_or, guarded_some]
    rfl

/-! ## `readHardwareAddress` -/

/-- A permitted `readHardwareAddress` starts with the call for word 0. -/
theorem exec_readHardwareAddress {s : State} (h : BringupReady s) :
    exec .readHardwareAddress s = runContext .bringup Config.stepBudget (enterOp .bringup (.hwAddr (.call 0)) s) := by
  rw [exec, execReadHardwareAddress, beginReadHardwareAddress, bringupCheck_ready h, guarded_none, runToReturn_next]

/-- `s` with cell `7 + i` stored as word `i` of `hw_addr`, and `e` for its EEPROM. -/
def hwWordStored (i : Nat) (e : Eeprom) (s : State) : State :=
  { s with eng := { s.eng with hwAddr := withWord i (eeCell s.ee.cells (7 + i)) s.eng.hwAddr }, ee := e }

/-- A word that is not the last leads to the call for the next. -/
theorem run_hwAddrWord_next {s : State} {i : Nat} (hi : i + 1 < 3) (m : Nat) (r : Option OpResult)
    (hv : AtReference s) (ha : s.agenda = []) :
    ∃ e r', runContext .bringup (m + 73) { s with bringup := ⟨[.hwAddr (.call i)], r⟩ } =
      runContext .bringup m { hwWordStored i e s with bringup := ⟨[.hwAddr (.call (i + 1))], r'⟩ } ∧
      LeftNormal s.ee e := by
  obtain ⟨o, hrun⟩ := run_hwAddrWord s i m r (by omega) hv ha
  rw [if_pos hi] at hrun
  exact ⟨_, _, hrun, rfl, rfl, rfl⟩

/-- The last word leads to the return, with the whole of `hw_addr`. -/
theorem run_hwAddrWord_last {s : State} (m : Nat) (r : Option OpResult) (hv : AtReference s) (ha : s.agenda = []) :
    ∃ e, runContext .bringup (m + 73) { s with bringup := ⟨[.hwAddr (.call 2)], r⟩ } = .next
      { hwWordStored 2 e s with bringup := ⟨[], some (.bytes (hwWordStored 2 e s).eng.hwAddr)⟩ } ∧
      LeftNormal s.ee e := by
  obtain ⟨o, hrun⟩ := run_hwAddrWord s 2 m r (by omega) hv ha
  exact ⟨_, hrun.trans (runContext_idle rfl m), rfl, rfl, rfl⟩

/-- The three words stored one by one fill the six bytes, whatever they were. -/
theorem withWord_all (a b c : Half) {v : List Byte} (h : v.length = 6) :
    withWord 2 c (withWord 1 b (withWord 0 a v)) = [a.extractLsb' 0 8, a.extractLsb' 8 8, b.extractLsb' 0 8,
      b.extractLsb' 8 8, c.extractLsb' 0 8, c.extractLsb' 8 8] :=
  match v, h with
  | [_, _, _, _, _, _], _ => rfl

/-- Settles O23: three words read and stored in turn, each read leaving the cells to the next. -/
theorem readHardwareAddressReturnsSixBytes : Obligations.ReadHardwareAddressReturnsSixBytes := by
  intro s hv hshape hready ha
  obtain ⟨-, -, hlen⟩ := hshape
  have hsix : s.eng.hwAddr.length = 6 := by rw [hlen, hv]; rfl
  obtain ⟨n, hn⟩ := stepBudget_split (k := 219) (by omega)
  obtain ⟨e₀, r₀, run₀, cells₀, -⟩ := run_hwAddrWord_next (s := s) (i := 0) (by omega) (n + 146) none hv ha
  obtain ⟨e₁, r₁, run₁, cells₁, -⟩ :=
    run_hwAddrWord_next (s := hwWordStored 0 e₀ s) (i := 1) (by omega) (n + 73) r₀ hv ha
  obtain ⟨e₂, run₂, cells₂, normal⟩ :=
    run_hwAddrWord_last (s := hwWordStored 1 e₁ (hwWordStored 0 e₀ s)) n r₁ hv ha
  have hcells : e₁.cells = s.ee.cells := cells₁.trans cells₀
  refine ⟨e₂, ?_, cells₂.trans hcells, normal⟩
  rw [exec_readHardwareAddress hready, hn]
  refine (run₀.trans (run₁.trans run₂)).trans ?_
  simp only [hwWordStored, cells₀, hcells, Nat.reduceAdd, withWord_all _ _ _ hsix]

end Sys2Proof.Machine
end

section
/-! # The transmit ring: `submit` and `reconcile` from request to return (R132 to R154) -/

namespace Sys2Proof.Machine

open Config (reference)

/-! ## S1, and what `submit` is refused for (R134, R135) -/

theorem oversized_iff {frame : List Byte} : oversized reference frame = true ↔ 1536 < frame.length + 4 := by
  rw [oversized_eq, decide_eq_true_eq]

theorem oversized_fits {frame : List Byte} (h : frame.length + 4 ≤ 1536) : oversized reference frame = false := by
  rw [oversized_eq, decide_eq_false (by omega)]

/-- S1 of a frame that is too long looks at nothing else (R135). -/
theorem submitStep_oversized {frame : List Byte} {s : State} (h : 1536 < frame.length + 4) :
    submitStep reference (.s1 frame) s = .go s (.ret .oversized) := by
  rw [submitStep, if_pos (oversized_iff.2 h), raiseResult]

/-- S1 of a frame that fits, on a full ring (R134 (c)). -/
theorem submitStep_ringFull {frame : List Byte} {s : State} (hfit : frame.length + 4 ≤ 1536)
    (hr : s.eng.ringOk = true) (hfull : ringFull reference s.eng = true) :
    submitStep reference (.s1 frame) s = .refused .ringFull := by
  rw [submitStep, oversized_fits hfit, withRing_ok hr, hfull]
  rfl

/-- A `submit` that its check refuses. -/
theorem exec_submit_refused {s : State} {r : Refusal} (h : submitCheck s = some r) (frame : List Byte) :
    exec (.submit frame) s = .refused r := by
  rw [exec, execSubmit, beginSubmit, h]
  rfl

/-- A permitted `submit` of no bytes (R134 (d)). -/
theorem exec_submit_empty {s : State} (h : SubmitReady s) : exec (.submit []) s = .refused .emptyFrame := by
  obtain ⟨hup, hbring, hsub⟩ := h
  have hcheck : submitCheck s = none := by simp [submitCheck, hup, hbring, hsub]
  rw [exec, execSubmit, beginSubmit, hcheck]
  rfl

/-- Settles O28: the check's three refusals in their order, the empty frame, and S1's two stops. -/
theorem submitPreconditions : Obligations.SubmitPreconditions := by
  intro s frame hv ha
  obtain ⟨n, hn⟩ := stepBudget_split (k := 1) (by omega)
  refine ⟨fun hbusy => ?_, fun hsub hdown => ?_, fun hsub hup hbring => ?_, exec_submit_empty,
    fun hready hne hfit hr hfull => ?_, fun hready hne hfit hr => ?_⟩
  · exact exec_submit_refused (by simp [submitCheck, hbusy]) frame
  · exact exec_submit_refused (by simp [submitCheck, hsub, hdown]) frame
  · exact exec_submit_refused (by simp [submitCheck, hsub, hup, hbring]) frame
  · rw [exec_submit hready hne, hn]
    exact submit_refused n (by exact hv) rfl (submitStep_ringFull hfit (by exact hr) (beq_iff_eq.2 hfull)) ha
  · rw [exec_submit hready hne, hn]
    exact submit_fault n (by exact hv) rfl (submitStep_unspecified (by exact hr) hfit) ha

/-! ## `Oversized` (R135) -/

/-- The label is past S1, or at S1 with a frame that fits. -/
def Fitting : SubmitAt → Prop
  | .s1 frame => frame.length + 4 ≤ 1536
  | _ => True

/-- From a fitting label control goes to a fitting one or returns, not with `Oversized`. -/
theorem Fitting.control {l : SubmitAt} {s t : State} {k : Ctl} (hl : Fitting l)
    (h : submitStep reference l s = .go t k) :
    (∃ m, k = .goto (.submit m) ∧ Fitting m) ∨ ∃ r, k = .ret r ∧ r ≠ .oversized := by
  cases l with
  | s1 frame =>
    rw [submitStep, oversized_fits hl] at h
    obtain ⟨-, h⟩ := withRing_go h
    split at h <;> cases h
    exact .inl ⟨_, rfl, trivial⟩
  | s2a frame i =>
    rw [submitStep] at h
    split at h
    · exact .inl ⟨_, (storeStep_go h).2, trivial⟩
    · cases h; exact .inl ⟨_, rfl, trivial⟩
  | s2b frame i => exact .inl ⟨_, (storeStep_go h).2, trivial⟩
  | s3 flen i | s4 i => cases h; exact .inl ⟨_, rfl, trivial⟩
  | s5a => obtain ⟨-, h⟩ := withRing_go h; cases h; exact .inl ⟨_, rfl, trivial⟩
  | s5b x =>
    obtain ⟨-, h⟩ := withRing_go h
    split at h <;> cases h <;> exact .inr ⟨_, rfl, nofun⟩

/-- A `submit` of a frame that fits, wherever it stands and whatever becomes of it, has not returned `Oversized`. -/
theorem runSubmit_ne_oversized (n : Nat) {s t : State} {l : SubmitAt} (hv : AtReference s)
    (ha : s.agenda = []) (hs : s.submission.stack = [.submit l]) (hl : Fitting l)
    (hres : s.submission.result ≠ some .oversized) (h : runContext .submission n s = .next t) :
    t.submission.result ≠ some .oversized := by
  induction n generalizing s l with
  | zero => cases h; exact hres
  | succ n ih =>
    cases hm : submitStep reference l s with
    | fault e => rw [submit_fault n hv hs hm ha] at h; cases h
    | refused e => rw [submit_refused n hv hs hm ha] at h; cases h
    | go u k =>
      rw [submit_label n hv hs hm ha] at h
      have hframe := frameStep_stepFrame (f := .submit l) hm
      obtain ⟨m, rfl, hfit⟩ | ⟨r, rfl, hr⟩ := hl.control hm
      · refine ih ?_ ?_ ?_ hfit ?_ h
        · exact hframe.values.trans hv
        · exact hframe.agenda.trans ha
        · simp [applyCtl, hframe.submission, hs]
        · simpa [applyCtl, hframe.submission] using hres
      · rw [runContext_idle (by simp [applyCtl, returnOp, hframe.submission, hs])] at h
        cases h
        simpa [applyCtl, returnOp] using hr

/-- Settles O27: S1 returns at once, or no label that follows returns `Oversized`. -/
theorem oversizedChangesNothing : Obligations.OversizedChangesNothing := by
  intro s frame hv hready ha hne
  rw [exec_submit hready hne]
  refine ⟨fun hlong => ?_, fun hfit t h => ?_⟩
  · obtain ⟨n, hn⟩ := stepBudget_split (k := 1) (by omega)
    rw [hn]
    exact (submit_label n (by exact hv) rfl (submitStep_oversized hlong) (by exact ha)).trans (runContext_idle rfl n)
  · exact runSubmit_ne_oversized (l := .s1 frame) _ (by exact hv) (by exact ha) (by exact rfl) hfit (by exact nofun) h

/-! ## An accepted `submit` (R133, R136 to R140) -/

/-- The ring is full again after slot `cpu` is taken (R139, R140). -/
abbrev FillsRing (e : Engine) : Prop := (e.hw + 4 - (e.cpu + 1) % 4) % 4 = 1

theorem submitted_eq (frame : List Byte) (s : State) : submitted frame s =
    { queued frame s with
      eng := { s.eng with
        cpu := (s.eng.cpu + 1) % 4
        txStopped := if FillsRing s.eng then true else s.eng.txStopped }
      submission := ⟨[], some (if FillsRing s.eng then .full else .ok)⟩ } := by
  rw [submitted, nextSlot_eq, slotsFrom_eq]
  split <;> rfl

@[simp] theorem submitted_eng (frame : List Byte) (s : State) : (submitted frame s).eng = { s.eng with
    cpu := (s.eng.cpu + 1) % 4, txStopped := if FillsRing s.eng then true else s.eng.txStopped } := by
  rw [submitted_eq]
@[simp] theorem submitted_plat (frame : List Byte) (s : State) : (submitted frame s).plat = s.plat := by
  rw [submitted_eq]; rfl
@[simp] theorem submitted_bringup (frame : List Byte) (s : State) : (submitted frame s).bringup = s.bringup := by
  rw [submitted_eq]; rfl
@[simp] theorem submitted_submission (frame : List Byte) (s : State) : (submitted frame s).submission =
    ⟨[], some (if FillsRing s.eng then .full else .ok)⟩ := by
  rw [submitted_eq]
@[simp] theorem submitted_interrupt (frame : List Byte) (s : State) :
    (submitted frame s).interrupt = s.interrupt := by
  rw [submitted_eq]; rfl
@[simp] theorem submitted_events (frame : List Byte) (s : State) : (submitted frame s).events = s.events := by
  rw [submitted_eq]; rfl
@[simp] theorem submitted_agenda (frame : List Byte) (s : State) : (submitted frame s).agenda = s.agenda := by
  rw [submitted_eq]; rfl
@[simp] theorem submitted_armOrder (frame : List Byte) (s : State) :
    (submitted frame s).nic.armOrder = s.nic.armOrder.filter (· != s.eng.cpu) ++ [s.eng.cpu] := by
  rw [submitted_eq]; rfl

/-- At the reference values the indices are below 4 (R14, R15). -/
theorem shaped_indices {s : State} (hv : AtReference s) (hs : Shaped s) : s.eng.cpu < 4 ∧ s.eng.hw < 4 := by
  obtain ⟨-, ⟨hcpu, hhw⟩, -⟩ := hs
  rw [hv, Config.nTx_val] at hcpu hhw
  exact ⟨hcpu, hhw⟩

theorem shaped_slots {s : State} (hv : AtReference s) (hs : Shaped s) :
    s.nic.tsd.length = 4 ∧ s.nic.tx.length = 4 := by
  obtain ⟨⟨htsd, -, htx⟩, -⟩ := hs
  rw [hv, Config.nTx_val] at htsd htx
  exact ⟨htsd, htx⟩

/-- The whole state an accepted `submit` leaves. -/
theorem exec_submit_eq {s : State} {frame : List Byte} (hv : AtReference s) (hshape : Shaped s)
    (hready : SubmitReady s) (ha : s.agenda = []) (hr : s.eng.ringOk = true) (htx : s.plat.txHeld = true)
    (hroom : ringFull reference s.eng = false) (hne : frame ≠ []) (hfit : frame.length + 4 ≤ 1536) :
    exec (.submit frame) s = .next (submitted frame s) :=
  exec_submit_accepted hready hv ha (shaped_indices hv hshape).1 hr htx hroom hne hfit

theorem submitted_atReference {frame : List Byte} {s : State} (h : AtReference s) :
    AtReference (submitted frame s) := by rwa [AtReference, submitted_plat]

/-- Another `submit` may follow. -/
theorem submitted_ready {frame : List Byte} {s : State} (h : SubmitReady s) : SubmitReady (submitted frame s) := by
  obtain ⟨hup, hbring, -⟩ := h
  rw [SubmitReady, submitted_eng, submitted_bringup, submitted_submission]
  exact ⟨hup, hbring, rfl⟩

/-- Every operation keeps the shape. -/
theorem exec_shaped {i : Instr} {s t : State} (hv : AtReference s) (hs : Shaped s) (h : exec i s = .next t) :
    Shaped t := (shaped_kept.exec ⟨nTx_pos hv, hs⟩ h).2

/-- So does every step of the NIC. -/
theorem nicStep_shaped {m : NicMove} {s t : State} (hv : AtReference s) (hs : Shaped s)
    (h : nicStep reference m s = .next t) : Shaped t :=
  (shaped_kept.nic m s t ⟨nTx_pos hv, hs⟩ (by rwa [hv])).2

/-- Settles O25: the run of S1 to S5b, with the slot's arming written out. -/
theorem submitQueuesTheFrame : Obligations.SubmitQueuesTheFrame := by
  intro s frame hv hshape hready ha hr htx hroom hne hfit
  rw [exec_submit_eq hv hshape hready ha hr htx hroom hne hfit, submitted_eq, queued, armSlot, Config.tsdStatus_val,
    txSize_eq]
  rfl

/-! ## What it leaves in memory (R136) -/

/-- A byte of memory after a range was written over `s`. -/
theorem byteAt_setRange (s : State) (m : List Host.Cell) (base : Nat) (bs : List Byte) (a : Nat) :
    byteAt { s with mem := Memory.setRange m base bs } a =
      if h : base ≤ a ∧ a < base + bs.length then bs[a - base]'(by omega) else byteAt { s with mem := m } a := by
  rw [byteAt, Memory.get?_setRange]
  split
  · rw [List.getElem?_eq_getElem (by omega), Option.getD_some]
  · rfl

/-- S2a: the zeroes under a short frame. -/
def paddedMem (m : List Host.Cell) (base : Nat) (frame : List Byte) : List Host.Cell :=
  if frame.length < 60 then Memory.setRange m base (List.replicate 60 0#8) else m

theorem byteAt_paddedMem_zero {s : State} {base a : Nat} {frame : List Byte} (hshort : frame.length < 60)
    (h : base ≤ a ∧ a < base + 60) : byteAt { s with mem := paddedMem s.mem base frame } a = 0#8 := by
  rw [paddedMem, if_pos hshort, byteAt_setRange, dif_pos (by simpa using h), List.getElem_replicate]

theorem byteAt_paddedMem_outside {s : State} {base a : Nat} {frame : List Byte}
    (h : a < base ∨ base + max frame.length 60 ≤ a) :
    byteAt { s with mem := paddedMem s.mem base frame } a = byteAt s a := by
  rw [paddedMem]
  split
  · rw [byteAt_setRange, dif_neg (by rw [List.length_replicate]; omega)]
  · rfl

/-- After an accepted `submit` the frame lies over the padded slot. -/
theorem byteAt_submitted {frame : List Byte} {s : State} {base : Nat}
    (hbase : slotBase reference s.plat.params s.eng.cpu = base) (a : Nat) :
    byteAt (submitted frame s) a =
      if h : base ≤ a ∧ a < base + frame.length then frame[a - base]'(by omega)
      else byteAt { s with mem := paddedMem s.mem base frame } a := by
  rw [← byteAt_setRange, submitted_eq, ← hbase]
  rfl

/-- S2a is its branch of the length, the slot being mapped. -/
theorem submitStep_pads (s : State) (frame : List Byte) (i : Nat) (hshort : frame.length < 60)
    (hm : mapped reference s.plat (slotBase reference s.plat.params i) 60 = true) :
    submitStep reference (.s2a frame i) s = .go
      { s with mem := Memory.setRange s.mem (slotBase reference s.plat.params i) (List.replicate 60 0#8) }
      (.goto (.submit (.s2b frame i))) := by
  rw [submitStep_s2a, if_pos hshort, storeStep, memWrite, List.length_replicate, if_pos (.inr hm)]

/-- Settles O26: the frame lies over the zeroes, and both lie within the slot's first `max(L, 60)` bytes. -/
theorem submitPadsTheSlot : Obligations.SubmitPadsTheSlot := by
  refine ⟨fun s frame i => ⟨fun hlong => ?_, submitStep_pads s frame i⟩,
    fun s t frame hv hshape hready ha hr htx hroom hne hfit h => ?_⟩
  · rw [submitStep_s2a, if_neg (by omega)]
  · rw [exec_submit_eq hv hshape hready ha hr htx hroom hne hfit] at h
    cases h
    generalize hbase : slotBase reference s.plat.params s.eng.cpu = base
    simp only [byteAt_submitted hbase]
    refine ⟨fun j hj => ?_, fun j hj hpad => ?_, fun a hout => ?_⟩
    · rw [dif_pos (by omega)]
      simp only [Nat.add_sub_cancel_left]
    · rw [dif_neg (by omega)]
      exact byteAt_paddedMem_zero (by omega) (by omega)
    · rw [dif_neg (by omega)]
      exact byteAt_paddedMem_outside hout

/-! ## Three in a row (R141) -/

/-- A further `submit` is permitted; the slots `newest` were armed last, newest first, and are the outstanding ones
from slot `hw` on. -/
structure Queued (hw : Nat) (newest : List Nat) (s : State) : Prop where
  values : AtReference s
  shape : Shaped s
  ready : SubmitReady s
  agenda : s.agenda = []
  ring : s.eng.ringOk = true
  held : s.plat.txHeld = true
  oldest : s.eng.hw = hw
  next : s.eng.cpu = (hw + newest.length) % 4
  order : newest <+: s.nic.armOrder.reverse

namespace Queued

variable {hw : Nat} {newest : List Nat} {s : State}

theorem outstanding_eq (h : Queued hw newest s) (hlen : newest.length < 4) :
    outstanding reference s.eng = newest.length := by
  obtain ⟨-, hhw⟩ := shaped_indices h.values h.shape
  rw [outstanding, slotsFrom_eq, h.next, ← h.oldest]
  omega

/-- Fewer than three outstanding slots leave room (R26). -/
theorem ringFull_eq (h : Queued hw newest s) (hlen : newest.length < 3) : ringFull reference s.eng = false := by
  obtain ⟨-, hhw⟩ := shaped_indices h.values h.shape
  rw [ringFull, slotsFrom_eq, h.next, ← h.oldest, beq_eq_false_iff_ne]
  omega

/-- Two outstanding slots are what the next fills the ring from (R140). -/
theorem fillsRing_iff (h : Queued hw newest s) (hlen : newest.length < 3) :
    FillsRing s.eng ↔ newest.length = 2 := by
  obtain ⟨-, hhw⟩ := shaped_indices h.values h.shape
  rw [FillsRing, h.next, ← h.oldest]
  omega

/-- An accepted `submit` is answered `Full` with `tx_stopped` exactly if it is the third; its slot is the newest. -/
theorem submit (h : Queued hw newest s) (hlen : newest.length < 3) (hnew : (hw + newest.length) % 4 ∉ newest)
    {frame : List Byte} (hne : frame ≠ []) (hfit : frame.length + 4 ≤ 1536) :
    ∃ t, exec (.submit frame) s = .next t ∧ Queued hw ((hw + newest.length) % 4 :: newest) t ∧
      t.submission.result = some (if newest.length = 2 then .full else .ok) ∧
      (newest.length = 2 → t.eng.txStopped = true) := by
  have hexec := exec_submit_eq h.values h.shape h.ready h.agenda h.ring h.held (h.ringFull_eq hlen) hne hfit
  refine ⟨_, hexec, ⟨submitted_atReference h.values, exec_shaped h.values h.shape hexec, submitted_ready h.ready,
    ?agenda, ?ring, ?held, ?oldest, ?next, ?order⟩, ?result, ?stopped⟩
  case agenda => rw [submitted_agenda]; exact h.agenda
  case ring => rw [submitted_eng]; exact h.ring
  case held => rw [submitted_plat]; exact h.held
  case oldest => rw [submitted_eng]; exact h.oldest
  case next => simp only [submitted_eng, h.next, List.length_cons]; omega
  case order =>
    have hkept : newest.filter (· != (hw + newest.length) % 4) = newest :=
      List.filter_eq_self.2 fun i hi => by simpa using ne_of_mem_of_not_mem hi hnew
    obtain ⟨rest, hrest⟩ := h.order
    rw [submitted_armOrder, h.next, List.reverse_concat, ← List.filter_reverse, ← hrest, List.filter_append, hkept,
      List.cons_prefix_cons]
    exact ⟨rfl, List.prefix_append _ _⟩
  case result => simp only [submitted_submission, h.fillsRing_iff hlen]
  case stopped =>
    intro h2
    rw [submitted_eng]
    exact if_pos ((h.fillsRing_iff hlen).2 h2)

end Queued

/-- Settles O29: three times the accepted `submit`, from no outstanding slot. -/
theorem fullExactlyWhenThreeAreOutstanding : Obligations.FullExactlyWhenThreeAreOutstanding := by
  intro s f g k hv hshape hready ha hr htx hempty hf hg hk lf lg lk
  obtain ⟨-, hhw⟩ := shaped_indices hv hshape
  have q₀ : Queued s.eng.hw [] s :=
    ⟨hv, hshape, hready, ha, hr, htx, rfl, by simpa [Nat.mod_eq_of_lt hhw] using hempty, List.nil_prefix⟩
  obtain ⟨t, et, q₁, rt, -⟩ := q₀.submit (by simp) (by simp) hf lf
  obtain ⟨u, eu, q₂, ru, -⟩ := q₁.submit (by simp) (by simp; omega) hg lg
  obtain ⟨v, ev, q₃, rv, stopped⟩ := q₂.submit (by simp) (by simp; omega) hk lk
  refine ⟨t, u, v, et, rt, q₁.outstanding_eq (by simp), eu, ru, q₂.outstanding_eq (by simp), ev, rv,
    q₃.outstanding_eq (by simp), stopped rfl, ?_⟩
  obtain ⟨rest, hrest⟩ := q₃.order
  simp [← hrest, Nat.mod_eq_of_lt hhw]

/-! ## `reconcile` (R142 to R154) -/

/-- With `hw` where C1 found it there is nothing to resume, whatever `tx_stopped` is (R149). -/
theorem resumeIf_unmoved (s : State) : resumeIf s.eng.hw s = s := by
  simp [resumeIf]

/-- C2a on an empty ring. -/
theorem reconcileStep_empty {c old : Nat} {s : State} (hr : s.eng.ringOk = true) (h : s.eng.hw = c) :
    reconcileStep reference (.c2a c old) s = .go s (.goto (.reconcile (.c3 old))) := by
  rw [reconcileStep, withRing_ok hr, if_pos h]

/-- C2a with a slot outstanding. -/
theorem reconcileStep_outstanding {c old : Nat} {s : State} (hr : s.eng.ringOk = true) (h : s.eng.hw ≠ c) :
    reconcileStep reference (.c2a c old) s = .go s (.goto (.reconcile (.c2b c old))) := by
  rw [reconcileStep, withRing_ok hr, if_neg h]

/-- C2b with slot `hw` in flight stops the scan (R144). -/
theorem reconcileStep_inFlight {c old : Nat} {s : State} (hr : s.eng.ringOk = true)
    (h : inFlight reference (atSlot s.nic.tsd s.eng.hw) = true) :
    reconcileStep reference (.c2b c old) s = .go s (.goto (.reconcile (.c3 old))) := by
  rw [reconcileStep, withRing_ok hr]
  simp only [regNamed, h, if_true]

/-- From C2a to C3 when nothing has completed. -/
theorem run_scanNothing {s : State} (hv : AtReference s) (ha : s.agenda = []) (hr : s.eng.ringOk = true) {c : Nat}
    (h : s.eng.hw = c ∨ inFlight reference (atSlot s.nic.tsd s.eng.hw) = true) (old : Nat) (r : Option OpResult) :
    ∃ u, u ≤ 2 ∧ ∀ n, runContext .interrupt (n + u) { s with interrupt := ⟨[.reconcile (.c2a c old)], r⟩ } =
      runContext .interrupt n { s with interrupt := ⟨[.reconcile (.c3 old)], r⟩ } := by
  by_cases he : s.eng.hw = c
  · exact ⟨1, by omega, fun n => reconcile_label n (by exact hv) (by exact rfl)
      (reconcileStep_empty (by exact hr) (by exact he)) (by exact ha)⟩
  · refine ⟨2, by omega, fun n => ?_⟩
    refine (reconcile_label (n + 1) (by exact hv) (by exact rfl)
      (reconcileStep_outstanding (by exact hr) (by exact he)) (by exact ha)).trans ?_
    exact reconcile_label n (by exact hv) (by exact rfl)
      (reconcileStep_inFlight (by exact hr) (by exact h.resolve_left he)) (by exact ha)

/-- Settles O30: C1, the scan that stops at once, C3 with `hw` unmoved. -/
theorem reconcileWithNothingDone : Obligations.ReconcileWithNothingDone := by
  intro s hv hready ha hr hnothing
  have hstop : s.eng.hw = s.eng.cpu ∨ inFlight reference (atSlot s.nic.tsd s.eng.hw) = true :=
    hnothing.imp_right inFlight_iff.2
  obtain ⟨u, hu, hscan⟩ := run_scanNothing hv ha hr hstop s.eng.hw none
  obtain ⟨n, hn⟩ := stepBudget_split (k := u + 2) (by omega)
  rw [exec_reconcile hready, hn, show n + (u + 2) = (n + 1 + u) + 1 by omega]
  refine (reconcile_label (n + 1 + u) (by exact hv) (by exact rfl) (by exact withRing_ok hr _)
    (by exact ha)).trans ?_
  refine (hscan (n + 1)).trans ((run_c3 s s.eng.hw [] none n hv ha hr).trans ?_)
  rw [resumeIf_unmoved]
  exact runContext_idle rfl n

/-- The whole state a `reconcile` leaves. -/
theorem exec_reconcile_eq {s : State} (hv : AtReference s) (hshape : Shaped s) (hready : HandlerReady s)
    (ha : s.agenda = []) (hr : s.eng.ringOk = true) :
    exec .reconcile s = .next (returned .interrupt .done (reconciled s)) := by
  obtain ⟨hcpu, hhw⟩ := shaped_indices hv hshape
  obtain ⟨u, hu, hrun⟩ := run_reconcile s [] none hv ha hhw hcpu hr
  obtain ⟨n, hn⟩ := stepBudget_split (k := u) (by omega)
  rw [exec_reconcile hready, hn]
  exact (hrun n).trans (runContext_idle rfl n)

/-- Settles O31: the run of C1 to C3, the scan said without its loop. -/
theorem reconcileReportsTheCompletedPrefix : Obligations.ReconcileReportsTheCompletedPrefix :=
  fun _ hv hshape hready ha hr => exec_reconcile_eq hv hshape hready ha hr

/-! ## One frame, from `submit` to its report (R153) -/

/-- A completion sets status bits and unnamed bits; the length field reads as before (R191). -/
theorem txSize_completed (w : Word) (o : TxOutcome) :
    txSize reference (w ||| completionBits reference o) = txSize reference w := by
  have hbits : (completionBits reference o).extractLsb' 0 13 = 0#13 := by
    have hunnamed : reference.tsdUnnamed.extractLsb' 0 13 = 0#13 := by decide
    have hbit (b : Bool) {m : Word} (hm : m.extractLsb' 0 13 = 0#13) :
        (if b then m else 0#32).extractLsb' 0 13 = 0#13 := by
      cases b
      · rfl
      · exact hm
    simp only [completionBits, BitVec.extractLsb'_or, BitVec.extractLsb'_and, hunnamed,
      hbit _ (m := reference.tsdTok) (by decide), hbit _ (m := reference.tsdTun) (by decide),
      hbit _ (m := reference.tsdTabt) (by decide), BitVec.and_zero, BitVec.or_zero]
  rw [txSize_eq, txSize_eq, BitVec.extractLsb'_or, hbits, BitVec.or_zero]

theorem txSucceeded_completed (w : Word) {o : TxOutcome} (h : o.tok = true) :
    txSucceeded reference (w ||| completionBits reference o) = true := by
  simp [txSucceeded_eq, completionBits, h, Config.tsdTok_val]

theorem inFlight_of_succeeded {w : Word} (h : txSucceeded reference w = true) : inFlight reference w = false := by
  rw [Bool.eq_false_iff, ne_eq, inFlight_iff, statusClear_iff]
  exact fun ⟨_, htok, _⟩ => txSucceeded_iff.1 h (tokClear_iff.2 htok)

/-- The oldest armed slot completes, its bytes being mapped (R191). -/
theorem devTxComplete_head {i : Nat} {o : TxOutcome} {s : State} {len : BitVec 13} {rest : List Nat}
    (harmed : atSlot s.nic.tx i = .armed len) (hhead : s.nic.armOrder = i :: rest) (hte : s.nic.te = true)
    (htok : o.tok = true)
    (hm : mapped reference s.plat (atSlot s.nic.tsad i).toNat len.toNat = true) :
    nicStep reference (.txComplete i o) s = .next { s with
      nic := nicCompleted reference i o (bytesAt s (atSlot s.nic.tsad i).toNat len.toNat) s.nic } := by
  have hen : completionEnabled i o s.nic = true := by simp [completionEnabled, hhead, hte, htok]
  simp only [nicStep, devTxComplete, harmed, hen, if_true, memRead, hm, or_true]

/-- The NIC after the submit of a frame that fits: the slot reads the command of R80 and has the final length (R190). -/
theorem submitted_nic {s : State} {frame : List Byte} (hfit : frame.length + 4 ≤ 1536)
    (hflags : s.plat.params.txThreshFlags &&& ~~~0x003F0000#32 = 0#32) :
    (submitted frame s).nic = { s.nic with
      tsd := setSlot s.nic.tsd s.eng.cpu (txcmdWord (s.plat.params.txThreshFlags.extractLsb' 16 6)
        (BitVec.ofNat 13 (max frame.length 60)))
      tx := setSlot s.nic.tx s.eng.cpu (.armed (BitVec.ofNat 13 (max frame.length 60)))
      armOrder := s.nic.armOrder.filter (· != s.eng.cpu) ++ [s.eng.cpu] } := by
  obtain ⟨-, -, -, -, hword⟩ := submitCommandIsADisjointUnion s.plat.params frame hflags (oversized_fits hfit)
  rw [submitted_eq, ← armSlot_txcmdWord, ← hword]
  rfl

/-- The only outstanding slot has completed with a success: it is reported and the ring is empty again (R145). -/
theorem reconciled_single {s : State} (hhw : s.eng.hw < 4) (hcpu : s.eng.cpu = (s.eng.hw + 1) % 4)
    (hok : txSucceeded reference (atSlot s.nic.tsd s.eng.hw) = true) :
    (reconciled s).events = s.events ++ [.txDone (txSize reference (atSlot s.nic.tsd s.eng.hw))] ++
        (if s.eng.txStopped then [.resume] else []) ∧
      (reconciled s).eng.hw = s.eng.cpu ∧ (reconciled s).eng.cpu = s.eng.cpu := by
  have hempty : (retiredOne s).eng.hw = (retiredOne s).eng.cpu := by rw [retiredOne_eq]; exact hcpu.symm
  have hdone : completedPrefix s = [s.eng.hw] := by
    rw [completedPrefix_step hhw (by omega) (by omega) (inFlight_of_succeeded hok), completedPrefix,
      outstandingSlots_empty hempty, List.takeWhile_nil]
  refine ⟨?_, ?_, rfl⟩
  · simp [reconciled, hdone, slotEvent, hok]
  · simp [reconciled, hdone, hcpu]

/-- The only outstanding slot `i`, armed and the oldest, completes with a success, and a `reconcile` reports its length
and empties the ring (R145, R191). -/
theorem completeThenReconcile {s : State} {i : Nat} {o : TxOutcome} {len : BitVec 13} {rest : List Nat}
    (hv : AtReference s) (hshape : Shaped s) (hready : HandlerReady s) (ha : s.agenda = []) (hr : s.eng.ringOk = true)
    (hhw : s.eng.hw = i) (hcpu : s.eng.cpu = (i + 1) % 4) (harmed : atSlot s.nic.tx i = .armed len)
    (hsize : txSize reference (atSlot s.nic.tsd i) = len) (hhead : s.nic.armOrder = i :: rest)
    (hte : s.nic.te = true) (htok : o.tok = true)
    (hm : mapped reference s.plat (atSlot s.nic.tsad i).toNat len.toNat = true) :
    ∃ u v, nicStep reference (.txComplete i o) s = .next u ∧ exec .reconcile u = .next v ∧
      v.events = s.events ++ [.txDone len] ++ (if s.eng.txStopped then [.resume] else []) ∧
      v.eng.hw = v.eng.cpu ∧ v.eng.cpu = s.eng.cpu := by
  subst hhw
  have hstep := devTxComplete_head harmed hhead hte htok hm
  generalize bytesAt s _ len.toNat = bytes at hstep
  have hshape' := nicStep_shaped hv hshape hstep
  obtain ⟨-, hhw⟩ := shaped_indices hv hshape
  obtain ⟨htsd, -⟩ := shaped_slots hv hshape
  have hslot : atSlot (nicCompleted reference s.eng.hw o bytes s.nic).tsd s.eng.hw =
      atSlot s.nic.tsd s.eng.hw ||| completionBits reference o := atSlot_setSlot _ (by omega) _
  obtain ⟨hev, hhw', hcpu'⟩ := reconciled_single
    (s := { s with nic := nicCompleted reference s.eng.hw o bytes s.nic }) hhw hcpu
    (by rw [hslot]; exact txSucceeded_completed _ htok)
  refine ⟨_, _, hstep, exec_reconcile_eq hv hshape' hready ha hr, hev.trans ?_, hhw', hcpu'⟩
  rw [hslot, txSize_completed, hsize]

/-- Settles O32: the accepted `submit` from an idle ring leaves its slot alone outstanding and alone armed. -/
theorem submitThenReconcileReportsOneSuccess : Obligations.SubmitThenReconcileReportsOneSuccess := by
  intro s frame other hv hshape hready hhandler ha hr htx hempty hne hfit hflags hte hidle hm
  obtain ⟨hcpu, hhw⟩ := shaped_indices hv hshape
  obtain ⟨htsd, htxs⟩ := shaped_slots hv hshape
  obtain ⟨hup, hheld, hint⟩ := hhandler
  have hroom : ringFull reference s.eng = false := by
    rw [ringFull, slotsFrom_eq, beq_eq_false_iff_ne]; omega
  have hfills : ¬ FillsRing s.eng := by rw [FillsRing]; omega
  have hsubmit := exec_submit_eq hv hshape hready ha hr htx hroom hne hfit
  have heng := submitted_eng frame s
  rw [if_neg hfills] at heng
  have hnic := submitted_nic hfit hflags
  rw [hidle] at hnic
  have hready' : HandlerReady (submitted frame s) := by
    rw [HandlerReady, heng, submitted_plat, submitted_interrupt]
    exact ⟨hup, hheld, hint⟩
  have harmed : atSlot (submitted frame s).nic.tx s.eng.cpu = .armed (BitVec.ofNat 13 (max frame.length 60)) := by
    simp [hnic, htxs, hcpu]
  have hsize : txSize reference (atSlot (submitted frame s).nic.tsd s.eng.cpu) =
      BitVec.ofNat 13 (max frame.length 60) := by simp [hnic, htsd, hcpu, txSize_eq, txcmdWord_len]
  have hlen : (BitVec.ofNat 13 (max frame.length 60)).toNat = max frame.length 60 := by
    rw [BitVec.toNat_ofNat]; omega
  obtain ⟨u, v, hcomplete, hreconcile, hev, hhw', hcpu'⟩ :=
    completeThenReconcile (o := ⟨true, false, false, other⟩) (rest := []) (submitted_atReference hv)
      (exec_shaped hv hshape hsubmit) hready' (by rw [submitted_agenda]; exact ha) (by rw [heng]; exact hr)
      (by rw [heng]; exact hempty.symm) (by rw [heng]) harmed hsize (by rw [hnic]; rfl) (by rw [hnic]; exact hte) rfl
      (by rw [hnic, submitted_plat, hlen]; exact hm)
  rw [heng] at hev hcpu'
  rw [submitted_events] at hev
  exact ⟨_, u, v, hsubmit, hcomplete, hreconcile, hev, hhw', hcpu'⟩

end Sys2Proof.Machine
end

section
/-! # The receive ring: `drain` and the header word from request to return (R155 to R163, R169) -/

namespace Sys2Proof.Machine

open Config (reference)

/-! ## D1, and a whole `drain` -/

/-- A permitted `drain` starts at D1. -/
theorem exec_drain {s : State} (h : HandlerReady s) :
    exec .drain s = runContext .interrupt Config.stepBudget { s with interrupt := ⟨[.drain .d1], none⟩ } := by
  rw [exec, execDrain, beginDrain, handlerCheck_ready h, guarded_none, runToReturn_next]
  rfl

/-- Settles O35: the run over the records, which returns within the budget; D1 alone on an empty buffer. -/
theorem drainDeliversEveryRecord : Obligations.DrainDeliversEveryRecord := by
  intro s hv hready ha
  rw [exec_drain hready]
  refine ⟨fun recs hu => ?_, fun he => ?_⟩
  · obtain ⟨n, hn⟩ := stepBudget_split (k := 7 * recs.length + 1) (by have := hu.short; omega)
    rw [hn]
    exact (run_drain [] none recs s n hv ha hu).trans (runContext_idle rfl n)
  · obtain ⟨n, hn⟩ := stepBudget_split (k := 1) (by omega)
    rw [hn]
    exact (run_drainEmpty s n [] none hv ha he).trans (runContext_idle rfl n)

/-- D1 with the buffer-empty flag clear (R157). -/
theorem drainStep_d1 {s : State} (hne : s.nic.rxRd ≠ s.nic.rxWr) :
    drainStep reference .d1 s = .go s (.goto (.drain .d2)) := by
  rw [drainStep, if_neg fun hc => hne ((crNamed_bufe _).1 hc)]

theorem run_drainToD2 {s : State} (n : Nat) (hv : AtReference s) (ha : s.agenda = []) (hne : s.nic.rxRd ≠ s.nic.rxWr) :
    runContext .interrupt (n + 1) { s with interrupt := ⟨[.drain .d1], none⟩ } =
      runContext .interrupt n { s with interrupt := ⟨[.drain .d2], none⟩ } :=
  drain_label n (by exact hv) (by exact rfl) (drainStep_d1 (by exact hne)) (by exact ha)

/-- A label of `drain` that is refused ends the run. -/
theorem drain_refused {s : State} {l : DrainAt} {r : Refusal} (n : Nat) (hv : AtReference s)
    (hs : s.interrupt.stack = [.drain l]) (hf : drainStep reference l s = .refused r) (ha : s.agenda = []) :
    runContext .interrupt (n + 1) s = .refused r :=
  runContext_stop (c := .interrupt) (f := .drain l) n hv hs ha (waiting_interrupt hs rfl) hf fun _ _ h => by cases h

/-! ## The header at `rx_off` (R58, R158) -/

/-- A header with size field `size` lies at `rx_off`, where D2 may read it. -/
structure HeaderLies (s : State) (size : Half) : Prop where
  aligned : RxAligned s
  offset : s.eng.rxOff.toNat < 8192
  seen : visible reference s.nic s.eng.rxOff 4 = true
  held : s.plat.rxHeld = true
  sizeLow : rxByte s (s.eng.rxOff.toNat + 2) = size.extractLsb' 0 8
  sizeHigh : rxByte s (s.eng.rxOff.toNat + 3) = size.extractLsb' 8 8

/-- Where a byte is unread the buffer-empty flag is clear (R195). -/
theorem rxRd_ne_of_visible {n : Nic} {off : Half} {k : Nat} (hk : 0 < k) (h : visible reference n off k = true) :
    n.rxRd ≠ n.rxWr := by
  intro he
  rw [visible, he, distance_self, decide_eq_true_eq] at h
  omega

/-- A visible header at an aligned offset has the size its two bytes say. -/
theorem exists_headerLies {s : State} (haligned : RxAligned s) (hoff : s.eng.rxOff.toNat < 8192)
    (hseen : visible reference s.nic s.eng.rxOff 4 = true) (hheld : s.plat.rxHeld = true) :
    ∃ size, HeaderLies s size := by
  have hbytes := le16_join16 (rxByte s (s.eng.rxOff.toNat + 2)) (rxByte s (s.eng.rxOff.toNat + 3))
  simp only [le16, List.cons.injEq, and_true] at hbytes
  exact ⟨_, haligned, hoff, hseen, hheld, hbytes.1.symm, hbytes.2.symm⟩

/-- D2 where the unread bytes hold no header (R58). -/
theorem withHeader_unseen {α : Type} {s : State} (haligned : RxAligned s)
    (hunseen : visible reference s.nic s.eng.rxOff 4 = false) (f : Half → α) (g : Fault → α) (u : Refusal → α) :
    withHeader reference s f g u = u .recordNotVisible := by
  rw [withHeader, if_neg (not_not.2 haligned), Config.rxHdrLen_val, hunseen]
  rfl

theorem drainStep_d2_unseen {s : State} (haligned : RxAligned s)
    (hunseen : visible reference s.nic s.eng.rxOff 4 = false) :
    drainStep reference .d2 s = .refused .recordNotVisible := by
  rw [drainStep, withHeader_unseen haligned hunseen]

/-- D4 where the record reaches past the unread bytes (R58). -/
theorem withPayload_unseen {α : Type} {s : State} {size : Half}
    (hunseen : visible reference s.nic s.eng.rxOff (footprint reference size.toNat) = false) (f : List Byte → α)
    (g : Fault → α) (u : Refusal → α) : withPayload reference size s f g u = u .recordNotVisible := by
  rw [withPayload, hunseen]
  rfl

/-- D3's test fails on the sizes of R158. -/
theorem headerOk_malformed {size : Half} (off : Half) (h : size.toNat < 4 ∨ 8192 < 4 + size.toNat) :
    headerOk reference off size = false := by
  rw [Bool.eq_false_iff, ne_eq, headerOk_iff]
  omega

namespace HeaderLies

variable {s : State} {size : Half} (h : HeaderLies s size)
include h

theorem nonempty : s.nic.rxRd ≠ s.nic.rxWr := rxRd_ne_of_visible (by decide) h.seen

theorem withHeader_eq {α : Type} (f : Half → α) (g : Fault → α) (u : Refusal → α) :
    withHeader reference s f g u = f size :=
  Machine.withHeader_eq f g u h.aligned h.offset h.seen h.held h.sizeLow h.sizeHigh

/-- D2 reads the header. -/
theorem drainStep_d2 : drainStep reference .d2 s = .go s (.goto (.drain (.d3 size))) := by
  rw [drainStep, h.withHeader_eq]

/-- Which label runs does not move the header. -/
theorem inContext (x : Context) : HeaderLies { s with interrupt := x } size :=
  ⟨h.aligned, h.offset, h.seen, h.held, h.sizeLow, h.sizeHigh⟩

/-- D1 and D2 with a header to read. -/
theorem run_drainToD3 (n : Nat) (hv : AtReference s) (ha : s.agenda = []) :
    runContext .interrupt (n + 2) { s with interrupt := ⟨[.drain .d1], none⟩ } =
      runContext .interrupt n { s with interrupt := ⟨[.drain (.d3 size)], none⟩ } := by
  refine (run_drainToD2 (n + 1) hv ha h.nonempty).trans ?_
  exact drain_label n (by exact hv) (by exact rfl) (h.inContext _).drainStep_d2 (by exact ha)

/-- The header word of another size (R58). -/
theorem parseRecord_other {word : Half} (hne : size ≠ word) :
    parseRecord reference word s = .refused .recordNotVisible := by
  rw [parseRecord, bufferEmpty, beq_false_of_ne h.nonempty, if_neg Bool.false_ne_true, h.withHeader_eq, if_pos hne]

/-- The header word of the size that lies there (R158). -/
theorem parseRecord_own : parseRecord reference size s =
    if headerOk reference s.eng.rxOff size then
      withPayload reference size s
        (fun payload => finishAtomic .interrupt .done
          (commitRx reference (advanceRx reference size (emit (.delivered payload) s)))) .fault .refused
    else .fault .malformedHeader := by
  rw [parseRecord, bufferEmpty, beq_false_of_ne h.nonempty, if_neg Bool.false_ne_true, h.withHeader_eq,
    if_neg (not_not.2 rfl)]

end HeaderLies

/-! ## The header word by itself (R157 to R163) -/

/-- A permitted header word, whatever its status (R83). -/
theorem exec_rxhdr {s : State} (hv : AtReference s) (h : HandlerReady s) (size status : Half) :
    exec (.rxhdr size status) s = parseRecord reference size s := by
  rw [exec, execRxhdr, handlerCheck_ready h, guarded_none, hv]

theorem parseRecord_empty {s : State} (hidle : s.interrupt.stack = []) (he : s.nic.rxRd = s.nic.rxWr) (size : Half) :
    parseRecord reference size s = .next (returned .interrupt .done s) := by
  rw [parseRecord, bufferEmpty, he, beq_self_eq_true, if_pos rfl, finishAtomic_idle .interrupt hidle]

theorem parseRecord_unseen {s : State} (haligned : RxAligned s) (hne : s.nic.rxRd ≠ s.nic.rxWr)
    (hunseen : visible reference s.nic s.eng.rxOff 4 = false) (size : Half) :
    parseRecord reference size s = .refused .recordNotVisible := by
  rw [parseRecord, bufferEmpty, beq_false_of_ne hne, if_neg Bool.false_ne_true, withHeader_unseen haligned hunseen]

/-- What D5 to D6b do for one record. -/
theorem commitRx_record (size : Half) (payload : List Byte) (s : State) :
    commitRx reference (advanceRx reference size (emit (.delivered payload) s)) = drainedOne size payload s := by
  have hread := readPointerOf_commitValue (advanceOffset_lt s.eng.rxOff (footprint reference size.toNat))
  simp only [commitRx, write16_capr, writeCapr, advanceRx, emit, hread, drainedOne]

/-- The word of the record that lies at `rx_off`, wholly unread (R158 to R163). -/
theorem parseRecord_record {s : State} {size : Half} (h : HeaderLies s size) (hidle : s.interrupt.stack = [])
    (hok : headerOk reference s.eng.rxOff size = true)
    (hvis : visible reference s.nic s.eng.rxOff (footprint reference size.toNat) = true) :
    parseRecord reference size s = .next (returned .interrupt .done
      (drainedOne size ((List.range (size.toNat - 4)).map (fun j => rxByte s (s.eng.rxOff.toNat + 4 + j))) s)) := by
  rw [h.parseRecord_own, if_pos hok, withPayload_eq _ _ _ h.offset hvis h.held hok, commitRx_record]
  exact finishAtomic_idle .interrupt (by exact hidle) .done

/-- R162's commit without the borrow of a negative difference. -/
theorem commitValue_advanceOffset (off : Half) (n : Nat) : commitValue reference (advanceOffset reference off n) =
    BitVec.ofNat 16 ((off.toNat + n) % 8192 + 65536 - 16) := by
  apply BitVec.eq_of_toNat_eq
  rw [commitValue, Config.rxReadPad_val, BitVec.toNat_sub, advanceOffset_toNat, BitVec.toNat_ofNat, BitVec.toNat_ofNat]
  omega

/-! ## A `drain` that stops (R58, R158) -/

section
variable {s : State} (hv : AtReference s) (hready : HandlerReady s) (ha : s.agenda = [])
include hv hready ha

/-- Bytes are unread but no header is among them. -/
theorem exec_drain_unseen (haligned : RxAligned s) (hne : s.nic.rxRd ≠ s.nic.rxWr)
    (hunseen : visible reference s.nic s.eng.rxOff 4 = false) : exec .drain s = .refused .recordNotVisible := by
  obtain ⟨n, hn⟩ := stepBudget_split (k := 2) (by omega)
  rw [exec_drain hready, hn]
  refine (run_drainToD2 (n + 1) hv ha hne).trans ?_
  exact drain_refused n (by exact hv) (by exact rfl)
    (drainStep_d2_unseen (by exact haligned) (by exact hunseen)) (by exact ha)

/-- D3's test fails. -/
theorem exec_drain_malformed {size : Half} (h : HeaderLies s size)
    (hbad : headerOk reference s.eng.rxOff size = false) : exec .drain s = .fault .malformedHeader := by
  obtain ⟨n, hn⟩ := stepBudget_split (k := 3) (by omega)
  rw [exec_drain hready, hn]
  refine (h.run_drainToD3 (n + 1) hv ha).trans ?_
  exact runContext_fault n (f := .drain (.d3 size)) (by exact hv) rfl (by exact ha) (waiting_interrupt rfl rfl)
    (if_neg (by rw [hbad]; exact Bool.false_ne_true))

/-- The header's record reaches past the unread bytes. -/
theorem exec_drain_cutOff {size : Half} (h : HeaderLies s size) (hok : headerOk reference s.eng.rxOff size = true)
    (hunseen : visible reference s.nic s.eng.rxOff (footprint reference size.toNat) = false) :
    exec .drain s = .refused .recordNotVisible := by
  obtain ⟨n, hn⟩ := stepBudget_split (k := 4) (by omega)
  rw [exec_drain hready, hn]
  refine (h.run_drainToD3 (n + 2) hv ha).trans ?_
  refine (drain_label (n + 1) (l := .d3 size) (by exact hv) rfl (if_pos (by exact hok)) (by exact ha)).trans ?_
  exact drain_refused (l := .d4 size) n (by exact hv) rfl (withPayload_unseen (by exact hunseen) _ _ _) (by exact ha)

end

/-! ## The header word and `drain` at one header -/

/-- Settles O36: D3's test, in the word and after D1 and D2. -/
theorem malformedHeadersAreAFault : Obligations.MalformedHeadersAreAFault := by
  intro s size status hv hready haligned ⟨hoff, _⟩ hheld ha hseen hbad hlow hhigh
  have hlies : HeaderLies s size := ⟨haligned, hoff, hseen, hheld, hlow, hhigh⟩
  have hfail := headerOk_malformed s.eng.rxOff hbad
  refine ⟨?_, exec_drain_malformed hv hready ha hlies hfail⟩
  rw [exec_rxhdr hv hready, hlies.parseRecord_own, hfail, if_neg Bool.false_ne_true]

/-- Settles O37: an empty buffer, no header, another header, and the record's own, wholly unread or not. -/
theorem headerWordParsesItsRecord : Obligations.HeaderWordParsesItsRecord := by
  intro s size status hv hready haligned ⟨hoff, _⟩
  have ⟨_, _, hidle⟩ := hready
  rw [exec_rxhdr hv hready]
  refine ⟨fun he => parseRecord_empty hidle he size, fun hne hunseen => ⟨?_, fun ha => ?_⟩,
    fun hseen hheld hother => ?_, fun hseen hheld hlow hhigh hmin hmax => ?_⟩
  · exact parseRecord_unseen haligned hne hunseen size
  · exact exec_drain_unseen hv hready ha haligned hne hunseen
  · obtain ⟨there, hlies⟩ := exists_headerLies haligned hoff hseen hheld
    exact hlies.parseRecord_other fun he => hother (he ▸ ⟨hlies.sizeLow, hlies.sizeHigh⟩)
  · have hlies : HeaderLies s size := ⟨haligned, hoff, hseen, hheld, hlow, hhigh⟩
    have hok : headerOk reference s.eng.rxOff size = true := (headerOk_iff _ _).2 ⟨haligned, hmin, hmax⟩
    refine ⟨fun hpart => ⟨?_, fun ha => exec_drain_cutOff hv hready ha hlies hok hpart⟩, fun hwhole => ?_⟩
    · rw [hlies.parseRecord_own, if_pos hok]
      exact withPayload_unseen hpart _ _ _
    · rw [parseRecord_record hlies hidle hok hwhole, drainedOne, commitValue_advanceOffset]
      rfl

end Sys2Proof.Machine
end

section
/-! # `onInterrupt` from its call to its return (R170 to R178, R218) -/

namespace Sys2Proof.Machine

open Config (reference)

/-! ## The call, and I1 -/

theorem interruptCheck_ready {s : State} (hheld : s.plat.irqHeld = true) (hidle : s.interrupt.stack = []) :
    interruptCheck s = none := by
  simp [interruptCheck, hheld, hidle]

/-- A call of the registered handler starts at I1, whatever `lifecycle` is (R214). -/
theorem exec_onInterrupt {s : State} (hheld : s.plat.irqHeld = true) (hidle : s.interrupt.stack = []) :
    exec .onInterrupt s =
      runContext .interrupt Config.stepBudget { s with interrupt := ⟨[.onInterrupt .i1], none⟩ } := by
  rw [exec, execOnInterrupt, beginOnInterrupt, interruptCheck_ready hheld hidle, guarded_none, runToReturn_next]
  rfl

/-- I1 with `ISR = 0` (R171). -/
theorem interruptStep_notMine {s : State} (h : s.nic.isr = 0#16) :
    interruptStep reference .i1 s = .go s (.ret .notMine) := by
  rw [interruptStep, if_pos h, raiseResult]

/-- I1 with `ISR` nonzero: the value read goes on to I2 (R171, R172). -/
theorem interruptStep_mine {s : State} (h : s.nic.isr ≠ 0#16) :
    interruptStep reference .i1 s = .go s (.goto (.onInterrupt (.i2 s.nic.isr))) := by
  rw [interruptStep, if_neg h]

/-- I2 clears the bits that I1 read, whatever `ISR` is by then (R172). -/
theorem interruptStep_acknowledge (v : Half) (s : State) :
    interruptStep reference (.i2 v) s = .go { s with nic := writeIsr v s.nic } (.goto (.onInterrupt (.i3 v))) := by
  rw [interruptStep, write16_isr]

/-- I4 to I7 with no bit of the masked status set: no test passes, and the handler returns (R176). -/
theorem run_unrouted {s : State} (n : Nat) (r : Option OpResult) (hv : AtReference s) (ha : s.agenda = []) :
    runContext .interrupt (n + 4) { s with interrupt := ⟨[.onInterrupt (.i4 0#16)], r⟩ } =
      runContext .interrupt n (returned .interrupt .handled s) := by
  have passes (k : Nat) (l l' : InterruptAt) (hl : ∀ t, interruptStep reference l t = .go t (.goto (.onInterrupt l'))) :
      runContext .interrupt (k + 1) { s with interrupt := ⟨[.onInterrupt l], r⟩ } =
        runContext .interrupt k { s with interrupt := ⟨[.onInterrupt l'], r⟩ } :=
    interrupt_label k (by exact hv) rfl (hl _) (by exact ha)
  calc runContext .interrupt (n + 4) { s with interrupt := ⟨[.onInterrupt (.i4 0#16)], r⟩ }
    _ = runContext .interrupt (n + 3) { s with interrupt := ⟨[.onInterrupt (.i5 0#16)], r⟩ } :=
        passes (n + 3) _ _ fun _ => rfl
    _ = runContext .interrupt (n + 2) { s with interrupt := ⟨[.onInterrupt (.i6 0#16)], r⟩ } :=
        passes (n + 2) _ _ fun _ => rfl
    _ = runContext .interrupt (n + 1) { s with interrupt := ⟨[.onInterrupt .i7], r⟩ } :=
        passes (n + 1) _ _ fun _ => rfl
    _ = runContext .interrupt n (returned .interrupt .handled s) :=
        interrupt_label n (l := .i7) (by exact hv) rfl rfl (by exact ha)

/-- Settles O39: I1 alone when `ISR` is 0; else I1 to I3 and the four labels that find nothing routed. -/
theorem notMineHasNoSideEffect : Obligations.NotMineHasNoSideEffect := by
  intro s hv hheld hidle ha
  rw [exec_onInterrupt hheld hidle]
  refine ⟨fun hzero => ?_, fun hmine hdisabled => ?_⟩
  · obtain ⟨n, hn⟩ := stepBudget_split (k := 1) (by omega)
    rw [hn]
    exact (interrupt_label n (by exact hv) rfl (interruptStep_notMine (by exact hzero)) (by exact ha)).trans
      (runContext_idle rfl n)
  · obtain ⟨n, hn⟩ := stepBudget_split (k := 4 + 3) (by omega)
    rw [hn, ← Nat.add_assoc, run_i1 s (n + 4) [] none hv ha hmine, hdisabled]
    exact (run_unrouted n none (by exact hv) (by exact ha)).trans (runContext_idle rfl n)

/-! ## The acknowledgment (R172, R217) -/

/-- Settles O40: I1 carries the value it read to I2, and I2 clears exactly that, in whatever NIC it finds. -/
theorem acknowledgesExactlyWhatItRead : Obligations.AcknowledgesExactlyWhatItRead := by
  intro s hv hi1 hmine
  refine ⟨_, advance_label (c := .interrupt) hv hi1 (interruptStep_mine hmine), rfl, ?_, fun nic => ?_⟩
  · rw [applyCtl, context_interrupt, hi1]
    rfl
  · refine ⟨_, advance_label (c := .interrupt) (by exact hv) rfl (interruptStep_acknowledge s.nic.isr _), rfl, ?_⟩
    simp [applyCtl, hi1]

/-! ## The routing (R173 to R175) -/

/-- I4 (R174). -/
def linkServiced (m : Half) (s : State) : State :=
  if m &&& 0x0020#16 = 0#16 then s else linkEdge s.nic.linkBad s

/-- I5 (R174). -/
def receiveServiced (m : Half) (recs : List (Half × List Byte)) (s : State) : State :=
  if m &&& 0x0003#16 = 0#16 then s else drained recs s

/-- I6 (R174). -/
def transmitServiced (m : Half) (s : State) : State :=
  if m &&& 0x000C#16 = 0#16 then s else reconciled s

theorem serviced_eq (m : Half) (recs : List (Half × List Byte)) (s : State) :
    serviced m recs s = transmitServiced m (receiveServiced m recs (linkServiced m s)) := rfl

theorem linkServiced_frame (m : Half) (s : State) : ∃ l e, linkServiced m s =
    { s with eng := { s.eng with linkPrev := l }, events := e } := by
  rw [linkServiced]
  split
  · exact ⟨_, _, rfl⟩
  · exact linkEdge_frame _ s

theorem receiveServiced_frame (m : Half) (recs : List (Half × List Byte)) (s : State) : ∃ e o c p,
    receiveServiced m recs s =
      { s with events := e, eng := { s.eng with rxOff := o }, nic := { s.nic with capr := c, rxRd := p } } := by
  rw [receiveServiced]
  split
  · exact ⟨_, _, _, _, rfl⟩
  · exact drained_frame recs s

/-- What lies unread is told by the memory, the buffer, and the three receive offsets. -/
theorem Unread.of_eq {s t : State} {recs : List (Half × List Byte)} (h : Unread s recs) (hmem : t.mem = s.mem)
    (hplat : t.plat = s.plat) (hoff : t.eng.rxOff = s.eng.rxOff) (hread : t.nic.rxRd = s.nic.rxRd)
    (hwrite : t.nic.rxWr = s.nic.rxWr) : Unread t recs where
  held := by rw [hplat]; exact h.held
  room := h.room
  offset := by rw [hoff]; exact h.offset
  readPointer := by rw [hread, hoff]; exact h.readPointer
  writePointer := by rw [hwrite, hoff]; exact h.writePointer
  records := by rw [hoff]; exact RecordsLie.frame hmem hplat recs _ h.records

theorem Unread.afterLink {s : State} {recs : List (Half × List Byte)} (h : Unread s recs) (m : Half) :
    Unread (linkServiced m s) recs := by
  obtain ⟨l, e, hlink⟩ := linkServiced_frame m s
  rw [hlink]
  exact h.of_eq rfl rfl rfl rfl rfl

/-- I4 to I7: the routed operations in their order, then the return. -/
theorem run_routing {s : State} (m : Half) (recs : List (Half × List Byte)) (r : Option OpResult)
    (hv : AtReference s) (ha : s.agenda = []) (hhw : s.eng.hw < 4) (hcpu : s.eng.cpu < 4)
    (hrx : m &&& 0x0003#16 ≠ 0#16 → Unread s recs)
    (htx : m &&& 0x000C#16 ≠ 0#16 → s.eng.ringOk = true) :
    ∃ u, u ≤ 8022 ∧ ∀ n, runContext .interrupt (n + u) { s with interrupt := ⟨[.onInterrupt (.i4 m)], r⟩ } =
      runContext .interrupt n (returned .interrupt .handled (serviced m recs s)) := by
  obtain ⟨l, e, hlink⟩ := linkServiced_frame m s
  obtain ⟨e', o, c, p, hreceive⟩ := receiveServiced_frame m recs (linkServiced m s)
  have hframe : receiveServiced m recs (linkServiced m s) = { s with
      events := e', eng := { s.eng with linkPrev := l, rxOff := o },
      nic := { s.nic with capr := c, rxRd := p } } := by rw [hreceive, hlink]
  obtain ⟨u₄, h₄, r₄, run₄⟩ := run_i4 m s [] r hv ha
  obtain ⟨u₅, h₅, r₅, run₅⟩ := run_i5 m (linkServiced m s) recs [] r₄ (by rw [hlink]; exact hv)
    (by rw [hlink]; exact ha) fun h => (hrx h).afterLink m
  obtain ⟨u₆, h₆, run₆⟩ := run_i6 m (receiveServiced m recs (linkServiced m s)) [] r₅ (by rw [hframe]; exact hv)
    (by rw [hframe]; exact ha) (by rw [hframe]; exact hhw) (by rw [hframe]; exact hcpu) (by rw [hframe]; exact htx)
  refine ⟨u₆ + u₅ + u₄, by omega, fun n => ?_⟩
  rw [← Nat.add_assoc, ← Nat.add_assoc]
  exact (run₄ (n + u₆ + u₅)).trans ((run₅ (n + u₆)).trans (run₆ n))

/-- Settles O41: I1 to I3, then the routing, which returns within the budget. -/
theorem routesLinkThenReceiveThenTransmit : Obligations.RoutesLinkThenReceiveThenTransmit := by
  rintro s recs m hv hshape hheld hidle ha hmine rfl hrx htx
  obtain ⟨hcpu, hhw⟩ := shaped_indices hv hshape
  obtain ⟨u, hu, hrun⟩ := run_routing (s := acknowledged s) (s.nic.isr &&& s.eng.irqEnabled) recs none hv ha hhw hcpu
    (fun h => (hrx h).of_eq rfl rfl rfl rfl rfl) htx
  obtain ⟨n, hn⟩ := stepBudget_split (k := u + 3) (by omega)
  rw [exec_onInterrupt hheld hidle, hn, ← Nat.add_assoc, run_i1 s (n + u) [] none hv ha hmine]
  exact (hrun n).trans (runContext_idle rfl n)

end Sys2Proof.Machine
end

section
/-! # The link monitor: `check` from its call to its return, and a sequence of link states (R181 to R184, R198) -/

namespace Sys2Proof.Machine

open Config (reference)

/-! ## A whole `check` -/

/-- A permitted `check` compares the sampled `LINKB` with `link_prev` and returns (R181, R183). -/
theorem exec_check {s : State} (hv : AtReference s) (hready : HandlerReady s) (ha : s.agenda = []) :
    exec .check s = .next (returned .interrupt .done (linkEdge s.nic.linkBad s)) := by
  rw [exec, execCheck, beginCheck, handlerCheck_ready hready, guarded_none, runToReturn_next]
  obtain ⟨n, hn⟩ := stepBudget_split (k := 2) (by omega)
  rw [hn]
  exact (run_check s n [] none hv ha).trans (runContext_idle rfl n)

/-! ## The edge detector (R183) -/

/-- What `link_prev` becomes when `LINKB` is sampled (R183). -/
def sampledLink : Bool → Link
  | true => .down
  | false => .up

theorem linkEdge_rises {s : State} (h : s.eng.linkPrev = .down) : linkEdge false s =
    { s with eng := { s.eng with linkPrev := .up }, events := s.events ++ [.linkUp] } := by
  rw [linkEdge.eq_def, h]
  rfl

theorem linkEdge_falls {s : State} (h : s.eng.linkPrev = .up) : linkEdge true s =
    { s with eng := { s.eng with linkPrev := .down }, events := s.events ++ [.linkDown] } := by
  rw [linkEdge.eq_def, h]
  rfl

theorem linkEdge_same {s : State} {bad : Bool} (h : s.eng.linkPrev = sampledLink bad) : linkEdge bad s = s := by
  rw [linkEdge.eq_def, h]
  cases bad <;> rfl

/-- Settles O42: a whole `check` is its edge detector, and each case of `link_prev` and `LINKB` is one of its. -/
theorem checkReportsEdges : Obligations.CheckReportsEdges := by
  intro s hv hready ha
  rw [exec_check hv hready ha]
  refine ⟨fun hprev hgood => ?_, fun hprev hbad => ?_, fun hprev hbad => ?_, fun hprev hgood => ?_⟩
  · rw [hgood, linkEdge_rises hprev]
  · rw [hbad, linkEdge_falls hprev]
  · rw [hbad, linkEdge_same hprev]
  · rw [hgood, linkEdge_same hprev]

/-! ## A sequence of link states (R184) -/

theorem linkEdge_linkPrev (bad : Bool) (s : State) : (linkEdge bad s).eng.linkPrev = sampledLink bad := by
  rw [linkEdge.eq_def]
  split
  · rfl
  · rfl
  · next hprev => exact hprev
  · next hprev => exact hprev

/-- One sample's events, then those of the rest from the state it leaves. -/
theorem linkEvents_cons (prev : Link) (bad : Bool) (bs : List Bool) :
    linkEvents prev (bad :: bs) = linkEvents prev [bad] ++ linkEvents (sampledLink bad) bs := by
  cases prev <;> cases bad <;> rfl

theorem linkEdge_events (bad : Bool) (s : State) :
    (linkEdge bad s).events = s.events ++ linkEvents s.eng.linkPrev [bad] := by
  cases hprev : s.eng.linkPrev <;> cases bad
  · rw [linkEdge_rises hprev]; rfl
  · rw [linkEdge_same hprev]; exact (List.append_nil _).symm
  · rw [linkEdge_same hprev]; exact (List.append_nil _).symm
  · rw [linkEdge_falls hprev]; rfl

/-- The state after the NIC set the link and one `check` sampled it. -/
def linkChecked (bad : Bool) (s : State) : State :=
  returned .interrupt .done (linkEdge bad (devLink reference bad s))

theorem sampleLinks_cons {s : State} (bad : Bool) (bs : List Bool) (hv : AtReference s) (hready : HandlerReady s)
    (ha : s.agenda = []) : sampleLinks (bad :: bs) s = sampleLinks bs (linkChecked bad s) := by
  rw [sampleLinks, exec_check (by exact hv) (by exact hready) (by exact ha), andThen_next]
  rfl

theorem linkChecked_linkPrev (bad : Bool) (s : State) : (linkChecked bad s).eng.linkPrev = sampledLink bad :=
  linkEdge_linkPrev bad _

theorem linkChecked_events (bad : Bool) (s : State) :
    (linkChecked bad s).events = s.events ++ linkEvents s.eng.linkPrev [bad] :=
  linkEdge_events bad _

/-- The next `check` is permitted again: only the NIC, the events, `link_prev` and the returned context differ. -/
theorem linkChecked_frame (bad : Bool) (s : State) : ∃ n l e, linkChecked bad s =
    { s with nic := n, eng := { s.eng with linkPrev := l }, events := e, interrupt := ⟨[], some .done⟩ } := by
  obtain ⟨l, e, hedge⟩ := linkEdge_frame bad (devLink reference bad s)
  exact ⟨(devLink reference bad s).nic, l, e, by rw [linkChecked, hedge]; rfl⟩

theorem linkChecked_ready {s : State} (bad : Bool) (hready : HandlerReady s) : HandlerReady (linkChecked bad s) := by
  obtain ⟨hup, hheld, -⟩ := hready
  obtain ⟨n, l, e, hframe⟩ := linkChecked_frame bad s
  rw [hframe]
  exact ⟨hup, hheld, rfl⟩

/-- The events of a whole sequence, one `check` after each link state. -/
theorem sampleLinks_events (bs : List Bool) : ∀ s : State, AtReference s → HandlerReady s → s.agenda = [] →
    ∃ t, sampleLinks bs s = .next t ∧ t.events = s.events ++ linkEvents s.eng.linkPrev bs := by
  induction bs with
  | nil => exact fun s _ _ _ => ⟨s, rfl, (List.append_nil _).symm⟩
  | cons bad bs ih =>
    intro s hv hready ha
    obtain ⟨n, l, e, hframe⟩ := linkChecked_frame bad s
    obtain ⟨t, hrun, hevents⟩ := ih (linkChecked bad s) (by rw [hframe]; exact hv) (linkChecked_ready bad hready)
      (by rw [hframe]; exact ha)
    refine ⟨t, (sampleLinks_cons bad bs hv hready ha).trans hrun, ?_⟩
    rw [hevents, linkChecked_events, linkChecked_linkPrev, linkEvents_cons _ bad bs, List.append_assoc]

/-- Settles O43, by induction on the sequence: each sample reports its own change and leaves `link_prev` at what it
read. Of the NIC's link step, only the number of `LNK` is to be filled in (R198). -/
theorem linkSequenceReportsEachChangeOnce : Obligations.LinkSequenceReportsEachChangeOnce := by
  refine ⟨fun s bs => sampleLinks_events bs s, rfl, fun s bad => ?_⟩
  rw [nicStep, devLink, Config.isrLnk_val]

end Sys2Proof.Machine
end

section
/-! # Every step keeps the armed slots in flight and in arming order (R151, R190, R191)

`ArmedOk` speaks of the NIC's `tsd`, `tx` and `armOrder` only.  Arming puts a slot at the end of the order, a completion
takes the first one off, a reset leaves none or draws them anew; nothing else touches an armed slot. -/

namespace Sys2Proof.Machine

open Config (reference)

/-! ## What arming and completion do to the order -/

theorem ArmedOk.congr {s t : State} (hs : ArmedOk s) (htsd : t.nic.tsd = s.nic.tsd) (htx : t.nic.tx = s.nic.tx)
    (horder : t.nic.armOrder = s.nic.armOrder) : ArmedOk t := by
  obtain ⟨honce, harmed, hord⟩ := hs
  refine ⟨?_, ?_, ?_⟩ <;> simp only [htsd, htx, horder]
  · exact honce
  · exact harmed
  · exact hord

/-- A step that leaves the NIC alone. -/
theorem ArmedOk.of_nic {s t : State} (hs : ArmedOk s) (h : t.nic = s.nic) : ArmedOk t :=
  hs.congr (by rw [h]) (by rw [h]) (by rw [h])

/-- The word an armed slot reads: in flight, with its length (R190). -/
theorem armedWord_inFlight (w : Word) : inFlight reference (w &&& ~~~reference.tsdStatus) = true := by
  simp [inFlight, BitVec.and_assoc]

theorem armedWord_size (w : Word) : txSize reference (w &&& ~~~reference.tsdStatus) = txSize reference w := by
  have hkept : (~~~reference.tsdStatus).extractLsb' 0 13 = BitVec.allOnes 13 := by decide
  rw [txSize_eq, txSize_eq, BitVec.extractLsb'_and, hkept, BitVec.and_allOnes]

/-- A write of `TSD[i]` makes slot `i` the last armed, whether or not it was armed before (R190). -/
theorem ArmedOk.armSlot {s : State} (hs : ArmedOk s) {i : Nat} (htsd : i < s.nic.tsd.length)
    (htx : i < s.nic.tx.length) (w : Word) : ArmedOk { s with nic := armSlot reference i w s.nic } := by
  obtain ⟨honce, harmed, horder⟩ := hs
  refine ⟨?once, fun j len h => ?armed, fun j hj => ?order⟩ <;> simp only [Machine.armSlot] at *
  case once => exact (honce.filter _).append (List.nodup_singleton i) (by simp)
  case armed =>
    by_cases hij : i = j
    · subst hij
      rw [atSlot_setSlot _ htx] at h
      rw [atSlot_setSlot _ htsd, armedWord_size]
      exact ⟨by simp, armedWord_inFlight w, SlotState.armed.inj h⟩
    · rw [atSlot_setSlot_ne _ hij] at h
      obtain ⟨hmem, hword⟩ := harmed j len h
      rw [atSlot_setSlot_ne _ hij]
      exact ⟨by simp [hmem, Ne.symm hij], hword⟩
  case order =>
    by_cases hij : i = j
    · subst hij
      exact ⟨_, atSlot_setSlot _ htx _⟩
    · rw [atSlot_setSlot_ne _ hij]
      exact horder j (by simpa [Ne.symm hij] using hj)

/-- A completion takes the first slot off the order and leaves the other armed slots as they are (R191). -/
theorem ArmedOk.complete {s : State} (hs : ArmedOk s) {i : Nat} {rest : List Nat} (hhead : s.nic.armOrder = i :: rest)
    (o : TxOutcome) (bytes : List Byte) : ArmedOk { s with nic := nicCompleted reference i o bytes s.nic } := by
  obtain ⟨honce, harmed, horder⟩ := hs
  obtain ⟨len, hi⟩ := horder i (by simp [hhead])
  have htx : i < s.nic.tx.length := lt_of_atSlot_ne _ (by rw [hi]; nofun)
  rw [hhead] at honce harmed horder
  obtain ⟨hfirst, hrest⟩ := List.nodup_cons.1 honce
  refine ⟨?once, fun j len h => ?armed, fun j hj => ?order⟩ <;> simp only [nicCompleted, hhead, List.tail_cons] at *
  case once => exact hrest
  case armed =>
    have hij : i ≠ j := fun e => by subst e; rw [atSlot_setSlot _ htx] at h; cases h
    rw [atSlot_setSlot_ne _ hij] at h ⊢
    obtain ⟨hmem, hword⟩ := harmed j len h
    exact ⟨(List.mem_cons.1 hmem).resolve_left (Ne.symm hij), hword⟩
  case order =>
    have hij : i ≠ j := fun e => hfirst (e ▸ hj)
    rw [atSlot_setSlot_ne _ hij]
    exact horder j (List.mem_cons_of_mem _ hj)

theorem atSlot_replicate_default {α : Type} [Inhabited α] (n i : Nat) :
    atSlot (List.replicate n (default : α)) i = default := by
  by_cases hi : i < n <;> simp [atSlot, hi]

/-- With no slot armed there is no order to keep. -/
theorem armedOk_none {s : State} (htx : ∀ i, atSlot s.nic.tx i = .idle) (horder : s.nic.armOrder = []) : ArmedOk s where
  once := by simp [horder]
  armed i len h := by rw [htx] at h; cases h
  order i hi := by simp [horder] at hi

/-- Other bits of a slot that is not armed may change (U8). -/
theorem ArmedOk.setTsd {s : State} (hs : ArmedOk s) {i : Nat} (hi : ∀ len, atSlot s.nic.tx i ≠ .armed len) (w : Word) :
    ArmedOk { s with nic := { s.nic with tsd := setSlot s.nic.tsd i w } } where
  once := hs.once
  armed j len h := by
    have hij : i ≠ j := fun e => hi len (e ▸ h)
    have hj := hs.armed j len h
    rwa [← atSlot_setSlot_ne s.nic.tsd hij w] at hj
  order := hs.order

/-! ## Register writes and labelled steps -/

/-- The shape in which a slot of the window is a slot of the NIC's lists, with the invariant. -/
def ArmedShaped (s : State) : Prop := NicShaped reference s.nic ∧ ArmedOk s

theorem writeReg_armed {off : Nat} {bs : List Byte} {s : State} {row : Config.RegRow} (hrow : row ∈ reference.regMap)
    (hs : ArmedShaped s) : ArmedShaped (writeReg reference off bs s row) := by
  obtain ⟨hshape, harm⟩ := hs
  refine ⟨writeReg_nicShaped s row hshape, ?_⟩
  unfold writeReg
  cases hr : row.reg with
  | tsd i =>
    obtain ⟨htsd, -, htx⟩ := hshape
    have hi : i < reference.nTx := slot_of_row hrow (.inl hr)
    exact harm.armSlot (htsd ▸ hi) (htx ▸ hi) _
  | _ => exact harm.congr rfl rfl rfl

theorem regWrite_armed {off : Nat} {bs : List Byte} {s : State} (hs : ArmedShaped s) :
    ArmedShaped (regWrite reference off bs s) :=
  List.foldlRecOn (motive := ArmedShaped) _ _ hs fun _ hs _ hrow => writeReg_armed (mem_regMap_of_reached hrow) hs

theorem LabelEffect.armedOk {s t : State} {c : Ctx} (h : LabelEffect reference s c t) (hs : ArmedShaped s) :
    ArmedOk t := by
  obtain ⟨hshape, harm⟩ := hs
  cases h with
  | window off bs => exact (regWrite_armed ⟨hshape, harm⟩).2
  | loseIndices => exact armedOk_afterTimeout s
  | storeAddress i w => exact harm.of_nic (storeHwAddr_nic i w s)
  | enable v => refine (regWrite_armed ?_).2; exact ⟨hshape, harm.of_nic rfl⟩
  | store a bs h => obtain ⟨-, rfl⟩ := memWrite_some h; exact harm.of_nic rfl
  | reportError u a => refine (regWrite_armed ?_).2; exact ⟨hshape, harm.of_nic rfl⟩
  | resume old => exact harm.of_nic (resumeIf_nic old s)
  | link bad => exact harm.of_nic (linkEdge_nic bad s)
  | _ => exact harm.of_nic rfl

/-! ## The NIC's own steps -/

/-- A completion of any slot but the one armed first does not happen (R191). -/
theorem devTxComplete_notFirst {K : Config.Values} {i : Nat} {o : TxOutcome} {s : State}
    (h : s.nic.armOrder.head? ≠ some i) : devTxComplete K i o s = .next s := by
  have hoff : ¬ completionEnabled i o s.nic = true := by simp [completionEnabled, h]
  unfold devTxComplete
  split
  · rw [if_neg hoff]
  · rfl
  · rfl

theorem devTxComplete_first {K : Config.Values} {i : Nat} {o : TxOutcome} {s t : State}
    (h : devTxComplete K i o s = .next t) :
    t = s ∨ ∃ rest bytes, s.nic.armOrder = i :: rest ∧ t = { s with nic := nicCompleted K i o bytes s.nic } := by
  by_cases hhead : s.nic.armOrder.head? = some i
  · obtain ⟨rest, hrest⟩ := List.head?_eq_some_iff.1 hhead
    exact (devTxComplete_next h).imp_right fun ⟨bytes, ht⟩ => ⟨rest, bytes, hrest, ht⟩
  · rw [devTxComplete_notFirst hhead] at h
    exact .inl (Host.Outcome.next.inj h).symm

theorem nicStep_armedOk {m : NicMove} {s t : State} (h : nicStep reference m s = .next t) (hs : ArmedOk s) :
    ArmedOk t := by
  cases m with
  | resetDone =>
    cases h; unfold devResetDone; split
    · exact armedOk_none (atSlot_replicate_default (α := SlotState) _) rfl
    · exact hs
  | txComplete i o =>
    obtain rfl | ⟨rest, bytes, hhead, rfl⟩ := devTxComplete_first h
    · exact hs
    · exact hs.complete hhead o bytes
  | rxRecord st f fcs bad => obtain rfl | ⟨-, isr, rfl⟩ := devRxRecord_next h <;> exact hs.congr rfl rfl rfl
  | link b => cases h; exact hs.congr rfl rfl rfl
  | retrigger => cases h; unfold devRetrigger; split <;> exact hs.congr rfl rfl rfl
  | isrUnnamed b => cases h; exact hs.congr rfl rfl rfl
  | tsdUnnamed i b =>
    cases h; unfold devTsdUnnamed; split
    · exact hs
    · rename_i hidle; exact hs.setTsd (by simp [hidle]) _
    · rename_i hdone; exact hs.setTsd (by simp [hdone]) _
  | padWrite k b => obtain rfl | ⟨-, -, rfl⟩ := devPadWrite_next h <;> exact hs.congr rfl rfl rfl

theorem armedShaped_kept : StepKeeps (fun s => AtReference s ∧ ArmedShaped s) := by
  refine .of_effects_atReference ?control ?agenda ?label ?nic ?setCfg ?grants
  case control =>
    rintro c x s ⟨hshape, harm⟩
    have hn := setContext_nic c x s
    exact ⟨hn ▸ hshape, harm.of_nic hn⟩
  case agenda => exact fun s a ⟨hshape, harm⟩ => ⟨hshape, harm.of_nic rfl⟩
  case label => exact fun c s t hs h => ⟨h.nicShaped hs.1, h.armedOk hs⟩
  case nic => exact fun m s t ⟨hshape, harm⟩ h => ⟨nicStep_nicShaped h hshape, nicStep_armedOk h harm⟩
  case setCfg =>
    rintro c s ⟨hshape, harm⟩
    obtain ⟨c', h⟩ := hostSetCfg_frame c s
    rw [h]; exact ⟨hshape, harm.of_nic rfl⟩
  case grants => exact fun i t r s ⟨hshape, harm⟩ => ⟨hshape, harm.of_nic rfl⟩

/-- Settles O54: arming, completion and the two resets keep the order, nothing else touches an armed slot. -/
theorem stepsKeepArmedSlotsInFlight : Obligations.StepsKeepArmedSlotsInFlight := by
  intro s t hv ⟨hnic, _⟩ harm h
  obtain ⟨-, -, harm'⟩ := armedShaped_kept.step ⟨hv, hv ▸ hnic, harm⟩ h
  exact harm'

end Sys2Proof.Machine
end

section
/-! # The host arms a slot, the NIC completes it (R190, R191) -/

namespace Sys2Proof.Machine

open Config (reference)

/-- Settles O17: the write of `TSD[i]` whole; the slot's other registers and the other slots are not written. -/
theorem statusRegisterWriteArmsItsSlot : Obligations.StatusRegisterWriteArmsItsSlot := by
  intro s i w hv hshape hi h4
  obtain ⟨htsd, htx⟩ := shaped_slots hv hshape
  have ho : (BitVec.ofNat 8 (0x10 + 4 * i)).toNat = 0x10 + 4 * i := by rw [BitVec.toNat_ofNat]; omega
  have hok : accessOk reference (BitVec.ofNat 8 (0x10 + 4 * i)) 4 = true := accessOk_iff.2 (by omega)
  refine ⟨_, hostWrite_idle hv hi ho hok (write32_tsd h4 w s), ?_, ?_, fun j hj => ⟨?_, ?_⟩, rfl⟩
  · exact atSlot_setSlot _ (by omega) _
  · rw [← txSize_eq]
    exact atSlot_setSlot _ (by omega) _
  · exact atSlot_setSlot_ne _ hj.symm _
  · exact atSlot_setSlot_ne _ hj.symm _

/-! ## Completion -/

/-- The slot armed first completes, whatever status it ends with, its bytes being mapped (R191). -/
theorem devTxComplete_completes {i : Nat} {o : TxOutcome} {s : State} {len : BitVec 13} {rest : List Nat}
    (harmed : atSlot s.nic.tx i = .armed len) (hhead : s.nic.armOrder = i :: rest) (hte : s.nic.te = true)
    (hbits : o.tok = true ∨ o.tun = true ∨ o.tabt = true)
    (hm : mapped reference s.plat (atSlot s.nic.tsad i).toNat len.toNat = true) :
    devTxComplete reference i o s = .next { s with
      nic := nicCompleted reference i o (bytesAt s (atSlot s.nic.tsad i).toNat len.toNat) s.nic } := by
  have hen : completionEnabled i o s.nic = true := by simpa [completionEnabled, hhead, hte, or_assoc] using hbits
  simp only [devTxComplete, harmed, hen, if_true, memRead, hm, or_true]

/-- The three status bits that a completion sets are those of its outcome (R191). -/
theorem completionBits_status (o : TxOutcome) : (completionBits reference o).getLsbD 15 = o.tok ∧
    (completionBits reference o).getLsbD 14 = o.tun ∧ (completionBits reference o).getLsbD 30 = o.tabt := by
  have hbit (b : Bool) (m : Word) (k : Nat) (hk : k < 32) : (if b then m else 0#32)[k] = (b && m[k]) := by
    cases b <;> simp
  simp [completionBits, hbit, Config.tsdTok_val, Config.tsdTun_val, Config.tsdTabt_val, Config.tsdUnnamed_val]

/-- `SIZE` under its mask is the length field. -/
theorem setWidth_txSize (w : Word) : (txSize reference w).setWidth 32 = w &&& 0x1FFF#32 := by
  apply BitVec.eq_of_toNat_eq
  rw [txSize_eq, BitVec.toNat_setWidth, BitVec.extractLsb'_toNat, BitVec.toNat_and, Nat.shiftRight_zero]
  exact (Nat.mod_eq_of_lt (by omega)).trans (Nat.and_two_pow_sub_one_eq_mod w.toNat 13).symm

/-- Settles O49: the enabled completion, its status word bit by bit; a slot that is not first does not complete. -/
theorem transmitCompletesInArmingOrder : Obligations.TransmitCompletesInArmingOrder := by
  intro s i o len rest harmed hhead hte hbits hm
  obtain ⟨h15, h14, h30⟩ := completionBits_status o
  refine ⟨⟨atSlot s.nic.tsd i ||| completionBits reference o, ?_, ?_, ?_, ?_, ?_⟩, fun j hj => ?_⟩
  · rw [nicStep, devTxComplete_completes harmed hhead hte hbits hm, nicCompleted, hhead, Config.isrTok_val,
      Config.isrTer_val, List.tail_cons]
  · rw [← setWidth_txSize, txSize_completed, setWidth_txSize]
  · rw [BitVec.getLsbD_or, h15]
  · rw [BitVec.getLsbD_or, h14]
  · rw [BitVec.getLsbD_or, h30]
  · exact devTxComplete_notFirst (by simpa [hhead] using hj.symm)

end Sys2Proof.Machine
end

section
/-! # What the NIC writes into memory, and what it leaves alone (R187, R194, R196, R204) -/

namespace Sys2Proof.Machine

open Config (reference)

/-! ## Bytes written round the end of the receive buffer (R194) -/

theorem get?_setWrapped_outside {K : Config.Values} {base off a : Nat} {bs : List Byte} (m : List Host.Cell)
    (h : ∀ j < bs.length, a ≠ base + (off + j) % K.rxBufLen) :
    Memory.get? (setWrapped K base m off bs) a = Memory.get? m a := by
  induction bs generalizing m off with
  | nil => rfl
  | cons b bs ih =>
    have hrest : ∀ j < bs.length, a ≠ base + (off + 1 + j) % K.rxBufLen := fun j hj => by
      rw [Nat.add_assoc, Nat.add_comm 1]; exact h (j + 1) (Nat.succ_lt_succ hj)
    exact (ih _ hrest).trans (Memory.get?_set_ne m (h 0 (Nat.succ_pos _)).symm b)

/-- Bytes that do not fill more than the buffer are read back where they were put. -/
theorem get?_setWrapped_at {base off k : Nat} {bs : List Byte} (m : List Host.Cell) (hlen : bs.length ≤ 8192)
    (hk : k < bs.length) :
    Memory.get? (setWrapped reference base m off bs) (base + (off + k) % 8192) = some bs[k] := by
  induction bs generalizing m off k with
  | nil => cases hk
  | cons b bs ih =>
    rw [List.length_cons] at hlen hk
    cases k with
    | zero =>
      have hrest : ∀ j < bs.length, base + off % 8192 ≠ base + (off + 1 + j) % reference.rxBufLen := by
        intro j hj
        rw [Config.rxBufLen_val]; omega
      exact (get?_setWrapped_outside _ hrest).trans (Memory.get?_set_same m _ b)
    | succ k =>
      have hat := ih (Memory.set m (base + off % 8192) b) (off := off + 1) (k := k) (by omega) (by omega)
      rwa [Nat.add_assoc, Nat.add_comm 1] at hat

theorem setWrapped_append (K : Config.Values) (base off : Nat) (bs cs : List Byte) (m : List Host.Cell) :
    setWrapped K base (setWrapped K base m off bs) (off + bs.length) cs = setWrapped K base m off (bs ++ cs) := by
  induction bs generalizing m off with
  | nil => rfl
  | cons b bs ih =>
    rw [List.length_cons, Nat.add_comm bs.length, ← Nat.add_assoc]
    exact ih _ _

/-- A record as the NIC puts it into the buffer: header, frame, checksum (R82, R194). -/
def recordBytes (status : Half) (frame fcs : List Byte) : List Byte :=
  headerBytes reference status frame ++ (frame ++ fcs)

theorem recordBytes_length (status : Half) (frame fcs : List Byte) :
    (recordBytes status frame fcs).length = 4 + (frame.length + fcs.length) := by
  simp only [recordBytes, headerBytes, le16, List.length_append, List.length_cons, List.length_nil]

theorem writeRecord_eq (base off : Nat) (status : Half) (frame fcs : List Byte) (m : List Host.Cell) :
    writeRecord reference base off status frame fcs m =
      setWrapped reference base m off (recordBytes status frame fcs) :=
  setWrapped_append reference base off (headerBytes reference status frame) (frame ++ fcs) m

/-! ## Where the NIC may write -/

/-- Bus address `a` lies in `rxbuf` or its guard pad and is none of the unread bytes (R196, R204). -/
def NicMayWrite (s : State) (a : Nat) : Prop :=
  ∃ j < 8208, a = s.plat.params.rxDmaBase.toNat + j ∧
    (RxInRange s → ∀ k < distance reference s.nic.rxRd s.nic.rxWr, j ≠ (s.nic.rxRd.toNat + k) % 8192)

/-- The NIC's target in the held receive buffer is that buffer (R260). -/
theorem rbstart_of_mapped {s : State} (h : rxTargetMapped reference s = true) :
    s.nic.rbstart.toNat = s.plat.params.rxDmaBase.toNat := by
  simp only [rxTargetMapped, Bool.and_eq_true, decide_eq_true_eq] at h
  omega

/-- A record that happens has less than the free space (R194). -/
theorem devRxRecord_fits {status : Half} {frame fcs : List Byte} {bad : Bool} {s t : State}
    (h : devRxRecord reference status frame fcs bad s = .next t) :
    t = s ∨ (recordBytes status frame fcs).length < rxSpace reference s.nic := by
  unfold devRxRecord at h
  split at h
  · rename_i hen
    simp only [Bool.and_eq_true, decide_eq_true_eq] at hen
    obtain ⟨⟨-, hfcs⟩, hspace⟩ := hen
    right
    rw [recordBytes_length]
    simp only [footprint, align4, Config.rxHdrLen_val, Config.fcsLen_val] at hfcs hspace
    omega
  · cases h; exact .inl rfl

/-- The bytes from the write pointer round, fewer than the free space, are none of the unread ones. -/
theorem freeSpace_not_unread {s : State} {n j : Nat} (hspace : n < rxSpace reference s.nic) (hj : j < n) :
    RxInRange s → ∀ k < distance reference s.nic.rxRd s.nic.rxWr,
      (s.nic.rxWr.toNat + j) % 8192 ≠ (s.nic.rxRd.toNat + k) % 8192 := by
  rintro ⟨-, hrd, hwr⟩ k hk
  rw [rxSpace] at hspace
  split at hspace
  · rename_i he
    rw [he, distance_self] at hk; omega
  · rw [distance_eq] at hk hspace; omega

theorem byteAt_congr {s t : State} {a : Nat} (hgen : t.plat.gen = s.plat.gen)
    (h : Memory.get? t.mem a = Memory.get? s.mem a) : byteAt t a = byteAt s a := by
  rw [byteAt, byteAt, h, hgen]

/-- A step of the NIC leaves every byte but those where it may write. -/
theorem nicStep_byteAt {m : NicMove} {s t : State} (h : nicStep reference m s = .next t) (a : Nat) :
    byteAt t a = byteAt s a ∨ NicMayWrite s a := by
  cases m with
  | resetDone => cases h; unfold devResetDone; split <;> exact .inl rfl
  | txComplete i o => obtain rfl | ⟨bytes, rfl⟩ := devTxComplete_next h <;> exact .inl rfl
  | rxRecord status frame fcs bad =>
    obtain rfl | hspace := devRxRecord_fits h
    · exact .inl rfl
    obtain rfl | ⟨htarget, isr, rfl⟩ := devRxRecord_next h
    · exact .inl rfl
    rw [rbstart_of_mapped htarget, writeRecord_eq]
    by_cases hin : ∃ j < (recordBytes status frame fcs).length,
        a = s.plat.params.rxDmaBase.toNat + (s.nic.rxWr.toNat + j) % 8192
    · obtain ⟨j, hj, rfl⟩ := hin
      exact .inr ⟨_, by omega, rfl, freeSpace_not_unread hspace hj⟩
    · push Not at hin
      exact .inl (byteAt_congr rfl (get?_setWrapped_outside _ hin))
  | link bad => cases h; exact .inl rfl
  | retrigger => cases h; unfold devRetrigger; split <;> exact .inl rfl
  | isrUnnamed bits => cases h; exact .inl rfl
  | tsdUnnamed i bits => cases h; unfold devTsdUnnamed; split <;> exact .inl rfl
  | padWrite k b =>
    obtain rfl | ⟨hk, htarget, rfl⟩ := devPadWrite_next h
    · exact .inl rfl
    rw [rbstart_of_mapped htarget, Config.rxBufLen_val, Nat.add_assoc]
    rw [Config.rxGuardPad_val] at hk
    by_cases ha : s.plat.params.rxDmaBase.toNat + (8192 + k) = a
    · exact .inr ⟨8192 + k, by omega, ha.symm, fun _ k _ => by omega⟩
    · exact .inl (byteAt_congr rfl (Memory.get?_set_ne _ ha b))

/-! ## The registers the NIC does not write -/

/-- What the host alone writes while no reset ends: its registers, the EEPROM's side, and the reset in progress. -/
def hostRegisters (s : State) : Half × Half × List Word × Word × Word × Eeprom × Bool :=
  (s.nic.capr, s.nic.imr, s.nic.tsad, s.nic.rbstart, s.nic.tcr, s.ee, s.nic.resetting)

theorem nicStep_hostRegisters {m : NicMove} {s t : State} (h : nicStep reference m s = .next t)
    (hm : m ≠ .resetDone) : hostRegisters t = hostRegisters s := by
  cases m with
  | resetDone => exact absurd rfl hm
  | txComplete i o => obtain rfl | ⟨bytes, rfl⟩ := devTxComplete_next h <;> rfl
  | rxRecord status frame fcs bad => obtain rfl | ⟨-, isr, rfl⟩ := devRxRecord_next h <;> rfl
  | link bad => cases h; rfl
  | retrigger => cases h; unfold devRetrigger; split <;> rfl
  | isrUnnamed bits => cases h; rfl
  | tsdUnnamed i bits => cases h; unfold devTsdUnnamed; split <;> rfl
  | padWrite k b => obtain rfl | ⟨-, -, rfl⟩ := devPadWrite_next h <;> rfl

/-! ## Status bits only come (R191) -/

/-- Every status bit of `v` is set in `w`. -/
def StatusKept (v w : Word) : Prop := v &&& 0x4000C000#32 &&& ~~~w = 0#32

theorem StatusKept.refl (v : Word) : StatusKept v v := by
  rw [StatusKept, BitVec.and_assoc, BitVec.and_comm _ (~~~v), ← BitVec.and_assoc, BitVec.and_not_self]
  exact BitVec.zero_and

theorem statusKept_or (v b : Word) : StatusKept v (v ||| b) := by
  ext k hk
  simp only [BitVec.getElem_and, BitVec.getElem_not, BitVec.getElem_or, BitVec.getElem_zero]
  cases v[k] <;> simp

theorem StatusKept.setSlot {tsd : List Word} {i : Nat} {w : Word} (h : StatusKept (atSlot tsd i) w) (j : Nat) :
    StatusKept (atSlot tsd j) (atSlot (setSlot tsd i w) j) := by
  by_cases hi : i < tsd.length
  · rw [atSlot_setSlot_if _ hi]
    split
    · rename_i hij; exact hij ▸ h
    · exact .refl _
  · rw [setSlot_of_length_le _ (Nat.not_lt.1 hi)]; exact .refl _

/-- The unnamed bits of a `TSD` are no status bits (R33, U8). -/
theorem statusKept_tsdWithUnnamed (n : Nic) (i : Nat) (bits : Word) :
    StatusKept (atSlot n.tsd i) (tsdWithUnnamed reference n i bits) := by
  have hdisjoint : 0x4000C000#32 &&& ~~~reference.tsdUnnamed = 0x4000C000#32 := by decide
  have hkept := statusKept_or (atSlot n.tsd i &&& ~~~reference.tsdUnnamed) (bits &&& reference.tsdUnnamed)
  rwa [StatusKept, BitVec.and_assoc (atSlot n.tsd i), BitVec.and_comm (~~~reference.tsdUnnamed), hdisjoint] at hkept

theorem nicStep_statusKept {m : NicMove} {s t : State} (h : nicStep reference m s = .next t) (hm : m ≠ .resetDone)
    (i : Nat) : StatusKept (atSlot s.nic.tsd i) (atSlot t.nic.tsd i) := by
  cases m with
  | resetDone => exact absurd rfl hm
  | txComplete j o =>
    obtain rfl | ⟨bytes, rfl⟩ := devTxComplete_next h
    · exact .refl _
    · exact (statusKept_or _ _).setSlot i
  | rxRecord status frame fcs bad => obtain rfl | ⟨-, isr, rfl⟩ := devRxRecord_next h <;> exact .refl _
  | link bad => cases h; exact .refl _
  | retrigger => cases h; unfold devRetrigger; split <;> exact .refl _
  | isrUnnamed bits => cases h; exact .refl _
  | tsdUnnamed j bits =>
    cases h; unfold devTsdUnnamed; split
    · exact .refl _
    · exact (statusKept_tsdWithUnnamed _ _ _).setSlot i
    · exact (statusKept_tsdWithUnnamed _ _ _).setSlot i
  | padWrite k b => obtain rfl | ⟨-, -, rfl⟩ := devPadWrite_next h <;> exact .refl _

/-- Only the end of a reset changes `resetting`, and it clears it (R188). -/
theorem nicStep_resetting {m : NicMove} {s t : State} (h : nicStep reference m s = .next t)
    (ht : t.nic.resetting = true) : s.nic.resetting = true := by
  by_cases hm : m = .resetDone
  · subst hm
    cases h
    by_contra hoff
    rw [devResetDone, if_neg hoff] at ht
    exact hoff ht
  · have hkept := nicStep_hostRegisters h hm
    simp only [hostRegisters, Prod.mk.injEq] at hkept
    obtain ⟨-, -, -, -, -, -, hresetting⟩ := hkept
    rwa [← hresetting]

/-- Settles O50: the frame of a NIC step, the bytes where it may write, and the registers it leaves to the host. -/
theorem nicTouchesOnlyDeviceState : Obligations.NicTouchesOnlyDeviceState := by
  intro m s t h
  obtain ⟨n, e, mm, d, k, hframe, hcells⟩ := nicStep_frame m s t h
  have hplat : t.plat = s.plat := by rw [hframe]
  refine ⟨by rw [hframe], hplat, by rw [hframe], by rw [hframe], by rw [hframe], by rw [hframe], by rw [hframe, hcells],
    nicStep_resetting h, fun a ha => ?outside, fun hrange k hk => ?unread, fun hm => ?registers⟩
  case outside =>
    refine (nicStep_byteAt h a).resolve_right ?_
    rintro ⟨j, hj, rfl, -⟩
    omega
  case unread =>
    rw [rxByte, rxByte, hplat]
    refine (nicStep_byteAt h _).resolve_right ?_
    rintro ⟨j, -, hj, hread⟩
    exact hread hrange k hk (Nat.add_left_cancel hj).symm
  case registers =>
    have hkept := nicStep_hostRegisters h hm
    simp only [hostRegisters, Prod.mk.injEq] at hkept
    obtain ⟨hcapr, himr, htsad, hrbstart, htcr, hee, -⟩ := hkept
    exact ⟨hcapr, himr, htsad, hrbstart, htcr, hee, nicStep_statusKept h hm⟩

end Sys2Proof.Machine
end

section
/-! # What the NIC receives into an empty buffer, `drain` delivers (R160, R163, R194 to R196) -/

namespace Sys2Proof.Machine

open Config (reference)

/-- The state after the NIC put a record at its write pointer (R194). -/
def received (status : Half) (frame fcs : List Byte) (bad : Bool) (s : State) : State :=
  { s with
    mem := setWrapped reference s.plat.params.rxDmaBase.toNat s.mem s.nic.rxWr.toNat (recordBytes status frame fcs)
    nic := { s.nic with
      rxWr := advanceOffset reference s.nic.rxWr (footprint reference (frame.length + 4))
      isr := s.nic.isr ||| (if bad then 0x0002#16 else 0x0001#16) } }

/-- With nothing unread the whole buffer is free, and a record that fits is put into it (R194, R195). -/
theorem devRxRecord_empty {s : State} {frame fcs : List Byte} (status : Half) (bad : Bool) (hre : s.nic.re = true)
    (hfcs : fcs.length = 4) (hheld : s.plat.rxHeld = true) (hbase : s.nic.rbstart = s.plat.params.rxDmaBase)
    (hempty : s.nic.rxRd = s.nic.rxWr) (hfits : footprint reference (frame.length + 4) < 8192) :
    devRxRecord reference status frame fcs bad s = .next (received status frame fcs bad s) := by
  have hspace : rxSpace reference s.nic = 8192 := if_pos hempty
  have htarget : rxTargetMapped reference s = true := by simp [rxTargetMapped, hheld, hbase]
  rw [devRxRecord, htarget, hspace, hre, hfcs, Config.fcsLen_val, hbase, writeRecord_eq, Config.isrRer_val,
    Config.isrRok_val, decide_eq_true hfits]
  rfl

/-- The size field of a frame's record counts the checksum (R82). -/
def frameSize (frame : List Byte) : Half := BitVec.ofNat 16 (frame.length + 4)

theorem frameSize_toNat {frame : List Byte} (hfits : footprint reference (frame.length + 4) < 8192) :
    (frameSize frame).toNat = frame.length + 4 := by
  simp only [footprint, align4, Config.rxHdrLen_val] at hfits
  rw [frameSize, BitVec.toNat_ofNat]
  omega

/-- Where a record's bytes stand in the buffer its record lies, whatever its status and its checksum (R82, R160). -/
theorem recordLies_of_bytes {s : State} {off : Half} {status : Half} {frame fcs : List Byte}
    (haligned : off.toNat % 4 = 0) (hfits : footprint reference (frame.length + 4) < 8192)
    (hbytes : ∀ k (hk : k < (recordBytes status frame fcs).length),
      rxByte s (off.toNat + k) = (recordBytes status frame fcs)[k]) :
    RecordLies s off (frameSize frame) frame := by
  have hsize := frameSize_toNat hfits
  have hlen := recordBytes_length status frame fcs
  simp only [footprint, align4, Config.rxHdrLen_val] at hfits
  refine ⟨(headerOk_iff _ _).2 (by omega), hbytes 2 (by omega), hbytes 3 (by omega), ?_⟩
  rw [hsize, Nat.add_sub_cancel]
  refine List.ext_getElem (by simp) fun j hj _ => ?_
  rw [List.getElem_map, List.getElem_range, Nat.add_assoc, hbytes (4 + j) (by omega)]
  simp [recordBytes, headerBytes, le16, Nat.add_comm 4 j, List.getElem_append_left hj]

/-- After a record into an empty buffer that record alone lies unread. -/
theorem unread_received {s : State} {frame fcs : List Byte} (status : Half) (bad : Bool) (haligned : RxAligned s)
    (hoff : s.eng.rxOff.toNat < 8192) (hfcs : fcs.length = 4) (hheld : s.plat.rxHeld = true)
    (hrd : s.nic.rxRd = s.eng.rxOff) (hwr : s.nic.rxWr = s.eng.rxOff)
    (hfits : footprint reference (frame.length + 4) < 8192) :
    Unread (received status frame fcs bad s) [(frameSize frame, frame)] := by
  have hsum : footprints [(frameSize frame, frame)] = footprint reference (frame.length + 4) := by
    simp [footprints, frameSize_toNat hfits]
  have hlen : (recordBytes status frame fcs).length ≤ 8192 := by
    simp only [footprint, align4, Config.rxHdrLen_val] at hfits
    rw [recordBytes_length]; omega
  have hlies : RecordLies (received status frame fcs bad s) s.eng.rxOff (frameSize frame) frame := by
    refine recordLies_of_bytes (status := status) (fcs := fcs) haligned hfits fun k hk => ?_
    have hread := get?_setWrapped_at (base := s.plat.params.rxDmaBase.toNat) (off := s.eng.rxOff.toNat) s.mem hlen hk
    simp only [rxByte, byteAt, received, hwr, hread, Option.getD_some]
  refine ⟨hheld, hsum ▸ hfits, hoff, hrd, ?_, hlies, trivial⟩
  simp only [received, hwr, hsum]

/-- Settles O38: the record the NIC puts into the buffer is the one unread record that `drain` delivers. -/
theorem receivedFramesAreDelivered : Obligations.ReceivedFramesAreDelivered := by
  intro s status frame fcs bad hv hready haligned ⟨hoff, _⟩ hfcs ha hheld hbase hre hrd hwr hfits
  have hrecord := devRxRecord_empty status bad hre hfcs hheld hbase (hrd.trans hwr.symm) hfits
  have hunread := unread_received (fcs := fcs) status bad haligned hoff hfcs hheld hrd hwr hfits
  have hdrain := (drainDeliversEveryRecord _ (by exact hv) (by exact hready) (by exact ha)).1 _ hunread
  exact ⟨_, _, hrecord, hdrain, rfl, hunread.writePointer.symm, rfl, rfl⟩

end Sys2Proof.Machine
end

section
/-! # Refusals at the start of an operation, and the state after power-on (R112, R179, R214, R222, R233, R234, R237) -/

namespace Sys2Proof.Machine

open Config (reference)

/-! ## The check that stands before an operation's start -/

/-- Every operation starts under its check (R222). -/
theorem beginInstr_guarded (i : Instr) (s : State) : ∃ o, beginInstr i s = guarded (startCheck i s) o := by
  cases i with
  | writeRaw16 off v => exact ⟨_, by rw [startCheck, ← hostBytes16_length s.plat.params.hostBE v]; rfl⟩
  | writeRaw32 off v => exact ⟨_, by rw [startCheck, ← hostBytes32_length s.plat.params.hostBE v]; rfl⟩
  | _ => exact ⟨_, rfl⟩

/-- An operation whose check objects is refused for the check's reason. -/
theorem exec_refused {i : Instr} {s : State} {r : Refusal} (h : startCheck i s = some r) : exec i s = .refused r := by
  obtain ⟨o, ho⟩ := beginInstr_guarded i s
  rw [exec_eq_runToReturn, ho, h, guarded_some]
  rfl

/-- `reset`, `readWord`, `readHardwareAddress` and `open` start under one check. -/
theorem exec_bringup_refused {s : State} {r : Refusal} (h : bringupCheck s = some r) {a : EeAddr}
    (ha : addressOk s.plat.values a = true) :
    exec .reset s = .refused r ∧ exec (.readWord a) s = .refused r ∧ exec .readHardwareAddress s = .refused r ∧
      exec .openBlock s = .refused r := by
  have hword : startCheck (.readWord a) s = some r := by simp [startCheck, addressCheck_eq ha, h]
  exact ⟨exec_refused h, exec_refused hword, exec_refused h, exec_refused h⟩

/-- `check`, `drain` and `reconcile` start under one check. -/
theorem exec_handler_refused {s : State} {r : Refusal} (h : handlerCheck s = some r) :
    exec .check s = .refused r ∧ exec .drain s = .refused r ∧ exec .reconcile s = .refused r :=
  ⟨exec_refused h, exec_refused h, exec_refused h⟩

/-- A well-formed register operation starts under the access check of an aligned offset (R51). -/
theorem startCheck_accessor {i : Instr} {s : State} (hi : isAccessor i = true)
    (hwf : i.wellFormed s.plat.values = true) :
    ∃ off n, accessOk s.plat.values off n = true ∧ startCheck i s = accessCheck off n s := by
  cases i with
  | read8 | read16 | read32 | write8 | write16 | write32 | writeRaw16 | writeRaw32 => exact ⟨_, _, hwf, rfl⟩
  | _ => cases hi

/-! ## Why a check objects -/

section
variable {s : State}

theorem bringupCheck_busy (hb : s.bringup.stack ≠ []) : bringupCheck s = some .contextBusy := by
  simp [bringupCheck, hb]

theorem bringupCheck_up (hb : s.bringup.stack = []) (hup : s.eng.lifecycle = .up) :
    bringupCheck s = some .wrongLifecycle := by
  simp [bringupCheck, hb, hup]

theorem bringupCheck_active (hb : s.bringup.stack = []) (hdown : s.eng.lifecycle = .down)
    (hother : s.submission.stack ≠ [] ∨ s.interrupt.stack ≠ []) : bringupCheck s = some .otherContextActive := by
  simpa [bringupCheck, hb, hdown, imp_iff_not_or] using hother

theorem closeCheck_busy (hb : s.bringup.stack ≠ []) : closeCheck s = some .contextBusy := by
  simp [closeCheck, hb]

theorem closeCheck_down (hb : s.bringup.stack = []) (hdown : s.eng.lifecycle = .down) :
    closeCheck s = some .wrongLifecycle := by
  simp [closeCheck, hb, hdown]

theorem closeCheck_active (hb : s.bringup.stack = []) (hup : s.eng.lifecycle = .up)
    (hother : s.submission.stack ≠ [] ∨ s.interrupt.stack ≠ []) : closeCheck s = some .otherContextActive := by
  simpa [closeCheck, hb, hup, imp_iff_not_or] using hother

theorem accessCheck_busy {off : BitVec 8} {n : Nat} (hok : accessOk s.plat.values off n = true)
    (hb : s.bringup.stack ≠ []) : accessCheck off n s = some .contextBusy := by
  simp [accessCheck, hok, hb]

theorem accessCheck_active {off : BitVec 8} {n : Nat} (hok : accessOk s.plat.values off n = true)
    (hb : s.bringup.stack = []) (hother : s.submission.stack ≠ [] ∨ s.interrupt.stack ≠ []) :
    accessCheck off n s = some .otherContextActive := by
  simpa [accessCheck, hok, hb, imp_iff_not_or] using hother

theorem interruptCheck_busy (hi : s.interrupt.stack ≠ []) : interruptCheck s = some .contextBusy := by
  simp [interruptCheck, hi]

theorem interruptCheck_unregistered (hi : s.interrupt.stack = []) (hirq : s.plat.irqHeld = false) :
    interruptCheck s = some .handlerNotRegistered := by
  simp [interruptCheck, hi, hirq]

theorem handlerCheck_busy (hi : s.interrupt.stack ≠ []) : handlerCheck s = some .contextBusy := by
  simp [handlerCheck, hi]

theorem handlerCheck_unregistered (hi : s.interrupt.stack = []) (hirq : s.plat.irqHeld = false) :
    handlerCheck s = some .handlerNotRegistered := by
  simp [handlerCheck, hi, hirq]

theorem handlerCheck_down (hi : s.interrupt.stack = []) (hirq : s.plat.irqHeld = true)
    (hdown : s.eng.lifecycle = .down) : handlerCheck s = some .wrongLifecycle := by
  simp [handlerCheck, hi, hirq, hdown]

end

/-- Settles O47: each operation starts under its check, and each check objects for the reason of its clause. -/
theorem wrongLifecycleIsRefused : Obligations.WrongLifecycleIsRefused := by
  intro s
  refine ⟨fun hup hb a ha => ?up, fun hdown hb => ?closeDown, fun hdown hi hirq => ?handlerDown,
    fun hi hirq => ?unregistered, fun hi => ?interruptBusy, fun hb => ?bringupBusy,
    fun hb hdown hother a ha => ?active, fun hb hup hother => ?closeActive, fun hb hother i hi hwf => ?accessActive⟩
  case up => exact exec_bringup_refused (bringupCheck_up hb hup) ha
  case closeDown => exact exec_refused (closeCheck_down hb hdown)
  case handlerDown => exact exec_handler_refused (handlerCheck_down hi hirq hdown)
  case unregistered =>
    exact ⟨exec_refused (interruptCheck_unregistered hi hirq), exec_handler_refused (handlerCheck_unregistered hi hirq)⟩
  case interruptBusy =>
    exact ⟨exec_refused (interruptCheck_busy hi), exec_handler_refused (handlerCheck_busy hi)⟩
  case bringupBusy =>
    have hcheck := bringupCheck_busy hb
    refine ⟨fun a ha => (exec_bringup_refused hcheck ha).2.1, exec_refused hcheck, exec_refused hcheck,
      exec_refused hcheck, exec_refused (closeCheck_busy hb), fun i hi hwf => ?_⟩
    obtain ⟨off, n, hok, hstart⟩ := startCheck_accessor hi hwf
    exact exec_refused (hstart.trans (accessCheck_busy hok hb))
  case active => exact exec_bringup_refused (bringupCheck_active hb hdown hother) ha
  case closeActive => exact exec_refused (closeCheck_active hb hup hother)
  case accessActive =>
    obtain ⟨off, n, hok, hstart⟩ := startCheck_accessor hi hwf
    exact exec_refused (hstart.trans (accessCheck_active hok hb hother))

/-! ## Power-on (R44, R233, R234) -/

theorem allIdle_powerOn : AllIdle State.reset := ⟨rfl, rfl, rfl⟩

/-- Settles O48: the fields of the state after power-on, and the step of an idle block with nothing on the agenda. -/
theorem powerOnState : Obligations.PowerOnState :=
  ⟨allIdle_powerOn, rfl, rfl, rfl, ⟨rfl, rfl, rfl⟩, step_idle rfl allIdle_powerOn⟩

/-- After power-on no slot is armed. -/
theorem armedOk_powerOn : ArmedOk State.reset := armedOk_none (atSlot_replicate_default 4) rfl

/-- After power-on nothing is held, nothing runs, and `lifecycle` is `Down` (R21, R28). -/
theorem session_powerOn : Session State.reset where
  contexts := ⟨rfl, rfl, rfl⟩
  stage := .inl ⟨rfl, ⟨rfl, rfl, rfl⟩, rfl, rfl⟩
  submitting h := absurd rfl h
  handling h := absurd rfl h
  routed h := nomatch h
  submitSizes := trivial
  drainSizes := trivial

/-- Settles O51: the fields of the state after power-on; no byte is written, no slot armed, no operation begun. -/
theorem invariantsAtPowerOn : Obligations.InvariantsAtPowerOn := by
  refine ⟨rfl, ⟨⟨rfl, rfl, rfl⟩, ⟨?_, ?_⟩, rfl⟩, ⟨?_, ?_, ?_⟩, rfl, fun c hc => absurd hc List.not_mem_nil, rfl,
    armedOk_powerOn, session_powerOn⟩ <;> decide

end Sys2Proof.Machine
end

section
/-! # Runs of a context, and labelled steps that the agenda asks for one after another (R11, R22) -/

namespace Sys2Proof.Machine

open Config (reference)

/-! ## No labelled step looks at the agenda -/

/-- The outcome with another agenda. -/
def Micro.withAgenda (a : List Move) : Micro → Micro
  | .go s k => .go { s with agenda := a } k
  | .fault e => .fault e
  | .refused r => .refused r

theorem writeReg_withAgenda (K : Config.Values) (off : Nat) (bs : List Byte) (a : List Move) (s : State)
    (row : Config.RegRow) :
    writeReg K off bs { s with agenda := a } row = { writeReg K off bs s row with agenda := a } := by
  obtain ⟨reg, o, w⟩ := row
  cases reg <;> rfl

theorem regWrite_withAgenda (K : Config.Values) (off : Nat) (bs : List Byte) (a : List Move) (s : State) :
    regWrite K off bs { s with agenda := a } = { regWrite K off bs s with agenda := a } := by
  unfold regWrite
  generalize reached K off bs.length = rows
  induction rows generalizing s with
  | nil => rfl
  | cons row rows ih => rw [List.foldl_cons, List.foldl_cons, writeReg_withAgenda, ih]

theorem linkEdge_withAgenda (bad : Bool) (a : List Move) (s : State) :
    linkEdge bad { s with agenda := a } = { linkEdge bad s with agenda := a } := by
  unfold linkEdge
  simp only
  split <;> rfl

theorem afterSample_withAgenda (a : List Move) (s : State) :
    afterSample { s with agenda := a } = { afterSample s with agenda := a } := by
  unfold afterSample
  simp only
  split <;> rfl

theorem storeHwAddr_withAgenda (i : Nat) (w : Half) (a : List Move) (s : State) :
    storeHwAddr i w { s with agenda := a } = { storeHwAddr i w s with agenda := a } := by
  unfold storeHwAddr
  simp only
  split <;> rfl

theorem setIrqEnabled_withAgenda (K : Config.Values) (v : Half) (a : List Move) (s : State) :
    setIrqEnabled K v { s with agenda := a } = { setIrqEnabled K v s with agenda := a } :=
  regWrite_withAgenda _ _ _ a { s with eng := { s.eng with irqEnabled := v } }

theorem reportError_withAgenda (K : Config.Values) (u b : Bool) (a : List Move) (s : State) :
    reportError K u b { s with agenda := a } = { reportError K u b s with agenda := a } :=
  regWrite_withAgenda _ _ _ a (emit (.txError u b) s)

theorem idle_withAgenda (c : Ctx) (a : List Move) (s : State) : idle c { s with agenda := a } = idle c s := by
  cases c <;> rfl

theorem rxRead_withAgenda (K : Config.Values) (k n : Nat) (a : List Move) (s : State) :
    rxRead K { s with agenda := a } k n = rxRead K s k n := rfl

theorem recordPayload_withAgenda (K : Config.Values) (z : Half) (a : List Move) (s : State) :
    recordPayload K { s with agenda := a } z = recordPayload K s z := rfl

theorem storeStep_withAgenda (K : Config.Values) (b : Nat) (bs : List Byte) (f : Frame) (a : List Move) (s : State) :
    storeStep K b bs f { s with agenda := a } = (storeStep K b bs f s).withAgenda a := by
  unfold storeStep memWrite
  split_ifs <;> rfl

theorem resumeIf_withAgenda (old : Nat) (a : List Move) (s : State) :
    resumeIf old { s with agenda := a } = { resumeIf old s with agenda := a } := by
  unfold resumeIf
  simp only
  split <;> rfl

section
variable (K : Config.Values) (a : List Move) (s : State)

theorem resetStep_withAgenda (l : ResetAt) :
    resetStep K l { s with agenda := a } = (resetStep K l s).withAgenda a := by
  cases l with
  | t1 => exact congrArg (Micro.go · _) (regWrite_withAgenda ..)
  | _ => rfl

theorem readWordStep_withAgenda (l : ReadWordAt) :
    readWordStep K l { s with agenda := a } = (readWordStep K l s).withAgenda a := by
  cases l with
  | e5b k v => exact congrArg (Micro.go · _) (afterSample_withAgenda a s)
  | e7 v => rfl
  | _ => exact congrArg (Micro.go · _) (regWrite_withAgenda ..)

theorem hwAddrStep_withAgenda (l : HwAddrAt) :
    hwAddrStep K l { s with agenda := a } = (hwAddrStep K l s).withAgenda a := by
  cases l with
  | call i => rfl
  | store i =>
    simp only [hwAddrStep, storeHwAddr_withAgenda]
    split <;> rfl

theorem submitStep_withAgenda (l : SubmitAt) :
    submitStep K l { s with agenda := a } = (submitStep K l s).withAgenda a := by
  cases l with
  | s1 frame =>
    simp only [submitStep, withRing]
    split_ifs <;> rfl
  | s2a frame i =>
    simp only [submitStep, storeStep_withAgenda]
    split <;> rfl
  | s2b frame i => exact storeStep_withAgenda ..
  | s3 flen i => exact congrArg (Micro.go · _) (regWrite_withAgenda ..)
  | s4 i => rfl
  | s5a | s5b h =>
    simp only [submitStep, withRing]
    split_ifs <;> rfl

theorem reconcileStep_withAgenda (l : ReconcileAt) :
    reconcileStep K l { s with agenda := a } = (reconcileStep K l s).withAgenda a := by
  cases l with
  | c1 | c2a c old | c2b c old | c2e c old =>
    simp only [reconcileStep, withRing]
    split <;> rfl
  | c2c c old size => rfl
  | c2d c old u b => exact congrArg (Micro.go · _) (reportError_withAgenda ..)
  | c3 old =>
    simp only [reconcileStep, withRing, resumeIf_withAgenda]
    split <;> rfl

theorem drainStep_withAgenda (l : DrainAt) :
    drainStep K l { s with agenda := a } = (drainStep K l s).withAgenda a := by
  cases l with
  | d1 =>
    simp only [drainStep]
    split <;> rfl
  | d2 =>
    simp only [drainStep, withHeader, rxRead_withAgenda]
    split_ifs
    · rfl
    · split <;> rfl
    · rfl
  | d3 size =>
    simp only [drainStep]
    split <;> rfl
  | d4 size =>
    simp only [drainStep, withPayload, recordPayload_withAgenda]
    split_ifs
    · split <;> rfl
    · rfl
  | d5 size payload | d6a size => rfl
  | d6b => exact congrArg (Micro.go · _) (regWrite_withAgenda ..)

theorem interruptStep_withAgenda (l : InterruptAt) :
    interruptStep K l { s with agenda := a } = (interruptStep K l s).withAgenda a := by
  cases l with
  | i1 | i4 m | i5 m | i6 m =>
    simp only [interruptStep]
    split <;> rfl
  | i2 v => exact congrArg (Micro.go · _) (regWrite_withAgenda ..)
  | i3 v | i7 => rfl

theorem openStep_withAgenda (l : OpenAt) :
    openStep K l { s with agenda := a } = (openStep K l s).withAgenda a := by
  cases l with
  | o1 | o2 | o3 | o4r | releaseIrq e =>
    simp only [openStep, idle_withAgenda]
    split <;> rfl
  | o10 => exact congrArg (Micro.go · _) (setIrqEnabled_withAgenda ..)
  | o6 i | o7 | o8 | o9 => exact congrArg (Micro.go · _) (regWrite_withAgenda ..)
  | _ => rfl

theorem closeStep_withAgenda (l : CloseAt) :
    closeStep K l { s with agenda := a } = (closeStep K l s).withAgenda a := by
  cases l with
  | x1 => exact congrArg (Micro.go · _) (setIrqEnabled_withAgenda ..)
  | x2 =>
    simp only [closeStep, idle_withAgenda]
    split <;> rfl
  | _ => rfl

theorem frameStep_withAgenda (f : Frame) :
    frameStep K f { s with agenda := a } = (frameStep K f s).withAgenda a := by
  cases f with
  | reset l => exact resetStep_withAgenda K a s l
  | readWord l => exact readWordStep_withAgenda K a s l
  | hwAddr l => exact hwAddrStep_withAgenda K a s l
  | submit l => exact submitStep_withAgenda K a s l
  | reconcile l => exact reconcileStep_withAgenda K a s l
  | drain l => exact drainStep_withAgenda K a s l
  | onInterrupt l => exact interruptStep_withAgenda K a s l
  | check l =>
    cases l with
    | l1 => rfl
    | l2 bad => exact congrArg (Micro.go · _) (linkEdge_withAgenda bad a s)
  | openBlock l => exact openStep_withAgenda K a s l
  | closeBlock l => exact closeStep_withAgenda K a s l

end

theorem context_withAgenda (c : Ctx) (a : List Move) (s : State) :
    ({ s with agenda := a } : State).context c = s.context c := by
  cases c <;> rfl

theorem applyCtl_withAgenda (c : Ctx) (k : Ctl) (a : List Move) (s : State) :
    applyCtl c k { s with agenda := a } = { applyCtl c k s with agenda := a } := by
  cases k <;> cases c <;> rfl

/-! ## A labelled step whatever the agenda -/

section
variable {d : Ctx} {s u : State} (h : advance d s = .next u)
include h

theorem advance_withAgenda (a : List Move) : advance d { s with agenda := a } = .next { u with agenda := a } := by
  obtain ⟨hidle, rfl⟩ | ⟨f, rest, t, k, hs, hf, rfl⟩ := advance_next h
  · simp only [advance, context_withAgenda, hidle]
  · rw [advance_top ((congrArg Context.stack (context_withAgenda d a s)).trans hs), frameStep_withAgenda, hf,
      ← applyCtl_withAgenda]
    rfl

theorem advance_agenda : u.agenda = s.agenda := by
  obtain ⟨-, rfl⟩ | ⟨f, rest, t, k, -, hf, rfl⟩ := advance_next h
  · rfl
  · rw [applyCtl_agenda, (frameStep_stepFrame hf).agenda]

/-- No labelled step begins an operation in an idle context. -/
theorem advance_idle {c : Ctx} (hc : (s.context c).stack = []) : (u.context c).stack = [] := by
  obtain ⟨-, rfl⟩ | ⟨f, rest, t, k, hs, hf, rfl⟩ := advance_next h
  · exact hc
  · have hdc : d ≠ c := by
      rintro rfl
      rw [hs] at hc
      cases hc
    rw [label_otherContext hf c hdc, hc]

end

/-- The interrupt context never waits, and without a handler nobody does. -/
abbrev NoWait (d : Ctx) (s : State) : Prop := d = .interrupt ∨ s.interrupt.stack = []

theorem turn_eq {d : Ctx} {s : State} (h : NoWait d s) : turn d s = d := by
  obtain rfl | h := h
  · exact ite_self _
  · rw [turn, waiting_idle h]
    rfl

/-- With nothing on the agenda a run is its first labelled step and the rest; an idle context stays as it is. -/
theorem runContext_alone {d : Ctx} {s t : State} {k : Nat} (ha : s.agenda = []) (hw : NoWait d s)
    (h : runContext d (k + 1) s = .next t) : ∃ u, advance d s = .next u ∧ runContext d k u = .next t := by
  by_cases hidle : (s.context d).stack = []
  · rw [runContext_idle hidle] at h
    cases h
    exact ⟨s, by simp only [advance, hidle], runContext_idle hidle k⟩
  · have hpace : pace d s = advance d s := by simp only [pace, ha, turn_eq hw]
    rw [runContext_pace hidle, hpace] at h
    exact andThen_eq_next.1 h

theorem runContext_keepsIdle {c d : Ctx} {t : State} (k : Nat) : ∀ {s : State}, s.agenda = [] → NoWait d s →
    runContext d k s = .next t → (s.context c).stack = [] → (t.context c).stack = [] := by
  induction k with
  | zero =>
    intro s _ _ h hidle
    cases h
    exact hidle
  | succ k ih =>
    intro s ha hw h hidle
    obtain ⟨u, hu, hrest⟩ := runContext_alone ha hw h
    exact ih ((advance_agenda hu).trans ha) (hw.imp_right (advance_idle hu (c := .interrupt))) hrest
      (advance_idle hu hidle)

/-! ## Runs of a context -/

/-- `n` paces of a run of context `c` lead from `s` to `t`, whatever the run has still to go. -/
def Runs (c : Ctx) (n : Nat) (s t : State) : Prop := ∀ k, runContext c (k + n) s = runContext c k t

theorem Runs.trans {c : Ctx} {m n : Nat} {s t u : State} (h : Runs c m s t) (g : Runs c n t u) :
    Runs c (m + n) s u := fun k => by
  rw [Nat.add_comm m n, ← Nat.add_assoc, h (k + n), g k]

/-- A run that leads to the context's return within the budget. -/
theorem Runs.returns {c : Ctx} {n : Nat} {s t : State} (h : Runs c n s t) (hn : n ≤ 16384)
    (ht : (t.context c).stack = []) : runContext c Config.stepBudget s = .next t := by
  obtain ⟨k, hk⟩ := stepBudget_split hn
  rw [hk, h k, runContext_idle ht]

theorem runContext_paced {c d : Ctx} {more : List Move} {t : State} (hc : (t.context c).stack ≠ []) (k : Nat) :
    ∀ {s : State}, s.agenda = [] → NoWait d s → runContext d k s = .next t →
      Runs c k { s with agenda := List.replicate k (.advance d) ++ more } { t with agenda := more } := by
  induction k with
  | zero =>
    intro s _ _ h n
    cases h
    rfl
  | succ k ih =>
    intro s ha hw h n
    obtain ⟨u, hu, hrest⟩ := runContext_alone ha hw h
    have hrun := ih ((advance_agenda hu).trans ha) (hw.imp_right (advance_idle hu (c := .interrupt))) hrest n
    have hbusy : (s.context c).stack ≠ [] := mt (runContext_keepsIdle (k + 1) ha hw h) hc
    rw [← Nat.add_assoc, runContext_pace (by rwa [context_withAgenda])]
    have hpace : pace c { s with agenda := List.replicate (k + 1) (.advance d) ++ more } =
        .next { u with agenda := List.replicate k (.advance d) ++ more } := advance_withAgenda hu _
    rw [hpace]
    exact hrun

/-- What `k` labelled steps of context `d` do by themselves, they do where the agenda asks for them while an operation of
context `c` runs. -/
theorem Runs.paced {c d : Ctx} {k : Nat} {s t : State} (h : Runs d k s t) (ha : s.agenda = []) (hw : NoWait d s)
    (hc : (t.context c).stack ≠ []) (more : List Move) :
    Runs c k { s with agenda := List.replicate k (.advance d) ++ more } { t with agenda := more } :=
  runContext_paced hc k ha hw ((congrArg (runContext d · s) (Nat.zero_add k)).symm.trans (h 0))

end Sys2Proof.Machine
end

section
/-! # `open` and `close` from request to return (R240 to R243) -/

namespace Sys2Proof.Machine

open Config (reference)

/-! ## The bring-up context, undisturbed -/

/-- Nothing is on the agenda and no handler runs: the bring-up context goes on undisturbed and need not wait. -/
abbrev Undisturbed (s : State) : Prop := AtReference s ∧ s.agenda = [] ∧ s.interrupt.stack = []

/-- One labelled step of the bring-up context, undisturbed. -/
theorem runs_label {s t : State} {f : Frame} {rest : List Frame} {k : Ctl} (h : Undisturbed s)
    (hs : s.bringup.stack = f :: rest) (hf : frameStep reference f s = .go t k) :
    Runs .bringup 1 s (applyCtl .bringup k t) := fun n =>
  runContext_label (c := .bringup) n h.1 hs h.2.1 (waiting_idle h.2.2) hf

/-! ## `close` (R243) -/

/-- A permitted `close` starts at X1. -/
theorem exec_closeBlock {s : State} (hup : s.eng.lifecycle = .up) (hi : AllIdle s) :
    exec .closeBlock s =
      runContext .bringup Config.stepBudget { s with bringup := ⟨[.closeBlock .x1], none⟩ } := by
  obtain ⟨hb, hu, hq⟩ := hi
  have hcheck : closeCheck s = none := by simp [closeCheck, hup, hb, hu, hq]
  rw [exec, execCloseBlock, beginClose, hcheck, guarded_none, runToReturn_next]
  rfl

theorem setIrqEnabled_eq (v : Half) (s : State) : setIrqEnabled reference v s =
    { s with eng := { s.eng with irqEnabled := v }, nic := { s.nic with imr := v } } := by
  rw [setIrqEnabled, write16_imr]

/-- X2 with no handler running releases the line. -/
theorem closeStep_x2_idle {s : State} (h : s.interrupt.stack = []) :
    closeStep reference .x2 s = .go (releaseIrqLine s) (.goto (.closeBlock .x3)) := by
  simp [closeStep, h]

/-- X2 with a handler running waits for it. -/
theorem closeStep_x2_busy (K : Config.Values) {s : State} (h : s.interrupt.stack ≠ []) :
    closeStep K .x2 s = .go s (.goto (.closeBlock .x2)) := by
  simp [closeStep, h]

/-- What `close` leaves. -/
def closed (s : State) : State :=
  { s with
    eng := { s.eng with irqEnabled := 0#16, lifecycle := .down }
    nic := { s.nic with imr := 0#16 }
    plat := { s.plat with irqHeld := false, txHeld := false, rxHeld := false }
    mem := Memory.clear (Memory.clear s.mem s.plat.params.txDmaBase.toNat 6144) s.plat.params.rxDmaBase.toNat 8208 }

/-- X1 to X5, undisturbed. -/
theorem runs_close {s : State} (h : Undisturbed s) : Runs .bringup 5
    { s with bringup := ⟨[.closeBlock .x1], none⟩ } { closed s with bringup := ⟨[], some .done⟩ } := by
  obtain ⟨hv, ha, hq⟩ := h
  have x1 := runs_label (s := { s with bringup := ⟨[.closeBlock .x1], none⟩ }) ⟨hv, ha, hq⟩ rfl
    (congrArg (Micro.go · _) (setIrqEnabled_eq 0#16 _))
  have x2 := x1.trans (runs_label (by exact ⟨hv, ha, hq⟩) rfl (closeStep_x2_idle (by exact hq)))
  have x3 := x2.trans (runs_label (by exact ⟨hv, ha, hq⟩) rfl rfl)
  have x4 := x3.trans (runs_label (by exact ⟨hv, ha, hq⟩) rfl rfl)
  exact x4.trans (runs_label (by exact ⟨hv, ha, hq⟩) rfl rfl)

/-- Settles O46: the run of X1 to X5, and X2's test of the interrupt context. -/
theorem closeReleasesEverything : Obligations.CloseReleasesEverything := by
  refine ⟨fun s hv hup hi ha => ?_, fun s r hs hbusy => ?_⟩
  · rw [exec_closeBlock hup hi]
    exact (runs_close ⟨hv, ha, hi.2.2⟩).returns (by omega) rfl
  · rw [advance_top (c := .bringup) (congrArg Context.stack hs), frameStep, closeStep_x2_busy _ hbusy, settle, applyCtl,
      context_bringup, hs]
    exact congrArg Host.Outcome.next (congrArg (fun b => { s with bringup := b }) hs.symm)

/-! ## `open`: the acquisitions (R240 O1 to O4) and the releases (R241) -/

/-- The state with `open` alone in the bring-up context, at label `l`; `r` is what the last operation returned there. -/
def atOpen (l : OpenAt) (r : Option OpResult) (s : State) : State := { s with bringup := ⟨[.openBlock l], r⟩ }

/-- A permitted `open` starts at O1. -/
theorem exec_openBlock {s : State} (h : BringupReady s) :
    exec .openBlock s = runContext .bringup Config.stepBudget (atOpen .o1 none s) := by
  rw [exec, execOpenBlock, beginOpen, bringupCheck_ready h, guarded_none, runToReturn_next]
  rfl

/-- What O1 acquires. -/
def withIrq (s : State) : State := { s with plat := { s.plat with irqHeld := true } }

/-- What O2 acquires: fresh buffers (U16). -/
def withTx (s : State) : State := { s with plat := { s.plat with txHeld := true, gen := s.plat.gen + 1 } }

/-- What O3 acquires. -/
def withRx (s : State) : State := { s with plat := { s.plat with rxHeld := true } }

/-- What the releases take back, the last acquired first (R241). -/
def released (s : State) : State := releaseIrqLine (releaseTxBuf reference (releaseRxBuf reference s))

section
variable {s : State} {r : Option OpResult} (h : Undisturbed s)
include h

/-- A label of `open` that leads to another. -/
theorem runs_openLabel {t : State} {l m : OpenAt}
    (hl : openStep reference l (atOpen l r s) = .go (atOpen l r t) (.goto (.openBlock m))) :
    Runs .bringup 1 (atOpen l r s) (atOpen m r t) := runs_label (f := .openBlock l) (by exact h) rfl hl

/-- A label of `open` that returns. -/
theorem runs_openReturn {t : State} {l : OpenAt} {e : OpResult}
    (hl : openStep reference l (atOpen l r s) = .go (atOpen l r t) (.ret e)) :
    Runs .bringup 1 (atOpen l r s) (returned .bringup e t) := runs_label (f := .openBlock l) (by exact h) rfl hl

theorem runs_o1 (hirq : s.plat.grantIrq = true) : Runs .bringup 1 (atOpen .o1 r s) (atOpen .o2 r (withIrq s)) :=
  runs_openLabel h (by rw [openStep, if_pos (by exact hirq)]; rfl)

theorem runs_o1_denied (hirq : s.plat.grantIrq = false) :
    Runs .bringup 1 (atOpen .o1 r s) (returned .bringup .allocFail s) :=
  runs_openReturn h (by rw [openStep, if_neg (Bool.not_eq_true _ ▸ hirq)]; rfl)

theorem runs_o2 (htx : s.plat.grantTx = true) : Runs .bringup 1 (atOpen .o2 r s) (atOpen .o3 r (withTx s)) :=
  runs_openLabel h (by rw [openStep, if_pos (by exact htx)]; rfl)

theorem runs_o2_denied (htx : s.plat.grantTx = false) :
    Runs .bringup 1 (atOpen .o2 r s) (atOpen (.releaseIrq .allocFail) r s) :=
  runs_openLabel h (by rw [openStep, if_neg (Bool.not_eq_true _ ▸ htx)])

theorem runs_o3 (hrx : s.plat.grantRx = true) : Runs .bringup 1 (atOpen .o3 r s) (atOpen .o4 r (withRx s)) :=
  runs_openLabel h (by rw [openStep, if_pos (by exact hrx)]; rfl)

theorem runs_o3_denied (hrx : s.plat.grantRx = false) :
    Runs .bringup 1 (atOpen .o3 r s) (atOpen (.releaseTx .allocFail) r s) :=
  runs_openLabel h (by rw [openStep, if_neg (Bool.not_eq_true _ ▸ hrx)])

/-- O4 calls `reset`, to come back to its test (log entry 32). -/
theorem runs_o4 :
    Runs .bringup 1 (atOpen .o4 r s) { s with bringup := ⟨[.reset .t1, .openBlock .o4r], r⟩ } :=
  runs_label (f := .openBlock .o4) (by exact h) rfl rfl

/-- O1 to O4 with everything granted: the three resources are held and `reset` is called. -/
theorem runs_acquire (hirq : s.plat.grantIrq = true) (htx : s.plat.grantTx = true) (hrx : s.plat.grantRx = true) :
    Runs .bringup 4 (atOpen .o1 r s)
      { withRx (withTx (withIrq s)) with bringup := ⟨[.reset .t1, .openBlock .o4r], r⟩ } :=
  (((runs_o1 h hirq).trans (runs_o2 (s := withIrq s) h htx)).trans
    (runs_o3 (s := withTx (withIrq s)) h hrx)).trans (runs_o4 (s := withRx (withTx (withIrq s))) h)

/-- O4's test after a `reset` that timed out. -/
theorem runs_o4r_timeout :
    Runs .bringup 1 (atOpen .o4r (some .timeout) s) (atOpen (.releaseRx .timeout) (some .timeout) s) :=
  runs_openLabel h (by rw [openStep, if_neg (by exact nofun)])

theorem runs_releaseIrq (e : OpResult) :
    Runs .bringup 1 (atOpen (.releaseIrq e) r s) (returned .bringup e (releaseIrqLine s)) :=
  runs_openReturn h (by rw [openStep, if_pos (by simp [atOpen, h.2.2])]; rfl)

theorem runs_releaseTx (e : OpResult) : Runs .bringup 2 (atOpen (.releaseTx e) r s)
    (returned .bringup e (releaseIrqLine (releaseTxBuf reference s))) :=
  (runs_openLabel h rfl).trans (runs_releaseIrq (s := releaseTxBuf reference s) h e)

theorem runs_releaseRx (e : OpResult) :
    Runs .bringup 3 (atOpen (.releaseRx e) r s) (returned .bringup e (released s)) :=
  (runs_openLabel h rfl).trans (runs_releaseTx (s := releaseRxBuf reference s) h e)

end

/-- Settles O45: the run to each failure and through its releases; after the last acquisition the whole `reset` that
times out. -/
theorem openFailureReleasesEverything : Obligations.OpenFailureReleasesEverything := by
  intro s hv hready ha
  have hu : Undisturbed s := ⟨hv, ha, hready.2.2.2⟩
  rw [exec_openBlock hready]
  refine ⟨fun hirq => ?irq, fun hirq htx => ?tx, fun hirq htx hrx => ?rx, fun hirq htx hrx => ?timeout⟩
  case irq => exact (runs_o1_denied hu hirq).returns (by omega) rfl
  case tx =>
    have hdenied := (runs_o1 (r := none) hu hirq).trans (runs_o2_denied (by exact hu) htx)
    exact (hdenied.trans (runs_releaseIrq (by exact hu) .allocFail)).returns (by omega) rfl
  case rx =>
    have hdenied := ((runs_o1 (r := none) hu hirq).trans (runs_o2 (by exact hu) htx)).trans
      (runs_o3_denied (by exact hu) hrx)
    exact (hdenied.trans (runs_releaseTx (by exact hu) .allocFail)).returns (by omega) rfl
  case timeout =>
    have hreset : Runs .bringup 3002 _ (atOpen .o4r _ (afterTimeout reference (resetStarted _))) := fun n =>
      run_resetTimeout (withRx (withTx (withIrq s))) n [.openBlock .o4r] none hv ha
    have hfailed := ((runs_acquire hu hirq htx hrx).trans hreset).trans (runs_o4r_timeout (by exact hu))
    have hrun := (hfailed.trans (runs_releaseRx (by exact hu) .timeout)).returns (by omega) rfl
    exact ⟨_, _, _, _, _, _, hrun, rfl, rfl, rfl, rfl, rfl⟩

/-! ## `open` to steady state (R240 O5 to O11, R242) -/

/-- The slot addresses `TSAD[0]` to `TSAD[k - 1]` as O6 writes them. -/
def withSlotBases (p : Config.Params) : Nat → List Word → List Word
  | 0, v => v
  | k + 1, v => setSlot (withSlotBases p k v) k (slotBaseWord reference p k)

theorem length_withSlotBases (p : Config.Params) (k : Nat) (v : List Word) :
    (withSlotBases p k v).length = v.length := by
  induction k with
  | zero => rfl
  | succ k ih => rw [withSlotBases, length_setSlot, ih]

theorem atSlot_withSlotBases (p : Config.Params) {v : List Word} {i : Nat} (k : Nat) (hk : k ≤ v.length)
    (hi : i < k) : atSlot (withSlotBases p k v) i = slotBaseWord reference p i := by
  induction k with
  | zero => omega
  | succ k ih =>
    rw [withSlotBases, atSlot_setSlot_if _ (by rw [length_withSlotBases]; omega)]
    split
    · subst_vars; rfl
    · exact ih (by omega) (by omega)

/-- O8's image sets `TE` and `RE` as `cfg` has them. -/
theorem writeCr_crImage (c : Cfg) (n : Nic) :
    (writeCr reference (crImage reference c) n).te = c.txEnable ∧
      (writeCr reference (crImage reference c) n).re = c.rxEnable := by
  obtain ⟨te, re, lb⟩ := c
  rw [writeCr_eq]
  cases te <;> cases re <;> simp [crImage, Config.crTe_val, Config.crRe_val]

/-- The state with the slot addresses below `k` written. -/
def basesWritten (k : Nat) (s : State) : State :=
  { s with nic := { s.nic with tsad := withSlotBases s.plat.params k s.nic.tsad } }

/-- The registers of O6 to O10 as `open` leaves them. -/
def programmed (s : State) : Nic :=
  { writeCr reference (crImage reference s.eng.cfg) s.nic with
    tsad := withSlotBases s.plat.params 4 s.nic.tsad
    rbstart := s.plat.params.rxDmaBase
    tcr := tcrImage reference s.eng.cfg
    imr := s.plat.params.irqEnableSet }

/-- What O5 to O11 leave. -/
def opened (s : State) : State :=
  { s with
    eng := { s.eng with
      txStopped := false, rxOff := 0#16, linkPrev := .down, irqEnabled := s.plat.params.irqEnableSet, lifecycle := .up }
    nic := programmed s }

section
variable {s : State} {r : Option OpResult} (h : Undisturbed s)
include h

/-- O4's test after a successful `reset`. -/
theorem runs_o4r_ok : Runs .bringup 1 (atOpen .o4r (some .ok) s) (atOpen .o5 (some .ok) s) :=
  runs_openLabel h (by rw [openStep, if_pos (by exact rfl)])

/-- O6 slot by slot: `k` register writes. -/
theorem runs_slotBases (k : Nat) (hk : k ≤ 4) :
    Runs .bringup k (atOpen (.o6 0) r s) (atOpen (if k < 4 then .o6 k else .o7) r (basesWritten k s)) := by
  induction k with
  | zero => exact fun _ => rfl
  | succ k ih =>
    refine (ih (by omega)).trans ?_
    rw [if_pos (by omega)]
    exact runs_openLabel (by exact h) (by rw [openStep, write32_tsad (by omega)]; rfl)

theorem runs_o7 : Runs .bringup 1 (atOpen .o7 r s)
    (atOpen .o8 r { s with nic := { s.nic with rbstart := s.plat.params.rxDmaBase } }) :=
  runs_openLabel h (by rw [openStep, write32_rbstart]; rfl)

theorem runs_o8 : Runs .bringup 1 (atOpen .o8 r s)
    (atOpen .o9 r { s with nic := writeCr reference (crImage reference s.eng.cfg) s.nic }) :=
  runs_openLabel h (by rw [openStep, write8_cr]; rfl)

theorem runs_o9 : Runs .bringup 1 (atOpen .o9 r s)
    (atOpen .o10 r { s with nic := { s.nic with tcr := tcrImage reference s.eng.cfg } }) :=
  runs_openLabel h (by rw [openStep, write32_tcr]; rfl)

theorem runs_o10 : Runs .bringup 1 (atOpen .o10 r s) (atOpen .o11 r { s with
    eng := { s.eng with irqEnabled := s.plat.params.irqEnableSet }
    nic := { s.nic with imr := s.plat.params.irqEnableSet } }) :=
  runs_openLabel h (by rw [openStep, setIrqEnabled_eq]; rfl)

theorem runs_o11 : Runs .bringup 1 (atOpen .o11 r s) (returned .bringup .ok (setLifecycle .up s)) :=
  runs_openReturn h rfl

/-- O4's test to O11's return, with `reset` successful. -/
theorem runs_program : Runs .bringup 11 (atOpen .o4r (some .ok) s) (returned .bringup .ok (opened s)) := by
  have o5 := (runs_o4r_ok h).trans (runs_openLabel (m := .o6 0) (t := initEngine s) (by exact h) rfl)
  have o7 := (o5.trans (runs_slotBases (by exact h) 4 le_rfl)).trans (runs_o7 (by exact h))
  have o9 := (o7.trans (runs_o8 (by exact h))).trans (runs_o9 (by exact h))
  exact (o9.trans (runs_o10 (by exact h))).trans (runs_o11 (by exact h))

end

/-- What a successful `reset` leaves when the NIC's step was the last on the agenda (R115, R189). -/
def afterReset (s : State) : State :=
  { devResetDone reference (resetStarted s) with
    eng := { s.eng with cpu := 0, hw := 0, ringOk := true }
    agenda := [] }

/-- A `reset` that the agenda paces and the NIC finishes after `n` unsuccessful polls, as a run. -/
theorem runs_resetOk (s : State) {n : Nat} (back : List Frame) (r : Option OpResult) (hv : AtReference s)
    (hn : n < 1000) : Runs .bringup (3 * n + 5)
      { s with
        bringup := ⟨.reset .t1 :: back, r⟩
        agenda := List.replicate (1 + 3 * n) (.advance .bringup) ++ [.nic .resetDone] }
      { afterReset s with bringup := ⟨back, some .ok⟩ } := fun k =>
  (congrArg (runContext .bringup · _) (by omega)).trans (run_resetOk s k n back r hv hn)

/-- Settles O44: O1 to O4 as the agenda asks for them, the `reset`, and O5 to O11. -/
theorem openReachesSteadyState : Obligations.OpenReachesSteadyState := by
  intro s n hv hready hn hirq htx hrx ha
  have hq : s.interrupt.stack = [] := hready.2.2.2
  have hacquire := runs_acquire (s := { s with agenda := [] }) (r := none) ⟨hv, rfl, hq⟩ hirq htx hrx
  have hpaced := hacquire.paced (c := .bringup) rfl (.inr hq) (List.cons_ne_nil _ _)
    (List.replicate (1 + 3 * n) (.advance .bringup) ++ [.nic .resetDone])
  rw [← List.append_assoc, List.replicate_append_replicate, show 4 + (1 + 3 * n) = 5 + 3 * n by omega, ← ha] at hpaced
  have hreset := hpaced.trans (runs_resetOk (withRx (withTx (withIrq s))) [.openBlock .o4r] none hv hn)
  have hprogram := runs_program (s := afterReset (withRx (withTx (withIrq s)))) ⟨hv, rfl, hq⟩
  obtain ⟨hte, hre⟩ := writeCr_crImage s.eng.cfg (afterReset (withRx (withTx (withIrq s)))).nic
  rw [exec_openBlock hready]
  exact ⟨_, (hreset.trans hprogram).returns (by omega) rfl, rfl, rfl, rfl,
    fun i hi => atSlot_withSlotBases _ 4 (by exact le_rfl) hi, rfl, hte, hre, rfl, rfl, rfl, rfl, rfl, rfl, rfl, rfl, rfl,
    rfl⟩

end Sys2Proof.Machine
end

section
/-! # The lost wake-up (R140, R149, R152, R252)

`submit` reads `hw` at S5a and tests it at S5b; between the two every slot completes and a whole `onInterrupt` retires
them. -/

namespace Sys2Proof.Machine

open Config (reference)

/-! ## `submit` up to S5b -/

theorem runs_submitToS5b {s : State} {frame : List Byte} (r : Option OpResult) (hv : AtReference s)
    (ha : s.agenda = []) (hcpu : s.eng.cpu < 4) (hr : s.eng.ringOk = true) (htx : s.plat.txHeld = true)
    (hroom : ringFull reference s.eng = false) (hfit : frame.length + 4 ≤ 1536) :
    Runs .submission 6 { s with submission := ⟨[.submit (.s1 frame)], r⟩ }
      { queued frame s with submission := ⟨[.submit (.s5b s.eng.hw)], r⟩ } := by
  have hread : submitStep reference .s5a { queued frame s with submission := ⟨[.submit .s5a], r⟩ } =
      .go { queued frame s with submission := ⟨[.submit .s5a], r⟩ } (.goto (.submit (.s5b s.eng.hw))) :=
    withRing_ok hr _
  exact fun k => (run_submitToS5 s frame (k + 1) r hv ha hcpu hr htx hroom hfit).trans
    (submit_label k (by exact hv) rfl hread (by exact ha))

/-- S5b on a ring that S5a saw full but for the slot just taken (R140). -/
theorem runs_s5bFull {s : State} {h : Nat} (r : Option OpResult) (hv : AtReference s) (ha : s.agenda = [])
    (hr : s.eng.ringOk = true) (hfull : slotsFrom reference s.eng.cpu h = 1) :
    Runs .submission 1 { s with submission := ⟨[.submit (.s5b h)], r⟩ }
      { s with eng := { s.eng with txStopped := true }, submission := ⟨[], some .full⟩ } := fun k =>
  submit_label k (by exact hv) rfl (submitStep_full (by exact hr) (by exact hfull)) (by exact ha)

/-! ## Every armed slot completes -/

/-- The outcome of a success with no other bit set. -/
abbrev txOk : TxOutcome := ⟨true, false, false, 0#32⟩

/-- The completions of slots with their lengths, as the agenda has them. -/
def completions (slots : List (Nat × BitVec 13)) : List Move := slots.map fun x => .nic (.txComplete x.1 txOk)

/-- The oldest armed slot completes where the agenda says so. -/
theorem runs_txComplete {c : Ctx} {s : State} {i : Nat} {len : BitVec 13} {rest : List Nat} (more : List Move)
    (hv : AtReference s) (hc : (s.context c).stack ≠ []) (harmed : atSlot s.nic.tx i = .armed len)
    (hhead : s.nic.armOrder = i :: rest) (hte : s.nic.te = true)
    (hm : mapped reference s.plat (atSlot s.nic.tsad i).toNat len.toNat = true) :
    Runs c 1 { s with agenda := .nic (.txComplete i txOk) :: more }
      { s with
        nic := nicCompleted reference i txOk (bytesAt s (atSlot s.nic.tsad i).toNat len.toNat) s.nic
        agenda := more } := fun k =>
  runContext_nic k (by exact hv) (by rwa [context_withAgenda]) rfl
    (devTxComplete_head (s := { s with agenda := more }) harmed hhead hte rfl hm)

/-- All the armed slots complete in the arming order: each then reads a success of its length, no other `TSD` changes,
and `ISR.TOK` is set (R191). -/
theorem runs_completions {c : Ctx} (more : List Move) (slots : List (Nat × BitVec 13)) : ∀ {s : State},
    AtReference s → (s.context c).stack ≠ [] → ArmedOk s → s.nic.tsd.length = s.nic.tx.length → s.nic.te = true →
    s.nic.armOrder = slots.map Prod.fst →
    (∀ x ∈ slots, atSlot s.nic.tx x.1 = .armed x.2 ∧
      mapped reference s.plat (atSlot s.nic.tsad x.1).toNat x.2.toNat = true) →
    ∃ n, Runs c slots.length { s with agenda := completions slots ++ more } { s with nic := n, agenda := more } ∧
      (∀ x ∈ slots, txSucceeded reference (atSlot n.tsd x.1) = true ∧ txSize reference (atSlot n.tsd x.1) = x.2) ∧
      (∀ i ∉ slots.map Prod.fst, atSlot n.tsd i = atSlot s.nic.tsd i) ∧
      n.isr = if slots = [] then s.nic.isr else s.nic.isr ||| 0x0004#16 := by
  induction slots with
  | nil => exact fun _ _ _ _ _ _ _ => ⟨_, fun _ => rfl, nofun, fun _ _ => rfl, rfl⟩
  | cons x rest ih =>
    intro s hv hc hok hlen hte horder hslots
    obtain ⟨i, len⟩ := x
    obtain ⟨harmed, hm⟩ := hslots (i, len) List.mem_cons_self
    have hi : i < s.nic.tsd.length := hlen ▸ lt_of_atSlot_ne _ (by rw [harmed]; nofun)
    obtain ⟨-, -, hsize⟩ := hok.armed i len harmed
    have hnodup : i ∉ rest.map Prod.fst := by
      have honce := hok.once
      rw [horder] at honce
      exact (List.nodup_cons.1 honce).1
    have hother : ∀ x ∈ rest, i ≠ x.1 := fun x hx e => hnodup (e ▸ List.mem_map_of_mem hx)
    have hrun := runs_txComplete (completions rest ++ more) hv hc harmed horder hte hm
    have hok' := hok.complete horder txOk (bytesAt s (atSlot s.nic.tsad i).toNat len.toNat)
    generalize bytesAt s (atSlot s.nic.tsad i).toNat len.toNat = bytes at hrun hok'
    obtain ⟨n, hruns, hdone, hkept, hisr⟩ := ih (s := { s with nic := nicCompleted reference i txOk bytes s.nic }) hv
      (by cases c <;> exact hc) hok' (by simpa [nicCompleted] using hlen) hte (by simp [nicCompleted, horder])
      (fun x hx => by
        obtain ⟨hx1, hx2⟩ := hslots x (List.mem_cons_of_mem _ hx)
        exact ⟨(atSlot_setSlot_ne _ (hother x hx) _).trans hx1, hx2⟩)
    have hword : atSlot n.tsd i = atSlot s.nic.tsd i ||| completionBits reference txOk :=
      (hkept i hnodup).trans (atSlot_setSlot _ hi _)
    refine ⟨n, by rw [List.length_cons, Nat.add_comm]; exact hrun.trans hruns, fun x hx => ?_, fun j hj => ?_, ?_⟩
    · obtain rfl | hx := List.mem_cons.1 hx
      · rw [hword, txSize_completed]
        exact ⟨txSucceeded_completed _ rfl, hsize⟩
      · exact hdone x hx
    · obtain ⟨hji, hjrest⟩ := not_or.1 (mt List.mem_cons.2 hj)
      exact (hkept j hjrest).trans (atSlot_setSlot_ne _ (Ne.symm hji) _)
    · rw [hisr, if_neg (List.cons_ne_nil _ _)]
      split
      · rfl
      · exact (BitVec.or_assoc _ _ _).trans (congrArg _ (BitVec.or_self))

/-! ## A whole handler over completed slots (R145, R174) -/

section
variable {s : State} (hv : AtReference s) (ha : s.agenda = [])
include hv ha

/-- A label of the interrupt context that changes nothing but where control is. -/
theorem runs_interruptLabel {f : Frame} {back : List Frame} {r : Option OpResult} {k : Ctl}
    (hf : frameContext f = .interrupt) (hstep : frameStep reference f { s with interrupt := ⟨f :: back, r⟩ } =
      .go { s with interrupt := ⟨f :: back, r⟩ } k) :
    Runs .interrupt 1 { s with interrupt := ⟨f :: back, r⟩ }
      (applyCtl .interrupt k { s with interrupt := ⟨f :: back, r⟩ }) := fun n =>
  runContext_label n (by exact hv) rfl (by exact ha) (waiting_interrupt rfl hf) hstep

variable (hr : s.eng.ringOk = true)
include hr

/-- The scan of `k` outstanding slots that have all completed: four labels each, and the test that ends it. -/
theorem runs_scanCompleted (old : Nat) (back : List Frame) (r : Option OpResult) (k : Nat) (hhw : s.eng.hw < 4)
    (hcpu : s.eng.cpu < 4) (hk : outstanding reference s.eng = k)
    (hdone : ∀ i ∈ outstandingSlots s.eng, inFlight reference (atSlot s.nic.tsd i) = false) :
    Runs .interrupt (4 * k + 1) { s with interrupt := ⟨.reconcile (.c2a s.eng.cpu old) :: back, r⟩ }
      { scanned s.eng.cpu k s with interrupt := ⟨.reconcile (.c3 old) :: back, r⟩ } := by
  induction k generalizing s with
  | zero =>
    have hempty : s.eng.hw = s.eng.cpu := by rw [outstanding, slotsFrom_eq] at hk; omega
    exact fun n => reconcile_label n (by exact hv) (by exact rfl)
      (reconcileStep_empty (by exact hr) (by exact hempty)) (by exact ha)
  | succ k ih =>
    have hne : s.eng.hw ≠ s.eng.cpu := by rw [outstanding, slotsFrom_eq] at hk; omega
    rw [outstandingSlots_step hhw hcpu hne] at hdone
    have hfirst := hdone _ List.mem_cons_self
    have hone : Runs .interrupt 4 _ _ := fun n => run_retireOne s s.eng.cpu old n back r hv ha hr hne hfirst
    have hscan : scanned s.eng.cpu (k + 1) s = scanned s.eng.cpu k (retiredOne s) :=
      if_neg (by simp [hne, hfirst])
    rw [hscan, show 4 * (k + 1) + 1 = 4 + (4 * k + 1) by omega]
    refine hone.trans ?_
    rw [retiredOne_eq]
    refine ih (by exact hv) (by exact ha) (by exact hr) (Nat.mod_lt _ (by decide)) hcpu ?_
      (fun i hi => hdone i (List.mem_cons_of_mem _ hi))
    simp only [outstanding, slotsFrom_eq, nextSlot_eq] at *
    omega

/-- C1 to C3 over `k` completed slots, with nobody to wake. -/
theorem runs_reconcileCompleted (back : List Frame) (r : Option OpResult) (k : Nat) (hhw : s.eng.hw < 4)
    (hcpu : s.eng.cpu < 4) (hk : outstanding reference s.eng = k)
    (hdone : ∀ i ∈ outstandingSlots s.eng, inFlight reference (atSlot s.nic.tsd i) = false)
    (hstopped : s.eng.txStopped = false) :
    Runs .interrupt (4 * k + 3) { s with interrupt := ⟨.reconcile .c1 :: back, r⟩ }
      { reconciled s with interrupt := ⟨back, some .done⟩ } := by
  have hc1 := runs_interruptLabel hv ha (f := .reconcile .c1) (back := back) (r := r) rfl (withRing_ok (by exact hr) _)
  have hscan := hc1.trans (runs_scanCompleted hv ha hr s.eng.hw back r k hhw hcpu hk hdone)
  rw [scanned_eq k s hhw hcpu hk.le] at hscan
  rw [show 4 * k + 3 = 1 + (4 * k + 1) + 1 by omega]
  refine hscan.trans fun n => (run_c3 _ s.eng.hw back r n (by exact hv) (by exact ha) (by exact hr)).trans ?_
  simp [resumeIf, reconciled, hstopped]

/-- I1 to I7 over `k` completed slots, `TOK` alone pending and enabled: the transmit engine alone is called. -/
theorem runs_handlerCompleted (r : Option OpResult) (k : Nat) (hhw : s.eng.hw < 4) (hcpu : s.eng.cpu < 4)
    (hk : outstanding reference s.eng = k)
    (hdone : ∀ i ∈ outstandingSlots s.eng, inFlight reference (atSlot s.nic.tsd i) = false)
    (hstopped : s.eng.txStopped = false) (hisr : s.nic.isr = 0x0004#16)
    (henabled : s.eng.irqEnabled &&& 0x0004#16 = 0x0004#16) :
    Runs .interrupt (4 * k + 10) { s with interrupt := ⟨[.onInterrupt .i1], r⟩ }
      { reconciled (acknowledged s) with interrupt := ⟨[], some .handled⟩ } := by
  have hmask : s.nic.isr &&& s.eng.irqEnabled = 0x0004#16 := by rw [hisr, BitVec.and_comm, henabled]
  have i1 : Runs .interrupt 3 _ _ := fun n => run_i1 s n [] r hv ha (by rw [hisr]; decide)
  rw [hmask] at i1
  have hv' : AtReference (acknowledged s) := hv
  have i4 := i1.trans (runs_interruptLabel hv' ha rfl rfl)
  have i6 := (i4.trans (runs_interruptLabel hv' ha rfl rfl)).trans (runs_interruptLabel hv' ha rfl rfl)
  have hreconcile := i6.trans (runs_reconcileCompleted hv' ha hr [.onInterrupt .i7] r k hhw hcpu hk hdone hstopped)
  rw [show 4 * k + 10 = 3 + 1 + 1 + 1 + (4 * k + 3) + 1 by omega]
  exact hreconcile.trans (runs_interruptLabel (s := reconciled (acknowledged s)) hv ha (f := .onInterrupt .i7) rfl rfl)

end

/-! ## The run -/

/-- A request that the agenda makes while another context runs. -/
theorem runs_request {c d : Ctx} {s t : State} {f : Format} {bytes : List Byte} {i : Instr} {more : List Move}
    (hc : (s.context c).stack ≠ []) (hi : readRequest s.plat.values d f bytes = .ok i)
    (ht : beginInstr i { s with agenda := more } = .next t) :
    Runs c 1 { s with agenda := .request d f bytes :: more } t := fun k => by
  rw [runContext_pace (by rwa [context_withAgenda])]
  simp only [pace, applyMove, hi, ht, andThen_next]

/-- The platform calls the registered handler (R214). -/
theorem runs_callHandler {c : Ctx} {s : State} (more : List Move) (hv : AtReference s)
    (hc : (s.context c).stack ≠ []) (hheld : s.plat.irqHeld = true) (hidle : s.interrupt.stack = []) :
    Runs c 1 { s with agenda := .request .interrupt .opsel [0x50#8] :: more }
      { s with interrupt := ⟨[.onInterrupt .i1], none⟩, agenda := more } := by
  refine runs_request (i := .onInterrupt) hc (by rw [hv]; decide) ?_
  rw [beginInstr, beginOnInterrupt, interruptCheck_ready (by exact hheld) (by exact hidle), guarded_none]
  rfl

/-- A whole handler between S5a, which read `h`, and S5b: the slots are retired, and `Full` is returned all the same
(R152, R252). -/
theorem runs_handlerThenS5b {s : State} {h k : Nat} (hv : AtReference s) (ha : s.agenda = [])
    (hr : s.eng.ringOk = true) (hsub : s.submission = ⟨[.submit (.s5b h)], none⟩) (hheld : s.plat.irqHeld = true)
    (hidle : s.interrupt.stack = []) (hhw : s.eng.hw < 4) (hcpu : s.eng.cpu < 4)
    (hk : outstanding reference s.eng = k)
    (hdone : ∀ i ∈ outstandingSlots s.eng, inFlight reference (atSlot s.nic.tsd i) = false)
    (hstopped : s.eng.txStopped = false) (hisr : s.nic.isr = 0x0004#16)
    (henabled : s.eng.irqEnabled &&& 0x0004#16 = 0x0004#16) (hfull : slotsFrom reference s.eng.cpu h = 1) :
    Runs .submission (4 * k + 12)
      { s with agenda := .request .interrupt .opsel [0x50#8] ::
          (List.replicate (4 * k + 10) (.advance .interrupt) ++ []) }
      { reconciled (acknowledged s) with
        eng := { (reconciled (acknowledged s)).eng with txStopped := true }
        submission := ⟨[], some .full⟩
        interrupt := ⟨[], some .handled⟩
        agenda := [] } := by
  have hbusy : s.submission.stack ≠ [] := by rw [hsub]; exact List.cons_ne_nil _ _
  have hcall := runs_callHandler (c := .submission) (List.replicate (4 * k + 10) (.advance .interrupt) ++ []) hv hbusy
    hheld hidle
  have hhandler := (runs_handlerCompleted hv ha hr none k hhw hcpu hk hdone hstopped hisr henabled).paced
    (c := .submission) ha (.inl rfl) hbusy []
  have hs5b := runs_s5bFull none (h := h)
    (s := { reconciled (acknowledged s) with interrupt := ⟨[], some .handled⟩, agenda := [] }) hv rfl hr hfull
  rw [← hsub] at hs5b
  rw [show 4 * k + 12 = 1 + (4 * k + 10) + 1 by omega]
  exact (hcall.trans hhandler).trans hs5b

/-- Three outstanding slots. -/
theorem outstandingSlots_three {e : Engine} (hhw : e.hw < 4) (hcpu : e.cpu = (e.hw + 3) % 4) :
    outstanding reference e = 3 ∧ outstandingSlots e = [e.hw, (e.hw + 1) % 4, (e.hw + 2) % 4] := by
  have hthree : outstanding reference e = 3 := by rw [outstanding, slotsFrom_eq, hcpu]; omega
  refine ⟨hthree, ?_⟩
  rw [outstandingSlots, hthree]
  simp [List.range_succ, Nat.mod_eq_of_lt hhw]

/-- The outstanding slots with their lengths, from slot `hw` on. -/
def threeSlots (hw : Nat) (l0 l1 l2 : BitVec 13) : List (Nat × BitVec 13) :=
  [(hw, l0), ((hw + 1) % 4, l1), ((hw + 2) % 4, l2)]

theorem forall_threeSlots {hw : Nat} {l0 l1 l2 : BitVec 13} {P : Nat × BitVec 13 → Prop} :
    (∀ x ∈ threeSlots hw l0 l1 l2, P x) ↔ P (hw, l0) ∧ P ((hw + 1) % 4, l1) ∧ P ((hw + 2) % 4, l2) := by
  simp [threeSlots]

/-- After a third frame is queued the three slots are armed in their order, with their lengths. -/
theorem queued_third {s : State} {frame : List Byte} {l0 l1 : BitVec 13} (hv : AtReference s) (hshape : Shaped s)
    (hok : ArmedOk s) (hcpu : s.eng.cpu = (s.eng.hw + 2) % 4) (hlong : 60 ≤ frame.length)
    (hfit : frame.length + 4 ≤ 1536) (hflags : s.plat.params.txThreshFlags &&& ~~~0x003F0000#32 = 0#32)
    (horder : s.nic.armOrder = [s.eng.hw, (s.eng.hw + 1) % 4]) (harmed0 : atSlot s.nic.tx s.eng.hw = .armed l0)
    (harmed1 : atSlot s.nic.tx ((s.eng.hw + 1) % 4) = .armed l1) :
    ArmedOk (queued frame s) ∧ (queued frame s).nic.tsd.length = (queued frame s).nic.tx.length ∧
      (queued frame s).nic.armOrder =
        (threeSlots s.eng.hw l0 l1 (BitVec.ofNat 13 frame.length)).map Prod.fst ∧
      ∀ x ∈ threeSlots s.eng.hw l0 l1 (BitVec.ofNat 13 frame.length),
        atSlot (queued frame s).nic.tx x.1 = .armed x.2 := by
  obtain ⟨hcpu4, hhw4⟩ := shaped_indices hv hshape
  obtain ⟨htsd, htx⟩ := shaped_slots hv hshape
  have hnic : (queued frame s).nic = (submitted frame s).nic := by rw [submitted_eq]
  have hne0 : s.eng.cpu ≠ s.eng.hw := by omega
  have hne1 : s.eng.cpu ≠ (s.eng.hw + 1) % 4 := by omega
  refine ⟨(hok.armSlot (by omega) (by omega) _).of_nic rfl, ?_, ?_, ?_⟩ <;>
    rw [hnic, submitted_nic hfit hflags, Nat.max_eq_left hlong]
  · simp [htsd, htx]
  · simp [horder, threeSlots, hne0.symm, hne1.symm, ← hcpu]
  · rw [forall_threeSlots, ← hcpu]
    exact ⟨(atSlot_setSlot_ne _ hne0 _).trans harmed0, (atSlot_setSlot_ne _ hne1 _).trans harmed1,
      atSlot_setSlot _ (by omega) _⟩

/-- Three successes are reported in order and leave the ring empty (R145). -/
theorem reconciled_three {s : State} {l0 l1 l2 : BitVec 13} (hhw : s.eng.hw < 4)
    (hcpu : s.eng.cpu = (s.eng.hw + 3) % 4) (hstopped : s.eng.txStopped = false)
    (hdone : ∀ x ∈ threeSlots s.eng.hw l0 l1 l2,
      txSucceeded reference (atSlot s.nic.tsd x.1) = true ∧ txSize reference (atSlot s.nic.tsd x.1) = x.2) :
    (∀ i ∈ outstandingSlots s.eng, inFlight reference (atSlot s.nic.tsd i) = false) ∧
      (reconciled s).events = s.events ++ [.txDone l0, .txDone l1, .txDone l2] ∧
      (reconciled s).eng.hw = s.eng.cpu ∧ (reconciled s).nic.isr = s.nic.isr := by
  obtain ⟨-, hslots⟩ := outstandingSlots_three hhw hcpu
  obtain ⟨⟨hok0, hsize0⟩, ⟨hok1, hsize1⟩, hok2, hsize2⟩ := forall_threeSlots.1 hdone
  have hprefix : completedPrefix s = [s.eng.hw, (s.eng.hw + 1) % 4, (s.eng.hw + 2) % 4] := by
    simp [completedPrefix, hslots, inFlight_of_succeeded hok0, inFlight_of_succeeded hok1, inFlight_of_succeeded hok2]
  refine ⟨?_, ?_, ?_, ?_⟩
  · simp [hslots, inFlight_of_succeeded hok0, inFlight_of_succeeded hok1, inFlight_of_succeeded hok2]
  · simp [reconciled, hprefix, hstopped, slotEvent, hok0, hok1, hok2, hsize0, hsize1, hsize2]
  · simp [reconciled, hprefix, hcpu]
  · simp [reconciled, hprefix, hok0, hok1, hok2]

/-- Settles O34: S1 to S5a; the three completions; the handler, which empties the ring; S5b, which tests what S5a
read. -/
theorem lostWakeUpIsARun : Obligations.LostWakeUpIsARun := by
  intro s frame l0 l1 hv hshape hsubmit hhandler hr htx hlong hfit hcpu hflags hstopped henabled hisr hte hok horder
    harmed0 harmed1 hm0 hm1 hm2 ha
  obtain ⟨hcpu4, hhw4⟩ := shaped_indices hv hshape
  obtain ⟨-, hheld, hidle⟩ := hhandler
  have hne : frame ≠ [] := List.ne_nil_of_length_pos (by omega)
  have hroom : ringFull reference s.eng = false := by
    rw [ringFull, slotsFrom_eq, hcpu, beq_eq_false_iff_ne]; omega
  have hnext : nextSlot reference s.eng.cpu = (s.eng.hw + 3) % 4 := by rw [nextSlot_eq]; omega
  have hfull : slotsFrom reference (nextSlot reference s.eng.cpu) s.eng.hw = 1 := by rw [slotsFrom_eq]; omega
  have hlen : (BitVec.ofNat 13 frame.length).toNat = frame.length := by rw [BitVec.toNat_ofNat]; omega
  have hmapped : ∀ x ∈ threeSlots s.eng.hw l0 l1 (BitVec.ofNat 13 frame.length),
      mapped reference s.plat (atSlot s.nic.tsad x.1).toNat x.2.toNat = true :=
    forall_threeSlots.2 ⟨hm0, hm1, by rwa [hlen]⟩
  obtain ⟨hok', hlens, horder', harmed⟩ :=
    queued_third hv hshape hok hcpu hlong hfit hflags horder harmed0 harmed1
  obtain ⟨n, hcomplete, hdone, -, hisr'⟩ := runs_completions (c := .submission)
    (.request .interrupt .opsel [0x50#8] :: (List.replicate 22 (.advance .interrupt) ++ [])) _
    (s := { queued frame s with submission := ⟨[.submit (.s5b s.eng.hw)], none⟩ }) hv (List.cons_ne_nil _ _)
    (hok'.of_nic rfl) hlens hte horder' (fun x hx => ⟨harmed x hx, hmapped x hx⟩)
  rw [show (queued frame s).nic.isr = 0#16 from hisr] at hisr'
  obtain ⟨hall, hevents, hempty, hclear⟩ := reconciled_three (l0 := l0) (l1 := l1) (l2 := BitVec.ofNat 13 frame.length)
    (s := acknowledged { queued frame s with nic := n }) hhw4 hnext hstopped hdone
  obtain ⟨hthree, -⟩ := outstandingSlots_three (e := (queued frame s).eng) hhw4 hnext
  have hqueue := ((runs_submitToS5b (s := { s with agenda := [] }) none hv rfl hcpu4 hr htx hroom hfit).paced
    (c := .submission) rfl (.inr hidle) (List.cons_ne_nil _ _) _).trans hcomplete
  have hrun := hqueue.trans (runs_handlerThenS5b (k := 3)
    (s := { queued frame s with
      nic := n, agenda := [], submission := ⟨[.submit (.s5b s.eng.hw)], none⟩ })
    hv rfl hr rfl hheld hidle hhw4 (Nat.mod_lt _ (by decide)) hthree hall hstopped hisr' henabled hfull)
  rw [exec_submit hsubmit hne]
  exact ⟨_, (congrArg (fun a => runContext .submission _ { s with submission := _, agenda := a }) ha).trans
    (hrun.returns (show 6 + 3 + 24 ≤ 16384 by omega) rfl), rfl, rfl, rfl, hempty.symm, rfl, hclear, hevents⟩

end Sys2Proof.Machine
end
